-- ==== Sys2Proof/Word.lean ====
section
/-! DEFINITION. The word types of the block: every register and bus word is 32 bits wide (spec 00_scope.md R7),
a bus write carries four byte strobes (20_memory.md R80), and memories are made of bytes and bits (10_state.md R64). -/

namespace Sys2Proof

/-- A register, bus address or bus data word (00_scope.md R7, 20_memory.md R80). -/
abbrev Word := BitVec 32

/-- A byte of a byte window (10_state.md R66). -/
abbrev Byte := BitVec 8

/-- The write strobes of a bus request, one bit per byte lane (20_memory.md R80). -/
abbrev Strobe := BitVec 4

end Sys2Proof
end

