-- ==== Sys2Proof/Config.lean ====
section
/-! DEFINITION. What an implementation of the block fixes: the parameters of 00_scope.md R5, which the model takes as an
argument, and the values this hardware takes; the constants of R6, the identification words of 10_state.md R33, and the free
values the spec leaves open. -/

namespace Sys2Proof

/-- The implementation parameters of 00_scope.md R5, each subject to the constraint of its row. The machine takes them as an
argument: a state carries them (`State.params`) and no step changes them. Log 1. -/
structure Params where
  /-- CLUT_DEPTH: entries of the carrier LUT memory. -/
  clutDepth : Nat
  /-- MSG_DEPTH: bytes of the message buffer. -/
  msgDepth : Nat
  /-- PKT_DEPTH: bytes of the packet buffer. -/
  pktDepth : Nat
  /-- TXB_DEPTH: bytes of the transmit IQ buffer. -/
  txbDepth : Nat
  /-- RXB_DEPTH: bytes of the receive IQ buffer. -/
  rxbDepth : Nat
  /-- TOKD_DEPTH: bytes of the token data memory. -/
  tokdDepth : Nat
  /-- TOKE_DEPTH: entries of the token end memory. -/
  tokeDepth : Nat
  /-- DEC_ENTRIES: entries of the decode dictionary. -/
  decEntries : Nat
  clut_legal : 1 ≤ clutDepth ∧ clutDepth ≤ 2 ^ 22
  msg_legal : msgDepth % 4 = 0 ∧ 4 ≤ msgDepth ∧ msgDepth ≤ 2 ^ 24
  pkt_legal : pktDepth % 4 = 0 ∧ 4 ≤ pktDepth ∧ pktDepth ≤ 2 ^ 24
  txb_legal : txbDepth % 4 = 0 ∧ 4 ≤ txbDepth ∧ txbDepth ≤ 2 ^ 24
  rxb_legal : rxbDepth % 64 = 0 ∧ 64 ≤ rxbDepth ∧ rxbDepth ≤ 2 ^ 22
  tokd_legal : tokdDepth % 4 = 0 ∧ 4 ≤ tokdDepth ∧ tokdDepth ≤ 2 ^ 24
  toke_legal : 1 ≤ tokeDepth ∧ tokeDepth ≤ 2 ^ 22
  dec_legal : 1 ≤ decEntries ∧ decEntries ≤ 256
  deriving DecidableEq, Repr

/-- SIG_DEPTH: entries of the signal, envelope, symbol and bit memories, fixed by RXB_DEPTH (00_scope.md R5). -/
def Params.sigDepth (P : Params) : Nat := P.rxbDepth / 2

/-- BITS_DEPTH: bits of the recovered bit memory, equal to SIG_DEPTH (00_scope.md R5). -/
def Params.bitsDepth (P : Params) : Nat := P.sigDepth

namespace Config

/-- The values this hardware takes (00_scope.md R5, column `value`). -/
def hardware : Params where
  clutDepth := 1024
  msgDepth := 1024
  pktDepth := 16384
  txbDepth := 1048576
  rxbDepth := 1048576
  tokdDepth := 4096
  tokeDepth := 1024
  decEntries := 64
  clut_legal := by decide
  msg_legal := by decide
  pkt_legal := by decide
  txb_legal := by decide
  rxb_legal := by decide
  tokd_legal := by decide
  toke_legal := by decide
  dec_legal := by decide


/-- Entries of the encode dictionary, one per byte value, fixed by the format (00_scope.md R5). -/
def ENC_ENTRIES : Nat := 256
/-- Longest codeword or key in bits, fixed by the format (00_scope.md R5). -/
def MAX_KEY_BITS : Nat := 32
/-- Longest decode value in bytes, fixed by the format (00_scope.md R5). -/
def MAX_VALUE_BYTES : Nat := 4
/-- Longest synchronization pattern in bits, fixed by the format (00_scope.md R5). -/
def MAX_SYNC_BITS : Nat := 64

/-- PHASE of 00_scope.md R6 in quarter turns: 90 degrees is one quarter turn. -/
def PHASE_QUARTERS : Nat := 1
/-- CUTOFF_MULT of 00_scope.md R6. The block does not use it: the host designs the filter with it (42_demodulator.md R212). -/
def CUTOFF_MULT : Nat := 8
/-- LO_NUM of 00_scope.md R6. -/
def LO_NUM : Nat := 1
/-- HI_NUM of 00_scope.md R6. -/
def HI_NUM : Nat := 31
/-- PCT_DEN of 00_scope.md R6. -/
def PCT_DEN : Nat := 32
/-- THRESH_DIV of 00_scope.md R6: the threshold is (hi - lo) / THRESH_DIV, kept exactly by one more fractional bit
(42_demodulator.md R215). -/
def THRESH_DIV : Nat := 2

/-- ID (10_state.md R33). -/
def ID : Word := 0x4F4F4B43#32
/-- VERSION (10_state.md R33). -/
def VERSION : Word := 0x00010000#32

/-- FREE VALUE. The 32 bits that the k-th host action reads where the spec says `any value`: a read while BUSY
(20_memory.md R90) or an unspecified window element (70_reset_and_hazards.md R343). Log 5. -/
opaque freeWord : Nat → Word

/-- FREE VALUE. Whether a running command completes before the k-th host action is served (70_reset_and_hazards.md R355:
finite, unspecified latency). Log 6. -/
opaque completesFirst : Nat → Bool

end Config

end Sys2Proof
end

