-- ==== Sys2Proof/Syntax.lean ====
section
/-! DEFINITION. The commands of the block, one constructor per row of the opcode map (30_encoding.md R111), and the
host program notation (30_encoding.md R118, R119). Commands have no operand fields (R114). -/

namespace Sys2Proof

/-- The eleven commands (30_encoding.md R111). Every operand is a register or a window, so no constructor has a field. -/
inductive Instr where
  /-- NOP, 40_control.md R148. -/
  | nop
  /-- GEN_CARRIER, 41_modulator.md R160. -/
  | genCarrier
  /-- ENCODE, 41_modulator.md R166. -/
  | encode
  /-- GENERATE, 41_modulator.md R167. -/
  | generate
  /-- TX_CHAIN, 41_modulator.md R171. -/
  | txChain
  /-- PREPROCESS, 42_demodulator.md R200. -/
  | preprocess
  /-- DETECT, 42_demodulator.md R210. -/
  | detect
  /-- SLICE, 43_slicer_sync_decoder.md R240. -/
  | slice
  /-- SYNC, 43_slicer_sync_decoder.md R250. -/
  | sync
  /-- DECODE, 43_slicer_sync_decoder.md R260. -/
  | decode
  /-- RX_CHAIN, 43_slicer_sync_decoder.md R270. -/
  | rxChain
  deriving DecidableEq, Repr

/-- What the outside world does to the block, in the order it does it (20_memory.md R80, R81, R97). -/
inductive HostAction where
  /-- A READ request at a bus address. -/
  | read (addr : Word)
  /-- A WRITE request: address, data, byte strobes. -/
  | write (addr data : Word) (strb : Strobe)
  /-- The host's `wait` (30_encoding.md R119): it reads STATUS until BUSY is 0. -/
  | wait
  /-- `rst_n` goes to 0 and back to 1, one atomic step (70_reset_and_hazards.md R340). -/
  | hardReset
  deriving DecidableEq, Repr

/-- A line of a host program (30_encoding.md R118) or a pseudo-operation (R119). A bit string is a list of Bool, index 0
first (00_scope.md R12). -/
inductive HostOp where
  /-- `wr A, V`. -/
  | wr (addr value : Word)
  /-- `rd A`. -/
  | rd (addr : Word)
  /-- `cmd M`. -/
  | cmd (i : Instr)
  /-- `wait`. -/
  | wait
  /-- `wrbytes W, b0 b1 ...`. -/
  | wrbytes (window : Word) (bytes : List Byte)
  /-- `wrbits W, "s"`. -/
  | wrbits (window : Word) (bits : List Bool)
  /-- `enc c, "s"`. -/
  | enc (symbol : Byte) (code : List Bool)
  /-- `dec e, "k", v0 ...`. -/
  | dec (entry : Nat) (key : List Bool) (value : List Byte)
  deriving DecidableEq, Repr

end Sys2Proof
end

