-- ==== Sys2Proof/WellFormed.lean ====
section
/-! DEFINITION. Well-formedness. A command has no operand (30_encoding.md R114), so every term of Instr is well-formed;
what can be ill-formed is a command word (R112), a bus request (20_memory.md R86) and a line of a host program (R118, R119). -/

namespace Sys2Proof

/-- Every command is well-formed: it has no operand field (30_encoding.md R114). -/
def Instr.wellFormed : Instr → Bool
  | .nop | .genCarrier | .encode | .generate | .txChain | .preprocess | .detect | .slice | .sync | .decode
  | .rxChain => true

/-- The OPCODE values of 30_encoding.md R111. -/
def assignedOpcodes : List Nat :=
  [0x00, 0x01, 0x02, 0x03, 0x0F, 0x10, 0x11, 0x12, 0x13, 0x14, 0x1F]

/-- A command word is legal when RSVD is 0 and OPCODE is assigned (30_encoding.md R112). -/
def legalWord (w : Word) : Bool :=
  decide (w.toNat / 256 = 0) && assignedOpcodes.contains (w.toNat % 256)

/-- A request the slave port can serve: a word-aligned address, and all four strobes on a write (20_memory.md R86). -/
def HostAction.wellFormed : HostAction → Bool
  | .read a => decide (a.toNat % 4 = 0)
  | .write a _ strb => decide (a.toNat % 4 = 0) && decide (strb = 0b1111#4)
  | .wait => true
  | .hardReset => true

/-- A line of a host program whose fields fit their places: aligned addresses (30_encoding.md R118), a codeword of at most
32 bits (10_state.md R72), a key of 1 to 32 bits and a value of at most 4 bytes in an existing entry (R73). -/
def HostOp.wellFormed (P : Params) : HostOp → Bool
  | .wr a _ => decide (a.toNat % 4 = 0)
  | .rd a => decide (a.toNat % 4 = 0)
  | .cmd i => i.wellFormed
  | .wait => true
  | .wrbytes a bs => decide (a.toNat % 4 = 0) && decide (a.toNat + bs.length ≤ 2 ^ 32)
  | .wrbits a bits => decide (a.toNat % 4 = 0) && decide (a.toNat + (bits.length + 7) / 8 ≤ 2 ^ 32)
  | .enc _ code => decide (code.length ≤ Config.MAX_KEY_BITS)
  | .dec e key value =>
      decide (e < P.decEntries) && decide (1 ≤ key.length ∧ key.length ≤ Config.MAX_KEY_BITS) &&
        decide (value.length ≤ Config.MAX_VALUE_BYTES)

end Sys2Proof
end

