-- ==== Sys2Proof/Decode.lean ====
section
/-! DEFINITION. The command decoder (30_encoding.md R110 to R113), total on any 32-bit word and rejecting by name, and
after it the encoder written from the same opcode map (R111). -/

namespace Sys2Proof

/-- Why a command word is no command (30_encoding.md R112, R113). Both reasons raise ILLEGAL (40_control.md R149). -/
inductive DecodeReject where
  /-- RSVD, bits [31:8], is not 0. -/
  | reservedBits (w : Word)
  /-- RSVD is 0 and OPCODE is not one of the eleven of R111. -/
  | unassignedOpcode (w : Word)
  deriving DecidableEq, Repr

/-- The OPCODE field, bits [7:0] (30_encoding.md R110). -/
def opcodeField (w : Word) : Nat := w.toNat % 256

/-- The RSVD field, bits [31:8] (30_encoding.md R110). -/
def rsvdField (w : Word) : Nat := w.toNat / 256

/-- The command an OPCODE selects (30_encoding.md R111). -/
def opcodeMap : Nat → Option Instr
  | 0x00 => some .nop
  | 0x01 => some .genCarrier
  | 0x02 => some .encode
  | 0x03 => some .generate
  | 0x0F => some .txChain
  | 0x10 => some .preprocess
  | 0x11 => some .detect
  | 0x12 => some .slice
  | 0x13 => some .sync
  | 0x14 => some .decode
  | 0x1F => some .rxChain
  | _ => none

/-- Decode a command word (30_encoding.md R112): the whole word is matched. -/
def decodeWord (w : Word) : Except DecodeReject Instr :=
  if rsvdField w = 0 then
    match opcodeMap (opcodeField w) with
    | some i => .ok i
    | none => .error (.unassignedOpcode w)
  else .error (.reservedBits w)

/-- The OPCODE of a command (30_encoding.md R111). -/
def opcodeOf : Instr → Nat
  | .nop => 0x00
  | .genCarrier => 0x01
  | .encode => 0x02
  | .generate => 0x03
  | .txChain => 0x0F
  | .preprocess => 0x10
  | .detect => 0x11
  | .slice => 0x12
  | .sync => 0x13
  | .decode => 0x14
  | .rxChain => 0x1F

/-- The command word of a command: RSVD 0, OPCODE in [7:0] (30_encoding.md R110, R111). -/
def encode (i : Instr) : Word := BitVec.ofNat 32 (opcodeOf i)

/-- The command word made of the `nbits` low bits of `w`, every bit above them 0. A command word is written to CMD as one
32-bit bus word (30_encoding.md R110), so bit 0 of `w` is bit 0 of the word. -/
def tableWord (nbits w : Nat) : Word := BitVec.ofNat 32 (w % 2 ^ nbits)

/-- The instruction the decoder reads from an opcode-table word of `nbits` bits. -/
def decodeTableWord (nbits w : Nat) : Option Instr :=
  match decodeWord (tableWord nbits w) with
  | .ok i => some i
  | .error _ => none

end Sys2Proof
end

