-- ==== Sys2Proof/Machine/Arith.lean ====
section
/-! DEFINITION. The exact integer arithmetic of the spec (00_scope.md R8 to R10) and the packing of words into
little-endian bytes (20_memory.md R89). -/

namespace Sys2Proof.Machine

/-- `rne(a, b)` for b > 0: the integer nearest to a/b, ties to the even integer (00_scope.md R9). -/
def rne (a b : Int) : Int :=
  let q := a / b
  let r := a % b
  if 2 * r < b then q
  else if 2 * r > b then q + 1
  else if q % 2 = 0 then q else q + 1

/-- `sat32(x)`: x clamped to [-2^31, 2^31 - 1] (00_scope.md R10). -/
def sat32 (x : Int) : Int :=
  if x < -2147483648 then -2147483648 else if x > 2147483647 then 2147483647 else x

/-- The greatest m below 2^bits, on top of `m`, with m*m <= n, one bit at a time from the most significant. -/
def isqrtFrom (n : Nat) : Nat → Nat → Nat
  | 0, m => m
  | b + 1, m => if (m + 2 ^ b) * (m + 2 ^ b) ≤ n then isqrtFrom n b (m + 2 ^ b) else isqrtFrom n b m

/-- `isqrt(n)`: the largest m with m*m <= n (00_scope.md R10), for every n. -/
def isqrt (n : Nat) : Nat := isqrtFrom n (Nat.log2 n / 2 + 1) 0

/-- `enc_32(x)`, the 32-bit two's complement pattern of x (00_scope.md R8). -/
def enc32 (x : Int) : Word := BitVec.ofInt 32 x

/-- `enc_8(x)`, the 8-bit two's complement pattern of x (00_scope.md R8). -/
def enc8 (x : Int) : Byte := BitVec.ofInt 8 x

/-- The word of a length or index (00_scope.md R8). -/
def natWord (n : Nat) : Word := BitVec.ofNat 32 n

/-- Byte j of a word, bits [8j+7:8j] (20_memory.md R89). -/
def byteOf (w : Word) (j : Nat) : Byte := w.extractLsb' (8 * j) 8

/-- The four bytes of a word, the lowest-addressed first (20_memory.md R89). -/
def wordBytes (w : Word) : List Byte := [byteOf w 0, byteOf w 1, byteOf w 2, byteOf w 3]

/-- The word of four bytes, the lowest-addressed first (20_memory.md R89). -/
def bytesWord (b0 b1 b2 b3 : Byte) : Word := b3 ++ b2 ++ b1 ++ b0

/-- A byte list read as little-endian words; a last group of fewer than four bytes is dropped. -/
def wordsOfBytes : List Byte → List Word
  | b0 :: b1 :: b2 :: b3 :: rest => bytesWord b0 b1 b2 b3 :: wordsOfBytes rest
  | _ => []

/-- The little-endian bytes of a list of words. -/
def bytesOfWords (ws : List Word) : List Byte := ws.flatMap wordBytes

/-- A list split into consecutive pairs; an odd last element is dropped. -/
def pairUp {α : Type} : List α → List (α × α)
  | a :: b :: rest => (a, b) :: pairUp rest
  | _ => []

/-- The number whose bit j is the j-th element (20_memory.md R89). -/
def bitsNat : List Bool → Nat
  | [] => 0
  | b :: bs => 2 * bitsNat bs + b.toNat

/-- The word whose bit j is the j-th element of the list. -/
def bitsWord (bs : List Bool) : Word := BitVec.ofNat 32 (bitsNat bs)

/-- Bits 0 to n - 1 of a word as a bit string, bit 0 first (30_encoding.md R115). -/
def wordBits (n : Nat) (w : Word) : List Bool := (List.range n).map w.getLsbD

end Sys2Proof.Machine
end

