-- ==== Sys2Proof/Machine/State.lean ====
section
/-! DEFINITION. The architectural state of the block (10_state.md R30), as plain data, the two ways a step can stop, and
the state after hardware reset (70_reset_and_hazards.md R340, R341). -/

namespace Sys2Proof.Machine

/-- The sequencer state SEQ (10_state.md R31), visible as STATUS.BUSY. -/
inductive Seq where
  | idle
  | busy
  deriving DecidableEq, Repr

/-- The memories of 10_state.md R64, each reached through a bus window or table region (20_memory.md R82). -/
inductive Window where
  | enc | dec | clut | msg | pkt | txb | rxb | sig | env | sym | bits | tokd | toke
  deriving DecidableEq, Repr

/-- The registers of 10_state.md R33 to R63, by name. -/
inductive Reg where
  | id | version | ctrl | cmd | status | irqEn | errCode | errInfo
  | capClut | capMsg | capPkt | capTxb | capRxb | capSig | capBits | capTokd | capToke | capDec
  | fs | fc | amp | clutLen | txSymLen | pauseLen | msgLen | pktLen | txLen | unkCount | unkPos | unkVal
  | rxLen | sigLen | meanI | meanQ | filtB0 | filtB1 | filtA1 | threshMin | thresh | lo | hi | symLen | rxSymLen
  | bitsLen | syncLen | syncPat0 | syncPat1 | syncIdx | decStart | tokCount | tokdLen
  deriving DecidableEq, Repr

/-- Bits [6:1] of STATUS, or the enables of the same bits in IRQ_EN (10_state.md R37, R38). STATUS.BUSY is `Seq`. -/
structure StatusFlags where
  /-- Bit 1, DONE: the last command has completed. -/
  done : Bool
  /-- Bit 2, ERR: the last command was rejected. -/
  err : Bool
  /-- Bit 3, INSUF: "insufficient signal". -/
  insuf : Bool
  /-- Bit 4, PREMISS: "preamble not found". -/
  premiss : Bool
  /-- Bit 5, UNKSYM: the unknown-symbol diagnostic. -/
  unksym : Bool
  /-- Bit 6, SYNCED: preamble found. -/
  synced : Bool
  deriving DecidableEq, Repr

/-- No flag set. -/
def StatusFlags.none : StatusFlags := ⟨false, false, false, false, false, false⟩

/-- The error names of 60_exceptions.md R300. NONE is the absence of an error. -/
inductive ErrCode where
  | illegal | param | carrier | tile | odd | overflow | dict
  deriving DecidableEq, Repr

/-- The registers that hold something. ID, VERSION and CAP_* are constants (10_state.md R33, R34) and CTRL holds nothing
(R35). A register's width is the width of its defined bits: reserved bits read 0 and ignore writes (20_memory.md R87). -/
structure Regs where
  /-- CMD, 10_state.md R36: the last command word accepted. -/
  cmd : Word
  /-- STATUS bits [6:1], 10_state.md R37. -/
  status : StatusFlags
  /-- IRQ_EN bits [6:1], 10_state.md R38. -/
  irqEn : StatusFlags
  /-- ERRCODE bits [3:0], 10_state.md R39. -/
  errCode : BitVec 4
  /-- ERRINFO, 10_state.md R40. -/
  errInfo : Word
  /-- FS, 10_state.md R41. -/
  fs : Word
  /-- FC, 10_state.md R42. -/
  fc : Word
  /-- AMP bits [6:0], 10_state.md R43. -/
  amp : BitVec 7
  /-- CLUT_LEN, 10_state.md R44. -/
  clutLen : Word
  /-- TX_SYMLEN, 10_state.md R45. -/
  txSymLen : Word
  /-- PAUSE_LEN, 10_state.md R46. -/
  pauseLen : Word
  /-- MSG_LEN, 10_state.md R47. -/
  msgLen : Word
  /-- PKT_LEN, 10_state.md R48. -/
  pktLen : Word
  /-- TX_LEN, 10_state.md R49. -/
  txLen : Word
  /-- UNK_COUNT, 10_state.md R50. -/
  unkCount : Word
  /-- UNK_POS, 10_state.md R50. -/
  unkPos : Word
  /-- UNK_VAL bits [7:0], 10_state.md R50. -/
  unkVal : Byte
  /-- RX_LEN, 10_state.md R51. -/
  rxLen : Word
  /-- SIG_LEN, 10_state.md R52. -/
  sigLen : Word
  /-- MEAN_I, 10_state.md R53, signed Q.8. -/
  meanI : Word
  /-- MEAN_Q, 10_state.md R53, signed Q.8. -/
  meanQ : Word
  /-- FILT_B0 bits [17:0], 10_state.md R54, signed Q2.16. -/
  filtB0 : BitVec 18
  /-- FILT_B1 bits [17:0], 10_state.md R54, signed Q2.16. -/
  filtB1 : BitVec 18
  /-- FILT_A1 bits [17:0], 10_state.md R54, signed Q2.16. -/
  filtA1 : BitVec 18
  /-- THRESH_MIN, 10_state.md R55, Q.9. -/
  threshMin : Word
  /-- THRESH, 10_state.md R56, Q.9. -/
  thresh : Word
  /-- LO, 10_state.md R56, signed Q.8. -/
  lo : Word
  /-- HI, 10_state.md R56, signed Q.8. -/
  hi : Word
  /-- SYM_LEN, 10_state.md R57. -/
  symLen : Word
  /-- RX_SYMLEN, 10_state.md R58. -/
  rxSymLen : Word
  /-- BITS_LEN, 10_state.md R59. -/
  bitsLen : Word
  /-- SYNC_LEN, 10_state.md R60. -/
  syncLen : Word
  /-- SYNC_PAT0, 10_state.md R60. -/
  syncPat0 : Word
  /-- SYNC_PAT1, 10_state.md R60. -/
  syncPat1 : Word
  /-- SYNC_IDX, 10_state.md R61. -/
  syncIdx : Word
  /-- DEC_START, 10_state.md R62. -/
  decStart : Word
  /-- TOK_COUNT, 10_state.md R63. -/
  tokCount : Word
  /-- TOKD_LEN, 10_state.md R63. -/
  tokdLen : Word
  deriving DecidableEq, Repr

/-- Every register at its reset value (70_reset_and_hazards.md R341): all 0, UNK_POS and SYNC_IDX too. -/
def Regs.reset : Regs where
  cmd := 0
  status := StatusFlags.none
  irqEn := StatusFlags.none
  errCode := 0
  errInfo := 0
  fs := 0
  fc := 0
  amp := 0
  clutLen := 0
  txSymLen := 0
  pauseLen := 0
  msgLen := 0
  pktLen := 0
  txLen := 0
  unkCount := 0
  unkPos := 0
  unkVal := 0
  rxLen := 0
  sigLen := 0
  meanI := 0
  meanQ := 0
  filtB0 := 0
  filtB1 := 0
  filtA1 := 0
  threshMin := 0
  thresh := 0
  lo := 0
  hi := 0
  symLen := 0
  rxSymLen := 0
  bitsLen := 0
  syncLen := 0
  syncPat0 := 0
  syncPat1 := 0
  syncIdx := 0
  decStart := 0
  tokCount := 0
  tokdLen := 0

/-- The two responses of the slave port (20_memory.md R80). -/
inductive Resp where
  | okay
  | slverr
  deriving DecidableEq, Repr

/-- A bus response (20_memory.md R80); `rdata` is 0 for a WRITE and for an SLVERR. -/
structure Response where
  resp : Resp
  rdata : Word
  deriving DecidableEq, Repr

/-- One bit of a bit window at a bit index (10_state.md R70). -/
abbrev BitCell := Nat × Bool

/-- The state of the block and of the port it is driven through. -/
structure State where
  /-- The implementation parameters this block was built with (00_scope.md R5), which the CAP_* registers read
  (10_state.md R34). Fixed at build time: no reset and no step changes them. Log 1. -/
  params : Params
  /-- SEQ, 10_state.md R31. -/
  seq : Seq
  /-- The registers, 10_state.md R33 to R63. -/
  regs : Regs
  /-- The byte memories by bus byte address (20_memory.md R82), sparse: an unlisted address reads as `Memory.unlisted`. -/
  mem : List Host.Cell
  /-- The window SYM by bit index (10_state.md R70), sparse: an unlisted bit is unspecified. -/
  symMem : List BitCell
  /-- The window BITS by bit index (10_state.md R70), sparse: an unlisted bit is unspecified. -/
  bitsMem : List BitCell
  /-- MODEL FIELD: the host actions not yet served, the next one first (20_memory.md R81). Log 2. -/
  inbox : List HostAction
  /-- MODEL FIELD: the responses the port has given, the newest first (20_memory.md R81). Log 2. -/
  responses : List Response
  /-- MODEL FIELD: how many host actions have been served; it indexes the free values of Config. Log 5, log 6. -/
  served : Nat
  deriving DecidableEq, Repr

/-- Why the machine stops with a fault. -/
inductive Fault where
  /-- A command read element `index` (a byte offset, or a bit index for SYM and BITS) of a window whose value is unspecified:
  a host error that 70_reset_and_hazards.md R343 says a model treats as `fault`. Raised by `readAll` of
  Machine/Ops.lean for ENCODE, GENERATE, TX_CHAIN, PREPROCESS, DETECT, SLICE, SYNC, DECODE and RX_CHAIN. Safe: the hardware
  would go on with some value, so nothing false can be proved from the stop. -/
  | unspecifiedElement (w : Window) (index : Nat)
  deriving DecidableEq, Repr

/-- Why the machine refuses a command. No step of this model answers it. -/
inductive Refusal where
  /-- The command has no meaning yet. Raised by nothing: every arm of `exec` calls a meaning. Safe. -/
  | notModelled (mnemonic : String)
  deriving DecidableEq, Repr

/-- A block with the parameters P right after hardware reset (70_reset_and_hazards.md R340, R341): registers at their reset
values, SEQ IDLE, both dictionaries 0 and every other window unspecified (nothing listed), no host action waiting. -/
def State.resetOf (P : Params) : State where
  params := P
  seq := .idle
  regs := Regs.reset
  mem := []
  symMem := []
  bitsMem := []
  inbox := []
  responses := []
  served := 0

/-- The machine right after hardware reset, with the parameter values this hardware takes (00_scope.md R5). -/
def State.reset : State := State.resetOf Config.hardware

end Sys2Proof.Machine
end

