-- ==== Sys2Proof/Machine/Flags.lean ====
section
/-! DEFINITION. STATUS, IRQ_EN and the interrupt line (10_state.md R37, R38, R75; 60_exceptions.md R310). -/

namespace Sys2Proof.Machine

/-- The flags in their bits [6:1]; every other bit 0 (10_state.md R37, R38). -/
def StatusFlags.toWord (f : StatusFlags) : Word :=
  BitVec.ofNat 32
    (2 * f.done.toNat + 4 * f.err.toNat + 8 * f.insuf.toNat + 16 * f.premiss.toNat + 32 * f.unksym.toNat +
      64 * f.synced.toNat)

/-- Bits [6:1] of a word; bit 0 and bits [31:7] are ignored (10_state.md R38). -/
def StatusFlags.ofWord (w : Word) : StatusFlags where
  done := w.getLsbD 1
  err := w.getLsbD 2
  insuf := w.getLsbD 3
  premiss := w.getLsbD 4
  unksym := w.getLsbD 5
  synced := w.getLsbD 6

/-- Write 1 to clear: each flag whose written bit is 1 becomes 0 (20_memory.md R87). -/
def StatusFlags.clear (f w1 : StatusFlags) : StatusFlags where
  done := f.done && !w1.done
  err := f.err && !w1.err
  insuf := f.insuf && !w1.insuf
  premiss := f.premiss && !w1.premiss
  unksym := f.unksym && !w1.unksym
  synced := f.synced && !w1.synced

/-- Flags of either (43_slicer_sync_decoder.md R270: `F union f`). -/
def StatusFlags.union (f g : StatusFlags) : StatusFlags where
  done := f.done || g.done
  err := f.err || g.err
  insuf := f.insuf || g.insuf
  premiss := f.premiss || g.premiss
  unksym := f.unksym || g.unksym
  synced := f.synced || g.synced

/-- Whether some flag is set and enabled (60_exceptions.md R310). -/
def StatusFlags.anyEnabled (f en : StatusFlags) : Bool :=
  (f.done && en.done) || (f.err && en.err) || (f.insuf && en.insuf) || (f.premiss && en.premiss) ||
    (f.unksym && en.unksym) || (f.synced && en.synced)

/-- STATUS.BUSY (10_state.md R31, R37). -/
def State.busy (s : State) : Bool := decide (s.seq = .busy)

/-- The value of STATUS (10_state.md R37): bit 0 is BUSY. -/
def State.statusWord (s : State) : Word := BitVec.ofNat 32 (s.regs.status.toWord.toNat + s.busy.toNat)

/-- The interrupt output, a combinational function of STATUS and IRQ_EN (60_exceptions.md R310). -/
def State.irq (s : State) : Bool := s.regs.status.anyEnabled s.regs.irqEn

end Sys2Proof.Machine
end

