-- ==== Sys2Proof/Machine/AddressMap.lean ====
section
/-! DEFINITION. The address map and its decoder (20_memory.md R82, R83), and the offsets of the registers
(10_state.md R33 to R63). -/

namespace Sys2Proof.Machine

/-- Bus address of the first element of a memory (20_memory.md R82). -/
def Window.base : Window → Nat
  | .enc => 0x00001000
  | .dec => 0x00002000
  | .clut => 0x01000000
  | .msg => 0x02000000
  | .pkt => 0x03000000
  | .txb => 0x04000000
  | .rxb => 0x05000000
  | .sig => 0x06000000
  | .env => 0x07000000
  | .sym => 0x08000000
  | .bits => 0x09000000
  | .tokd => 0x0A000000
  | .toke => 0x0B000000

/-- Bytes of bus address space a memory uses in a block with the parameters P (20_memory.md R82). -/
def Window.size (P : Params) : Window → Nat
  | .enc => Config.ENC_ENTRIES * 8
  | .dec => P.decEntries * 16
  | .clut => P.clutDepth * 4
  | .msg => P.msgDepth
  | .pkt => P.pktDepth
  | .txb => P.txbDepth
  | .rxb => P.rxbDepth
  | .sig => P.sigDepth * 8
  | .env => P.sigDepth * 4
  | .sym => P.sigDepth / 8
  | .bits => P.bitsDepth / 8
  | .tokd => P.tokdDepth
  | .toke => P.tokeDepth * 4

/-- SYM and BITS hold bits, the others bytes (10_state.md R64, R70). -/
def Window.isBits : Window → Bool
  | .sym | .bits => true
  | .enc | .dec | .clut | .msg | .pkt | .txb | .rxb | .sig | .env | .tokd | .toke => false

/-- The memories in address order (20_memory.md R82). -/
def Window.all : List Window :=
  [.enc, .dec, .clut, .msg, .pkt, .txb, .rxb, .sig, .env, .sym, .bits, .tokd, .toke]

/-- Whether a bus byte address lies in the part of a memory that is in use (20_memory.md R82). -/
def Window.contains (P : Params) (w : Window) (a : Nat) : Bool :=
  decide (w.base ≤ a) && decide (a < w.base + w.size P)

/-- The defined bits of word `index` of a memory; the others read 0 and ignore writes (20_memory.md R87): the upper half of
a CLUT word (10_state.md R65), bits [30:6] of an ENC entry's second word (R72), bits [7:6] and [30:11] of a DEC entry's second
word and the whole of its fourth (R73). -/
def Window.definedBits (w : Window) (index : Nat) : Word :=
  match w with
  | .clut => 0x0000FFFF#32
  | .enc => if index % 2 = 0 then 0xFFFFFFFF#32 else 0x8000003F#32
  | .dec =>
      if index % 4 = 1 then 0x8000073F#32 else if index % 4 = 3 then 0x00000000#32 else 0xFFFFFFFF#32
  | .msg | .pkt | .txb | .rxb | .sig | .env | .sym | .bits | .tokd | .toke => 0xFFFFFFFF#32

/-- Byte offset of a register from bus address 0 (10_state.md R33 to R63). -/
def Reg.offset : Reg → Nat
  | .id => 0x000
  | .version => 0x004
  | .ctrl => 0x008
  | .cmd => 0x00C
  | .status => 0x010
  | .irqEn => 0x014
  | .errCode => 0x018
  | .errInfo => 0x01C
  | .capClut => 0x020
  | .capMsg => 0x024
  | .capPkt => 0x028
  | .capTxb => 0x02C
  | .capRxb => 0x030
  | .capSig => 0x034
  | .capBits => 0x038
  | .capTokd => 0x03C
  | .capToke => 0x040
  | .capDec => 0x044
  | .fs => 0x100
  | .fc => 0x104
  | .amp => 0x108
  | .clutLen => 0x10C
  | .txSymLen => 0x110
  | .pauseLen => 0x114
  | .msgLen => 0x118
  | .pktLen => 0x11C
  | .txLen => 0x120
  | .unkCount => 0x124
  | .unkPos => 0x128
  | .unkVal => 0x12C
  | .rxLen => 0x200
  | .sigLen => 0x204
  | .meanI => 0x208
  | .meanQ => 0x20C
  | .filtB0 => 0x210
  | .filtB1 => 0x214
  | .filtA1 => 0x218
  | .threshMin => 0x21C
  | .thresh => 0x220
  | .lo => 0x224
  | .hi => 0x228
  | .symLen => 0x22C
  | .rxSymLen => 0x230
  | .bitsLen => 0x300
  | .syncLen => 0x304
  | .syncPat0 => 0x308
  | .syncPat1 => 0x30C
  | .syncIdx => 0x310
  | .decStart => 0x314
  | .tokCount => 0x318
  | .tokdLen => 0x31C

/-- Every register, in address order. -/
def Reg.all : List Reg :=
  [.id, .version, .ctrl, .cmd, .status, .irqEn, .errCode, .errInfo,
   .capClut, .capMsg, .capPkt, .capTxb, .capRxb, .capSig, .capBits, .capTokd, .capToke, .capDec,
   .fs, .fc, .amp, .clutLen, .txSymLen, .pauseLen, .msgLen, .pktLen, .txLen, .unkCount, .unkPos, .unkVal,
   .rxLen, .sigLen, .meanI, .meanQ, .filtB0, .filtB1, .filtA1, .threshMin, .thresh, .lo, .hi, .symLen, .rxSymLen,
   .bitsLen, .syncLen, .syncPat0, .syncPat1, .syncIdx, .decStart, .tokCount, .tokdLen]

/-- The register at an offset, if one is listed there (20_memory.md R82, R83). -/
def regAt (off : Nat) : Option Reg := Reg.all.find? (fun r => decide (r.offset = off))

/-- The memory a bus byte address belongs to, if any (20_memory.md R82). -/
def windowAt (P : Params) (a : Nat) : Option Window := Window.all.find? (fun w => w.contains P a)

/-- What an address of a bus request selects (20_memory.md R83). -/
inductive Place where
  | misaligned
  | unmapped
  | register (r : Reg)
  | word (w : Window) (index : Nat)
  deriving DecidableEq, Repr

/-- Address decode (20_memory.md R83). -/
def decodeAddr (P : Params) (addr : Word) : Place :=
  let a := addr.toNat
  if a % 4 ≠ 0 then .misaligned
  else
    match regAt a with
    | some r => .register r
    | none =>
      match windowAt P a with
      | some w => .word w ((a - w.base) / 4)
      | none => .unmapped

end Sys2Proof.Machine
end

