-- ==== Sys2Proof/Machine/Memory.lean ====
section
/-! DEFINITION. Sparse memories in one canonical form: (key, value) pairs with rising keys, none equal to what an unlisted
key reads as. The byte memories are keyed by bus byte address, the bit windows by bit index (10_state.md R64 to R73). -/

namespace Sys2Proof.Machine

/-- A sparse memory. `unl k` is what an unlisted key k reads as; `none` is an unspecified value (70_reset_and_hazards.md R343). -/
abbrev Sparse (α : Type) := List (Nat × α)

/-- The entries from key `a` on. -/
def Sparse.seek {α : Type} (a : Nat) (m : Sparse α) : Sparse α := m.dropWhile (fun e => decide (e.1 < a))

/-- The entries below key `a`. -/
def Sparse.below {α : Type} (a : Nat) (m : Sparse α) : Sparse α := m.takeWhile (fun e => decide (e.1 < a))

/-- The value at key `a` of the entries from `a` on. -/
def Sparse.headAt {α : Type} (unl : Nat → Option α) (a : Nat) : Sparse α → Option α
  | [] => unl a
  | e :: _ => if e.1 = a then some e.2 else unl a

/-- Read one key: `none` where the value is unspecified. -/
def Sparse.get {α : Type} (unl : Nat → Option α) (m : Sparse α) (a : Nat) : Option α :=
  Sparse.headAt unl a (Sparse.seek a m)

/-- Read the keys a, a + 1, ..., a + n - 1. -/
def Sparse.getRange {α : Type} (unl : Nat → Option α) : Sparse α → Nat → Nat → List (Option α)
  | _, _, 0 => []
  | m, a, n + 1 =>
    Sparse.headAt unl a (Sparse.seek a m) :: Sparse.getRange unl (Sparse.seek a m) (a + 1) n

/-- The entries of the values `vs` at keys a, a + 1, ...: those that differ from what the unlisted key reads as. -/
def Sparse.entries {α : Type} [DecidableEq α] (unl : Nat → Option α) (a : Nat) (vs : List α) : Sparse α :=
  (vs.zipIdx a).filterMap fun e => if unl e.2 = some e.1 then none else some (e.2, e.1)

/-- Write the values `vs` at keys a, a + 1, ..., keeping the canonical form. -/
def Sparse.setRange {α : Type} [DecidableEq α] (unl : Nat → Option α) (m : Sparse α) (a : Nat) (vs : List α) : Sparse α :=
  Sparse.below a m ++ (Sparse.entries unl a vs ++ Sparse.seek (a + vs.length) m)

/-- Make the keys a, a + 1, ..., a + n - 1 read as unlisted again. -/
def Sparse.eraseRange {α : Type} (m : Sparse α) (a n : Nat) : Sparse α :=
  Sparse.below a m ++ Sparse.seek (a + n) m

/-- The first index of a list of reads that holds no value. -/
def firstNone {α : Type} : Nat → List (Option α) → Option Nat
  | _, [] => none
  | k, none :: _ => some k
  | k, some _ :: vs => firstNone (k + 1) vs

/-- The canonical form: keys at least `a` and strictly rising, no entry equal to what its key reads as unlisted. -/
def Sparse.wfFrom {α : Type} [DecidableEq α] (unl : Nat → Option α) : Nat → Sparse α → Bool
  | _, [] => true
  | a, e :: m => decide (a ≤ e.1) && decide (unl e.1 ≠ some e.2) && Sparse.wfFrom unl (e.1 + 1) m

/-- What an unlisted byte address reads as: 0 in the regions of the two dictionary tables, which hardware reset clears
(70_reset_and_hazards.md R340), and 0 in the reserved upper half of a CLUT word (10_state.md R65); no value everywhere else
(70_reset_and_hazards.md R343). The regions are those of 20_memory.md R82 at their largest: 256 ENC entries of 8 bytes, at most
256 DEC entries of 16 bytes, at most 2^22 CLUT words. Log 4. -/
def Memory.unlisted (a : Nat) : Option Byte :=
  if 0x00001000 ≤ a ∧ a < 0x00001800 then some 0
  else if 0x00002000 ≤ a ∧ a < 0x00003000 then some 0
  else if 0x01000000 ≤ a ∧ a < 0x02000000 ∧ 2 ≤ a % 4 then some 0
  else none

/-- What an unlisted bit of SYM or BITS reads as: no value (70_reset_and_hazards.md R343). -/
def Memory.unlistedBit (_ : Nat) : Option Bool := none

/-- The canonical form of the byte memories. -/
def Memory.wf (m : List Host.Cell) : Bool := Sparse.wfFrom Memory.unlisted 0 m

/-- The canonical form of a bit window. -/
def Memory.wfBits (m : List BitCell) : Bool := Sparse.wfFrom Memory.unlistedBit 0 m

/-- The canonical form of all three memories of a state. -/
def State.memWf (s : State) : Bool := Memory.wf s.mem && Memory.wfBits s.symMem && Memory.wfBits s.bitsMem

/-- The byte at a bus byte address, `none` where it is unspecified. -/
def State.byteAt (s : State) (a : Nat) : Option Byte := Sparse.get Memory.unlisted s.mem a

/-- Bit i of SYM, `none` where it is unspecified. -/
def State.symAt (s : State) (i : Nat) : Option Bool := Sparse.get Memory.unlistedBit s.symMem i

/-- Bit i of BITS, `none` where it is unspecified. -/
def State.bitsAt (s : State) (i : Nat) : Option Bool := Sparse.get Memory.unlistedBit s.bitsMem i

end Sys2Proof.Machine
end

