-- ==== Sys2Proof/Machine/Ops.lean ====
section
/-! DEFINITION. The named operations over State: plain updates, window ranges as commands read and write them, registers as
the bus reads and writes them, command issue, the two completions (40_control.md R140, R143; 60_exceptions.md R303) and the
two resets (70_reset_and_hazards.md R340, R342). -/

namespace Sys2Proof.Machine

/-! ## Plain updates -/

/-- Replace SEQ. -/
def State.withSeq (s : State) (x : Seq) : State := { s with seq := x }
/-- Replace the registers. -/
def State.withRegs (s : State) (x : Regs) : State := { s with regs := x }
/-- Replace the byte memories. -/
def State.withMem (s : State) (x : List Host.Cell) : State := { s with mem := x }
/-- Replace SYM. -/
def State.withSym (s : State) (x : List BitCell) : State := { s with symMem := x }
/-- Replace BITS. -/
def State.withBits (s : State) (x : List BitCell) : State := { s with bitsMem := x }
/-- Replace the waiting host actions. -/
def State.withInbox (s : State) (x : List HostAction) : State := { s with inbox := x }
/-- Replace the responses given. -/
def State.withResponses (s : State) (x : List Response) : State := { s with responses := x }
/-- Replace the count of host actions served. -/
def State.withServed (s : State) (x : Nat) : State := { s with served := x }

/-! ## Window ranges, as commands read and write them -/

/-- Byte `off` of a byte memory, `none` where it is unspecified. -/
def State.windowByte (s : State) (w : Window) (off : Nat) : Option Byte := s.byteAt (w.base + off)

/-- What a command reads: every value, or a fault at the first element of window `w`, counted from `off`, that is
unspecified (70_reset_and_hazards.md R343). -/
def readAll {α : Type} (w : Window) (off : Nat) (vs : List (Option α)) : Except Fault (List α) :=
  match firstNone off vs with
  | some k => .error (.unspecifiedElement w k)
  | none => .ok (vs.filterMap id)

/-- n bytes of a byte memory from offset `off` on. -/
def readBytes (s : State) (w : Window) (off n : Nat) : Except Fault (List Byte) :=
  readAll w off (Sparse.getRange Memory.unlisted s.mem (w.base + off) n)

/-- Write bytes of a byte memory from its first byte on. -/
def State.writeBytes (s : State) (w : Window) (bs : List Byte) : State :=
  s.withMem (Sparse.setRange Memory.unlisted s.mem w.base bs)

/-- Bits 0 to n - 1 of a bit memory. -/
def readBits (w : Window) (m : List BitCell) (n : Nat) : Except Fault (List Bool) :=
  readAll w 0 (Sparse.getRange Memory.unlistedBit m 0 n)

/-- SYM[0..n) (10_state.md R70). -/
def readSym (s : State) (n : Nat) : Except Fault (List Bool) := readBits .sym s.symMem n

/-- BITS[0..n) (10_state.md R70). -/
def readBitString (s : State) (n : Nat) : Except Fault (List Bool) := readBits .bits s.bitsMem n

/-- Write SYM from bit 0 on. -/
def State.writeSym (s : State) (bs : List Bool) : State :=
  s.withSym (Sparse.setRange Memory.unlistedBit s.symMem 0 bs)

/-- Write BITS from bit 0 on. -/
def State.writeBitString (s : State) (bs : List Bool) : State :=
  s.withBits (Sparse.setRange Memory.unlistedBit s.bitsMem 0 bs)

/-- Make a whole memory unspecified (70_reset_and_hazards.md R342: over its whole depth). -/
def State.eraseWindow (s : State) (w : Window) : State :=
  match w with
  | .sym => s.withSym []
  | .bits => s.withBits []
  | .enc | .dec | .clut | .msg | .pkt | .txb | .rxb | .sig | .env | .tokd | .toke =>
    s.withMem (Sparse.eraseRange s.mem w.base (w.size s.params))

/-! ## One word of a window, as the bus reads and writes it -/

/-- The word of a window at a word index (20_memory.md R84): its defined bits, reserved bits 0; each byte or bit that holds
no value comes from `free` (70_reset_and_hazards.md R343). -/
def windowWord (s : State) (w : Window) (index : Nat) (free : Word) : Word :=
  match w with
  | .sym => bitsWord ((List.range 32).map fun j => (s.symAt (32 * index + j)).getD (free.getLsbD j))
  | .bits => bitsWord ((List.range 32).map fun j => (s.bitsAt (32 * index + j)).getD (free.getLsbD j))
  | .enc | .dec | .clut | .msg | .pkt | .txb | .rxb | .sig | .env | .tokd | .toke =>
    let byte := fun j => (s.windowByte w (4 * index + j)).getD (byteOf free j)
    bytesWord (byte 0) (byte 1) (byte 2) (byte 3)

/-- Write the word of a window at a word index: all elements the word holds, reserved bits ignored (20_memory.md R85). -/
def State.writeWindowWord (s : State) (w : Window) (index : Nat) (v : Word) : State :=
  match w with
  | .sym => s.withSym (Sparse.setRange Memory.unlistedBit s.symMem (32 * index) (wordBits 32 v))
  | .bits => s.withBits (Sparse.setRange Memory.unlistedBit s.bitsMem (32 * index) (wordBits 32 v))
  | .enc | .dec | .clut | .msg | .pkt | .txb | .rxb | .sig | .env | .tokd | .toke =>
    s.withMem (Sparse.setRange Memory.unlisted s.mem (w.base + 4 * index) (wordBytes (v &&& w.definedBits index)))

/-! ## Registers, as the bus reads and writes them -/

/-- The value of a register (10_state.md R33 to R63): reserved bits 0, FILT_* sign-extended from 18 bits (R54). -/
def State.readReg (s : State) : Reg → Word
  | .id => Config.ID
  | .version => Config.VERSION
  | .ctrl => 0
  | .cmd => s.regs.cmd
  | .status => s.statusWord
  | .irqEn => s.regs.irqEn.toWord
  | .errCode => s.regs.errCode.setWidth 32
  | .errInfo => s.regs.errInfo
  | .capClut => natWord s.params.clutDepth
  | .capMsg => natWord s.params.msgDepth
  | .capPkt => natWord s.params.pktDepth
  | .capTxb => natWord s.params.txbDepth
  | .capRxb => natWord s.params.rxbDepth
  | .capSig => natWord s.params.sigDepth
  | .capBits => natWord s.params.bitsDepth
  | .capTokd => natWord s.params.tokdDepth
  | .capToke => natWord s.params.tokeDepth
  | .capDec => natWord s.params.decEntries
  | .fs => s.regs.fs
  | .fc => s.regs.fc
  | .amp => s.regs.amp.setWidth 32
  | .clutLen => s.regs.clutLen
  | .txSymLen => s.regs.txSymLen
  | .pauseLen => s.regs.pauseLen
  | .msgLen => s.regs.msgLen
  | .pktLen => s.regs.pktLen
  | .txLen => s.regs.txLen
  | .unkCount => s.regs.unkCount
  | .unkPos => s.regs.unkPos
  | .unkVal => s.regs.unkVal.setWidth 32
  | .rxLen => s.regs.rxLen
  | .sigLen => s.regs.sigLen
  | .meanI => s.regs.meanI
  | .meanQ => s.regs.meanQ
  | .filtB0 => s.regs.filtB0.signExtend 32
  | .filtB1 => s.regs.filtB1.signExtend 32
  | .filtA1 => s.regs.filtA1.signExtend 32
  | .threshMin => s.regs.threshMin
  | .thresh => s.regs.thresh
  | .lo => s.regs.lo
  | .hi => s.regs.hi
  | .symLen => s.regs.symLen
  | .rxSymLen => s.regs.rxSymLen
  | .bitsLen => s.regs.bitsLen
  | .syncLen => s.regs.syncLen
  | .syncPat0 => s.regs.syncPat0
  | .syncPat1 => s.regs.syncPat1
  | .syncIdx => s.regs.syncIdx
  | .decStart => s.regs.decStart
  | .tokCount => s.regs.tokCount
  | .tokdLen => s.regs.tokdLen

/-- A write to a register that only stores: a RW register takes v in its defined bits, STATUS applies W1C, a RO register and
CTRL and CMD, whose writes do more (`busWrite`), change nothing here (20_memory.md R85, R87). -/
def Regs.write (r : Regs) (reg : Reg) (v : Word) : Regs :=
  match reg with
  | .status => { r with status := r.status.clear (StatusFlags.ofWord v) }
  | .irqEn => { r with irqEn := StatusFlags.ofWord v }
  | .fs => { r with fs := v }
  | .fc => { r with fc := v }
  | .amp => { r with amp := v.setWidth 7 }
  | .clutLen => { r with clutLen := v }
  | .txSymLen => { r with txSymLen := v }
  | .pauseLen => { r with pauseLen := v }
  | .msgLen => { r with msgLen := v }
  | .pktLen => { r with pktLen := v }
  | .rxLen => { r with rxLen := v }
  | .sigLen => { r with sigLen := v }
  | .filtB0 => { r with filtB0 := v.setWidth 18 }
  | .filtB1 => { r with filtB1 := v.setWidth 18 }
  | .filtA1 => { r with filtA1 := v.setWidth 18 }
  | .threshMin => { r with threshMin := v }
  | .symLen => { r with symLen := v }
  | .rxSymLen => { r with rxSymLen := v }
  | .bitsLen => { r with bitsLen := v }
  | .syncLen => { r with syncLen := v }
  | .syncPat0 => { r with syncPat0 := v }
  | .syncPat1 => { r with syncPat1 := v }
  | .decStart => { r with decStart := v }
  | .id | .version | .ctrl | .cmd | .errCode | .errInfo | .capClut | .capMsg | .capPkt | .capTxb | .capRxb | .capSig
  | .capBits | .capTokd | .capToke | .capDec | .txLen | .unkCount | .unkPos | .unkVal | .meanI | .meanQ | .thresh | .lo
  | .hi | .syncIdx | .tokCount | .tokdLen => r

/-! ## Errors -/

/-- The ERRCODE value of an error (60_exceptions.md R300). -/
def ErrCode.value : ErrCode → BitVec 4
  | .illegal => 1
  | .param => 2
  | .carrier => 3
  | .tile => 4
  | .odd => 5
  | .overflow => 6
  | .dict => 7

/-- The table bit of a DICT ERRINFO (60_exceptions.md R301): ENC. -/
def dictTableEnc : Nat := 0
/-- The table bit of a DICT ERRINFO (60_exceptions.md R301): DEC. -/
def dictTableDec : Nat := 1

/-- `dictinfo(table, index, reason)` (60_exceptions.md R301). -/
def dictInfo (table index reason : Nat) : Word :=
  natWord (index % 65536 + 65536 * table + 16777216 * reason)

/-- ERRINFO of an OVERFLOW: the base address of the window that would overflow (60_exceptions.md R301). -/
def overflowInfo (w : Window) : Word := natWord w.base

/-- ERRINFO of a PARAM: the offset of the register that failed its check (60_exceptions.md R301). -/
def paramInfo (r : Reg) : Word := natWord r.offset

/-! ## The life cycle of a command -/

/-- Command issue (40_control.md R140), as one change: CMD takes the word, the flags, ERRCODE and ERRINFO clear, SEQ becomes
BUSY. -/
def State.issue (s : State) (w : Word) : State :=
  (s.withRegs { s.regs with cmd := w, status := StatusFlags.none, errCode := 0, errInfo := 0 }).withSeq .busy

/-- What a stage of a command yields (40_control.md R141). `done s f`: s is the state with the stage's updates, f the flags
it raises. `fail s code info`: the stage raised an error, s is the state with the updates of the stages before it.
`stop f`: the stage read an unspecified element. -/
inductive StageResult where
  | done (s : State) (flags : StatusFlags)
  | fail (s : State) (code : ErrCode) (info : Word)
  | stop (f : Fault)
  deriving DecidableEq, Repr

/-- Successful completion (40_control.md R143): the raised flags and DONE are set, ERRCODE and ERRINFO are 0, SEQ is IDLE. -/
def State.completeOk (s : State) (flags : StatusFlags) : State :=
  (s.withRegs
    { s.regs with
      status := { s.regs.status.union flags with done := true }
      errCode := 0
      errInfo := 0 }).withSeq .idle

/-- TAKING AN ERROR, the block's analogue of trap entry (60_exceptions.md R303): ERR and DONE are set, ERRCODE and ERRINFO
take the error, SEQ is IDLE. Nothing is saved, and nothing is returned from: the next command is accepted at once (R307). -/
def State.completeErr (s : State) (code : ErrCode) (info : Word) : State :=
  (s.withRegs
    { s.regs with
      status := { s.regs.status with err := true, done := true }
      errCode := code.value
      errInfo := info }).withSeq .idle

/-- The completion step of a command (40_control.md R142): apply what its stages yielded. -/
def finish (r : StageResult) : Host.Outcome State Fault Refusal :=
  match r with
  | .done s flags => .next (s.completeOk flags)
  | .fail s code info => .next (s.completeErr code info)
  | .stop f => .fault f

/-- Run one more stage of a chain on the state the stages before it left (40_control.md R141). -/
def StageResult.thenStage (r : StageResult) (k : State → StatusFlags → StageResult) : StageResult :=
  match r with
  | .done s flags => k s flags
  | .fail s code info => .fail s code info
  | .stop f => .stop f

/-- Continue a stage with elements it has read, or stop where one is unspecified (70_reset_and_hazards.md R343). -/
def withRead {α : Type} (r : Except Fault α) (k : α → StageResult) : StageResult :=
  match r with
  | .ok x => k x
  | .error f => .stop f

/-! ## Resets -/

/-- The windows a command writes (10_state.md R76). -/
def windowsWritten : Instr → List Window
  | .nop => []
  | .genCarrier => [.clut]
  | .encode => [.pkt]
  | .generate => [.txb]
  | .txChain => [.pkt, .txb]
  | .preprocess => [.sig]
  | .detect => [.env, .sym]
  | .slice => [.bits]
  | .sync => [.tokd, .toke]
  | .decode => [.tokd, .toke]
  | .rxChain => [.sig, .env, .sym, .bits, .tokd, .toke]

/-- The windows that the running command writes; none when SEQ is IDLE or the command word is illegal. -/
def State.abortedWindows (s : State) : List Window :=
  match s.seq with
  | .idle => []
  | .busy =>
    match decodeWord s.regs.cmd with
    | .ok i => windowsWritten i
    | .error _ => []

/-- Soft reset (70_reset_and_hazards.md R342): the running command is aborted and every window it writes becomes unspecified
over its whole depth; every register takes its reset value and SEQ is IDLE; all other memories keep their contents. -/
def State.softReset (s : State) : State :=
  ((s.abortedWindows.foldl State.eraseWindow s).withRegs Regs.reset).withSeq .idle

/-- Hardware reset (70_reset_and_hazards.md R340): registers at their reset values, SEQ IDLE, both dictionaries 0, every
other window unspecified. -/
def State.hardReset (s : State) : State :=
  ((((s.withMem []).withSym []).withBits []).withRegs Regs.reset).withSeq .idle

end Sys2Proof.Machine
end

