-- ==== Sys2Proof/Machine/Operands.lean ====
section
/-! DEFINITION. Operand assembly: the dictionary tables and the synchronization pattern (30_encoding.md R115) and the numeric
operands (R116). -/

namespace Sys2Proof.Machine

/-- `sext_N` of a field (00_scope.md R8). -/
def sext {n : Nat} (x : BitVec n) : Int := x.toInt

/-- `zext_N` of a field (00_scope.md R8). -/
def zext {n : Nat} (x : BitVec n) : Nat := x.toNat

/-- An encode dictionary entry (10_state.md R72). -/
structure EncEntry where
  /-- CODE, word 0. -/
  code : Word
  /-- Word 1: CLEN in [5:0], VALID in [31]. -/
  info : Word
  deriving DecidableEq, Repr

/-- A decode dictionary entry (10_state.md R73). -/
structure DecEntry where
  /-- KEY, word 0. -/
  key : Word
  /-- Word 1: KLEN in [5:0], VLEN in [10:8], VALID in [31]. -/
  info : Word
  /-- VAL, word 2. -/
  val : Word
  deriving DecidableEq, Repr

/-- A word of a dictionary table; every byte of a table has a value, so the free word stands for nothing. -/
def tableWordAt (s : State) (w : Window) (index : Nat) : Word := windowWord s w index 0

/-- `ENC[c]` (10_state.md R72). -/
def encEntry (s : State) (c : Nat) : EncEntry where
  code := tableWordAt s .enc (2 * c)
  info := tableWordAt s .enc (2 * c + 1)

/-- `DEC[e]` (10_state.md R73). -/
def decEntry (s : State) (e : Nat) : DecEntry where
  key := tableWordAt s .dec (4 * e)
  info := tableWordAt s .dec (4 * e + 1)
  val := tableWordAt s .dec (4 * e + 2)

/-- CLEN (10_state.md R72). -/
def EncEntry.clen (x : EncEntry) : Nat := x.info.toNat % 64

/-- `enc_present` (30_encoding.md R115). -/
def EncEntry.present (x : EncEntry) : Bool := x.info.getLsbD 31

/-- `enc_code` (30_encoding.md R115). -/
def EncEntry.codeBits (x : EncEntry) : List Bool := wordBits x.clen x.code

/-- KLEN (10_state.md R73). -/
def DecEntry.klen (x : DecEntry) : Nat := x.info.toNat % 64

/-- VLEN (10_state.md R73). -/
def DecEntry.vlen (x : DecEntry) : Nat := x.info.toNat / 256 % 8

/-- `dec_present` (30_encoding.md R115). -/
def DecEntry.present (x : DecEntry) : Bool := x.info.getLsbD 31

/-- `dec_key` (30_encoding.md R115). -/
def DecEntry.keyBits (x : DecEntry) : List Bool := wordBits x.klen x.key

/-- `dec_val` (30_encoding.md R115). -/
def DecEntry.valBytes (x : DecEntry) : List Byte := (List.range x.vlen).map (byteOf x.val)

/-- The decode dictionary, entry 0 first. -/
def decTable (s : State) : List DecEntry := (List.range s.params.decEntries).map (decEntry s)

/-- `sync_pat`: P = SYNC_LEN bits of {SYNC_PAT1, SYNC_PAT0} (30_encoding.md R115, 10_state.md R60). -/
def syncPattern (r : Regs) : List Bool :=
  (List.range (zext r.syncLen)).map (r.syncPat1 ++ r.syncPat0).getLsbD

end Sys2Proof.Machine
end

