-- ==== Sys2Proof/Machine/Bus.lean ====
section
/-! DEFINITION. The slave port: the READ and WRITE transactions (20_memory.md R84 to R91), the host actions and the choice of
what happens next (40_control.md R142, 70_reset_and_hazards.md R355). -/

namespace Sys2Proof.Machine

/-- The response to a request that is served. -/
def okay (rdata : Word) : Response := ⟨.okay, rdata⟩

/-- The response to a request without effect; its read data is 0 (20_memory.md R84, R88). -/
def slverr : Response := ⟨.slverr, 0⟩

/-- The free word of the host action being served: what it reads where the spec says `any value`. Log 5. -/
def State.freeNow (s : State) : Word := Config.freeWord s.served

/-- The registers whose value is defined while SEQ is BUSY (20_memory.md R90). -/
def Reg.readableWhileBusy : Reg → Bool
  | .id | .version | .capClut | .capMsg | .capPkt | .capTxb | .capRxb | .capSig | .capBits | .capTokd | .capToke | .capDec
  | .ctrl | .cmd | .status | .irqEn => true
  | .errCode | .errInfo | .fs | .fc | .amp | .clutLen | .txSymLen | .pauseLen | .msgLen | .pktLen | .txLen | .unkCount
  | .unkPos | .unkVal | .rxLen | .sigLen | .meanI | .meanQ | .filtB0 | .filtB1 | .filtA1 | .threshMin | .thresh | .lo | .hi
  | .symLen | .rxSymLen | .bitsLen | .syncLen | .syncPat0 | .syncPat1 | .syncIdx | .decStart | .tokCount | .tokdLen => false

/-- `MemRead(addr, 4)` (20_memory.md R84, R86, R88, R90): the response; no state changes. -/
def busRead (s : State) (addr : Word) : Response :=
  match decodeAddr s.params addr with
  | .misaligned => slverr
  | .unmapped => slverr
  | .register r => if s.busy && !r.readableWhileBusy then okay s.freeNow else okay (s.readReg r)
  | .word w index => if s.busy then okay s.freeNow else okay (windowWord s w index s.freeNow)

/-- The effect of a register write that is served (20_memory.md R85): CTRL.SRST = 1 performs a soft reset
(70_reset_and_hazards.md R342), CMD issues a command (40_control.md R140), every other register only stores. -/
def writeRegister (s : State) (r : Reg) (v : Word) : State :=
  match r with
  | .ctrl => if v.getLsbD 0 then s.softReset else s
  | .cmd => s.issue v
  | .id | .version | .status | .irqEn | .errCode | .errInfo | .capClut | .capMsg | .capPkt | .capTxb | .capRxb | .capSig
  | .capBits | .capTokd | .capToke | .capDec | .fs | .fc | .amp | .clutLen | .txSymLen | .pauseLen | .msgLen | .pktLen
  | .txLen | .unkCount | .unkPos | .unkVal | .rxLen | .sigLen | .meanI | .meanQ | .filtB0 | .filtB1 | .filtA1 | .threshMin
  | .thresh | .lo | .hi | .symLen | .rxSymLen | .bitsLen | .syncLen | .syncPat0 | .syncPat1 | .syncIdx | .decStart
  | .tokCount | .tokdLen => s.withRegs (s.regs.write r v)

/-- `MemWrite(addr, 4, v)` (20_memory.md R85, R86, R88, R90): the new state and the response. While SEQ is BUSY only CTRL may
be written. -/
def busWrite (s : State) (addr v : Word) (strb : Strobe) : State × Response :=
  if strb ≠ 0b1111#4 then (s, slverr)
  else
    match decodeAddr s.params addr with
    | .misaligned => (s, slverr)
    | .unmapped => (s, slverr)
    | .register r =>
      if s.busy && decide (r ≠ .ctrl) then (s, slverr) else (writeRegister s r v, okay 0)
    | .word w index => if s.busy then (s, slverr) else (s.writeWindowWord w index v, okay 0)

/-- Give a response (20_memory.md R81: every request gets exactly one). -/
def State.respond (s : State) (r : Response) : State := s.withResponses (r :: s.responses)

/-- Serve one host action (20_memory.md R81). `wait` ends with the read of STATUS that returned BUSY = 0
(30_encoding.md R119); a hardware reset gets no response (70_reset_and_hazards.md R340). -/
def performAction (s : State) (x : HostAction) : State :=
  match x with
  | .read addr => s.respond (busRead s addr)
  | .write addr v strb => (busWrite s addr v strb).1.respond (busWrite s addr v strb).2
  | .wait => s.respond (okay s.statusWord)
  | .hardReset => s.hardReset

/-- Serve a host action taken from the list of those waiting, and count it. -/
def serve (s : State) (x : HostAction) (rest : List HostAction) : State :=
  ((performAction s x).withInbox rest).withServed (s.served + 1)

/-- What happens next. -/
inductive Event where
  /-- Nothing: SEQ is IDLE and no transaction has arrived (60_exceptions.md R325). -/
  | quiet
  /-- The completion step of the running command (40_control.md R142). -/
  | completion
  /-- A host action is served, and `rest` waits after it. -/
  | action (x : HostAction) (rest : List HostAction)
  deriving DecidableEq, Repr

/-- What happens next. While SEQ is BUSY the completion happens when no host action waits or the host is in `wait`; otherwise
the free choice `Config.completesFirst` says whether it happens before the next host action (70_reset_and_hazards.md R355). -/
def nextEvent (s : State) : Event :=
  match s.seq, s.inbox with
  | .idle, [] => .quiet
  | .idle, x :: rest => .action x rest
  | .busy, [] => .completion
  | .busy, .wait :: _ => .completion
  | .busy, x :: rest => if Config.completesFirst s.served then .completion else .action x rest

end Sys2Proof.Machine
end

