-- ==== Sys2Proof/Machine/Carrier.lean ====
section
/-! DEFINITION. The carrier LUT generator (41_modulator.md R160 to R164). R163 rounds A*cos and A*sin of a rational
multiple of a full turn EXACTLY. The rounding is decided here without any real number: whether A*sin(phi) exceeds a half-integer
is whether cos(2*phi) lies below a rational number, and that is decided by doubling both angles
(cos 2x = 2*cos(x)^2 - 1) until their cosines differ in sign. A first pass encloses the rational number in fixed point; if the
enclosure is too wide to decide, a second pass repeats the comparison in exact rational arithmetic. Log 10. -/

namespace Sys2Proof.Machine

/-- Numerator of the rational `d` divides, doubled as a cosine: u = n/d becomes 2*u*u - 1 = (2*n*n - d*d)/(d*d). -/
def doubledNum (n d : Int) : Int := 2 * (n * n) - d * d

/-- Whether cos(pi*r/q) < n/d, for 0 < r < q and 0 < d, the two not equal: exact rational arithmetic, `fuel` doublings. -/
def cosBelowExact : Nat → Nat → Nat → Int → Int → Bool
  | 0, _, _, _, _ => false
  | fuel + 1, r, q, n, d =>
    if 2 * r < q then
      if n ≤ 0 then false else cosBelowExact fuel (2 * r) q (doubledNum n d) (d * d)
    else if q < 2 * r then
      if 0 ≤ n then true else !(cosBelowExact fuel (2 * q - 2 * r) q (doubledNum n d) (d * d))
    else decide (0 < n)

/-- The scale of the fixed-point enclosures, 2^128. -/
def enclosureOne : Int := 340282366920938463463374607431768211456

/-- A lower bound of the doubled cosine of x, for |x| at least `v` in fixed point. -/
def doubledBelow (v : Int) : Int := 2 * (v * v) / enclosureOne - enclosureOne

/-- An upper bound of the doubled cosine of x, for |x| at most `v` in fixed point. -/
def doubledAbove (v : Int) : Int := 2 * (v * v) / enclosureOne + 1 - enclosureOne

/-- Whether cos(pi*r/q) < u, for 0 < r < q, where all that is known is lo <= u * 2^128 <= hi; `none` where the enclosure is
too wide to tell. -/
def cosBelowEnclosed : Nat → Nat → Nat → Int → Int → Option Bool
  | 0, _, _, _, _ => none
  | fuel + 1, r, q, lo, hi =>
    if 2 * r < q then
      if hi ≤ 0 then some false
      else if lo ≤ 0 then none
      else cosBelowEnclosed fuel (2 * r) q (doubledBelow lo) (doubledAbove hi)
    else if q < 2 * r then
      if 0 ≤ lo then some true
      else if 0 ≤ hi then none
      else (cosBelowEnclosed fuel (2 * q - 2 * r) q (doubledBelow hi) (doubledAbove lo)).map (!·)
    else if 0 < lo then some true
    else if hi ≤ 0 then some false
    else none

/-- How many doublings the enclosed comparison may take. -/
def enclosedFuel : Nat := 128

/-- How many doublings the exact comparison may take: 2^64. T_q(cos(pi*r/q)) is 1 or -1, so a rational n/d that is no such
cosine differs from it by more than (2*d)^(-q)/q^2: with q below 2^36 and d below 2^15, fewer than 2^41 doublings separate the
two. -/
def exactFuel : Nat := 18446744073709551616

/-- Whether cos(pi*r/q) < n/d, for 0 < r < q and 0 < d, the two not equal. -/
def cosBelow (r q : Nat) (n d : Int) : Bool :=
  match cosBelowEnclosed enclosedFuel r q (n * enclosureOne / d) (n * enclosureOne / d + 1) with
  | some b => b
  | none => cosBelowExact exactFuel r q n d

/-- Whether A*sin(phi) > m - 1/2 for phi = (pi/2)*(r/q), 0 < r < q, 1 <= m <= A: sin(phi) > (2m - 1)/(2A) is
cos(2*phi) < 1 - 2*((2m - 1)/(2A))^2 = (2*A^2 - (2m - 1)^2)/(2*A^2). -/
def sineAbove (A r q m : Nat) : Bool :=
  cosBelow r q (2 * (A * A : Nat) - ((2 * m - 1) * (2 * m - 1) : Nat)) (2 * (A * A : Nat))

/-- The greatest m <= A built from the powers of two listed for which A*sin(phi) > m - 1/2. -/
def roundUpTo (A r q : Nat) : List Nat → Nat → Nat
  | [], m => m
  | b :: bs, m => if m + b ≤ A && sineAbove A r q (m + b) then roundUpTo A r q bs (m + b) else roundUpTo A r q bs m

/-- `rne_real(A*sin(phi))` for phi = (pi/2)*(r/q), 0 < r < q, A <= 127. The only tie is at sin(phi) = 1/2, where r/q = 1/3
(41_modulator.md R164). -/
def sineFirstQuarter (A r q : Nat) : Int :=
  if 3 * r = q then rne A 2 else (roundUpTo A r q [64, 32, 16, 8, 4, 2, 1] 0 : Nat)

/-- `rne_real(A*sin(2*pi*p/q))` for q > 0: the quarter turn holding the angle gives the sign and, with `r` the part of the
quarter passed, sine or cosine of the first quarter. -/
def sineOfTurn (A p q : Nat) : Int :=
  let r := 4 * p % q
  let rising := if r = 0 then 0 else sineFirstQuarter A r q
  let falling := if r = 0 then (A : Int) else sineFirstQuarter A (q - r) q
  match 4 * p / q % 4 with
  | 0 => rising
  | 1 => falling
  | 2 => -rising
  | _ => -falling

/-- `rne_real(A*cos(2*pi*p/q))` for q > 0: the sine a quarter turn on. -/
def cosineOfTurn (A p q : Nat) : Int := sineOfTurn A (4 * p + q) (4 * q)

/-- `carrier_sample(FS, FC, A, k)` (41_modulator.md R163): theta_k = 2*pi*FC*k/FS + PHASE, that is
(4*FC*k + PHASE_QUARTERS*FS)/(4*FS) of a turn; I is the cosine and Q the sine, each rounded. -/
def carrierSample (fs fc A k : Nat) : Int × Int :=
  let p := 4 * (fc * k) + Config.PHASE_QUARTERS * fs
  (cosineOfTurn A p (4 * fs), sineOfTurn A p (4 * fs))

/-- The bytes of CLUT element k: I, Q and the reserved upper half (10_state.md R65). -/
def clutBytes (iq : Int × Int) : List Byte := [enc8 iq.1, enc8 iq.2, 0, 0]

/-- GEN_CARRIER (41_modulator.md R160). -/
def stageGenCarrier (s : State) : StageResult :=
  let fs := zext s.regs.fs
  let fc := zext s.regs.fc
  if fc = 0 then .fail s .carrier 1
  else
    let n := (rne fs fc).toNat
    if n = 0 then .fail s .carrier 2
    else if n > s.params.clutDepth then .fail s .carrier 3
    else
      let table := (List.range n).flatMap fun k => clutBytes (carrierSample fs fc (zext s.regs.amp) k)
      .done ((s.writeBytes .clut table).withRegs { s.regs with clutLen := natWord n }) StatusFlags.none

/-- GEN_CARRIER. -/
def execGenCarrier (s : State) : Host.Outcome State Fault Refusal := finish (stageGenCarrier s)

end Sys2Proof.Machine
end

