-- ==== Sys2Proof/Machine/Control.lean ====
section
/-! DEFINITION. The control commands: NOP (40_control.md R148) and the illegal command word (R149). -/

namespace Sys2Proof.Machine

/-- NOP (40_control.md R148): no check, no write, no flag. -/
def stageNop (s : State) : StageResult := .done s StatusFlags.none

/-- NOP. -/
def execNop (s : State) : Host.Outcome State Fault Refusal := finish (stageNop s)

/-- An illegal command word (40_control.md R149): Error(ILLEGAL, w), w being the word in CMD. -/
def execIllegal (s : State) : Host.Outcome State Fault Refusal :=
  finish (.fail s .illegal s.regs.cmd)

end Sys2Proof.Machine
end

