-- ==== Sys2Proof/Machine/Modulator.lean ====
section
/-! DEFINITION. The symbol encoder: dictionary substitution ENCODE (41_modulator.md R166), waveform generation GENERATE
(R167 to R170) and the transmit chain TX_CHAIN (R171). -/

namespace Sys2Proof.Machine

/-! ## ENCODE -/

/-- The packet byte of a codeword bit: '1' is 0x31, '0' is 0x30 (41_modulator.md R166, 00_scope.md R12). -/
def packetBit (b : Bool) : Byte := if b then 0x31#8 else 0x30#8

/-- The packet bytes of one message byte: its codeword, or the byte itself where it has none (41_modulator.md R166). -/
def substitute (s : State) (c : Byte) : List Byte :=
  let x := encEntry s c.toNat
  if x.present then x.codeBits.map packetBit else [c]

/-- The number of packet bytes of one message byte (41_modulator.md R166, check 3). -/
def substituteLen (s : State) (c : Byte) : Nat :=
  let x := encEntry s c.toNat
  if x.present then x.clen else 1

/-- The first symbol, in ascending order, whose valid entry has CLEN above 32 (41_modulator.md R166, check 2). -/
def badEncEntry (s : State) : Option Nat :=
  (List.range Config.ENC_ENTRIES).find? fun c =>
    (encEntry s c).present && decide (Config.MAX_KEY_BITS < (encEntry s c).clen)

/-- ENCODE (41_modulator.md R166). -/
def stageEncode (s : State) : StageResult :=
  if s.params.msgDepth < zext s.regs.msgLen then .fail s .param (paramInfo .msgLen)
  else
    match badEncEntry s with
    | some c => .fail s .dict (dictInfo dictTableEnc c 1)
    | none =>
      withRead (readBytes s .msg 0 (zext s.regs.msgLen)) fun msg =>
        if s.params.pktDepth < (msg.map (substituteLen s)).sum then .fail s .overflow (overflowInfo .pkt)
        else
          let out := msg.flatMap (substitute s)
          .done ((s.writeBytes .pkt out).withRegs { s.regs with pktLen := natWord out.length }) StatusFlags.none

/-- ENCODE. -/
def execEncode (s : State) : Host.Outcome State Fault Refusal := finish (stageEncode s)

/-! ## GENERATE -/

/-- The packet symbols of the symbol map (41_modulator.md R168). -/
inductive PacketSymbol where
  | mark | zero | pause | space | unknown
  deriving DecidableEq, Repr

/-- The symbol of a packet byte (41_modulator.md R168). -/
def packetSymbol (c : Byte) : PacketSymbol :=
  if c = 0x31#8 then .mark
  else if c = 0x30#8 then .zero
  else if c = 0x70#8 then .pause
  else if c = 0x20#8 then .space
  else .unknown

/-- `seglen` in complex samples (41_modulator.md R168), for symbol duration L and pause duration P. -/
def segLen (L P : Nat) (c : Byte) : Nat :=
  match packetSymbol c with
  | .mark => L
  | .zero => L
  | .pause => P
  | .space => 0
  | .unknown => 0

/-- The bytes of one segment (41_modulator.md R168): `table` holds the I, Q bytes of CLUT[0..N), tiled to L samples for '1'. -/
def segment (table : List Byte) (N L P : Nat) (c : Byte) : List Byte :=
  match packetSymbol c with
  | .mark => (List.replicate (L / N) table).flatten
  | .zero => List.replicate (2 * L) 0
  | .pause => List.replicate (2 * P) 0
  | .space => []
  | .unknown => []

/-- The unknown bytes of a packet with their indices (41_modulator.md R170). -/
def unknownsFrom : Nat → List Byte → List (Nat × Byte)
  | _, [] => []
  | b, c :: cs =>
    match packetSymbol c with
    | .unknown => (b, c) :: unknownsFrom (b + 1) cs
    | .mark | .zero | .pause | .space => unknownsFrom (b + 1) cs

/-- The I and Q bytes of consecutive CLUT words, the reserved halves left out (10_state.md R65). -/
def iqBytes : List Byte → List Byte
  | i :: q :: _ :: _ :: rest => i :: q :: iqBytes rest
  | _ => []

/-- The I, Q bytes of CLUT[0..N). -/
def readCarrier (s : State) (N : Nat) : Except Fault (List Byte) :=
  match readBytes s .clut 0 (4 * N) with
  | .ok bytes => .ok (iqBytes bytes)
  | .error f => .error f

/-- Whether a packet holds a '1' (41_modulator.md R167, check 2). -/
def hasMark (pkt : List Byte) : Bool := pkt.any fun c => decide (packetSymbol c = .mark)

/-- UNK_POS and UNK_VAL: the first unknown symbol, 0xFFFF_FFFF and 0 when there is none (41_modulator.md R167, R170). -/
def firstUnknown (unk : List (Nat × Byte)) : Word × Byte :=
  match unk with
  | [] => (0xFFFFFFFF#32, 0)
  | (b, c) :: _ => (natWord b, c)

/-- Where GENERATE emits '1' segments it reads the carrier table; a packet without one, or L = 0, needs none
(41_modulator.md R167, corner cases). -/
def carrierFor (s : State) (pkt : List Byte) (N L : Nat) : Except Fault (List Byte) :=
  if hasMark pkt && decide (L ≠ 0) then readCarrier s N else .ok []

/-- The last part of GENERATE: the writes and the flag (41_modulator.md R167). -/
def generateWrites (s : State) (pkt table : List Byte) (N L P : Nat) : StageResult :=
  let out := pkt.flatMap (segment table N L P)
  let unk := unknownsFrom 0 pkt
  .done
    ((s.writeBytes .txb out).withRegs
      { s.regs with
        txLen := natWord out.length
        unkCount := natWord unk.length
        unkPos := (firstUnknown unk).1
        unkVal := (firstUnknown unk).2 })
    { StatusFlags.none with unksym := decide (0 < unk.length) }

/-- GENERATE (41_modulator.md R167). -/
def stageGenerate (s : State) : StageResult :=
  let N := zext s.regs.clutLen
  let L := zext s.regs.txSymLen
  let P := zext s.regs.pauseLen
  if s.params.pktDepth < zext s.regs.pktLen then .fail s .param (paramInfo .pktLen)
  else if s.params.clutDepth < N then .fail s .param (paramInfo .clutLen)
  else
    withRead (readBytes s .pkt 0 (zext s.regs.pktLen)) fun pkt =>
      if hasMark pkt && decide (N = 0) then .fail s .tile 1
      else if hasMark pkt && decide (L % N ≠ 0) then .fail s .tile 2
      else if s.params.txbDepth < 2 * (pkt.map (segLen L P)).sum then .fail s .overflow (overflowInfo .txb)
      else withRead (carrierFor s pkt N L) fun table => generateWrites s pkt table N L P

/-- GENERATE. -/
def execGenerate (s : State) : Host.Outcome State Fault Refusal := finish (stageGenerate s)

/-! ## TX_CHAIN -/

/-- TX_CHAIN (41_modulator.md R171): ENCODE, then GENERATE on the state it left; the flags are GENERATE's. -/
def stageTxChain (s : State) : StageResult :=
  (stageEncode s).thenStage fun s1 _ => stageGenerate s1

/-- TX_CHAIN. -/
def execTxChain (s : State) : Host.Outcome State Fault Refusal := finish (stageTxChain s)

end Sys2Proof.Machine
end

