-- ==== Sys2Proof/Machine/Demodulator.lean ====
section
/-! DEFINITION. The IQ preprocessor PREPROCESS (42_demodulator.md R200 to R204) and the envelope filter and threshold
detector DETECT (R210 to R217). -/

namespace Sys2Proof.Machine

/-! ## PREPROCESS -/

/-- The samples of an IQ byte list: the even-indexed bytes are I and the odd-indexed Q (10_state.md R67). -/
def iqSamples (bytes : List Byte) : List (Int × Int) := (pairUp bytes).map fun b => (sext b.1, sext b.2)

/-- The mean of a rail in Q.8 (42_demodulator.md R202). -/
def railMean (rail : List Int) : Int := rne (256 * rail.sum) rail.length

/-- PREPROCESS (42_demodulator.md R200). -/
def stagePreprocess (s : State) : StageResult :=
  let len := zext s.regs.rxLen
  if s.params.rxbDepth < len then .fail s .param (paramInfo .rxLen)
  else if len % 2 = 1 then .fail s .odd s.regs.rxLen
  else if len / 2 = 0 then .done (s.withRegs { s.regs with sigLen := 0, meanI := 0, meanQ := 0 }) StatusFlags.none
  else
    withRead (readBytes s .rxb 0 len) fun bytes =>
      let iq := iqSamples bytes
      let mI := railMean (iq.map Prod.fst)
      let mQ := railMean (iq.map Prod.snd)
      let sig := iq.flatMap fun x => [enc32 (256 * x.1 - mI), enc32 (256 * x.2 - mQ)]
      .done
        ((s.writeBytes .sig (bytesOfWords sig)).withRegs
          { s.regs with sigLen := natWord (len / 2), meanI := enc32 mI, meanQ := enc32 mQ })
        StatusFlags.none

/-- PREPROCESS. -/
def execPreprocess (s : State) : Host.Outcome State Fault Refusal := finish (stagePreprocess s)

/-! ## DETECT -/

/-- The magnitude of a complex sample (42_demodulator.md R213). -/
def magnitude (z : Int × Int) : Int := (isqrt (z.1 * z.1 + z.2 * z.2).toNat : Nat)

/-- One pass of the first-order filter over a list (42_demodulator.md R211): `xp` and `yp` are the previous input and output. -/
def filterPass (b0 b1 a1 : Int) : Int → Int → List Int → List Int
  | _, _, [] => []
  | xp, yp, x :: xs =>
    let y := sat32 (rne (b0 * x + b1 * xp - a1 * yp) 65536)
    y :: filterPass b0 b1 a1 x y xs

/-- One pass whose start state is the first input of the list (42_demodulator.md R211). -/
def filterFromEdge (b0 b1 a1 : Int) (xs : List Int) : List Int :=
  match xs with
  | [] => []
  | x :: _ => filterPass b0 b1 a1 x x xs

/-- `zero_phase_lpf` (42_demodulator.md R211): forward over x, then backward over the forward output. -/
def zeroPhaseLpf (b0 b1 a1 : Int) (xs : List Int) : List Int :=
  (filterFromEdge b0 b1 a1 (filterFromEdge b0 b1 a1 xs).reverse).reverse

/-- Merge two rising lists; `fuel` is at least the sum of their lengths. -/
def mergeRising : Nat → List Int → List Int → List Int
  | 0, xs, ys => xs ++ ys
  | _ + 1, [], ys => ys
  | _ + 1, xs, [] => xs
  | fuel + 1, x :: xs, y :: ys =>
    if x ≤ y then x :: mergeRising fuel xs (y :: ys) else y :: mergeRising fuel (x :: xs) ys

/-- Merge sort; `fuel` is at least the length of the list. -/
def sortWith : Nat → List Int → List Int
  | 0, xs => xs
  | fuel + 1, xs =>
    if xs.length ≤ 1 then xs
    else
      let h := xs.length / 2
      mergeRising xs.length (sortWith fuel (xs.take h)) (sortWith fuel (xs.drop h))

/-- The list sorted ascending (42_demodulator.md R214). -/
def sortAscending (xs : List Int) : List Int := sortWith xs.length xs

/-- The value at the num/PCT_DEN percentile index of a sorted list (42_demodulator.md R214). -/
def percentile (num : Nat) (sorted : List Int) : Int := sorted.getD (num * sorted.length / Config.PCT_DEN) 0

/-- The complex samples of SIG[0..N) from its bytes (10_state.md R68). -/
def sigSamples (bytes : List Byte) : List (Int × Int) :=
  (pairUp (wordsOfBytes bytes)).map fun z => (sext z.1, sext z.2)

/-- The filtered envelope w of DETECT (42_demodulator.md R210, steps 1 and 2). -/
def envelope (r : Regs) (sig : List (Int × Int)) : List Int :=
  zeroPhaseLpf (sext r.filtB0) (sext r.filtB1) (sext r.filtA1) (sig.map magnitude)

/-- Binarization (42_demodulator.md R217): |w| above the threshold T in Q.9. -/
def binarize (T w : Int) : Bool := decide (T < Config.THRESH_DIV * |w|)

/-- DETECT (42_demodulator.md R210). -/
def stageDetect (s : State) : StageResult :=
  let N := zext s.regs.sigLen
  if s.params.sigDepth < N then .fail s .param (paramInfo .sigLen)
  else if N = 0 then
    .done (s.withRegs { s.regs with thresh := 0, lo := 0, hi := 0, symLen := 0 }) { StatusFlags.none with insuf := true }
  else
    withRead (readBytes s .sig 0 (8 * N)) fun bytes =>
      let w := envelope s.regs (sigSamples bytes)
      let sorted := sortAscending w
      let lo := percentile Config.LO_NUM sorted
      let hi := percentile Config.HI_NUM sorted
      let T := hi - lo
      let regs := { s.regs with thresh := enc32 T, lo := enc32 lo, hi := enc32 hi }
      let s1 := s.writeBytes .env (bytesOfWords (w.map enc32))
      if T < zext s.regs.threshMin then
        .done (s1.withRegs { regs with symLen := 0 }) { StatusFlags.none with insuf := true }
      else
        .done ((s1.writeSym (w.map (binarize T))).withRegs { regs with symLen := natWord N }) StatusFlags.none

/-- DETECT. -/
def execDetect (s : State) : Host.Outcome State Fault Refusal := finish (stageDetect s)

end Sys2Proof.Machine
end

