-- ==== Sys2Proof/Machine/Receiver.lean ====
section
/-! DEFINITION. Run-length bit recovery SLICE (43_slicer_sync_decoder.md R240 to R243), the preamble synchronizer SYNC
(R250 to R253), the greedy code-table decoder DECODE (R260 to R267) and the receive chain RX_CHAIN (R270). -/

namespace Sys2Proof.Machine

/-! ## SLICE -/

/-- The maximal runs of a bit string: value and length (43_slicer_sync_decoder.md R240). -/
def runs : List Bool → List (Bool × Nat)
  | [] => []
  | b :: bs =>
    match runs bs with
    | [] => [(b, 1)]
    | (v, n) :: rest => if v = b then (v, n + 1) :: rest else (b, 1) :: (v, n) :: rest

/-- The bits of one run: round(r / L) times its value, nothing for r < L (43_slicer_sync_decoder.md R241, R242). -/
def runBits (L : Nat) (run : Bool × Nat) : List Bool :=
  if L ≤ run.2 then List.replicate (rne run.2 L).toNat run.1 else []

/-- The recovered bit string (43_slicer_sync_decoder.md R240). -/
def recoverBits (L : Nat) (sym : List Bool) : List Bool := (runs sym).flatMap (runBits L)

/-- SLICE (43_slicer_sync_decoder.md R240). -/
def stageSlice (s : State) : StageResult :=
  if s.params.sigDepth < zext s.regs.symLen then .fail s .param (paramInfo .symLen)
  else if zext s.regs.rxSymLen = 0 then .fail s .param (paramInfo .rxSymLen)
  else
    withRead (readSym s (zext s.regs.symLen)) fun sym =>
      let out := recoverBits (zext s.regs.rxSymLen) sym
      .done ((s.writeBitString out).withRegs { s.regs with bitsLen := natWord out.length }) StatusFlags.none

/-- SLICE. -/
def execSlice (s : State) : Host.Outcome State Fault Refusal := finish (stageSlice s)

/-! ## The greedy decoder -/

/-- The error of one valid entry, if any: empty key, key above 32 bits, value above 4 bytes, in this order
(43_slicer_sync_decoder.md R261). The number is the reason of 60_exceptions.md R301. -/
def decEntryError (x : DecEntry) : Option Nat :=
  if !x.present then none
  else if x.klen = 0 then some 2
  else if Config.MAX_KEY_BITS < x.klen then some 1
  else if Config.MAX_VALUE_BYTES < x.vlen then some 3
  else none

/-- The first entry, in ascending order, with an error, and its reason (43_slicer_sync_decoder.md R261). -/
def badDecEntryFrom : Nat → List DecEntry → Option (Nat × Nat)
  | _, [] => none
  | e, x :: xs =>
    match decEntryError x with
    | some reason => some (e, reason)
    | none => badDecEntryFrom (e + 1) xs

/-- Lexicographic order on bit strings: a proper prefix is smaller, and 0 < 1 (00_scope.md R13). -/
def lexLess : List Bool → List Bool → Bool
  | [], [] => false
  | [], _ :: _ => true
  | _ :: _, [] => false
  | a :: as, b :: bs => if a = b then lexLess as bs else b

/-- The greater of the best key so far and a key: a later entry wins only if it is strictly greater, so of equal keys the
lowest entry is kept (43_slicer_sync_decoder.md R262). -/
def betterKey (best : Option DecEntry) (x : DecEntry) : Option DecEntry :=
  match best with
  | none => some x
  | some y => if lexLess y.keyBits x.keyBits then some x else some y

/-- Whether an entry is in the dictionary and its key is a prefix of the bits from position i on
(43_slicer_sync_decoder.md R262). -/
def keyMatches (bits : List Bool) (x : DecEntry) : Bool := x.present && x.keyBits.isPrefixOf bits

/-- `match(i)` on the bits from position i on (43_slicer_sync_decoder.md R262). -/
def matchAt (table : List DecEntry) (bits : List Bool) : Option DecEntry :=
  (table.filter (keyMatches bits)).foldl betterKey none

/-- The completed tokens of `greedy_decode` (43_slicer_sync_decoder.md R264): `tok` is the token in progress, `skip` the
number of bits of the last key still to pass, the list the bits from the current position on. A token still open at the end is
dropped (R265). -/
def greedyTokens (table : List DecEntry) : List Byte → Nat → List Bool → List (List Byte)
  | _, _, [] => []
  | tok, skip + 1, _ :: bits => greedyTokens table tok skip bits
  | tok, 0, b :: bits =>
    match matchAt table (b :: bits) with
    | some x => greedyTokens table (tok ++ x.valBytes) (x.klen - 1) bits
    | none => if tok.isEmpty then greedyTokens table [] 0 bits else tok :: greedyTokens table [] 0 bits

/-- The exclusive end offsets of the tokens (10_state.md R71). -/
def tokenEnds : Nat → List (List Byte) → List Nat
  | _, [] => []
  | at0, t :: ts => (at0 + t.length) :: tokenEnds (at0 + t.length) ts

/-- The capacity check and the writes of a decode (43_slicer_sync_decoder.md R260, R267), with the registers `regs` of the
command that ran it. -/
def tokenWrites (s : State) (tokens : List (List Byte)) (regs : Regs) (flags : StatusFlags) : StageResult :=
  let data := tokens.flatten
  if s.params.tokdDepth < data.length then .fail s .overflow (overflowInfo .tokd)
  else if s.params.tokeDepth < tokens.length then .fail s .overflow (overflowInfo .toke)
  else
    .done
      (((s.writeBytes .tokd data).writeBytes .toke (bytesOfWords ((tokenEnds 0 tokens).map natWord))).withRegs
        { regs with tokdLen := natWord data.length, tokCount := natWord tokens.length })
      flags

/-! ## SYNC -/

/-- The least index at or after `j` at which the pattern occurs (43_slicer_sync_decoder.md R251). -/
def firstOccurrence (p : List Bool) : Nat → List Bool → Option Nat
  | j, [] => if p.isEmpty then some j else none
  | j, b :: bits => if p.isPrefixOf (b :: bits) then some j else firstOccurrence p (j + 1) bits

/-- SYNC (43_slicer_sync_decoder.md R250). -/
def stageSync (s : State) : StageResult :=
  let B := zext s.regs.bitsLen
  if s.params.bitsDepth < B then .fail s .param (paramInfo .bitsLen)
  else if Config.MAX_SYNC_BITS < zext s.regs.syncLen then .fail s .param (paramInfo .syncLen)
  else
    match badDecEntryFrom 0 (decTable s) with
    | some (e, reason) => .fail s .dict (dictInfo dictTableDec e reason)
    | none =>
      withRead (readBitString s B) fun bits =>
        match firstOccurrence (syncPattern s.regs) 0 bits with
        | none =>
          .done (s.withRegs { s.regs with syncIdx := 0xFFFFFFFF#32, tokCount := 0, tokdLen := 0 })
            { StatusFlags.none with premiss := true }
        | some j =>
          tokenWrites s (greedyTokens (decTable s) [] 0 (bits.drop j)) { s.regs with syncIdx := natWord j }
            { StatusFlags.none with synced := true }

/-- SYNC. -/
def execSync (s : State) : Host.Outcome State Fault Refusal := finish (stageSync s)

/-! ## DECODE -/

/-- DECODE (43_slicer_sync_decoder.md R260). -/
def stageDecode (s : State) : StageResult :=
  let B := zext s.regs.bitsLen
  if s.params.bitsDepth < B then .fail s .param (paramInfo .bitsLen)
  else if B < zext s.regs.decStart then .fail s .param (paramInfo .decStart)
  else
    match badDecEntryFrom 0 (decTable s) with
    | some (e, reason) => .fail s .dict (dictInfo dictTableDec e reason)
    | none =>
      withRead (readBitString s B) fun bits =>
        tokenWrites s (greedyTokens (decTable s) [] 0 (bits.drop (zext s.regs.decStart))) s.regs StatusFlags.none

/-- DECODE. -/
def execDecode (s : State) : Host.Outcome State Fault Refusal := finish (stageDecode s)

/-! ## RX_CHAIN -/

/-- RX_CHAIN (43_slicer_sync_decoder.md R270): PREPROCESS, DETECT, SLICE, SYNC, each on the state the stages before it left;
INSUF from DETECT ends the chain; the flags are those of the stages that ran. -/
def stageRxChain (s : State) : StageResult :=
  (stagePreprocess s).thenStage fun s1 f1 =>
    (stageDetect s1).thenStage fun s2 f2 =>
      if f2.insuf then .done s2 (f1.union f2)
      else
        (stageSlice s2).thenStage fun s3 f3 =>
          (stageSync s3).thenStage fun s4 f4 => .done s4 (((f1.union f2).union f3).union f4)

/-- RX_CHAIN. -/
def execRxChain (s : State) : Host.Outcome State Fault Refusal := finish (stageRxChain s)

end Sys2Proof.Machine
end

