-- ==== Sys2Proof/Machine/Dispatch.lean ====
section
/-! DEFINITION. The meaning of each command (30_encoding.md R111): one arm per constructor of Instr. -/

namespace Sys2Proof.Machine

def exec (i : Instr) (s : State) : Host.Outcome State Fault Refusal :=
  match i with
  | .nop => Sys2Proof.Machine.execNop s
  | .genCarrier => Sys2Proof.Machine.execGenCarrier s
  | .encode => Sys2Proof.Machine.execEncode s
  | .generate => Sys2Proof.Machine.execGenerate s
  | .txChain => Sys2Proof.Machine.execTxChain s
  | .preprocess => Sys2Proof.Machine.execPreprocess s
  | .detect => Sys2Proof.Machine.execDetect s
  | .slice => Sys2Proof.Machine.execSlice s
  | .sync => Sys2Proof.Machine.execSync s
  | .decode => Sys2Proof.Machine.execDecode s
  | .rxChain => Sys2Proof.Machine.execRxChain s

end Sys2Proof.Machine
end

