-- ==== Sys2Proof/Machine/Step.lean ====
section
/-! DEFINITION. One step of the machine (20_memory.md R92: the total order of transactions and completions). -/

namespace Sys2Proof.Machine

/-- The completion step of the running command (40_control.md R142): decode CMD and run the command; an illegal word ends in
Error(ILLEGAL, w) (R149). -/
def runCommand (s : State) : Host.Outcome State Fault Refusal :=
  match decodeWord s.regs.cmd with
  | .ok i => exec i s
  | .error _ => execIllegal s

/-- One step: the completion of the running command, one host action, or nothing. -/
def step (s : State) : Host.Outcome State Fault Refusal :=
  match nextEvent s with
  | .quiet => .next s
  | .completion => runCommand s
  | .action x rest => .next (serve s x rest)

/-- The state in which the command word `w` of `nbits` bits has just been issued (40_control.md R140) and no host action
waits, so that the very next step is its completion. Log 3. -/
def State.withFetchWord (s : State) (nbits w : Nat) : State := (s.issue (tableWord nbits w)).withInbox []

end Sys2Proof.Machine
end

