-- ==== Sys2Proof/Machine/HostProgram.lean ====
section
/-! DEFINITION. Host programs: the expansion of a program line into host actions (30_encoding.md R118, R119). -/

namespace Sys2Proof.Machine

/-- `wr A, V` (30_encoding.md R118). -/
def wr (addr : Nat) (v : Word) : HostAction := .write (natWord addr) v 0b1111#4

/-- The words of a byte list, bytes past the end taken as 0 (30_encoding.md R119, `wrbytes`). -/
def paddedWords : List Byte → List Word
  | [] => []
  | [b0] => [bytesWord b0 0 0 0]
  | [b0, b1] => [bytesWord b0 b1 0 0]
  | [b0, b1, b2] => [bytesWord b0 b1 b2 0]
  | b0 :: b1 :: b2 :: b3 :: rest => bytesWord b0 b1 b2 b3 :: paddedWords rest

/-- Writes of consecutive words from an address on. -/
def wrWords : Nat → List Word → List HostAction
  | _, [] => []
  | addr, v :: vs => wr addr v :: wrWords (addr + 4) vs

/-- Word q of a bit string (30_encoding.md R119, `wrbits`). -/
def bitStringWord (bits : List Bool) (q : Nat) : Word := bitsWord ((bits.drop (32 * q)).take 32)

/-- `code(s)`: the sum of s[j] << j (30_encoding.md R119). -/
def codeWord (bits : List Bool) : Word := bitsWord bits

/-- The host actions of one program line (30_encoding.md R118, R119). -/
def HostOp.expand : HostOp → List HostAction
  | .wr a v => [wr a.toNat v]
  | .rd a => [.read a]
  | .cmd i => [wr Reg.cmd.offset (encode i)]
  | .wait => [.wait]
  | .wrbytes a bs => wrWords a.toNat (paddedWords bs)
  | .wrbits a bits =>
    wrWords a.toNat ((List.range ((bits.length + 31) / 32)).map (bitStringWord bits))
  | .enc c code =>
    [wr (0x1000 + 8 * c.toNat) (codeWord code), wr (0x1004 + 8 * c.toNat) (natWord (0x80000000 + code.length))]
  | .dec e key value =>
    [wr (0x2000 + 16 * e) (codeWord key),
     wr (0x2004 + 16 * e) (natWord (0x80000000 + 256 * value.length + key.length)),
     wr (0x2008 + 16 * e) (((paddedWords value).head?).getD 0)]

/-- The host actions of a program, in order. -/
def expandProgram (ops : List HostOp) : List HostAction := ops.flatMap HostOp.expand

/-- A state with a host program waiting after what already waits: how a program comes to run (log 3). -/
def State.withProgram (s : State) (ops : List HostOp) : State := s.withInbox (s.inbox ++ expandProgram ops)

end Sys2Proof.Machine
end

