-- ==== Sys2Proof/Safety.lean ====
section
/-! DEFINITION. What counts as a safe run, and the terms in which claims speak of a command's effect: what the memories hold,
what a command stores, the state after a completion, the operands a command needs (70_reset_and_hazards.md R350), and the
invariant of the machine. -/

namespace Sys2Proof.Safety

open Sys2Proof.Machine

/-! ## What memories hold -/

/-- The first bytes of a byte memory are specified and are `bs`. -/
def HoldsBytes (s : State) (w : Window) (bs : List Byte) : Prop :=
  ∀ j, j < bs.length → s.windowByte w j = bs[j]?

/-- The first bits of SYM are specified and are `bs`. -/
def HoldsSym (s : State) (bs : List Bool) : Prop := ∀ i, i < bs.length → s.symAt i = bs[i]?

/-- The first bits of BITS are specified and are `bs`. -/
def HoldsBits (s : State) (bs : List Bool) : Prop := ∀ i, i < bs.length → s.bitsAt i = bs[i]?

/-- The byte at address `a` after `stores`, a list of windows each with the bytes stored from its first byte on: the stored
byte inside one of them, `old` outside all of them. -/
def storedOr : List (Window × List Byte) → Nat → Option Byte → Option Byte
  | [], _, old => old
  | (w, bs) :: rest, a, old => if w.base ≤ a ∧ a < w.base + bs.length then bs[a - w.base]? else storedOr rest a old

/-- `t` is `s` after a completion step that left the registers `regs`, stored `bytes` in the byte memories, `sym` at the start
of SYM and `bits` at the start of BITS, and changed nothing else: SEQ is IDLE, every other byte of every memory and every other
bit of SYM and BITS reads as before, and the bus port and the parameters are as before. -/
structure After (s t : State) (regs : Regs) (bytes : List (Window × List Byte)) (sym bits : List Bool) : Prop where
  seq : t.seq = .idle
  regs : t.regs = regs
  byteAt : ∀ a, t.byteAt a = storedOr bytes a (s.byteAt a)
  symAt : ∀ i, t.symAt i = if i < sym.length then sym[i]? else s.symAt i
  bitsAt : ∀ i, t.bitsAt i = if i < bits.length then bits[i]? else s.bitsAt i
  inbox : t.inbox = s.inbox
  responses : t.responses = s.responses
  served : t.served = s.served
  params : t.params = s.params

/-- The registers after a successful completion (40_control.md R143) that raises the flags `f`, `r` being the registers after
the command's own writes. -/
def okRegs (r : Regs) (f : StatusFlags) : Regs :=
  { r with
    status :=
      { done := true
        err := r.status.err || f.err
        insuf := r.status.insuf || f.insuf
        premiss := r.status.premiss || f.premiss
        unksym := r.status.unksym || f.unksym
        synced := r.status.synced || f.synced }
    errCode := 0
    errInfo := 0 }

/-- The registers after an error completion (60_exceptions.md R303). -/
def errRegs (r : Regs) (code : BitVec 4) (info : Word) : Regs :=
  { r with
    status := { r.status with done := true, err := true }
    errCode := code
    errInfo := info }

/-- No flag but DONE. -/
def noFlags : StatusFlags := ⟨false, false, false, false, false, false⟩
/-- INSUF. -/
def flagInsuf : StatusFlags := ⟨false, false, true, false, false, false⟩
/-- PREMISS. -/
def flagPremiss : StatusFlags := ⟨false, false, false, true, false, false⟩
/-- SYNCED. -/
def flagSynced : StatusFlags := ⟨false, false, false, false, false, true⟩

/-- The command ends in the error completion with ERRCODE `code` and ERRINFO `info`, and no output of it is written
(60_exceptions.md R303). -/
def FailsWith (i : Instr) (s : State) (code : BitVec 4) (info : Word) : Prop :=
  ∃ t, exec i s = .next t ∧ After s t (errRegs s.regs code info) [] [] []

/-! ## The host's duties -/

/-- Every element that the command reads is specified: the elements below the lengths it uses (70_reset_and_hazards.md R350,
30_encoding.md R114). A chain's later stages read what its earlier stages wrote. -/
def OperandsSpecified (i : Instr) (s : State) : Prop :=
  match i with
  | .nop | .genCarrier => True
  | .encode => ∀ j, j < s.regs.msgLen.toNat → (s.windowByte .msg j).isSome
  | .generate =>
      (∀ j, j < s.regs.pktLen.toNat → (s.windowByte .pkt j).isSome) ∧
        ∀ j, j < 4 * s.regs.clutLen.toNat → (s.windowByte .clut j).isSome
  | .txChain =>
      (∀ j, j < s.regs.msgLen.toNat → (s.windowByte .msg j).isSome) ∧
        ∀ j, j < 4 * s.regs.clutLen.toNat → (s.windowByte .clut j).isSome
  | .preprocess | .rxChain => ∀ j, j < s.regs.rxLen.toNat → (s.windowByte .rxb j).isSome
  | .detect => ∀ j, j < 8 * s.regs.sigLen.toNat → (s.windowByte .sig j).isSome
  | .slice => ∀ i, i < s.regs.symLen.toNat → (s.symAt i).isSome
  | .sync | .decode => ∀ i, i < s.regs.bitsLen.toNat → (s.bitsAt i).isSome

/-- Element `k` of a window is unspecified: a byte, or a bit of SYM or BITS. -/
def Unspecified (s : State) (w : Window) (k : Nat) : Prop :=
  match w with
  | .sym => s.symAt k = none
  | .bits => s.bitsAt k = none
  | .enc | .dec | .clut | .msg | .pkt | .txb | .rxb | .sig | .env | .tokd | .toke => s.windowByte w k = none

/-- A run is safe when none of its first k steps stops. -/
def SafeFor (k : Nat) (s : State) : Prop :=
  match k with
  | 0 => True
  | k + 1 => ∃ t, step s = .next t ∧ SafeFor k t

/-! ## The invariant -/

/-- What holds of the machine at all times: the memories are in canonical form and hold nothing outside their windows, reserved
bits read 0 (20_memory.md R87), ERRCODE is one of 0 to 7 (60_exceptions.md R300), and while a command runs the flags, ERRCODE and
ERRINFO are as its issue left them (40_control.md R140). -/
structure Inv (s : State) : Prop where
  memory : s.memWf = true
  bytesMapped : ∀ e ∈ s.mem, ∃ w : Window, w.isBits = false ∧ w.contains s.params e.1 = true
  symMapped : ∀ e ∈ s.symMem, e.1 < s.params.sigDepth
  bitsMapped : ∀ e ∈ s.bitsMem, e.1 < s.params.bitsDepth
  reserved : ∀ (w : Window) (index : Nat) (free : Word), w.isBits = false → 4 * index < w.size s.params →
    windowWord s w index free &&& ~~~(w.definedBits index) = 0
  errCode : s.regs.errCode.toNat ≤ 7
  busyClean : s.seq = .busy → s.regs.status = noFlags ∧ s.regs.errCode = 0 ∧ s.regs.errInfo = 0

/-! ## What the transmit commands compute, from the rules -/

/-- The packet of a message (41_modulator.md R166): each byte's codeword as '1' and '0' bytes, or the byte itself where the
encode dictionary has no entry for it. -/
def packetOf (s : State) (msg : List Byte) : List Byte :=
  msg.flatMap fun c =>
    if (encEntry s c.toNat).present then
      (List.range (encEntry s c.toNat).clen).map fun j =>
        if (encEntry s c.toNat).code.getLsbD j then 0x31#8 else 0x30#8
    else [c]

/-- No valid entry of the encode dictionary has CLEN above 32 (41_modulator.md R166, check 2). -/
def EncTableLegal (s : State) : Prop := ∀ c, c < 256 → (encEntry s c).present = true → (encEntry s c).clen ≤ 32

/-- The samples a packet emits (41_modulator.md R168). -/
def packetSamples (L P : Nat) (pkt : List Byte) : Nat :=
  (pkt.map fun c => if c = 0x31#8 ∨ c = 0x30#8 then L else if c = 0x70#8 then P else 0).sum

/-- The waveform of a packet (41_modulator.md R168), `table` being the (I, Q) bytes of CLUT[0..N). -/
def waveOf (table : List (Byte × Byte)) (N L P : Nat) (pkt : List Byte) : List Byte :=
  pkt.flatMap fun c =>
    if c = 0x31#8 then (List.replicate (L / N) (table.flatMap fun z => [z.1, z.2])).flatten
    else if c = 0x30#8 then List.replicate (2 * L) 0
    else if c = 0x70#8 then List.replicate (2 * P) 0
    else []

/-- The unknown symbols of a packet with their indices (41_modulator.md R170). -/
def unknownsOf (pkt : List Byte) : List (Byte × Nat) :=
  pkt.zipIdx.filter fun x => x.1 ≠ 0x31#8 ∧ x.1 ≠ 0x30#8 ∧ x.1 ≠ 0x70#8 ∧ x.1 ≠ 0x20#8

/-- The registers GENERATE writes (41_modulator.md R167). -/
def generateRegs (r : Regs) (wave pkt : List Byte) : Regs :=
  { r with
    txLen := BitVec.ofNat 32 wave.length
    unkCount := BitVec.ofNat 32 (unknownsOf pkt).length
    unkPos := ((unknownsOf pkt).head?.map fun x => BitVec.ofNat 32 x.2).getD 0xFFFFFFFF#32
    unkVal := ((unknownsOf pkt).head?.map fun x => x.1).getD 0 }

/-- The flag GENERATE raises (41_modulator.md R170). -/
def generateFlags (pkt : List Byte) : StatusFlags := { noFlags with unksym := decide (0 < (unknownsOf pkt).length) }

/-- The carrier table in CLUT[0..N) is specified and is `table`. -/
def HoldsCarrier (s : State) (table : List (Byte × Byte)) : Prop :=
  ∀ k, k < table.length →
    s.windowByte .clut (4 * k) = (table[k]?).map Prod.fst ∧ s.windowByte .clut (4 * k + 1) = (table[k]?).map Prod.snd

/-- What GENERATE needs of a packet to complete without error (41_modulator.md R167, checks 2 and 3), and of the carrier table
where it emits '1' segments. -/
def GenerateReady (s : State) (table : List (Byte × Byte)) (pkt : List Byte) : Prop :=
  let N := s.regs.clutLen.toNat
  let L := s.regs.txSymLen.toNat
  N ≤ s.params.clutDepth ∧ (0x31#8 ∈ pkt → N ≠ 0 ∧ L % N = 0) ∧
    (0x31#8 ∈ pkt → L ≠ 0 → table.length = N ∧ HoldsCarrier s table) ∧
      2 * packetSamples L s.regs.pauseLen.toNat pkt ≤ s.params.txbDepth

/-! ## What the receive commands compute, from the rules -/

/-- The I rail of an IQ byte buffer: the even-indexed bytes as signed numbers (42_demodulator.md R200). -/
def railI (bytes : List Byte) : List Int := (List.range (bytes.length / 2)).map fun n => (bytes.getD (2 * n) 0).toInt

/-- The Q rail: the odd-indexed bytes (42_demodulator.md R200). -/
def railQ (bytes : List Byte) : List Int := (List.range (bytes.length / 2)).map fun n => (bytes.getD (2 * n + 1) 0).toInt

/-- The rounded mean of a rail in Q.8 (42_demodulator.md R202). -/
def meanOf (rail : List Int) : Int := rne (256 * rail.sum) rail.length

/-- The complex signal of an IQ byte buffer in Q.8 (42_demodulator.md R200). -/
def signalOf (bytes : List Byte) : List (Int × Int) :=
  List.zipWith (fun i q => (256 * i - meanOf (railI bytes), 256 * q - meanOf (railQ bytes))) (railI bytes) (railQ bytes)

/-- The bytes of a complex signal in SIG (10_state.md R68). -/
def signalBytes (sig : List (Int × Int)) : List Byte :=
  bytesOfWords (sig.flatMap fun z => [BitVec.ofInt 32 z.1, BitVec.ofInt 32 z.2])

/-- `lo`, `hi` are the order statistics of w that R214 of 42_demodulator.md names. -/
def Percentiles (w : List Int) (lo hi : Int) : Prop :=
  ∃ sorted : List Int, sorted.Perm w ∧ sorted.Pairwise (· ≤ ·) ∧ sorted[w.length / 32]? = some lo ∧
    sorted[31 * w.length / 32]? = some hi

/-- The registers DETECT writes, but SYM_LEN (42_demodulator.md R210). -/
def detectRegs (r : Regs) (lo hi : Int) : Regs :=
  { r with thresh := BitVec.ofInt 32 (hi - lo), lo := BitVec.ofInt 32 lo, hi := BitVec.ofInt 32 hi }

/-- RX_CHAIN on the IQ bytes `bytes` ends in the error completion with ERRCODE `code` and ERRINFO `info` after PREPROCESS, DETECT
and SLICE have run: their outputs stay, the symbols `sym` and the bits `bits` among them, and nothing else is written
(43_slicer_sync_decoder.md R270). -/
def RxChainFailsInSync (s : State) (bytes : List Byte) (lo hi : Int) (sym bits : List Bool) (code : BitVec 4) (info : Word) :
    Prop :=
  ∃ t, exec .rxChain s = .next t ∧
    After s t
      (errRegs
        { detectRegs s.regs lo hi with
          sigLen := BitVec.ofNat 32 (bytes.length / 2)
          meanI := BitVec.ofInt 32 (meanOf (railI bytes))
          meanQ := BitVec.ofInt 32 (meanOf (railQ bytes))
          symLen := BitVec.ofNat 32 (bytes.length / 2)
          bitsLen := BitVec.ofNat 32 bits.length } code info)
      [(.sig, signalBytes (signalOf bytes)),
       (.env, bytesOfWords ((envelope s.regs (signalOf bytes)).map (BitVec.ofInt 32)))] sym bits

/-- No valid entry of the decode dictionary is illegal (43_slicer_sync_decoder.md R261). -/
def DecTableLegal (s : State) : Prop :=
  ∀ e, e < s.params.decEntries → (decEntry s e).present = true →
    1 ≤ (decEntry s e).klen ∧ (decEntry s e).klen ≤ 32 ∧ (decEntry s e).vlen ≤ 4

/-- j is the first index at which the pattern occurs in the bits (43_slicer_sync_decoder.md R251). -/
def FirstOccurrence (p bits : List Bool) (j : Nat) : Prop :=
  p.isPrefixOf (bits.drop j) = true ∧ ∀ i, i < j → p.isPrefixOf (bits.drop i) = false

/-- The token end offsets (10_state.md R71). -/
def endOffsets (tokens : List (List Byte)) : List Word :=
  (List.range tokens.length).map fun t => BitVec.ofNat 32 (tokens.take (t + 1)).flatten.length

/-- What a decode stores (43_slicer_sync_decoder.md R260). -/
def tokenStores (tokens : List (List Byte)) : List (Window × List Byte) :=
  [(.tokd, tokens.flatten), (.toke, bytesOfWords (endOffsets tokens))]

/-- The registers a decode writes (43_slicer_sync_decoder.md R260). -/
def tokenRegs (r : Regs) (tokens : List (List Byte)) : Regs :=
  { r with tokdLen := BitVec.ofNat 32 tokens.flatten.length, tokCount := BitVec.ofNat 32 tokens.length }

/-- The tokens fit their windows in a block with the parameters P (43_slicer_sync_decoder.md R267). -/
def TokensFit (P : Params) (tokens : List (List Byte)) : Prop :=
  tokens.flatten.length ≤ P.tokdDepth ∧ tokens.length ≤ P.tokeDepth

/-- The loop of 43_slicer_sync_decoder.md R264, literally: position i, token in progress, data and ends so far; `fuel` bounds
the number of rounds. -/
def greedyLoop (table : List DecEntry) (bits : List Bool) :
    Nat → Nat → List Byte → List Byte → List Nat → List Byte × List Nat
  | 0, _, _, data, ends => (data, ends)
  | fuel + 1, i, tok, data, ends =>
    if i < bits.length then
      match matchAt table (bits.drop i) with
      | some x => greedyLoop table bits fuel (i + x.klen) (tok ++ x.valBytes) data ends
      | none =>
        if 0 < tok.length then
          greedyLoop table bits fuel (i + 1) [] (data ++ tok) (ends ++ [(data ++ tok).length])
        else greedyLoop table bits fuel (i + 1) tok data ends
    else (data, ends)

/-! ## The bus, from the rules -/

/-- A place of the address map (20_memory.md R82): a register's offset, or an address in the part of a memory in use. -/
def Mapped (P : Params) (a : Nat) : Prop :=
  (∃ r : Reg, r.offset = a) ∨ ∃ w : Window, w.base ≤ a ∧ a < w.base + w.size P

/-- The read-only registers (20_memory.md R87). -/
def readOnlyRegisters : List Reg :=
  [.id, .version, .capClut, .capMsg, .capPkt, .capTxb, .capRxb, .capSig, .capBits, .capTokd, .capToke, .capDec, .errCode,
   .errInfo, .txLen, .unkCount, .unkPos, .unkVal, .meanI, .meanQ, .thresh, .lo, .hi, .syncIdx, .tokCount, .tokdLen]

/-- The read-write registers (10_state.md R38 to R62). -/
def readWriteRegisters : List Reg :=
  [.irqEn, .fs, .fc, .amp, .clutLen, .txSymLen, .pauseLen, .msgLen, .pktLen, .rxLen, .sigLen, .filtB0, .filtB1, .filtA1,
   .threshMin, .symLen, .rxSymLen, .bitsLen, .syncLen, .syncPat0, .syncPat1, .decStart]

/-- The registers whose value a read returns while SEQ is BUSY (20_memory.md R90). -/
def readableRegisters : List Reg :=
  [.id, .version, .capClut, .capMsg, .capPkt, .capTxb, .capRxb, .capSig, .capBits, .capTokd, .capToke, .capDec, .ctrl,
   .cmd, .status, .irqEn]

/-- What a read-write register reads as after a write of v (10_state.md R38, R43, R54): reserved bits 0, FILT_* sign-extended. -/
def readBack (r : Reg) (v : Word) : Word :=
  match r with
  | .irqEn => v &&& 0x0000007E#32
  | .amp => v &&& 0x0000007F#32
  | .filtB0 => (v.setWidth 18).signExtend 32
  | .filtB1 => (v.setWidth 18).signExtend 32
  | .filtA1 => (v.setWidth 18).signExtend 32
  | _ => v

/-- The reserved bits of a register (10_state.md R35, R37, R38, R39, R43, R50). -/
def reservedBits (r : Reg) : Word :=
  match r with
  | .ctrl => 0xFFFFFFFE#32
  | .status => 0xFFFFFF80#32
  | .irqEn => 0xFFFFFF81#32
  | .errCode => 0xFFFFFFF0#32
  | .amp => 0xFFFFFF80#32
  | .unkVal => 0xFFFFFF00#32
  | _ => 0x00000000#32

/-! ## What a command may write, from the rules -/

/-- The registers a command writes on completion, besides STATUS, ERRCODE and ERRINFO (10_state.md R76). -/
def registersWritten : Instr → List Reg
  | .nop => []
  | .genCarrier => [.clutLen]
  | .encode => [.pktLen]
  | .generate => [.txLen, .unkCount, .unkPos, .unkVal]
  | .txChain => [.pktLen, .txLen, .unkCount, .unkPos, .unkVal]
  | .preprocess => [.sigLen, .meanI, .meanQ]
  | .detect => [.thresh, .lo, .hi, .symLen]
  | .slice => [.bitsLen]
  | .sync => [.syncIdx, .tokCount, .tokdLen]
  | .decode => [.tokCount, .tokdLen]
  | .rxChain =>
    [.sigLen, .meanI, .meanQ, .thresh, .lo, .hi, .symLen, .bitsLen, .syncIdx, .tokCount, .tokdLen]

/-- Elements of a window: its bytes, or its bits (20_memory.md R82). -/
def elements (P : Params) (w : Window) : Nat := if w.isBits then 8 * w.size P else w.size P

/-- How many elements of a window the last command may have written, by the lengths it left (10_state.md R76). -/
def writtenLength (r : Regs) : Window → Nat
  | .clut => 4 * r.clutLen.toNat
  | .pkt => r.pktLen.toNat
  | .txb => r.txLen.toNat
  | .sig => 8 * r.sigLen.toNat
  | .env => 4 * r.sigLen.toNat
  | .sym => r.symLen.toNat
  | .bits => r.bitsLen.toNat
  | .tokd => r.tokdLen.toNat
  | .toke => 4 * r.tokCount.toNat
  | .enc | .dec | .msg | .rxb => 0

/-- Element k of a window reads the same in both states. -/
def SameElement (s t : State) (w : Window) (k : Nat) : Prop :=
  match w with
  | .sym => t.symAt k = s.symAt k
  | .bits => t.bitsAt k = s.bitsAt k
  | .enc | .dec | .clut | .msg | .pkt | .txb | .rxb | .sig | .env | .tokd | .toke => t.windowByte w k = s.windowByte w k

/-- The windows a command reads (30_encoding.md R114). -/
def windowsRead : Instr → List Window
  | .nop | .genCarrier => []
  | .encode => [.msg, .enc]
  | .generate => [.pkt, .clut]
  | .txChain => [.msg, .enc, .pkt, .clut]
  | .preprocess => [.rxb]
  | .detect => [.sig]
  | .slice => [.sym]
  | .sync | .decode => [.bits, .dec]
  | .rxChain => [.rxb, .sig, .sym, .bits, .dec]

/-- n steps lead from s to t, none of them stopping. -/
def StepsTo : Nat → State → State → Prop
  | 0, s, t => t = s
  | n + 1, s, t => ∃ u, step s = .next u ∧ StepsTo n u t

/-! ## Dictionaries that are inverse to each other -/

/-- The premises of 43_slicer_sync_decoder.md R266 on the two tables: non-empty, prefix-free codewords, and the decode
dictionary maps exactly the codewords, each to its symbol. -/
structure InverseTables (s : State) : Prop where
  lengths : ∀ c, c < 256 → (encEntry s c).present = true → 1 ≤ (encEntry s c).clen ∧ (encEntry s c).clen ≤ 32
  prefixFree : ∀ c d, c < 256 → d < 256 → c ≠ d → (encEntry s c).present = true → (encEntry s d).present = true →
    (encEntry s c).codeBits.isPrefixOf (encEntry s d).codeBits = false
  mapped : ∀ c, c < 256 → (encEntry s c).present = true → ∃ e, e < s.params.decEntries ∧ (decEntry s e).present = true ∧
    (decEntry s e).keyBits = (encEntry s c).codeBits ∧ (decEntry s e).valBytes = [BitVec.ofNat 8 c]
  onlyMapped : ∀ e, e < s.params.decEntries → (decEntry s e).present = true → ∃ c, c < 256 ∧
    (encEntry s c).present = true ∧ (decEntry s e).keyBits = (encEntry s c).codeBits ∧
      (decEntry s e).valBytes = [BitVec.ofNat 8 c]

/-- The bit string of an encoded message (43_slicer_sync_decoder.md R266). -/
def messageBits (s : State) (msg : List Byte) : List Bool := msg.flatMap fun c => (encEntry s c.toNat).codeBits

/-- Consecutive maximal runs: values and lengths of at least 1, neighbours of different value
(43_slicer_sync_decoder.md R240). -/
def MaximalRuns (rs : List (Bool × Nat)) : Prop :=
  (∀ x ∈ rs, 1 ≤ x.2) ∧ rs.IsChain fun x y => x.1 ≠ y.1

/-- The bit string with the given runs. -/
def runsExpand (rs : List (Bool × Nat)) : List Bool := rs.flatMap fun x => List.replicate x.2 x.1

/-- What SLICE emits for the given runs (43_slicer_sync_decoder.md R240, R241, R242). -/
def runsEmit (L : Nat) (rs : List (Bool × Nat)) : List Bool :=
  rs.flatMap fun x => if L ≤ x.2 then List.replicate (rne x.2 L).toNat x.1 else []

/-! ## Rounding of real numbers -/

/-- `rne_real(x) = n` (00_scope.md R9): n is the integer nearest to x, ties to the even integer. -/
def RoundsTo (x : ℝ) (n : ℤ) : Prop := |x - n| ≤ 1 / 2 ∧ (|x - n| = 1 / 2 → Even n)

end Sys2Proof.Safety
end

