-- ==== Sys2Proof/Certificates/Slice0/Obligations.lean ====
section
/-! DEFINITION. The statements for the provers. A command's statement has the form: under hypotheses on the state and the
operands, `exec` answers a next state t, and `After` says every register, every byte and every bit of t. A statement about
every state is one about every legal choice of the parameters of 00_scope.md R5, `s.params` (log 1). -/

section Statements

open Sys2Proof Sys2Proof.Machine Sys2Proof.Safety

/-! ## Arithmetic -/

/-- 00_scope.md R9, R10: rne is the nearest integer, ties to the even one, and so is rne_real, which every real number has
exactly one value of; isqrt(n) is the largest m with m*m <= n; sat32 clamps to [-2^31, 2^31 - 1]. -/
def Obligations.ArithmeticPrimitives : Prop :=
  (∀ a b : Int, 0 < b → RoundsTo ((a : ℝ) / (b : ℝ)) (rne a b)) ∧ (∀ x : ℝ, ∃! n : ℤ, RoundsTo x n) ∧
  (∀ n : Nat, isqrt n * isqrt n ≤ n ∧ ∀ m : Nat, m * m ≤ n → m ≤ isqrt n) ∧
  (∀ x : Int, sat32 x = max (-2 ^ 31) (min x (2 ^ 31 - 1)))

/-! ## Encoding and the step -/

/-- 30_encoding.md R110, R111: decoding the command word of a command gives the command back. -/
def Obligations.DecodeEncodeAgree : Prop := ∀ i : Instr, i.wellFormed = true → decodeWord (encode i) = .ok i

/-- 30_encoding.md R112: a word is legal exactly when w[31:8] = 0 and w[7:0] is one of the eleven OPCODE values; a legal word
selects exactly the command of that OPCODE, the whole word being matched; issuing any other word completes with ILLEGAL. -/
def Obligations.LegalWordsAreTheEncodings : Prop :=
  (∀ w : Word, (∃ i, decodeWord w = .ok i) ↔
    w.extractLsb' 8 24 = 0 ∧
      (w.extractLsb' 0 8).toNat ∈ [0x00, 0x01, 0x02, 0x03, 0x0F, 0x10, 0x11, 0x12, 0x13, 0x14, 0x1F]) ∧
  (∀ (w : Word) (i : Instr), decodeWord w = .ok i ↔ w = encode i) ∧
  (∀ (w : Word) (s : State), s.inbox = [] → (∀ i, w ≠ encode i) →
    ∃ t, step (s.issue w) = .next t ∧ After (s.issue w) t (errRegs (s.issue w).regs 1 w) [] [] [])

/-- 30_encoding.md R111: words written out from the opcode map, and four words of the illegal space (R113). -/
def Obligations.DecodeWrittenWords : Prop :=
  decodeWord 0x00000000#32 = .ok .nop ∧ decodeWord 0x00000001#32 = .ok .genCarrier ∧
  decodeWord 0x0000000F#32 = .ok .txChain ∧ decodeWord 0x00000011#32 = .ok .detect ∧
  decodeWord 0x0000001F#32 = .ok .rxChain ∧
  decodeWord 0x00000004#32 = .error (.unassignedOpcode 0x00000004#32) ∧
  decodeWord 0x00000020#32 = .error (.unassignedOpcode 0x00000020#32) ∧
  decodeWord 0x00000101#32 = .error (.reservedBits 0x00000101#32) ∧
  decodeWord 0x80000000#32 = .error (.reservedBits 0x80000000#32)

/-- A step runs the decoded command (40_control.md R142): while SEQ is BUSY and no host action waits, or the host is in `wait`,
the step is the completion; with another host action waiting, the free choice of log 6 (70_reset_and_hazards.md R355) says
whether the completion or that action comes first; while SEQ is IDLE the step serves the next host action or does nothing. -/
def Obligations.StepRunsDecodedCommand : Prop :=
  (∀ (s : State) (i : Instr), s.seq = .busy → decodeWord s.regs.cmd = .ok i →
    (s.inbox = [] ∨ s.inbox.head? = some .wait) → step s = exec i s) ∧
  (∀ (s : State) (i : Instr) (x : HostAction) (rest : List HostAction), s.seq = .busy → decodeWord s.regs.cmd = .ok i →
    s.inbox = x :: rest → x ≠ .wait →
      step s = if Config.completesFirst s.served then exec i s else .next (serve s x rest)) ∧
  (∀ (s : State) (x : HostAction) (rest : List HostAction), s.seq = .idle → s.inbox = x :: rest →
    step s = .next (serve s x rest)) ∧
  (∀ s : State, s.seq = .idle → s.inbox = [] → step s = .next s)

/-- 40_control.md R149: a bus write of an illegal word to CMD, accepted in IDLE, stores the word and completes with
Error(ILLEGAL, w): STATUS = 0x6, ERRCODE = 1, ERRINFO = w, nothing else written; a word with w[31:8] != 0 is illegal. -/
def Obligations.IllegalCommandCompletes : Prop :=
  (∀ (s : State) (w : Word), s.seq = .idle → s.inbox = [] → (∀ i, w ≠ encode i) →
    (busWrite s 0x0000000C#32 w 0b1111#4).2 = ⟨.okay, 0⟩ ∧
    ∃ t, step (busWrite s 0x0000000C#32 w 0b1111#4).1 = .next t ∧
      After s t
        { s.regs with
          cmd := w
          status := { noFlags with done := true, err := true }
          errCode := 1
          errInfo := w } [] [] [] ∧
      t.readReg .status = 0x00000006#32 ∧ t.readReg .errCode = 0x00000001#32 ∧ t.readReg .errInfo = w) ∧
  (∀ w : Word, w.toNat / 256 ≠ 0 → ∀ i, w ≠ encode i)

/-- 40_control.md R140: what a write of CMD in IDLE changes, and that irq is 0 after it. -/
def Obligations.CommandIssueWrite : Prop :=
  ∀ (s : State) (w : Word), s.seq = .idle →
    ∃ t, busWrite s 0x0000000C#32 w 0b1111#4 = (t, ⟨.okay, 0⟩) ∧ t.seq = .busy ∧
      t.regs = { s.regs with cmd := w, status := noFlags, errCode := 0, errInfo := 0 } ∧
      t.mem = s.mem ∧ t.symMem = s.symMem ∧ t.bitsMem = s.bitsMem ∧ t.inbox = s.inbox ∧ t.responses = s.responses ∧
      t.served = s.served ∧ t.params = s.params ∧ t.irq = false ∧ t.readReg .status = 0x00000001#32

/-! ## The bus -/

/-- 20_memory.md R87, with SEQ IDLE (R90 rejects writes while BUSY): a write to a RO register gets OKAY and changes nothing; a
write to STATUS clears each of bits [6:1] whose written bit is 1 and changes nothing else; reserved bits of every register and
table word read 0 and ignore writes. -/
def Obligations.RegisterWriteDetails : Prop :=
  (∀ (s : State) (r : Reg) (v : Word), s.seq = .idle → r ∈ readOnlyRegisters →
    busWrite s (BitVec.ofNat 32 r.offset) v 0b1111#4 = (s, ⟨.okay, 0⟩)) ∧
  (∀ (s : State) (v : Word), s.seq = .idle →
    ∃ t, busWrite s 0x00000010#32 v 0b1111#4 = (t, ⟨.okay, 0⟩) ∧
      t = s.withRegs { s.regs with status := t.regs.status } ∧
      (∀ b, 1 ≤ b → b ≤ 6 →
        (t.readReg .status).getLsbD b = ((s.readReg .status).getLsbD b && !v.getLsbD b))) ∧
  (∀ (s : State) (r : Reg) (v : Word), s.seq = .idle →
    (busRead s (BitVec.ofNat 32 r.offset)).rdata &&& reservedBits r = 0 ∧
      busWrite s (BitVec.ofNat 32 r.offset) v 0b1111#4 =
        busWrite s (BitVec.ofNat 32 r.offset) (v &&& ~~~(reservedBits r)) 0b1111#4) ∧
  (∀ (s : State) (w : Window) (k : Nat) (v : Word), Inv s → s.seq = .idle → 4 * k < w.size s.params →
    (busRead s (BitVec.ofNat 32 (w.base + 4 * k))).rdata &&& ~~~(w.definedBits k) = 0 ∧
      busWrite s (BitVec.ofNat 32 (w.base + 4 * k)) v 0b1111#4 =
        busWrite s (BitVec.ofNat 32 (w.base + 4 * k)) (v &&& w.definedBits k) 0b1111#4)

/-- 20_memory.md R86, R88: misaligned requests, partial strobes and unmapped addresses get SLVERR, read data 0, and change
nothing; with SEQ IDLE every other access is served. -/
def Obligations.BusErrorsHaveNoEffect : Prop :=
  (∀ (s : State) (a v : Word) (strb : Strobe), a.toNat % 4 ≠ 0 →
    busRead s a = ⟨.slverr, 0⟩ ∧ busWrite s a v strb = (s, ⟨.slverr, 0⟩)) ∧
  (∀ (s : State) (a v : Word) (strb : Strobe), strb ≠ 0b1111#4 → busWrite s a v strb = (s, ⟨.slverr, 0⟩)) ∧
  (∀ (s : State) (a v : Word) (strb : Strobe), ¬ Mapped s.params a.toNat →
    busRead s a = ⟨.slverr, 0⟩ ∧ busWrite s a v strb = (s, ⟨.slverr, 0⟩)) ∧
  (∀ (s : State) (a v : Word), s.seq = .idle → a.toNat % 4 = 0 → Mapped s.params a.toNat →
    (busRead s a).resp = .okay ∧ (busWrite s a v 0b1111#4).2 = ⟨.okay, 0⟩)

/-- 20_memory.md section 2 and 10_state.md R33 to R63: the address map, register by register and window by window, and its
decoder, for every choice of the parameters; and the window sizes at the values this hardware takes. -/
def Obligations.AddressMapDecodes : Prop :=
  (∀ (P : Params) (r : Reg), decodeAddr P (BitVec.ofNat 32 r.offset) = .register r) ∧
  (∀ (P : Params) (w : Window) (k : Nat), 4 * k < w.size P → decodeAddr P (BitVec.ofNat 32 (w.base + 4 * k)) = .word w k) ∧
  (∀ (P : Params) (a : Word), decodeAddr P a = .unmapped ↔ a.toNat % 4 = 0 ∧ ¬ Mapped P a.toNat) ∧
  (∀ (P : Params) (a : Word), decodeAddr P a = .misaligned ↔ a.toNat % 4 ≠ 0) ∧
  (∀ r : Reg, r.offset =
    match r with
    | .id => 0x000
    | .version => 0x004
    | .ctrl => 0x008
    | .cmd => 0x00C
    | .status => 0x010
    | .irqEn => 0x014
    | .errCode => 0x018
    | .errInfo => 0x01C
    | .capClut => 0x020
    | .capMsg => 0x024
    | .capPkt => 0x028
    | .capTxb => 0x02C
    | .capRxb => 0x030
    | .capSig => 0x034
    | .capBits => 0x038
    | .capTokd => 0x03C
    | .capToke => 0x040
    | .capDec => 0x044
    | .fs => 0x100
    | .fc => 0x104
    | .amp => 0x108
    | .clutLen => 0x10C
    | .txSymLen => 0x110
    | .pauseLen => 0x114
    | .msgLen => 0x118
    | .pktLen => 0x11C
    | .txLen => 0x120
    | .unkCount => 0x124
    | .unkPos => 0x128
    | .unkVal => 0x12C
    | .rxLen => 0x200
    | .sigLen => 0x204
    | .meanI => 0x208
    | .meanQ => 0x20C
    | .filtB0 => 0x210
    | .filtB1 => 0x214
    | .filtA1 => 0x218
    | .threshMin => 0x21C
    | .thresh => 0x220
    | .lo => 0x224
    | .hi => 0x228
    | .symLen => 0x22C
    | .rxSymLen => 0x230
    | .bitsLen => 0x300
    | .syncLen => 0x304
    | .syncPat0 => 0x308
    | .syncPat1 => 0x30C
    | .syncIdx => 0x310
    | .decStart => 0x314
    | .tokCount => 0x318
    | .tokdLen => 0x31C) ∧
  (∀ (P : Params) (w : Window), (w.base, w.size P) =
    match w with
    | .enc => (0x00001000, 2048)
    | .dec => (0x00002000, 16 * P.decEntries)
    | .clut => (0x01000000, 4 * P.clutDepth)
    | .msg => (0x02000000, P.msgDepth)
    | .pkt => (0x03000000, P.pktDepth)
    | .txb => (0x04000000, P.txbDepth)
    | .rxb => (0x05000000, P.rxbDepth)
    | .sig => (0x06000000, 8 * (P.rxbDepth / 2))
    | .env => (0x07000000, 4 * (P.rxbDepth / 2))
    | .sym => (0x08000000, P.rxbDepth / 2 / 8)
    | .bits => (0x09000000, P.rxbDepth / 2 / 8)
    | .tokd => (0x0A000000, P.tokdDepth)
    | .toke => (0x0B000000, 4 * P.tokeDepth)) ∧
  [Window.enc, .dec, .clut, .msg, .pkt, .txb, .rxb, .sig, .env, .sym, .bits, .tokd, .toke].map
      (fun w => w.size Config.hardware) =
    [2048, 1024, 4096, 1024, 16384, 1048576, 1048576, 4194304, 2097152, 65536, 65536, 4096, 4096]

/-- 20_memory.md R90: the accesses while SEQ is BUSY. The last clause leaves the data open: any 32-bit value. -/
def Obligations.BusyAccessRules : Prop :=
  (∀ (s : State) (v : Word), s.seq = .busy →
    busWrite s 0x00000008#32 v 0b1111#4 = (if v.getLsbD 0 then s.softReset else s, ⟨.okay, 0⟩)) ∧
  (∀ (s : State) (a v : Word) (strb : Strobe), s.seq = .busy → a ≠ 0x00000008#32 →
    busWrite s a v strb = (s, ⟨.slverr, 0⟩)) ∧
  (∀ (s : State) (r : Reg), s.seq = .busy → r ∈ readableRegisters →
    busRead s (BitVec.ofNat 32 r.offset) = ⟨.okay, s.readReg r⟩) ∧
  (∀ (s : State) (a : Word), s.seq = .busy → a.toNat % 4 = 0 → Mapped s.params a.toNat →
    (busRead s a).resp = .okay ∧ performAction s (.read a) = s.withResponses (busRead s a :: s.responses))

/-- 20_memory.md section 3, 10_state.md sections 2 to 5: a read-write register reads back what was written in its defined bits,
and the write changes no other register, no byte and no bit of any memory, and nothing else of the block. -/
def Obligations.RegisterWriteReadBack : Prop :=
  ∀ (s : State) (r : Reg) (v : Word), s.seq = .idle → r ∈ readWriteRegisters →
    ∃ t, busWrite s (BitVec.ofNat 32 r.offset) v 0b1111#4 = (t, ⟨.okay, 0⟩) ∧
      busRead t (BitVec.ofNat 32 r.offset) = ⟨.okay, readBack r v⟩ ∧
      (∀ q : Reg, q ≠ r → t.readReg q = s.readReg q) ∧
      (∀ a, t.byteAt a = s.byteAt a) ∧ (∀ i, t.symAt i = s.symAt i) ∧ (∀ i, t.bitsAt i = s.bitsAt i) ∧
      t.seq = .idle ∧ t.inbox = s.inbox ∧ t.responses = s.responses ∧ t.served = s.served ∧ t.params = s.params

/-- 20_memory.md R89, 10_state.md R66, R70: a window word reads back what was written in its defined bits; the write stores bits
[8j+7:8j] of them as byte 4k+j of a byte memory, or bit j as bit 32k+j of SYM or BITS, and changes no other byte, no other bit,
no register and nothing else of the block; and a read returns each byte or bit that has a value in the same place. -/
def Obligations.WindowWriteReadBack : Prop :=
  (∀ (s : State) (w : Window) (k : Nat) (v : Word), s.seq = .idle → 4 * k < w.size s.params →
    ∃ t, busWrite s (BitVec.ofNat 32 (w.base + 4 * k)) v 0b1111#4 = (t, ⟨.okay, 0⟩) ∧
      busRead t (BitVec.ofNat 32 (w.base + 4 * k)) = ⟨.okay, v &&& w.definedBits k⟩ ∧
      (w.isBits = false → ∀ j, j < 4 →
        t.windowByte w (4 * k + j) = some ((v &&& w.definedBits k).extractLsb' (8 * j) 8)) ∧
      (∀ a, w.isBits = true ∨ a < w.base + 4 * k ∨ w.base + 4 * k + 4 ≤ a → t.byteAt a = s.byteAt a) ∧
      (∀ j, w = .sym → j < 32 → t.symAt (32 * k + j) = some (v.getLsbD j)) ∧
      (∀ i, w ≠ .sym ∨ i < 32 * k ∨ 32 * k + 32 ≤ i → t.symAt i = s.symAt i) ∧
      (∀ j, w = .bits → j < 32 → t.bitsAt (32 * k + j) = some (v.getLsbD j)) ∧
      (∀ i, w ≠ .bits ∨ i < 32 * k ∨ 32 * k + 32 ≤ i → t.bitsAt i = s.bitsAt i) ∧
      (∀ q : Reg, t.readReg q = s.readReg q) ∧
      t.seq = .idle ∧ t.regs = s.regs ∧ t.inbox = s.inbox ∧ t.responses = s.responses ∧ t.served = s.served ∧
      t.params = s.params) ∧
  (∀ (s : State) (w : Window) (k j : Nat), s.seq = .idle → 4 * k < w.size s.params →
    (∀ b : Byte, w.isBits = false → j < 4 → s.windowByte w (4 * k + j) = some b →
      (busRead s (BitVec.ofNat 32 (w.base + 4 * k))).rdata.extractLsb' (8 * j) 8 = b) ∧
    (∀ b : Bool, w = .sym → j < 32 → s.symAt (32 * k + j) = some b →
      (busRead s (BitVec.ofNat 32 (w.base + 4 * k))).rdata.getLsbD j = b) ∧
    (∀ b : Bool, w = .bits → j < 32 → s.bitsAt (32 * k + j) = some b →
      (busRead s (BitVec.ofNat 32 (w.base + 4 * k))).rdata.getLsbD j = b))

/-- 60_exceptions.md R310: irq is the OR over b in 1..6 of STATUS[b] and IRQ_EN[b], a function of the two registers alone; it is
0 after a command issue and after a reset and while IRQ_EN is 0; and no served request changes it but a write to CTRL, CMD,
STATUS or IRQ_EN. -/
def Obligations.InterruptLine : Prop :=
  (∀ s : State, s.irq = true ↔
    ∃ b, 1 ≤ b ∧ b ≤ 6 ∧ (s.readReg .status).getLsbD b = true ∧ (s.readReg .irqEn).getLsbD b = true) ∧
  (∀ s t : State, s.readReg .status = t.readReg .status → s.readReg .irqEn = t.readReg .irqEn → s.irq = t.irq) ∧
  (∀ s : State, s.readReg .irqEn = 0 → s.irq = false) ∧
  (∀ (s : State) (w : Word), (s.issue w).irq = false) ∧
  (∀ s : State, s.softReset.irq = false ∧ s.hardReset.irq = false) ∧
  (∀ (s : State) (a v : Word) (strb : Strobe), a.toNat ∉ [0x008, 0x00C, 0x010, 0x014] →
    (busWrite s a v strb).1.irq = s.irq) ∧
  (∀ (s : State) (a : Word), (performAction s (.read a)).irq = s.irq)

/-- 10_state.md section 2: STATUS holds BUSY in bit 0 and the six flags in bits [6:1]; IRQ_EN holds its enables in bits [6:1];
every other bit of the two reads 0. -/
def Obligations.StatusAndEnableBits : Prop :=
  (∀ (s : State) (b : Nat), (s.readReg .status).getLsbD b =
    match b with
    | 0 => decide (s.seq = .busy)
    | 1 => s.regs.status.done
    | 2 => s.regs.status.err
    | 3 => s.regs.status.insuf
    | 4 => s.regs.status.premiss
    | 5 => s.regs.status.unksym
    | 6 => s.regs.status.synced
    | _ => false) ∧
  (∀ (s : State) (b : Nat), (s.readReg .irqEn).getLsbD b =
    match b with
    | 1 => s.regs.irqEn.done
    | 2 => s.regs.irqEn.err
    | 3 => s.regs.irqEn.insuf
    | 4 => s.regs.irqEn.premiss
    | 5 => s.regs.irqEn.unksym
    | 6 => s.regs.irqEn.synced
    | _ => false)

/-! ## Reset -/

/-- 70_reset_and_hazards.md section 1: the value of every register after reset, for every choice of the parameters, which the
CAP_* registers read in every state (10_state.md R34); and the CAP_* values of this hardware (00_scope.md R5). -/
def Obligations.ResetRegisterValues : Prop :=
  (∀ P : Params, (State.resetOf P).seq = .idle ∧ (State.resetOf P).irq = false ∧
    ∀ r : Reg, (State.resetOf P).readReg r =
      match r with
      | .id => 0x4F4F4B43#32
      | .version => 0x00010000#32
      | .capClut => BitVec.ofNat 32 P.clutDepth
      | .capMsg => BitVec.ofNat 32 P.msgDepth
      | .capPkt => BitVec.ofNat 32 P.pktDepth
      | .capTxb => BitVec.ofNat 32 P.txbDepth
      | .capRxb => BitVec.ofNat 32 P.rxbDepth
      | .capSig => BitVec.ofNat 32 (P.rxbDepth / 2)
      | .capBits => BitVec.ofNat 32 (P.rxbDepth / 2)
      | .capTokd => BitVec.ofNat 32 P.tokdDepth
      | .capToke => BitVec.ofNat 32 P.tokeDepth
      | .capDec => BitVec.ofNat 32 P.decEntries
      | _ => 0#32) ∧
  (∀ s : State,
    (s.readReg .capClut).toNat = s.params.clutDepth ∧ (s.readReg .capMsg).toNat = s.params.msgDepth ∧
    (s.readReg .capPkt).toNat = s.params.pktDepth ∧ (s.readReg .capTxb).toNat = s.params.txbDepth ∧
    (s.readReg .capRxb).toNat = s.params.rxbDepth ∧ 2 * (s.readReg .capSig).toNat = s.params.rxbDepth ∧
    2 * (s.readReg .capBits).toNat = s.params.rxbDepth ∧ (s.readReg .capTokd).toNat = s.params.tokdDepth ∧
    (s.readReg .capToke).toNat = s.params.tokeDepth ∧ (s.readReg .capDec).toNat = s.params.decEntries) ∧
  State.reset = State.resetOf Config.hardware ∧
  [Reg.capClut, .capMsg, .capPkt, .capTxb, .capRxb, .capSig, .capBits, .capTokd, .capToke, .capDec].map
      State.reset.readReg =
    [1024#32, 1024#32, 16384#32, 1048576#32, 1048576#32, 524288#32, 524288#32, 4096#32, 1024#32, 64#32]

/-- The invariant holds right after reset, for every choice of the parameters. -/
def Obligations.InvAtReset : Prop := (∀ P : Params, Inv (State.resetOf P)) ∧ Inv State.reset

/-- 70_reset_and_hazards.md R342: a soft reset, in both SEQ states. -/
def Obligations.SoftReset : Prop :=
  (∀ (s : State) (v : Word), v.getLsbD 0 = false → busWrite s 0x00000008#32 v 0b1111#4 = (s, ⟨.okay, 0⟩)) ∧
  (∀ (s : State) (v : Word), v.getLsbD 0 = true →
    ∃ t, busWrite s 0x00000008#32 v 0b1111#4 = (t, ⟨.okay, 0⟩) ∧
      t.seq = .idle ∧ t.regs = Regs.reset ∧ t.readReg .status = 0 ∧ t.readReg .irqEn = 0 ∧ t.irq = false ∧
      t.inbox = s.inbox ∧ t.responses = s.responses ∧ t.served = s.served ∧ t.params = s.params ∧
      (s.seq = .idle → ∀ (w : Window) (k : Nat), k < elements s.params w → SameElement s t w k) ∧
      (s.seq = .busy → (∀ i, s.regs.cmd ≠ encode i) →
        ∀ (w : Window) (k : Nat), k < elements s.params w → SameElement s t w k) ∧
      (∀ i, s.seq = .busy → s.regs.cmd = encode i → ∀ (w : Window) (k : Nat), k < elements s.params w →
        (w ∉ windowsWritten i → SameElement s t w k) ∧
          (w ∈ windowsWritten i → ¬ (w = .clut ∧ 2 ≤ k % 4) → Unspecified t w k)))

/-- 70_reset_and_hazards.md R340: hardware reset, one atomic step between transactions. -/
def Obligations.HardReset : Prop :=
  ∀ s : State, ∃ t, performAction s .hardReset = t ∧
    t.seq = .idle ∧ t.regs = Regs.reset ∧ t.irq = false ∧ t.responses = s.responses ∧ t.params = s.params ∧
    (∀ (w : Window) (k : Nat), w = .enc ∨ w = .dec → k < elements s.params w → t.windowByte w k = some 0) ∧
    (∀ (w : Window) (k : Nat), w ≠ .enc → w ≠ .dec → k < elements s.params w → ¬ (w = .clut ∧ 2 ≤ k % 4) → Unspecified t w k)

/-- 70_reset_and_hazards.md R344: each command on the reset state, with no host write but the one to CMD. -/
def Obligations.ResetStateCommands : Prop :=
  ∀ P : Params,
  let after := fun i => step (busWrite (State.resetOf P) 0x0000000C#32 (encode i) 0b1111#4).1
  (∃ t, after .nop = .next t ∧ t.readReg .status = 0x2) ∧
  (∃ t, after .genCarrier = .next t ∧ t.readReg .status = 0x6 ∧ t.readReg .errCode = 3 ∧ t.readReg .errInfo = 1) ∧
  (∃ t, after .encode = .next t ∧ t.readReg .pktLen = 0 ∧ t.readReg .status = 0x2) ∧
  (∃ t, after .generate = .next t ∧ t.readReg .txLen = 0 ∧ t.readReg .unkCount = 0 ∧
    t.readReg .unkPos = 0xFFFFFFFF#32 ∧ t.readReg .status = 0x2) ∧
  (∃ t, after .txChain = .next t ∧ t.readReg .pktLen = 0 ∧ t.readReg .txLen = 0 ∧ t.readReg .unkCount = 0 ∧
    t.readReg .unkPos = 0xFFFFFFFF#32 ∧ t.readReg .status = 0x2) ∧
  (∃ t, after .preprocess = .next t ∧ t.readReg .sigLen = 0 ∧ t.readReg .status = 0x2) ∧
  (∃ t, after .detect = .next t ∧ t.readReg .thresh = 0 ∧ t.readReg .lo = 0 ∧ t.readReg .hi = 0 ∧
    t.readReg .symLen = 0 ∧ t.readReg .status = 0xA) ∧
  (∃ t, after .slice = .next t ∧ t.readReg .status = 0x6 ∧ t.readReg .errCode = 2 ∧ t.readReg .errInfo = 0x230) ∧
  (∃ t, after .sync = .next t ∧ t.readReg .syncIdx = 0 ∧ t.readReg .tokCount = 0 ∧ t.readReg .status = 0x42) ∧
  (∃ t, after .decode = .next t ∧ t.readReg .tokCount = 0 ∧ t.readReg .tokdLen = 0 ∧ t.readReg .status = 0x2) ∧
  (∃ t, after .rxChain = .next t ∧ t.readReg .sigLen = 0 ∧ t.readReg .symLen = 0 ∧ t.readReg .status = 0xA)

/-! ## Control -/

/-- 40_control.md R148: NOP completes, sets DONE and writes nothing else; issued in IDLE it clears the flags before it, with irq
0 at once, and leaves STATUS = 0x2. -/
def Obligations.NopCompletes : Prop :=
  (∀ s : State, ∃ t, exec .nop s = .next t ∧ After s t (okRegs s.regs noFlags) [] [] []) ∧
  (∀ s : State, s.seq = .idle → s.inbox = [] →
    (busWrite s 0x0000000C#32 0x00000000#32 0b1111#4).1.irq = false ∧
    ∃ t, step (busWrite s 0x0000000C#32 0x00000000#32 0b1111#4).1 = .next t ∧
      After s t
        { s.regs with cmd := 0, status := { noFlags with done := true }, errCode := 0, errInfo := 0 } [] [] [] ∧
      t.readReg .status = 0x00000002#32)

/-! ## Transmit -/

/-- 41_modulator.md section 1: GEN_CARRIER builds the table and its length, or fails by its checks, in their order. The samples
themselves, `carrierSample`, are the subject of `CarrierSampleIsExact`. -/
def Obligations.GenCarrierBuildsTable : Prop :=
  (∀ s : State, s.regs.fc ≠ 0 → 1 ≤ rne s.regs.fs.toNat s.regs.fc.toNat →
    rne s.regs.fs.toNat s.regs.fc.toNat ≤ s.params.clutDepth →
    ∃ t, exec .genCarrier s = .next t ∧
      After s t (okRegs { s.regs with clutLen := BitVec.ofInt 32 (rne s.regs.fs.toNat s.regs.fc.toNat) } noFlags)
        [(.clut, (List.range (rne s.regs.fs.toNat s.regs.fc.toNat).toNat).flatMap fun k =>
          [BitVec.ofInt 8 (carrierSample s.regs.fs.toNat s.regs.fc.toNat s.regs.amp.toNat k).1,
           BitVec.ofInt 8 (carrierSample s.regs.fs.toNat s.regs.fc.toNat s.regs.amp.toNat k).2, 0, 0])] [] []) ∧
  (∀ s : State, s.regs.fc = 0 → FailsWith .genCarrier s 3 1) ∧
  (∀ s : State, s.regs.fc ≠ 0 → rne s.regs.fs.toNat s.regs.fc.toNat = 0 → FailsWith .genCarrier s 3 2) ∧
  (∀ s : State, s.regs.fc ≠ 0 → s.params.clutDepth < rne s.regs.fs.toNat s.regs.fc.toNat → FailsWith .genCarrier s 3 3)

/-- 41_modulator.md section 1: N = 0 exactly when 2 * FS <= FC; a carrier between FS/2 and 2 * FS gives N = 1 or N = 2 and is
accepted where the table has room for N entries, as in every block but one with CLUT_DEPTH = 1: that premise is the model's
reading of the section, log 14 (DEDUCED). Too long a table is a case of `GenCarrierBuildsTable`. -/
def Obligations.CarrierTableLength : Prop :=
  (∀ fs fc : Nat, 0 < fc → (rne fs fc = 0 ↔ 2 * fs ≤ fc)) ∧
  (∀ fs fc : Nat, fs ≤ 2 * fc → fc < 2 * fs → rne fs fc = 1 ∨ rne fs fc = 2) ∧
  (∀ s : State, s.regs.fs.toNat ≤ 2 * s.regs.fc.toNat → s.regs.fc.toNat < 2 * s.regs.fs.toNat →
    rne s.regs.fs.toNat s.regs.fc.toNat ≤ s.params.clutDepth →
    ∃ t, exec .genCarrier s = .next t ∧ (t.regs.clutLen = 1 ∨ t.regs.clutLen = 2) ∧ t.regs.errCode = 0) ∧
  (∀ s : State, s.regs.fc ≠ 0 → 2 * s.regs.fs.toNat ≤ s.regs.fc.toNat → FailsWith .genCarrier s 3 2) ∧
  rne 1 2 = 0 ∧ rne 2 3 = 1 ∧ rne 3 2 = 2 ∧ rne 5 2 = 2

/-- 41_modulator.md R163: the carrier samples are A times cosine and sine of the exact angle, each rounded to the nearest
integer, ties to even, and lie in [-A, A]. -/
def Obligations.CarrierSampleIsExact : Prop :=
  ∀ fs fc A k : Nat, 0 < fs → fs < 2 ^ 32 → A ≤ 127 →
    RoundsTo (A * Real.cos (2 * Real.pi * fc * k / fs + Real.pi / 2)) (carrierSample fs fc A k).1 ∧
    RoundsTo (A * Real.sin (2 * Real.pi * fc * k / fs + Real.pi / 2)) (carrierSample fs fc A k).2 ∧
    RoundsTo (-(A * Real.sin (2 * Real.pi * fc * k / fs))) (carrierSample fs fc A k).1 ∧
    RoundsTo (A * Real.cos (2 * Real.pi * fc * k / fs)) (carrierSample fs fc A k).2 ∧
    |(carrierSample fs fc A k).1| ≤ A ∧ |(carrierSample fs fc A k).2| ≤ A

/-- 41_modulator.md section 1: the fixed-point comparison of log 10 is sound: an answer of it is the truth about the real
cosine, for every real number the enclosure holds, but the cosine itself. -/
def Obligations.EnclosedComparisonSound : Prop :=
  ∀ (fuel r q : Nat) (lo hi : Int) (u : ℝ) (b : Bool), 0 < r → r < q →
    lo ≤ u * 2 ^ 128 → u * 2 ^ 128 ≤ hi → Real.cos (Real.pi * r / q) ≠ u →
    cosBelowEnclosed fuel r q lo hi = some b → (b = true ↔ Real.cos (Real.pi * r / q) < u)

/-- 41_modulator.md section 2: ENCODE substitutes codewords and copies unmapped bytes. -/
def Obligations.EncodeSubstitutes : Prop :=
  ∀ (s : State) (msg : List Byte), EncTableLegal s → msg.length = s.regs.msgLen.toNat → msg.length ≤ s.params.msgDepth →
    HoldsBytes s .msg msg → (packetOf s msg).length ≤ s.params.pktDepth →
    ∃ t, exec .encode s = .next t ∧
      After s t (okRegs { s.regs with pktLen := BitVec.ofNat 32 (packetOf s msg).length } noFlags)
        [(.pkt, packetOf s msg)] [] []

/-- 41_modulator.md section 2: the errors of ENCODE after its length check: DICT for the first symbol whose valid entry has
CLEN above 32, then OVERFLOW of PKT. -/
def Obligations.EncodeErrors : Prop :=
  (∀ (s : State) (c : Nat), s.regs.msgLen.toNat ≤ s.params.msgDepth → c < 256 →
    (encEntry s c).present = true → 32 < (encEntry s c).clen →
    (∀ d, d < c → (encEntry s d).present = true → (encEntry s d).clen ≤ 32) →
    FailsWith .encode s 7 (BitVec.ofNat 32 (0x01000000 + c))) ∧
  (∀ (s : State) (msg : List Byte), EncTableLegal s → msg.length = s.regs.msgLen.toNat → msg.length ≤ s.params.msgDepth →
    HoldsBytes s .msg msg → s.params.pktDepth < (packetOf s msg).length → FailsWith .encode s 6 0x03000000#32)

/-- 41_modulator.md section 3: GENERATE emits the waveform and reports the unknown symbols. -/
def Obligations.GenerateWaveform : Prop :=
  ∀ (s : State) (pkt : List Byte) (table : List (Byte × Byte)), pkt.length = s.regs.pktLen.toNat →
    pkt.length ≤ s.params.pktDepth → HoldsBytes s .pkt pkt → GenerateReady s table pkt →
    ∃ t, exec .generate s = .next t ∧
      After s t
        (okRegs
          (generateRegs s.regs
            (waveOf table s.regs.clutLen.toNat s.regs.txSymLen.toNat s.regs.pauseLen.toNat pkt) pkt)
          (generateFlags pkt))
        [(.txb, waveOf table s.regs.clutLen.toNat s.regs.txSymLen.toNat s.regs.pauseLen.toNat pkt)] [] []

/-- 41_modulator.md section 3: the errors of GENERATE after its length checks: TILE, then OVERFLOW of TXB. -/
def Obligations.GenerateErrors : Prop :=
  ∀ (s : State) (pkt : List Byte), pkt.length = s.regs.pktLen.toNat → pkt.length ≤ s.params.pktDepth → HoldsBytes s .pkt pkt →
    s.regs.clutLen.toNat ≤ s.params.clutDepth →
    (0x31#8 ∈ pkt → s.regs.clutLen = 0 → FailsWith .generate s 4 1) ∧
    (0x31#8 ∈ pkt → s.regs.clutLen ≠ 0 → s.regs.txSymLen.toNat % s.regs.clutLen.toNat ≠ 0 →
      FailsWith .generate s 4 2) ∧
    ((0x31#8 ∈ pkt → s.regs.clutLen ≠ 0 ∧ s.regs.txSymLen.toNat % s.regs.clutLen.toNat = 0) →
      s.params.txbDepth < 2 * packetSamples s.regs.txSymLen.toNat s.regs.pauseLen.toNat pkt →
      FailsWith .generate s 6 0x04000000#32)

/-- 41_modulator.md R169: with L = 3N each '1' segment is the carrier table repeated 3 times, sample for sample. `b` is the
index of a '1' in the packet, and its segment starts where those of the bytes before it end. -/
def Obligations.TilingRepeatsTable : Prop :=
  ∀ (s : State) (pkt : List Byte) (table : List (Byte × Byte)) (b : Nat), pkt.length = s.regs.pktLen.toNat →
    pkt.length ≤ s.params.pktDepth → HoldsBytes s .pkt pkt → GenerateReady s table pkt → pkt[b]? = some 0x31#8 →
    s.regs.txSymLen.toNat = 3 * s.regs.clutLen.toNat →
    ∃ t, exec .generate s = .next t ∧
      ∀ r k, r < 3 → k < s.regs.clutLen.toNat →
        t.windowByte .txb
            (2 * packetSamples s.regs.txSymLen.toNat s.regs.pauseLen.toNat (pkt.take b) +
              2 * (r * s.regs.clutLen.toNat + k)) = s.windowByte .clut (4 * k) ∧
        t.windowByte .txb
            (2 * packetSamples s.regs.txSymLen.toNat s.regs.pauseLen.toNat (pkt.take b) +
              2 * (r * s.regs.clutLen.toNat + k) + 1) = s.windowByte .clut (4 * k + 1)

/-- 41_modulator.md R171: TX_CHAIN is ENCODE, then GENERATE on the PKT and PKT_LEN that ENCODE wrote; an error of ENCODE writes
nothing; after an error of GENERATE the writes of ENCODE stay; the flags are those of GENERATE. -/
def Obligations.TxChainRunsBothStages : Prop :=
  (∀ (s : State) (code : BitVec 4) (info : Word), code ≠ 0 → FailsWith .encode s code info →
    FailsWith .txChain s code info) ∧
  (∀ (s : State) (msg : List Byte), EncTableLegal s → msg.length = s.regs.msgLen.toNat → msg.length ≤ s.params.msgDepth →
    HoldsBytes s .msg msg → (packetOf s msg).length ≤ s.params.pktDepth →
    (∀ (s1 : State) (code : BitVec 4) (info : Word),
      s1 = (s.writeBytes .pkt (packetOf s msg)).withRegs
        { s.regs with pktLen := BitVec.ofNat 32 (packetOf s msg).length } →
      code ≠ 0 → FailsWith .generate s1 code info →
      ∃ t, exec .txChain s = .next t ∧
        After s t
          (errRegs { s.regs with pktLen := BitVec.ofNat 32 (packetOf s msg).length } code info)
          [(.pkt, packetOf s msg)] [] []) ∧
    (∀ table : List (Byte × Byte), GenerateReady s table (packetOf s msg) →
      ∃ t, exec .txChain s = .next t ∧
        After s t
          (okRegs
            (generateRegs { s.regs with pktLen := BitVec.ofNat 32 (packetOf s msg).length }
              (waveOf table s.regs.clutLen.toNat s.regs.txSymLen.toNat s.regs.pauseLen.toNat (packetOf s msg))
              (packetOf s msg))
            (generateFlags (packetOf s msg)))
          [(.pkt, packetOf s msg),
           (.txb, waveOf table s.regs.clutLen.toNat s.regs.txSymLen.toNat s.regs.pauseLen.toNat (packetOf s msg))] [] []))

/-! ## Receive: PREPROCESS and DETECT -/

/-- 42_demodulator.md R200, R201: PREPROCESS subtracts each rail's rounded mean; an empty buffer gives an empty signal; an odd
RX_LEN is rejected. -/
def Obligations.PreprocessRemovesMean : Prop :=
  (∀ (s : State) (bytes : List Byte), bytes.length = s.regs.rxLen.toNat → bytes.length ≤ s.params.rxbDepth →
    bytes.length % 2 = 0 → HoldsBytes s .rxb bytes →
    ∃ t, exec .preprocess s = .next t ∧
      After s t
        (okRegs
          { s.regs with
            sigLen := BitVec.ofNat 32 (bytes.length / 2)
            meanI := BitVec.ofInt 32 (meanOf (railI bytes))
            meanQ := BitVec.ofInt 32 (meanOf (railQ bytes)) } noFlags)
        [(.sig, signalBytes (signalOf bytes))] [] []) ∧
  (∀ s : State, s.regs.rxLen = 0 →
    ∃ t, exec .preprocess s = .next t ∧
      After s t (okRegs { s.regs with sigLen := 0, meanI := 0, meanQ := 0 } noFlags) [] [] []) ∧
  (∀ s : State, s.params.rxbDepth < s.regs.rxLen.toNat → FailsWith .preprocess s 2 0x200#32) ∧
  (∀ s : State, s.regs.rxLen.toNat ≤ s.params.rxbDepth → s.regs.rxLen.toNat % 2 = 1 →
    FailsWith .preprocess s 5 s.regs.rxLen)

/-- 42_demodulator.md R203: the ranges of the means and of the signal, and the bound on the remaining offset of each rail. -/
def Obligations.PreprocessRanges : Prop :=
  ∀ bytes : List Byte, 2 ≤ bytes.length →
    (∀ rail, rail = railI bytes ∨ rail = railQ bytes →
      (∀ x ∈ rail, -32768 ≤ 256 * x ∧ 256 * x ≤ 32512) ∧ -32768 ≤ meanOf rail ∧ meanOf rail ≤ 32512 ∧
        2 * |256 * rail.sum - rail.length * meanOf rail| ≤ rail.length) ∧
    (∀ z ∈ signalOf bytes, -65280 ≤ z.1 ∧ z.1 ≤ 65280 ∧ -65280 ≤ z.2 ∧ z.2 ≤ 65280) ∧
    ((signalOf bytes).map Prod.fst).sum = 256 * (railI bytes).sum - (railI bytes).length * meanOf (railI bytes)

/-- 42_demodulator.md R210: DETECT. `envelope` is the subject of `EnvelopeIsTheFilter`. -/
def Obligations.DetectThresholds : Prop :=
  (∀ s : State, s.params.sigDepth < s.regs.sigLen.toNat → FailsWith .detect s 2 0x204#32) ∧
  (∀ s : State, s.regs.sigLen = 0 →
    ∃ t, exec .detect s = .next t ∧
      After s t (okRegs { s.regs with thresh := 0, lo := 0, hi := 0, symLen := 0 } flagInsuf) [] [] []) ∧
  (∀ (s : State) (sig : List (Int × Int)) (lo hi : Int), sig.length = s.regs.sigLen.toNat → 1 ≤ sig.length →
    sig.length ≤ s.params.sigDepth →
    (∀ z ∈ sig, -2147483648 ≤ z.1 ∧ z.1 ≤ 2147483647 ∧ -2147483648 ≤ z.2 ∧ z.2 ≤ 2147483647) →
    HoldsBytes s .sig (signalBytes sig) → Percentiles (envelope s.regs sig) lo hi →
    (hi - lo < s.regs.threshMin.toNat →
      ∃ t, exec .detect s = .next t ∧
        After s t (okRegs { detectRegs s.regs lo hi with symLen := 0 } flagInsuf)
          [(.env, bytesOfWords ((envelope s.regs sig).map (BitVec.ofInt 32)))] [] []) ∧
    (s.regs.threshMin.toNat ≤ hi - lo →
      ∃ t, exec .detect s = .next t ∧
        After s t (okRegs { detectRegs s.regs lo hi with symLen := BitVec.ofNat 32 sig.length } noFlags)
          [(.env, bytesOfWords ((envelope s.regs sig).map (BitVec.ofInt 32)))]
          ((envelope s.regs sig).map fun w => decide (hi - lo < 2 * |w|)) []))

/-- 42_demodulator.md R211: the envelope is the magnitude run through the first-order recursion forward, `ys`, and then backward
over the forward output, with the edge values as start states, every output rounded and saturated. -/
def Obligations.EnvelopeIsTheFilter : Prop :=
  ∀ (r : Regs) (sig : List (Int × Int)), sig ≠ [] →
    ∃ ys : List Int, ys.length = sig.length ∧ (envelope r sig).length = sig.length ∧
      (∀ n, n < sig.length →
        ys.getD n 0 =
          sat32
            (rne
              (r.filtB0.toInt * (sig.map magnitude).getD n 0 + r.filtB1.toInt * (sig.map magnitude).getD (n - 1) 0 -
                r.filtA1.toInt * (if n = 0 then (sig.map magnitude).getD 0 0 else ys.getD (n - 1) 0)) 65536)) ∧
      (∀ n, n < sig.length →
        (envelope r sig).getD n 0 =
          sat32
            (rne
              (r.filtB0.toInt * ys.getD n 0 + r.filtB1.toInt * ys.getD (min (n + 1) (sig.length - 1)) 0 -
                r.filtA1.toInt *
                  (if n + 1 < sig.length then (envelope r sig).getD (n + 1) 0 else ys.getD (sig.length - 1) 0)) 65536))

/-- 42_demodulator.md R213: the magnitude is the integer square root of the sum of squares, at most 92319 on the values
PREPROCESS writes. -/
def Obligations.MagnitudeIsFloorRoot : Prop :=
  (∀ (z : Int × Int) (m : Int), magnitude z = m ↔
    0 ≤ m ∧ m * m ≤ z.1 * z.1 + z.2 * z.2 ∧ z.1 * z.1 + z.2 * z.2 < (m + 1) * (m + 1)) ∧
  (∀ z : Int × Int, |z.1| ≤ 65280 → |z.2| ≤ 65280 → magnitude z ≤ 92319)

/-! ## Receive: SLICE -/

/-- 40_control.md section 1: the length checks of every stage, in their order. -/
def Obligations.LengthChecks : Prop :=
  (∀ s : State, s.params.msgDepth < s.regs.msgLen.toNat → FailsWith .encode s 2 0x118#32) ∧
  (∀ s : State, s.params.pktDepth < s.regs.pktLen.toNat → FailsWith .generate s 2 0x11C#32) ∧
  (∀ s : State, s.regs.pktLen.toNat ≤ s.params.pktDepth → s.params.clutDepth < s.regs.clutLen.toNat →
    FailsWith .generate s 2 0x10C#32) ∧
  (∀ s : State, s.params.rxbDepth < s.regs.rxLen.toNat → FailsWith .preprocess s 2 0x200#32) ∧
  (∀ s : State, s.params.sigDepth < s.regs.sigLen.toNat → FailsWith .detect s 2 0x204#32) ∧
  (∀ s : State, s.params.sigDepth < s.regs.symLen.toNat → FailsWith .slice s 2 0x22C#32) ∧
  (∀ s : State, s.regs.symLen.toNat ≤ s.params.sigDepth → s.regs.rxSymLen = 0 → FailsWith .slice s 2 0x230#32) ∧
  (∀ s : State, s.params.bitsDepth < s.regs.bitsLen.toNat → FailsWith .sync s 2 0x300#32) ∧
  (∀ s : State, s.regs.bitsLen.toNat ≤ s.params.bitsDepth → 64 < s.regs.syncLen.toNat → FailsWith .sync s 2 0x304#32) ∧
  (∀ s : State, s.params.bitsDepth < s.regs.bitsLen.toNat → FailsWith .decode s 2 0x300#32) ∧
  (∀ s : State, s.regs.bitsLen.toNat ≤ s.params.bitsDepth → s.regs.bitsLen.toNat < s.regs.decStart.toNat →
    FailsWith .decode s 2 0x314#32) ∧
  (∀ (i : Instr) (s : State) (w : Window) (k : Nat), exec i s = .fault (.unspecifiedElement w k) → k < elements s.params w)

/-- 43_slicer_sync_decoder.md R240: SLICE, for the maximal runs of SYM, which every bit string has; with its errors. -/
def Obligations.SliceRecoversBits : Prop :=
  (∀ sym : List Bool, ∃ rs, MaximalRuns rs ∧ sym = runsExpand rs) ∧
  (∀ (s : State) (rs : List (Bool × Nat)), MaximalRuns rs → (runsExpand rs).length = s.regs.symLen.toNat →
    (runsExpand rs).length ≤ s.params.sigDepth → s.regs.rxSymLen ≠ 0 → HoldsSym s (runsExpand rs) →
    ∃ t, exec .slice s = .next t ∧
      After s t
        (okRegs { s.regs with bitsLen := BitVec.ofNat 32 (runsEmit s.regs.rxSymLen.toNat rs).length } noFlags) [] []
        (runsEmit s.regs.rxSymLen.toNat rs)) ∧
  (∀ s : State, s.params.sigDepth < s.regs.symLen.toNat → FailsWith .slice s 2 0x22C#32) ∧
  (∀ s : State, s.regs.symLen.toNat ≤ s.params.sigDepth → s.regs.rxSymLen = 0 → FailsWith .slice s 2 0x230#32)

/-- 43_slicer_sync_decoder.md R241, R242: a run of r >= L samples gives rne(r, L) >= 1 bits of its value, a shorter run none:
3L gives 3, 1.5L gives 2, 2.5L gives 2, 3.5L gives 4, L - 1 gives none. -/
def Obligations.RunLengthQuantization : Prop :=
  (∀ (L r : Nat) (v : Bool), 1 ≤ L → L ≤ r →
    runBits L (v, r) = List.replicate (rne r L).toNat v ∧ 1 ≤ (rne r L).toNat) ∧
  (∀ (L : Nat) (v : Bool), 1 ≤ L →
    runBits L (v, 3 * L) = [v, v, v] ∧ runBits (2 * L) (v, 3 * L) = [v, v] ∧ runBits (2 * L) (v, 5 * L) = [v, v] ∧
      runBits (2 * L) (v, 7 * L) = [v, v, v, v]) ∧
  (∀ (L r : Nat) (v : Bool), r < L → runBits L (v, r) = []) ∧
  (∀ (L : Nat) (v : Bool), 1 ≤ L → runBits L (v, L - 1) = [])

/-- 43_slicer_sync_decoder.md R243: rne(r, L) <= r, so SLICE cannot overflow BITS; BITS_LEN is zero or at least 1 per run
kept. -/
def Obligations.SliceNeverOverflows : Prop :=
  (∀ r L : Nat, 1 ≤ L → L ≤ r → rne r L ≤ r) ∧
  (∀ (s t : State), exec .slice s = .next t → t.regs.errCode = 0 →
    t.regs.bitsLen.toNat ≤ t.regs.symLen.toNat ∧ t.regs.symLen.toNat ≤ s.params.sigDepth) ∧
  (∀ (L : Nat) (rs : List (Bool × Nat)), 1 ≤ L → (rs.filter fun x => decide (L ≤ x.2)).length ≤ (runsEmit L rs).length)

/-! ## Receive: SYNC and DECODE -/

/-- 30_encoding.md R115: operand assembly of the dictionary tables and the pattern, bit by bit from the table words. -/
def Obligations.OperandAssembly : Prop :=
  (∀ (s : State) (c : Nat), c < 256 →
    (encEntry s c).present = (windowWord s .enc (2 * c + 1) 0).getLsbD 31 ∧
    (encEntry s c).codeBits =
      (List.range ((windowWord s .enc (2 * c + 1) 0).extractLsb' 0 6).toNat).map (windowWord s .enc (2 * c) 0).getLsbD) ∧
  (∀ (s : State) (e : Nat), e < s.params.decEntries →
    (decEntry s e).present = (windowWord s .dec (4 * e + 1) 0).getLsbD 31 ∧
    (decEntry s e).keyBits =
      (List.range ((windowWord s .dec (4 * e + 1) 0).extractLsb' 0 6).toNat).map (windowWord s .dec (4 * e) 0).getLsbD ∧
    (decEntry s e).valBytes =
      (List.range ((windowWord s .dec (4 * e + 1) 0).extractLsb' 8 3).toNat).map fun b =>
        (windowWord s .dec (4 * e + 2) 0).extractLsb' (8 * b) 8) ∧
  (∀ r : Regs, syncPattern r =
    (List.range r.syncLen.toNat).map fun j =>
      if j < 32 then r.syncPat0.getLsbD j else r.syncPat1.getLsbD (j - 32))

/-- 00_scope.md R13: the lexicographic order on bit strings. -/
def Obligations.LexicographicOrder : Prop :=
  ∀ s t : List Bool, lexLess s t = true ↔
    (s <+: t ∧ s ≠ t) ∨
      ∃ j, s.take j = t.take j ∧ s[j]? = some false ∧ t[j]? = some true

/-- 43_slicer_sync_decoder.md R262, R263: the entry selected at a position is valid, its key is a prefix of the bits there, no
matching key is lexicographically greater or longer, and it is the lowest entry with its key; there is none exactly when no
valid key matches. -/
def Obligations.LongestMatchSelected : Prop :=
  ∀ (table : List DecEntry) (bits : List Bool),
    (matchAt table bits = none ↔ ∀ y ∈ table, y.present = true → ¬ y.keyBits <+: bits) ∧
    ∀ x, matchAt table bits = some x →
      ∃ e, table[e]? = some x ∧ x.present = true ∧ x.keyBits <+: bits ∧ x.keyBits.length = x.klen ∧
        ∀ (d : Nat) (y : DecEntry), table[d]? = some y → y.present = true → y.keyBits <+: bits →
          lexLess x.keyBits y.keyBits = false ∧ y.klen ≤ x.klen ∧ (d < e → y.keyBits ≠ x.keyBits)

/-- 43_slicer_sync_decoder.md R264, R265: the token list of the model is that of the loop of R264, run from start index i0 on a
table whose valid keys are not empty; one round per bit is enough, so the loop ends. -/
def Obligations.GreedyLoopRefinement : Prop :=
  ∀ (table : List DecEntry) (bits : List Bool) (i0 fuel : Nat), (∀ x ∈ table, x.present = true → 1 ≤ x.klen) →
    i0 ≤ bits.length → bits.length ≤ fuel →
    greedyLoop table bits fuel i0 [] [] [] =
      ((greedyTokens table [] 0 (bits.drop i0)).flatten,
        (List.range (greedyTokens table [] 0 (bits.drop i0)).length).map fun n =>
          ((greedyTokens table [] 0 (bits.drop i0)).take (n + 1)).flatten.length)

/-- 43_slicer_sync_decoder.md R251, R252: SYNC finds the first occurrence and decodes from it, or reports the miss.
`greedyTokens` is the subject of `GreedyLoopRefinement`, the pattern of `OperandAssembly`. -/
def Obligations.SyncFindsFirstOccurrence : Prop :=
  ∀ (s : State) (bits : List Bool), bits.length = s.regs.bitsLen.toNat → bits.length ≤ s.params.bitsDepth →
    s.regs.syncLen.toNat ≤ 64 → DecTableLegal s → HoldsBits s bits →
    (∀ j : Nat, FirstOccurrence (syncPattern s.regs) bits j →
      TokensFit s.params (greedyTokens (decTable s) [] 0 (bits.drop j)) →
      ∃ t, exec .sync s = .next t ∧
        After s t
          (okRegs
            (tokenRegs { s.regs with syncIdx := BitVec.ofNat 32 j } (greedyTokens (decTable s) [] 0 (bits.drop j)))
            flagSynced)
          (tokenStores (greedyTokens (decTable s) [] 0 (bits.drop j))) [] []) ∧
    ((∀ j : Nat, (syncPattern s.regs).isPrefixOf (bits.drop j) = false) →
      ∃ t, exec .sync s = .next t ∧
        After s t (okRegs { s.regs with syncIdx := 0xFFFFFFFF#32, tokCount := 0, tokdLen := 0 } flagPremiss) [] [] [])

/-- 43_slicer_sync_decoder.md section 3: DECODE writes the tokens found from DEC_START on. -/
def Obligations.DecodeWritesTokens : Prop :=
  ∀ (s : State) (bits : List Bool), bits.length = s.regs.bitsLen.toNat → bits.length ≤ s.params.bitsDepth →
    s.regs.decStart.toNat ≤ bits.length → DecTableLegal s → HoldsBits s bits →
    TokensFit s.params (greedyTokens (decTable s) [] 0 (bits.drop s.regs.decStart.toNat)) →
    ∃ t, exec .decode s = .next t ∧
      After s t
        (okRegs (tokenRegs s.regs (greedyTokens (decTable s) [] 0 (bits.drop s.regs.decStart.toNat))) noFlags)
        (tokenStores (greedyTokens (decTable s) [] 0 (bits.drop s.regs.decStart.toNat))) [] []

/-- 43_slicer_sync_decoder.md R261: SYNC and DECODE validate the decode table before any search: the first illegal valid entry,
in ascending order, and within it the empty key, then the long key, then the long value; a legal table raises no DICT. -/
def Obligations.DecodeTableValidation : Prop :=
  ∀ (i : Instr) (s : State),
    (i = .sync ∧ s.regs.bitsLen.toNat ≤ s.params.bitsDepth ∧ s.regs.syncLen.toNat ≤ 64 ∨
      i = .decode ∧ s.regs.bitsLen.toNat ≤ s.params.bitsDepth ∧ s.regs.decStart.toNat ≤ s.regs.bitsLen.toNat) →
    (∀ e, e < s.params.decEntries → (decEntry s e).present = true →
      (∀ d, d < e → (decEntry s d).present = true →
        1 ≤ (decEntry s d).klen ∧ (decEntry s d).klen ≤ 32 ∧ (decEntry s d).vlen ≤ 4) →
      ((decEntry s e).klen = 0 → FailsWith i s 7 (BitVec.ofNat 32 (0x02010000 + e))) ∧
      (32 < (decEntry s e).klen → FailsWith i s 7 (BitVec.ofNat 32 (0x01010000 + e))) ∧
      (1 ≤ (decEntry s e).klen → (decEntry s e).klen ≤ 32 → 4 < (decEntry s e).vlen →
        FailsWith i s 7 (BitVec.ofNat 32 (0x03010000 + e)))) ∧
    (DecTableLegal s → ∀ t, exec i s = .next t → t.regs.errCode ≠ 7)

/-- 43_slicer_sync_decoder.md R267: token data above TOKD_DEPTH is an OVERFLOW of TOKD, else more tokens than TOKE_DEPTH one of
TOKE, for DECODE and for a SYNC that found its pattern; nothing is written. The tokens are the completed ones alone. -/
def Obligations.TokenOverflow : Prop :=
  ∀ (s : State) (bits : List Bool) (i : Instr) (j : Nat), bits.length = s.regs.bitsLen.toNat →
    bits.length ≤ s.params.bitsDepth → DecTableLegal s → HoldsBits s bits →
    (i = .sync ∧ s.regs.syncLen.toNat ≤ 64 ∧ FirstOccurrence (syncPattern s.regs) bits j ∨
      i = .decode ∧ s.regs.decStart.toNat = j ∧ j ≤ bits.length) →
    (s.params.tokdDepth < (greedyTokens (decTable s) [] 0 (bits.drop j)).flatten.length → FailsWith i s 6 0x0A000000#32) ∧
    ((greedyTokens (decTable s) [] 0 (bits.drop j)).flatten.length ≤ s.params.tokdDepth →
      s.params.tokeDepth < (greedyTokens (decTable s) [] 0 (bits.drop j)).length → FailsWith i s 6 0x0B000000#32)

/-- 43_slicer_sync_decoder.md R266: decoding what ENCODE produced, with a terminator bit that is no key, gives the message as
the one token; without the terminator, no token. The bits and the message fit their memories (R260, R267). -/
def Obligations.EncodeDecodeRoundTrip : Prop :=
  ∀ (s : State) (msg : List Byte) (terminator : Bool), InverseTables s →
    (∀ e, e < s.params.decEntries → (decEntry s e).present = true → (decEntry s e).keyBits ≠ [terminator]) →
    msg ≠ [] → (∀ c ∈ msg, (encEntry s c.toNat).present = true) →
    packetOf s msg = (messageBits s msg).map packetBit ∧
    (s.regs.bitsLen.toNat ≤ s.params.bitsDepth → s.regs.decStart = 0 → msg.length ≤ s.params.tokdDepth →
      HoldsBits s (messageBits s msg ++ [terminator]) →
      s.regs.bitsLen.toNat = (messageBits s msg).length + 1 →
      ∃ t, exec .decode s = .next t ∧
        After s t (okRegs (tokenRegs s.regs [msg]) noFlags) (tokenStores [msg]) [] []) ∧
    (s.regs.bitsLen.toNat ≤ s.params.bitsDepth → s.regs.decStart = 0 → HoldsBits s (messageBits s msg) →
      s.regs.bitsLen.toNat = (messageBits s msg).length →
      ∃ t, exec .decode s = .next t ∧ After s t (okRegs (tokenRegs s.regs []) noFlags) (tokenStores []) [] [])

/-! ## Receive: RX_CHAIN -/

/-- 43_slicer_sync_decoder.md section 4: RX_CHAIN with a sufficient signal runs all four stages, each on what the stages before
it wrote, whether the pattern is found or missed. -/
def Obligations.RxChainRunsAllStages : Prop :=
  ∀ (s : State) (bytes : List Byte) (lo hi : Int) (w : List Int) (sym bits : List Bool),
    bytes.length = s.regs.rxLen.toNat → bytes.length % 2 = 0 → 2 ≤ bytes.length → bytes.length ≤ s.params.rxbDepth →
    HoldsBytes s .rxb bytes → w = envelope s.regs (signalOf bytes) → Percentiles w lo hi →
    s.regs.threshMin.toNat ≤ hi - lo → sym = w.map (fun x => decide (hi - lo < 2 * |x|)) →
    s.regs.rxSymLen ≠ 0 → bits = recoverBits s.regs.rxSymLen.toNat sym → s.regs.syncLen.toNat ≤ 64 →
    DecTableLegal s →
    (∀ j : Nat, FirstOccurrence (syncPattern s.regs) bits j →
      TokensFit s.params (greedyTokens (decTable s) [] 0 (bits.drop j)) →
      ∃ t, exec .rxChain s = .next t ∧
        After s t
          (okRegs
            (tokenRegs
              { detectRegs s.regs lo hi with
                sigLen := BitVec.ofNat 32 (bytes.length / 2)
                meanI := BitVec.ofInt 32 (meanOf (railI bytes))
                meanQ := BitVec.ofInt 32 (meanOf (railQ bytes))
                symLen := BitVec.ofNat 32 (bytes.length / 2)
                bitsLen := BitVec.ofNat 32 bits.length
                syncIdx := BitVec.ofNat 32 j }
              (greedyTokens (decTable s) [] 0 (bits.drop j))) flagSynced)
          ([(.sig, signalBytes (signalOf bytes)), (.env, bytesOfWords (w.map (BitVec.ofInt 32)))] ++
            tokenStores (greedyTokens (decTable s) [] 0 (bits.drop j))) sym bits) ∧
    ((∀ j : Nat, (syncPattern s.regs).isPrefixOf (bits.drop j) = false) →
      ∃ t, exec .rxChain s = .next t ∧
        After s t
          (okRegs
            { detectRegs s.regs lo hi with
              sigLen := BitVec.ofNat 32 (bytes.length / 2)
              meanI := BitVec.ofInt 32 (meanOf (railI bytes))
              meanQ := BitVec.ofInt 32 (meanOf (railQ bytes))
              symLen := BitVec.ofNat 32 (bytes.length / 2)
              bitsLen := BitVec.ofNat 32 bits.length
              syncIdx := 0xFFFFFFFF#32
              tokCount := 0
              tokdLen := 0 } flagPremiss)
          [(.sig, signalBytes (signalOf bytes)), (.env, bytesOfWords (w.map (BitVec.ofInt 32)))] sym bits)

/-- 43_slicer_sync_decoder.md section 4: where RX_CHAIN stops early: an error of PREPROCESS, an empty buffer, an insufficient
signal, RX_SYMLEN = 0, which keeps the outputs of PREPROCESS and DETECT, and the errors of SYNC, which keep those of SLICE too:
SYNC_LEN above 64, then the first illegal entry of the decode dictionary, then tokens that do not fit. -/
def Obligations.RxChainStopsEarly : Prop :=
  (∀ (s : State) (code : BitVec 4) (info : Word), code ≠ 0 → FailsWith .preprocess s code info →
    FailsWith .rxChain s code info) ∧
  (∀ s : State, s.regs.rxLen = 0 →
    ∃ t, exec .rxChain s = .next t ∧
      After s t
        (okRegs
          { s.regs with sigLen := 0, meanI := 0, meanQ := 0, thresh := 0, lo := 0, hi := 0, symLen := 0 } flagInsuf)
        [] [] []) ∧
  (∀ (s : State) (bytes : List Byte) (lo hi : Int) (w : List Int), bytes.length = s.regs.rxLen.toNat →
    bytes.length % 2 = 0 → 2 ≤ bytes.length → bytes.length ≤ s.params.rxbDepth → HoldsBytes s .rxb bytes →
    w = envelope s.regs (signalOf bytes) → Percentiles w lo hi →
    (hi - lo < s.regs.threshMin.toNat →
      ∃ t, exec .rxChain s = .next t ∧
        After s t
          (okRegs
            { detectRegs s.regs lo hi with
              sigLen := BitVec.ofNat 32 (bytes.length / 2)
              meanI := BitVec.ofInt 32 (meanOf (railI bytes))
              meanQ := BitVec.ofInt 32 (meanOf (railQ bytes))
              symLen := 0 } flagInsuf)
          [(.sig, signalBytes (signalOf bytes)), (.env, bytesOfWords (w.map (BitVec.ofInt 32)))] [] []) ∧
    (s.regs.threshMin.toNat ≤ hi - lo → s.regs.rxSymLen = 0 →
      ∃ t, exec .rxChain s = .next t ∧
        After s t
          (errRegs
            { detectRegs s.regs lo hi with
              sigLen := BitVec.ofNat 32 (bytes.length / 2)
              meanI := BitVec.ofInt 32 (meanOf (railI bytes))
              meanQ := BitVec.ofInt 32 (meanOf (railQ bytes))
              symLen := BitVec.ofNat 32 (bytes.length / 2) } 2 0x230#32)
          [(.sig, signalBytes (signalOf bytes)), (.env, bytesOfWords (w.map (BitVec.ofInt 32)))]
          (w.map fun x => decide (hi - lo < 2 * |x|)) []) ∧
    (∀ sym bits : List Bool, s.regs.threshMin.toNat ≤ hi - lo → sym = w.map (fun x => decide (hi - lo < 2 * |x|)) →
      s.regs.rxSymLen ≠ 0 → bits = recoverBits s.regs.rxSymLen.toNat sym →
      (64 < s.regs.syncLen.toNat → RxChainFailsInSync s bytes lo hi sym bits 2 0x304#32) ∧
      (∀ e, s.regs.syncLen.toNat ≤ 64 → e < s.params.decEntries → (decEntry s e).present = true →
        (∀ d, d < e → (decEntry s d).present = true →
          1 ≤ (decEntry s d).klen ∧ (decEntry s d).klen ≤ 32 ∧ (decEntry s d).vlen ≤ 4) →
        ((decEntry s e).klen = 0 →
          RxChainFailsInSync s bytes lo hi sym bits 7 (BitVec.ofNat 32 (0x02010000 + e))) ∧
        (32 < (decEntry s e).klen →
          RxChainFailsInSync s bytes lo hi sym bits 7 (BitVec.ofNat 32 (0x01010000 + e))) ∧
        (1 ≤ (decEntry s e).klen → (decEntry s e).klen ≤ 32 → 4 < (decEntry s e).vlen →
          RxChainFailsInSync s bytes lo hi sym bits 7 (BitVec.ofNat 32 (0x03010000 + e)))) ∧
      (∀ j : Nat, s.regs.syncLen.toNat ≤ 64 → DecTableLegal s → FirstOccurrence (syncPattern s.regs) bits j →
        (s.params.tokdDepth < (greedyTokens (decTable s) [] 0 (bits.drop j)).flatten.length →
          RxChainFailsInSync s bytes lo hi sym bits 6 0x0A000000#32) ∧
        ((greedyTokens (decTable s) [] 0 (bits.drop j)).flatten.length ≤ s.params.tokdDepth →
          s.params.tokeDepth < (greedyTokens (decTable s) [] 0 (bits.drop j)).length →
          RxChainFailsInSync s bytes lo hi sym bits 6 0x0B000000#32))))

/-! ## Every command -/

/-- 40_control.md section 1, 60_exceptions.md section 2: every completion leaves SEQ IDLE with DONE set, keeps CMD, IRQ_EN and
the port, and is a success with ERRCODE and ERRINFO 0 or an error with ERR set. -/
def Obligations.CompletionLeavesIdle : Prop :=
  ∀ (s t : State), runCommand s = .next t →
    t.seq = .idle ∧ t.regs.status.done = true ∧ t.regs.cmd = s.regs.cmd ∧ t.regs.irqEn = s.regs.irqEn ∧
      t.inbox = s.inbox ∧ t.responses = s.responses ∧ t.served = s.served ∧ t.params = s.params ∧
      (t.regs.errCode = 0 → t.regs.errInfo = 0) ∧ (t.regs.errCode ≠ 0 → t.regs.status.err = true)

/-- 60_exceptions.md R312: after a command issued with the flags clear, ERR only with DONE, none of INSUF, PREMISS, UNKSYM,
SYNCED with ERR, and never PREMISS with SYNCED. -/
def Obligations.FlagsExclusion : Prop :=
  ∀ (s t : State), s.regs.status = noFlags → runCommand s = .next t →
    t.regs.status.done = true ∧
    (t.regs.status.err = true → t.regs.status = { noFlags with done := true, err := true }) ∧
    ¬ (t.regs.status.premiss = true ∧ t.regs.status.synced = true)

/-- 10_state.md R76: a command writes only the registers and the window ranges the table lists for it, besides STATUS, ERRCODE
and ERRINFO; an error of a single command writes only those three. -/
def Obligations.CommandWritesOnlyItsOutputs : Prop :=
  ∀ (i : Instr) (s t : State), exec i s = .next t →
    (∀ r : Reg, r ∉ registersWritten i → r ∉ [.status, .errCode, .errInfo] → t.readReg r = s.readReg r) ∧
    (∀ (w : Window) (k : Nat), k < elements s.params w →
      w ∉ windowsWritten i ∨ writtenLength t.regs w ≤ k → SameElement s t w k) ∧
    (t.regs.errCode ≠ 0 → i ≠ .txChain → i ≠ .rxChain →
      (∀ r : Reg, r ∉ [.status, .errCode, .errInfo] → t.readReg r = s.readReg r) ∧
        ∀ (w : Window) (k : Nat), k < elements s.params w → SameElement s t w k)

/-- 40_control.md section 1: a command issued again, with no host write in between, gives the same state again. -/
def Obligations.ReissueGivesSameResult : Prop :=
  ∀ (i : Instr) (s t : State), s.memWf = true → s.seq = .busy → s.regs.status = noFlags → s.regs.errCode = 0 →
    s.regs.errInfo = 0 → exec i s = .next t → exec i (t.issue s.regs.cmd) = .next t

/-- Every step keeps the invariant, from every state that meets it; and no step from any state changes the parameters
(10_state.md R34: fixed at build time and unchanged by reset). -/
def Obligations.StepKeepsInv : Prop :=
  (∀ s t : State, Inv s → step s = .next t → Inv t) ∧ ∀ s t : State, step s = .next t → t.params = s.params

/-- 70_reset_and_hazards.md section 1: a command faults only on an element of a window it reads whose value is unspecified, a
chain only on one that was unspecified before it ran; and no step refuses. -/
def Obligations.FaultsOnlyOnUnspecified : Prop :=
  (∀ (i : Instr) (s : State) (f : Fault), exec i s = .fault f →
    ∃ w k, f = .unspecifiedElement w k ∧ w ∈ windowsRead i ∧ k < elements s.params w ∧ Unspecified s w k) ∧
  (∀ (s : State) (f : Fault), step s = .fault f → ∃ i, decodeWord s.regs.cmd = .ok i ∧ exec i s = .fault f) ∧
  (∀ (s : State) (r : Refusal), step s ≠ .refused r)

/-- 70_reset_and_hazards.md section 2: a command whose operands the host has specified completes. -/
def Obligations.SpecifiedOperandsComplete : Prop :=
  ∀ (i : Instr) (s : State), OperandsSpecified i s → ∃ t, exec i s = .next t

/-- 70_reset_and_hazards.md sections 3 and 4: no command hangs. From a running command the block is IDLE after at most one
step more than host actions wait, or stops on an unspecified element. The order of completion and actions is the free choice of
log 6. -/
def Obligations.EveryCommandEnds : Prop :=
  ∀ s : State, s.seq = .busy →
    ∃ n t, n ≤ s.inbox.length + 1 ∧ StepsTo n s t ∧
      (t.seq = .idle ∨ ∃ w k, step t = .fault (.unspecifiedElement w k))

/-- 30_encoding.md section 4: the actions of the pseudo-operations `enc`, `dec`, `wrbytes` and `wrbits`, served in IDLE, leave
the dictionary entry, the bytes and the bits they name. -/
def Obligations.HostProgramLoads : Prop :=
  (∀ (s : State) (c : Byte) (code : List Bool), s.seq = .idle → code.length ≤ 32 →
    (encEntry ((expandProgram [HostOp.enc c code]).foldl performAction s) c.toNat).present = true ∧
      (encEntry ((expandProgram [HostOp.enc c code]).foldl performAction s) c.toNat).codeBits = code) ∧
  (∀ (s : State) (e : Nat) (key : List Bool) (value : List Byte), s.seq = .idle → e < s.params.decEntries → 1 ≤ key.length →
    key.length ≤ 32 → value.length ≤ 4 →
    (decEntry ((expandProgram [HostOp.dec e key value]).foldl performAction s) e).present = true ∧
      (decEntry ((expandProgram [HostOp.dec e key value]).foldl performAction s) e).keyBits = key ∧
      (decEntry ((expandProgram [HostOp.dec e key value]).foldl performAction s) e).valBytes = value) ∧
  (∀ (s : State) (w : Window) (bytes : List Byte), s.seq = .idle → w ∈ [.msg, .pkt, .txb, .rxb, .sig, .env, .tokd, .toke] →
    bytes.length ≤ w.size s.params →
    HoldsBytes ((expandProgram [HostOp.wrbytes (BitVec.ofNat 32 w.base) bytes]).foldl performAction s) w bytes) ∧
  (∀ (s : State) (bits : List Bool), s.seq = .idle → bits.length ≤ s.params.sigDepth →
    HoldsSym ((expandProgram [HostOp.wrbits 0x08000000#32 bits]).foldl performAction s) bits ∧
      HoldsBits ((expandProgram [HostOp.wrbits 0x09000000#32 bits]).foldl performAction s) bits)

end Statements
end

