-- ==== Sys2Proof/Laws/Memory.lean ====
section
/-! SUPPORT. The laws of the sparse memories: reading a range, read after write, read after erase, and the canonical form kept
by every operation. The read laws hold of every list; only the canonical form needs a rising one. -/

namespace Sys2Proof.Machine

variable {α : Type}

theorem seek_nil (a : Nat) : Sparse.seek a ([] : Sparse α) = [] := rfl

theorem seek_cons (a : Nat) (e : Nat × α) (m : Sparse α) :
    Sparse.seek a (e :: m) = if e.1 < a then Sparse.seek a m else e :: m := by
  simp only [Sparse.seek, List.dropWhile_cons, decide_eq_true_eq]

theorem below_cons (a : Nat) (e : Nat × α) (m : Sparse α) :
    Sparse.below a (e :: m) = if e.1 < a then e :: Sparse.below a m else [] := by
  simp only [Sparse.below, List.takeWhile_cons, decide_eq_true_eq]

/-- Seeking further on forgets an earlier seek. -/
theorem seek_seek {a b : Nat} (h : a ≤ b) (m : Sparse α) : Sparse.seek b (Sparse.seek a m) = Sparse.seek b m := by
  induction m with
  | nil => rfl
  | cons e m ih =>
    rw [seek_cons a]
    split
    · rename_i he
      rw [ih, seek_cons b, if_pos (by omega)]
    · rfl

/-- A range read is a read of each key. -/
theorem getRange_eq_map (unl : Nat → Option α) (m : Sparse α) (a n : Nat) :
    Sparse.getRange unl m a n = (List.range n).map fun j => Sparse.get unl m (a + j) := by
  induction n generalizing m a with
  | zero => rfl
  | succ n ih =>
    rw [Sparse.getRange, ih, List.range_succ_eq_map, List.map_cons, List.map_map]
    refine congrArg₂ List.cons rfl (List.map_congr_left fun j _ => ?_)
    simp only [Function.comp, Sparse.get, Nat.succ_eq_add_one]
    rw [seek_seek (by omega), show a + 1 + j = a + (j + 1) by omega]

@[simp] theorem length_getRange (unl : Nat → Option α) (m : Sparse α) (a n : Nat) :
    (Sparse.getRange unl m a n).length = n := by
  simp [getRange_eq_map]

@[simp] theorem get_nil (unl : Nat → Option α) (a : Nat) : Sparse.get unl [] a = unl a := rfl

theorem get_cons (unl : Nat → Option α) (e : Nat × α) (m : Sparse α) (a : Nat) :
    Sparse.get unl (e :: m) a =
      if e.1 < a then Sparse.get unl m a else if e.1 = a then some e.2 else unl a := by
  rw [Sparse.get, seek_cons]
  split <;> rfl

/-- Keys of a list all at least `a`. -/
abbrev KeysFrom (a : Nat) (m : Sparse α) : Prop := ∀ e ∈ m, a ≤ e.1

/-- The first key of a list, if it has one, is at least `a`. -/
abbrev HeadFrom (a : Nat) : Sparse α → Prop
  | [] => True
  | e :: _ => a ≤ e.1

theorem headFrom_seek (a : Nat) (m : Sparse α) : HeadFrom a (Sparse.seek a m) := by
  induction m with
  | nil => trivial
  | cons e m ih =>
    rw [seek_cons]
    split
    · exact ih
    · simpa using ‹¬ e.1 < a›

/-- Before the first key of a list every read is of an unlisted key. -/
theorem get_of_headFrom (unl : Nat → Option α) {a b : Nat} {m : Sparse α} (h : HeadFrom b m) (hab : a < b) :
    Sparse.get unl m a = unl a := by
  cases m with
  | nil => rfl
  | cons e m =>
    have : b ≤ e.1 := h
    rw [get_cons, if_neg (by omega), if_neg (by omega)]

/-- Below a key, what follows it does not matter. -/
theorem get_below_append (unl : Nat → Option α) (a b : Nat) (m n : Sparse α) (hb : b < a) (hn : HeadFrom a n) :
    Sparse.get unl (Sparse.below a m ++ n) b = Sparse.get unl m b := by
  induction m with
  | nil => exact get_of_headFrom unl hn hb
  | cons e m ih =>
    rw [below_cons]
    split
    · rw [List.cons_append, get_cons, get_cons, ih]
    · rw [List.nil_append, get_of_headFrom unl hn hb, get_cons, if_neg (by omega), if_neg (by omega)]

/-- From a key on, what is below it does not matter. -/
theorem get_above_append (unl : Nat → Option α) (a b : Nat) (m n : Sparse α) (hb : a ≤ b) :
    Sparse.get unl (Sparse.below a m ++ n) b = Sparse.get unl n b := by
  induction m with
  | nil => rfl
  | cons e m ih =>
    rw [below_cons]
    split
    · rw [List.cons_append, get_cons, if_pos (by omega), ih]
    · rfl

theorem headFrom_append (a : Nat) (m n : Sparse α) (hm : KeysFrom a m) (hn : HeadFrom a n) : HeadFrom a (m ++ n) := by
  cases m with
  | nil => exact hn
  | cons e m => exact hm e List.mem_cons_self

theorem headFrom_mono {a b : Nat} (h : a ≤ b) {m : Sparse α} (hm : HeadFrom b m) : HeadFrom a m := by
  cases m with
  | nil => trivial
  | cons e m => exact Nat.le_trans h hm

/-- READ AFTER ERASE of a range: unlisted inside it, what stood there before outside it. -/
theorem get_eraseRange (unl : Nat → Option α) (m : Sparse α) (a n b : Nat) :
    Sparse.get unl (Sparse.eraseRange m a n) b = if a ≤ b ∧ b < a + n then unl b else Sparse.get unl m b := by
  have hseek := headFrom_seek (a + n) m
  rw [Sparse.eraseRange]
  by_cases hab : a ≤ b
  · rw [get_above_append _ _ _ _ _ hab]
    by_cases hb : b < a + n
    · rw [if_pos ⟨hab, hb⟩, get_of_headFrom unl hseek hb]
    · rw [if_neg (fun h => hb h.2)]
      simp only [Sparse.get]
      rw [seek_seek (by omega)]
  · rw [if_neg (fun h => hab h.1), get_below_append _ _ _ _ _ (by omega) (headFrom_mono (by omega) hseek)]

section Entries
variable [DecidableEq α]

@[simp] theorem entries_nil (unl : Nat → Option α) (a : Nat) : Sparse.entries unl a [] = [] := rfl

theorem entries_cons (unl : Nat → Option α) (a : Nat) (v : α) (vs : List α) :
    Sparse.entries unl a (v :: vs) =
      if unl a = some v then Sparse.entries unl (a + 1) vs else (a, v) :: Sparse.entries unl (a + 1) vs := by
  simp only [Sparse.entries, List.zipIdx_cons, List.filterMap_cons]
  split <;> simp_all

theorem keysFrom_entries (unl : Nat → Option α) (a : Nat) (vs : List α) : KeysFrom a (Sparse.entries unl a vs) := by
  induction vs generalizing a with
  | nil => intro e he; cases he
  | cons v vs ih =>
    rw [entries_cons]
    intro e he
    split at he
    · have := ih (a + 1) e he
      omega
    · rcases List.mem_cons.1 he with rfl | he
      · exact Nat.le_refl _
      · have := ih (a + 1) e he
        omega

/-- Reading behind a written block. -/
theorem get_entries_append (unl : Nat → Option α) (a : Nat) (vs : List α) (m : Sparse α)
    (hm : HeadFrom (a + vs.length) m) (b : Nat) (hb : a ≤ b) :
    Sparse.get unl (Sparse.entries unl a vs ++ m) b =
      if b < a + vs.length then vs[b - a]? else Sparse.get unl m b := by
  induction vs generalizing a with
  | nil =>
    have : ¬ b < a + ([] : List α).length := by rw [List.length_nil]; omega
    rw [if_neg this]
    rfl
  | cons v vs ih =>
    have hm' : HeadFrom (a + 1 + vs.length) m := by
      rw [show a + 1 + vs.length = a + (v :: vs).length by simp only [List.length_cons]; omega]
      exact hm
    rw [entries_cons]
    rcases Nat.eq_or_lt_of_le hb with rfl | hlt
    · have hlt : a < a + (v :: vs).length := by simp only [List.length_cons]; omega
      rw [if_pos hlt, Nat.sub_self, List.getElem?_cons_zero]
      by_cases hv : unl a = some v
      · rw [if_pos hv]
        have hh : HeadFrom (a + 1) (Sparse.entries unl (a + 1) vs ++ m) := by
          have hk := keysFrom_entries unl (a + 1) vs
          cases he : Sparse.entries unl (a + 1) vs with
          | nil =>
            cases m with
            | nil => trivial
            | cons e m =>
              have : a + 1 + vs.length ≤ e.1 := hm'
              show a + 1 ≤ e.1
              omega
          | cons e es => exact hk e (by rw [he]; exact List.mem_cons_self)
        rw [get_of_headFrom unl hh (by omega), hv]
      · rw [if_neg hv, List.cons_append, get_cons, if_neg (by omega), if_pos rfl]
    · have step : Sparse.get unl (Sparse.entries unl (a + 1) vs ++ m) b =
          if b < a + (v :: vs).length then (v :: vs)[b - a]? else Sparse.get unl m b := by
        rw [ih (a + 1) hm' (by omega)]
        have hl : a + 1 + vs.length = a + (v :: vs).length := by simp only [List.length_cons]; omega
        rw [hl, show b - a = (b - (a + 1)) + 1 by omega]
        simp only [List.getElem?_cons_succ]
      split
      · exact step
      · rw [List.cons_append, get_cons, if_pos (by omega)]
        exact step

/-- READ AFTER WRITE of a range: the written values inside it, what stood there before outside it. -/
theorem get_setRange (unl : Nat → Option α) (m : Sparse α) (a : Nat) (vs : List α) (b : Nat) :
    Sparse.get unl (Sparse.setRange unl m a vs) b =
      if a ≤ b ∧ b < a + vs.length then vs[b - a]? else Sparse.get unl m b := by
  have hseek := headFrom_seek (a + vs.length) m
  rw [Sparse.setRange]
  by_cases hab : a ≤ b
  · rw [get_above_append _ _ _ _ _ hab, get_entries_append unl a vs _ hseek b hab]
    by_cases hb : b < a + vs.length
    · rw [if_pos hb, if_pos ⟨hab, hb⟩]
    · rw [if_neg hb, if_neg (fun h => hb h.2)]
      simp only [Sparse.get]
      rw [seek_seek (by omega)]
  · rw [if_neg (fun h => hab h.1), get_below_append _ _ _ _ _ (by omega)]
    exact headFrom_append a _ _ (keysFrom_entries unl a vs) (headFrom_mono (by omega) hseek)

/-! ## The canonical form -/

theorem wfFrom_cons (unl : Nat → Option α) (a : Nat) (e : Nat × α) (m : Sparse α) :
    Sparse.wfFrom unl a (e :: m) = true ↔ a ≤ e.1 ∧ unl e.1 ≠ some e.2 ∧ Sparse.wfFrom unl (e.1 + 1) m = true := by
  simp [Sparse.wfFrom, and_assoc]

theorem wfFrom_mono (unl : Nat → Option α) {a b : Nat} (h : a ≤ b) {m : Sparse α} (hm : Sparse.wfFrom unl b m = true) :
    Sparse.wfFrom unl a m = true := by
  cases m with
  | nil => rfl
  | cons e m =>
    rw [wfFrom_cons] at hm ⊢
    exact ⟨Nat.le_trans h hm.1, hm.2⟩

theorem wfFrom_seek (unl : Nat → Option α) (a b : Nat) (m : Sparse α) (hm : Sparse.wfFrom unl a m = true) :
    Sparse.wfFrom unl b (Sparse.seek b m) = true := by
  induction m generalizing a with
  | nil => rfl
  | cons e m ih =>
    rw [wfFrom_cons] at hm
    rw [seek_cons]
    split
    · exact ih _ hm.2.2
    · exact (wfFrom_cons ..).2 ⟨by omega, hm.2⟩

theorem wfFrom_below_append (unl : Nat → Option α) (c a : Nat) (m n : Sparse α) (hm : Sparse.wfFrom unl c m = true)
    (hn : Sparse.wfFrom unl a n = true) (hca : c ≤ a) : Sparse.wfFrom unl c (Sparse.below a m ++ n) = true := by
  induction m generalizing c with
  | nil => exact wfFrom_mono unl hca hn
  | cons e m ih =>
    rw [wfFrom_cons] at hm
    rw [below_cons]
    split
    · rw [List.cons_append, wfFrom_cons]
      exact ⟨hm.1, hm.2.1, ih _ hm.2.2 (by omega)⟩
    · exact wfFrom_mono unl hca hn

theorem wfFrom_entries_append (unl : Nat → Option α) (a : Nat) (vs : List α) (n : Sparse α)
    (hn : Sparse.wfFrom unl (a + vs.length) n = true) :
    Sparse.wfFrom unl a (Sparse.entries unl a vs ++ n) = true := by
  induction vs generalizing a with
  | nil => simpa using hn
  | cons v vs ih =>
    have h := ih (a + 1) (by rwa [show a + 1 + vs.length = a + (v :: vs).length by simp only [List.length_cons]; omega])
    rw [entries_cons]
    split
    · exact wfFrom_mono unl (by omega) h
    · rw [List.cons_append, wfFrom_cons]
      exact ⟨Nat.le_refl _, by assumption, h⟩

/-- A range write keeps the canonical form. -/
theorem wfFrom_setRange (unl : Nat → Option α) (m : Sparse α) (a : Nat) (vs : List α)
    (hm : Sparse.wfFrom unl 0 m = true) : Sparse.wfFrom unl 0 (Sparse.setRange unl m a vs) = true :=
  wfFrom_below_append unl 0 a m _ hm (wfFrom_entries_append unl a vs _ (wfFrom_seek unl 0 _ m hm)) (Nat.zero_le _)

/-- A range erase keeps the canonical form. -/
theorem wfFrom_eraseRange (unl : Nat → Option α) (m : Sparse α) (a n : Nat)
    (hm : Sparse.wfFrom unl 0 m = true) : Sparse.wfFrom unl 0 (Sparse.eraseRange m a n) = true :=
  wfFrom_below_append unl 0 a m _ hm (wfFrom_mono unl (by omega) (wfFrom_seek unl 0 (a + n) m hm)) (Nat.zero_le _)

end Entries

end Sys2Proof.Machine
end

