-- ==== Sys2Proof/Laws/State.lean ====
section
/-! SUPPORT. One lemma per field of State per plain update of Machine/Ops.lean, true by rfl, so that no proof unfolds a
record update; and the reads of memory under the updates that leave it alone. -/

namespace Sys2Proof.Machine

@[simp] theorem withSeq_params (s : State) (x : Seq) : (s.withSeq x).params = s.params := rfl
@[simp] theorem withSeq_seq (s : State) (x : Seq) : (s.withSeq x).seq = x := rfl
@[simp] theorem withSeq_regs (s : State) (x : Seq) : (s.withSeq x).regs = s.regs := rfl
@[simp] theorem withSeq_mem (s : State) (x : Seq) : (s.withSeq x).mem = s.mem := rfl
@[simp] theorem withSeq_symMem (s : State) (x : Seq) : (s.withSeq x).symMem = s.symMem := rfl
@[simp] theorem withSeq_bitsMem (s : State) (x : Seq) : (s.withSeq x).bitsMem = s.bitsMem := rfl
@[simp] theorem withSeq_inbox (s : State) (x : Seq) : (s.withSeq x).inbox = s.inbox := rfl
@[simp] theorem withSeq_responses (s : State) (x : Seq) : (s.withSeq x).responses = s.responses := rfl
@[simp] theorem withSeq_served (s : State) (x : Seq) : (s.withSeq x).served = s.served := rfl

@[simp] theorem withRegs_params (s : State) (x : Regs) : (s.withRegs x).params = s.params := rfl
@[simp] theorem withRegs_seq (s : State) (x : Regs) : (s.withRegs x).seq = s.seq := rfl
@[simp] theorem withRegs_regs (s : State) (x : Regs) : (s.withRegs x).regs = x := rfl
@[simp] theorem withRegs_mem (s : State) (x : Regs) : (s.withRegs x).mem = s.mem := rfl
@[simp] theorem withRegs_symMem (s : State) (x : Regs) : (s.withRegs x).symMem = s.symMem := rfl
@[simp] theorem withRegs_bitsMem (s : State) (x : Regs) : (s.withRegs x).bitsMem = s.bitsMem := rfl
@[simp] theorem withRegs_inbox (s : State) (x : Regs) : (s.withRegs x).inbox = s.inbox := rfl
@[simp] theorem withRegs_responses (s : State) (x : Regs) : (s.withRegs x).responses = s.responses := rfl
@[simp] theorem withRegs_served (s : State) (x : Regs) : (s.withRegs x).served = s.served := rfl

@[simp] theorem withMem_params (s : State) (x : List Host.Cell) : (s.withMem x).params = s.params := rfl
@[simp] theorem withMem_seq (s : State) (x : List Host.Cell) : (s.withMem x).seq = s.seq := rfl
@[simp] theorem withMem_regs (s : State) (x : List Host.Cell) : (s.withMem x).regs = s.regs := rfl
@[simp] theorem withMem_mem (s : State) (x : List Host.Cell) : (s.withMem x).mem = x := rfl
@[simp] theorem withMem_symMem (s : State) (x : List Host.Cell) : (s.withMem x).symMem = s.symMem := rfl
@[simp] theorem withMem_bitsMem (s : State) (x : List Host.Cell) : (s.withMem x).bitsMem = s.bitsMem := rfl
@[simp] theorem withMem_inbox (s : State) (x : List Host.Cell) : (s.withMem x).inbox = s.inbox := rfl
@[simp] theorem withMem_responses (s : State) (x : List Host.Cell) : (s.withMem x).responses = s.responses := rfl
@[simp] theorem withMem_served (s : State) (x : List Host.Cell) : (s.withMem x).served = s.served := rfl

@[simp] theorem withSym_params (s : State) (x : List BitCell) : (s.withSym x).params = s.params := rfl
@[simp] theorem withSym_seq (s : State) (x : List BitCell) : (s.withSym x).seq = s.seq := rfl
@[simp] theorem withSym_regs (s : State) (x : List BitCell) : (s.withSym x).regs = s.regs := rfl
@[simp] theorem withSym_mem (s : State) (x : List BitCell) : (s.withSym x).mem = s.mem := rfl
@[simp] theorem withSym_symMem (s : State) (x : List BitCell) : (s.withSym x).symMem = x := rfl
@[simp] theorem withSym_bitsMem (s : State) (x : List BitCell) : (s.withSym x).bitsMem = s.bitsMem := rfl
@[simp] theorem withSym_inbox (s : State) (x : List BitCell) : (s.withSym x).inbox = s.inbox := rfl
@[simp] theorem withSym_responses (s : State) (x : List BitCell) : (s.withSym x).responses = s.responses := rfl
@[simp] theorem withSym_served (s : State) (x : List BitCell) : (s.withSym x).served = s.served := rfl

@[simp] theorem withBits_params (s : State) (x : List BitCell) : (s.withBits x).params = s.params := rfl
@[simp] theorem withBits_seq (s : State) (x : List BitCell) : (s.withBits x).seq = s.seq := rfl
@[simp] theorem withBits_regs (s : State) (x : List BitCell) : (s.withBits x).regs = s.regs := rfl
@[simp] theorem withBits_mem (s : State) (x : List BitCell) : (s.withBits x).mem = s.mem := rfl
@[simp] theorem withBits_symMem (s : State) (x : List BitCell) : (s.withBits x).symMem = s.symMem := rfl
@[simp] theorem withBits_bitsMem (s : State) (x : List BitCell) : (s.withBits x).bitsMem = x := rfl
@[simp] theorem withBits_inbox (s : State) (x : List BitCell) : (s.withBits x).inbox = s.inbox := rfl
@[simp] theorem withBits_responses (s : State) (x : List BitCell) : (s.withBits x).responses = s.responses := rfl
@[simp] theorem withBits_served (s : State) (x : List BitCell) : (s.withBits x).served = s.served := rfl

@[simp] theorem withInbox_params (s : State) (x : List HostAction) : (s.withInbox x).params = s.params := rfl
@[simp] theorem withInbox_seq (s : State) (x : List HostAction) : (s.withInbox x).seq = s.seq := rfl
@[simp] theorem withInbox_regs (s : State) (x : List HostAction) : (s.withInbox x).regs = s.regs := rfl
@[simp] theorem withInbox_mem (s : State) (x : List HostAction) : (s.withInbox x).mem = s.mem := rfl
@[simp] theorem withInbox_symMem (s : State) (x : List HostAction) : (s.withInbox x).symMem = s.symMem := rfl
@[simp] theorem withInbox_bitsMem (s : State) (x : List HostAction) : (s.withInbox x).bitsMem = s.bitsMem := rfl
@[simp] theorem withInbox_inbox (s : State) (x : List HostAction) : (s.withInbox x).inbox = x := rfl
@[simp] theorem withInbox_responses (s : State) (x : List HostAction) : (s.withInbox x).responses = s.responses := rfl
@[simp] theorem withInbox_served (s : State) (x : List HostAction) : (s.withInbox x).served = s.served := rfl

@[simp] theorem withResponses_params (s : State) (x : List Response) : (s.withResponses x).params = s.params := rfl
@[simp] theorem withResponses_seq (s : State) (x : List Response) : (s.withResponses x).seq = s.seq := rfl
@[simp] theorem withResponses_regs (s : State) (x : List Response) : (s.withResponses x).regs = s.regs := rfl
@[simp] theorem withResponses_mem (s : State) (x : List Response) : (s.withResponses x).mem = s.mem := rfl
@[simp] theorem withResponses_symMem (s : State) (x : List Response) : (s.withResponses x).symMem = s.symMem := rfl
@[simp] theorem withResponses_bitsMem (s : State) (x : List Response) : (s.withResponses x).bitsMem = s.bitsMem := rfl
@[simp] theorem withResponses_inbox (s : State) (x : List Response) : (s.withResponses x).inbox = s.inbox := rfl
@[simp] theorem withResponses_responses (s : State) (x : List Response) : (s.withResponses x).responses = x := rfl
@[simp] theorem withResponses_served (s : State) (x : List Response) : (s.withResponses x).served = s.served := rfl

@[simp] theorem withServed_params (s : State) (x : Nat) : (s.withServed x).params = s.params := rfl
@[simp] theorem withServed_seq (s : State) (x : Nat) : (s.withServed x).seq = s.seq := rfl
@[simp] theorem withServed_regs (s : State) (x : Nat) : (s.withServed x).regs = s.regs := rfl
@[simp] theorem withServed_mem (s : State) (x : Nat) : (s.withServed x).mem = s.mem := rfl
@[simp] theorem withServed_symMem (s : State) (x : Nat) : (s.withServed x).symMem = s.symMem := rfl
@[simp] theorem withServed_bitsMem (s : State) (x : Nat) : (s.withServed x).bitsMem = s.bitsMem := rfl
@[simp] theorem withServed_inbox (s : State) (x : Nat) : (s.withServed x).inbox = s.inbox := rfl
@[simp] theorem withServed_responses (s : State) (x : Nat) : (s.withServed x).responses = s.responses := rfl
@[simp] theorem withServed_served (s : State) (x : Nat) : (s.withServed x).served = x := rfl

@[simp] theorem withSeq_byteAt (s : State) (x : Seq) (a : Nat) : (s.withSeq x).byteAt a = s.byteAt a := rfl
@[simp] theorem withSeq_symAt (s : State) (x : Seq) (i : Nat) : (s.withSeq x).symAt i = s.symAt i := rfl
@[simp] theorem withSeq_bitsAt (s : State) (x : Seq) (i : Nat) : (s.withSeq x).bitsAt i = s.bitsAt i := rfl
@[simp] theorem withSeq_windowByte (s : State) (x : Seq) (w : Window) (j : Nat) :
    (s.withSeq x).windowByte w j = s.windowByte w j := rfl
@[simp] theorem withRegs_byteAt (s : State) (x : Regs) (a : Nat) : (s.withRegs x).byteAt a = s.byteAt a := rfl
@[simp] theorem withRegs_symAt (s : State) (x : Regs) (i : Nat) : (s.withRegs x).symAt i = s.symAt i := rfl
@[simp] theorem withRegs_bitsAt (s : State) (x : Regs) (i : Nat) : (s.withRegs x).bitsAt i = s.bitsAt i := rfl
@[simp] theorem withRegs_windowByte (s : State) (x : Regs) (w : Window) (j : Nat) :
    (s.withRegs x).windowByte w j = s.windowByte w j := rfl
@[simp] theorem withMem_symAt (s : State) (x : List Host.Cell) (i : Nat) : (s.withMem x).symAt i = s.symAt i := rfl
@[simp] theorem withMem_bitsAt (s : State) (x : List Host.Cell) (i : Nat) : (s.withMem x).bitsAt i = s.bitsAt i := rfl
@[simp] theorem withSym_byteAt (s : State) (x : List BitCell) (a : Nat) : (s.withSym x).byteAt a = s.byteAt a := rfl
@[simp] theorem withSym_bitsAt (s : State) (x : List BitCell) (i : Nat) : (s.withSym x).bitsAt i = s.bitsAt i := rfl
@[simp] theorem withSym_windowByte (s : State) (x : List BitCell) (w : Window) (j : Nat) :
    (s.withSym x).windowByte w j = s.windowByte w j := rfl
@[simp] theorem withBits_byteAt (s : State) (x : List BitCell) (a : Nat) : (s.withBits x).byteAt a = s.byteAt a := rfl
@[simp] theorem withBits_symAt (s : State) (x : List BitCell) (i : Nat) : (s.withBits x).symAt i = s.symAt i := rfl
@[simp] theorem withBits_windowByte (s : State) (x : List BitCell) (w : Window) (j : Nat) :
    (s.withBits x).windowByte w j = s.windowByte w j := rfl
@[simp] theorem withInbox_byteAt (s : State) (x : List HostAction) (a : Nat) : (s.withInbox x).byteAt a = s.byteAt a := rfl
@[simp] theorem withInbox_symAt (s : State) (x : List HostAction) (i : Nat) : (s.withInbox x).symAt i = s.symAt i := rfl
@[simp] theorem withInbox_bitsAt (s : State) (x : List HostAction) (i : Nat) : (s.withInbox x).bitsAt i = s.bitsAt i := rfl
@[simp] theorem withInbox_windowByte (s : State) (x : List HostAction) (w : Window) (j : Nat) :
    (s.withInbox x).windowByte w j = s.windowByte w j := rfl
@[simp] theorem withResponses_byteAt (s : State) (x : List Response) (a : Nat) : (s.withResponses x).byteAt a = s.byteAt a := rfl
@[simp] theorem withResponses_symAt (s : State) (x : List Response) (i : Nat) : (s.withResponses x).symAt i = s.symAt i := rfl
@[simp] theorem withResponses_bitsAt (s : State) (x : List Response) (i : Nat) : (s.withResponses x).bitsAt i = s.bitsAt i := rfl
@[simp] theorem withResponses_windowByte (s : State) (x : List Response) (w : Window) (j : Nat) :
    (s.withResponses x).windowByte w j = s.windowByte w j := rfl
@[simp] theorem withServed_byteAt (s : State) (x : Nat) (a : Nat) : (s.withServed x).byteAt a = s.byteAt a := rfl
@[simp] theorem withServed_symAt (s : State) (x : Nat) (i : Nat) : (s.withServed x).symAt i = s.symAt i := rfl
@[simp] theorem withServed_bitsAt (s : State) (x : Nat) (i : Nat) : (s.withServed x).bitsAt i = s.bitsAt i := rfl
@[simp] theorem withServed_windowByte (s : State) (x : Nat) (w : Window) (j : Nat) :
    (s.withServed x).windowByte w j = s.windowByte w j := rfl

end Sys2Proof.Machine
end

