-- ==== Sys2Proof/Laws/Ops.lean ====
section
/-! SUPPORT. For each shared operation of Machine/Ops.lean, once, everything it can do. -/

namespace Sys2Proof.Machine

/-! ## Reading window ranges -/

theorem firstNone_eq_none {α : Type} (k : Nat) (vs : List (Option α)) (h : firstNone k vs = none) :
    vs = (vs.filterMap id).map some := by
  induction vs generalizing k with
  | nil => rfl
  | cons v vs ih =>
    cases v with
    | none => simp [firstNone] at h
    | some x => simpa [firstNone] using ih _ h

theorem firstNone_eq_some {α : Type} (k i : Nat) (vs : List (Option α)) (h : firstNone k vs = some i) :
    k ≤ i ∧ vs[i - k]? = some none := by
  induction vs generalizing k with
  | nil => simp [firstNone] at h
  | cons v vs ih =>
    cases v with
    | none =>
      have : k = i := by simpa [firstNone] using h
      subst this
      simp
    | some x =>
      have := ih (k + 1) (by simpa [firstNone] using h)
      refine ⟨by omega, ?_⟩
      rw [show i - k = (i - (k + 1)) + 1 by omega, List.getElem?_cons_succ]
      exact this.2

theorem firstNone_map_some {α : Type} (k : Nat) (xs : List α) : firstNone k (xs.map some) = none := by
  induction xs generalizing k with
  | nil => rfl
  | cons x xs ih => simpa [firstNone] using ih (k + 1)

/-- Reads that all hold a value are the list of those values. -/
theorem map_range_eq_map_some {α : Type} (f : Nat → Option α) (n : Nat) (bs : List α) :
    (List.range n).map f = bs.map some ↔ bs.length = n ∧ ∀ j, j < n → f j = bs[j]? := by
  constructor
  · intro h
    have hl : bs.length = n := by simpa using (congrArg List.length h).symm
    refine ⟨hl, fun j hj => ?_⟩
    have := congrArg (·[j]?) h
    simp only [List.getElem?_map, List.getElem?_range hj, Option.map_some] at this
    rw [List.getElem?_eq_getElem (by omega)] at this ⊢
    simpa using this
  · rintro ⟨hl, h⟩
    apply List.ext_getElem
    · simp [hl]
    · intro j h1 h2
      have hj : j < n := by simpa using h1
      simp [h j hj, List.getElem?_eq_getElem (show j < bs.length by omega)]

/-- A list of reads succeeds where every element has a value, and then gives those values. -/
theorem readAll_eq_ok_iff {α : Type} (w : Window) (off : Nat) (vs : List (Option α)) (bs : List α) :
    readAll w off vs = .ok bs ↔ vs = bs.map some := by
  unfold readAll
  constructor
  · intro h
    split at h
    · cases h
    · rename_i hn
      have hv := firstNone_eq_none off _ hn
      rwa [show vs.filterMap id = bs by simpa using h] at hv
  · rintro rfl
    rw [firstNone_map_some]
    simp

/-- A list of reads fails at an element without a value, which the fault names. -/
theorem readAll_eq_error {α : Type} (w : Window) (off : Nat) (vs : List (Option α)) (f : Fault)
    (h : readAll w off vs = .error f) :
    ∃ k, f = .unspecifiedElement w k ∧ off ≤ k ∧ vs[k - off]? = some none := by
  unfold readAll at h
  split at h
  · rename_i k hk
    exact ⟨k, by simpa using h.symm, firstNone_eq_some _ _ _ hk⟩
  · cases h

/-- A list of reads succeeds or fails. -/
theorem readAll_cases {α : Type} (w : Window) (off : Nat) (vs : List (Option α)) :
    (∃ bs, readAll w off vs = .ok bs) ∨ ∃ f, readAll w off vs = .error f := by
  cases h : readAll w off vs with
  | ok bs => exact .inl ⟨bs, rfl⟩
  | error f => exact .inr ⟨f, rfl⟩

/-- A byte range is read where every byte has a value, and then the bytes are those values. -/
theorem readBytes_eq_ok_iff (s : State) (w : Window) (off n : Nat) (bs : List Byte) :
    readBytes s w off n = .ok bs ↔ bs.length = n ∧ ∀ j, j < n → s.windowByte w (off + j) = bs[j]? := by
  rw [readBytes, readAll_eq_ok_iff, getRange_eq_map, map_range_eq_map_some]
  simp only [State.windowByte, State.byteAt, Nat.add_assoc]

/-- A byte range is not read where some byte has no value; the fault names such a byte. -/
theorem readBytes_eq_error (s : State) (w : Window) (off n : Nat) (f : Fault) (h : readBytes s w off n = .error f) :
    ∃ k, f = .unspecifiedElement w k ∧ off ≤ k ∧ k < off + n ∧ s.windowByte w k = none := by
  obtain ⟨k, rfl, h1, h2⟩ := readAll_eq_error _ _ _ _ h
  have hlt : k - off < n := by
    by_contra hge
    rw [List.getElem?_eq_none (by rw [length_getRange]; omega)] at h2
    cases h2
  rw [getRange_eq_map, List.getElem?_map, List.getElem?_range hlt] at h2
  have : Sparse.get Memory.unlisted s.mem (w.base + off + (k - off)) = none := by simpa using h2
  rw [show w.base + off + (k - off) = w.base + k by omega] at this
  exact ⟨k, rfl, h1, by omega, this⟩

/-- A bit range is read where every bit has a value, and then the bits are those values. -/
theorem readBits_eq_ok_iff (w : Window) (m : List BitCell) (n : Nat) (bs : List Bool) :
    readBits w m n = .ok bs ↔ bs.length = n ∧ ∀ j, j < n → Sparse.get Memory.unlistedBit m j = bs[j]? := by
  rw [readBits, readAll_eq_ok_iff, getRange_eq_map, map_range_eq_map_some]
  simp only [Nat.zero_add]

/-- A bit range is not read where some bit has no value; the fault names such a bit. -/
theorem readBits_eq_error (w : Window) (m : List BitCell) (n : Nat) (f : Fault) (h : readBits w m n = .error f) :
    ∃ k, f = .unspecifiedElement w k ∧ k < n ∧ Sparse.get Memory.unlistedBit m k = none := by
  obtain ⟨k, rfl, _, h2⟩ := readAll_eq_error _ _ _ _ h
  have hlt : k - 0 < n := by
    by_contra hge
    rw [List.getElem?_eq_none (by rw [length_getRange]; omega)] at h2
    cases h2
  rw [getRange_eq_map, List.getElem?_map, List.getElem?_range hlt] at h2
  exact ⟨k, rfl, by omega, by simpa using h2⟩

/-! ## Writing windows -/

/-- READ AFTER a command's WRITE of a byte window. -/
theorem byteAt_writeBytes (s : State) (w : Window) (bs : List Byte) (a : Nat) :
    (s.writeBytes w bs).byteAt a =
      if w.base ≤ a ∧ a < w.base + bs.length then bs[a - w.base]? else s.byteAt a :=
  get_setRange _ _ _ _ _

@[simp] theorem symAt_writeBytes (s : State) (w : Window) (bs : List Byte) (i : Nat) :
    (s.writeBytes w bs).symAt i = s.symAt i := rfl

@[simp] theorem bitsAt_writeBytes (s : State) (w : Window) (bs : List Byte) (i : Nat) :
    (s.writeBytes w bs).bitsAt i = s.bitsAt i := rfl

/-- READ AFTER a command's WRITE of SYM. -/
theorem symAt_writeSym (s : State) (bs : List Bool) (i : Nat) :
    (s.writeSym bs).symAt i = if i < bs.length then bs[i]? else s.symAt i := by
  have h := get_setRange Memory.unlistedBit s.symMem 0 bs i
  simp only [Nat.zero_le, true_and, Nat.zero_add, Nat.sub_zero] at h
  exact h

/-- READ AFTER a command's WRITE of BITS. -/
theorem bitsAt_writeBitString (s : State) (bs : List Bool) (i : Nat) :
    (s.writeBitString bs).bitsAt i = if i < bs.length then bs[i]? else s.bitsAt i := by
  have h := get_setRange Memory.unlistedBit s.bitsMem 0 bs i
  simp only [Nat.zero_le, true_and, Nat.zero_add, Nat.sub_zero] at h
  exact h

@[simp] theorem byteAt_writeSym (s : State) (bs : List Bool) (a : Nat) : (s.writeSym bs).byteAt a = s.byteAt a := rfl
@[simp] theorem bitsAt_writeSym (s : State) (bs : List Bool) (i : Nat) : (s.writeSym bs).bitsAt i = s.bitsAt i := rfl
@[simp] theorem byteAt_writeBitString (s : State) (bs : List Bool) (a : Nat) :
    (s.writeBitString bs).byteAt a = s.byteAt a := rfl
@[simp] theorem symAt_writeBitString (s : State) (bs : List Bool) (i : Nat) :
    (s.writeBitString bs).symAt i = s.symAt i := rfl

@[simp] theorem writeBytes_params (s : State) (w : Window) (bs : List Byte) : (s.writeBytes w bs).params = s.params := rfl
@[simp] theorem writeBytes_seq (s : State) (w : Window) (bs : List Byte) : (s.writeBytes w bs).seq = s.seq := rfl
@[simp] theorem writeBytes_regs (s : State) (w : Window) (bs : List Byte) : (s.writeBytes w bs).regs = s.regs := rfl
@[simp] theorem writeBytes_symMem (s : State) (w : Window) (bs : List Byte) : (s.writeBytes w bs).symMem = s.symMem := rfl
@[simp] theorem writeBytes_bitsMem (s : State) (w : Window) (bs : List Byte) : (s.writeBytes w bs).bitsMem = s.bitsMem := rfl
@[simp] theorem writeBytes_inbox (s : State) (w : Window) (bs : List Byte) : (s.writeBytes w bs).inbox = s.inbox := rfl
@[simp] theorem writeBytes_responses (s : State) (w : Window) (bs : List Byte) :
    (s.writeBytes w bs).responses = s.responses := rfl
@[simp] theorem writeBytes_served (s : State) (w : Window) (bs : List Byte) : (s.writeBytes w bs).served = s.served := rfl
@[simp] theorem writeSym_params (s : State) (bs : List Bool) : (s.writeSym bs).params = s.params := rfl
@[simp] theorem writeSym_seq (s : State) (bs : List Bool) : (s.writeSym bs).seq = s.seq := rfl
@[simp] theorem writeSym_regs (s : State) (bs : List Bool) : (s.writeSym bs).regs = s.regs := rfl
@[simp] theorem writeSym_mem (s : State) (bs : List Bool) : (s.writeSym bs).mem = s.mem := rfl
@[simp] theorem writeSym_bitsMem (s : State) (bs : List Bool) : (s.writeSym bs).bitsMem = s.bitsMem := rfl
@[simp] theorem writeSym_inbox (s : State) (bs : List Bool) : (s.writeSym bs).inbox = s.inbox := rfl
@[simp] theorem writeSym_responses (s : State) (bs : List Bool) : (s.writeSym bs).responses = s.responses := rfl
@[simp] theorem writeSym_served (s : State) (bs : List Bool) : (s.writeSym bs).served = s.served := rfl
@[simp] theorem writeBitString_params (s : State) (bs : List Bool) : (s.writeBitString bs).params = s.params := rfl
@[simp] theorem writeBitString_seq (s : State) (bs : List Bool) : (s.writeBitString bs).seq = s.seq := rfl
@[simp] theorem writeBitString_regs (s : State) (bs : List Bool) : (s.writeBitString bs).regs = s.regs := rfl
@[simp] theorem writeBitString_mem (s : State) (bs : List Bool) : (s.writeBitString bs).mem = s.mem := rfl
@[simp] theorem writeBitString_symMem (s : State) (bs : List Bool) : (s.writeBitString bs).symMem = s.symMem := rfl
@[simp] theorem writeBitString_inbox (s : State) (bs : List Bool) : (s.writeBitString bs).inbox = s.inbox := rfl
@[simp] theorem writeBitString_responses (s : State) (bs : List Bool) : (s.writeBitString bs).responses = s.responses := rfl
@[simp] theorem writeBitString_served (s : State) (bs : List Bool) : (s.writeBitString bs).served = s.served := rfl

/-! ## The life cycle of a command -/

/-- What a completion step can answer with a next state. -/
theorem finish_eq_next_iff (r : StageResult) (t : State) :
    finish r = .next t ↔
      (∃ s f, r = .done s f ∧ t = s.completeOk f) ∨ (∃ s c i, r = .fail s c i ∧ t = s.completeErr c i) := by
  cases r <;> simp [finish, eq_comm]

/-- When a completion step faults. -/
theorem finish_eq_fault_iff (r : StageResult) (f : Fault) : finish r = .fault f ↔ r = .stop f := by
  cases r <;> simp [finish]

/-- A completion step never refuses. -/
theorem finish_ne_refused (r : StageResult) (x : Refusal) : finish r ≠ .refused x := by
  cases r <;> simp [finish]

/-- A stage that reads goes on exactly where the read succeeds. -/
theorem withRead_cases {α : Type} (r : Except Fault α) (k : α → StageResult) :
    (∃ x, r = .ok x ∧ withRead r k = k x) ∨ (∃ f, r = .error f ∧ withRead r k = .stop f) := by
  cases r with
  | ok x => exact .inl ⟨x, rfl, rfl⟩
  | error f => exact .inr ⟨f, rfl, rfl⟩

/-- A chain goes on exactly where the stage before succeeded. -/
theorem thenStage_cases (r : StageResult) (k : State → StatusFlags → StageResult) :
    (∃ s f, r = .done s f ∧ r.thenStage k = k s f) ∨ (∃ s c i, r = .fail s c i ∧ r.thenStage k = .fail s c i) ∨
      (∃ f, r = .stop f ∧ r.thenStage k = .stop f) := by
  cases r with
  | done s f => exact .inl ⟨s, f, rfl, rfl⟩
  | fail s c i => exact .inr (.inl ⟨s, c, i, rfl, rfl⟩)
  | stop f => exact .inr (.inr ⟨f, rfl, rfl⟩)

@[simp] theorem completeOk_params (s : State) (f : StatusFlags) : (s.completeOk f).params = s.params := rfl
@[simp] theorem completeOk_seq (s : State) (f : StatusFlags) : (s.completeOk f).seq = .idle := rfl
@[simp] theorem completeOk_mem (s : State) (f : StatusFlags) : (s.completeOk f).mem = s.mem := rfl
@[simp] theorem completeOk_symMem (s : State) (f : StatusFlags) : (s.completeOk f).symMem = s.symMem := rfl
@[simp] theorem completeOk_bitsMem (s : State) (f : StatusFlags) : (s.completeOk f).bitsMem = s.bitsMem := rfl
@[simp] theorem completeOk_inbox (s : State) (f : StatusFlags) : (s.completeOk f).inbox = s.inbox := rfl
@[simp] theorem completeOk_responses (s : State) (f : StatusFlags) : (s.completeOk f).responses = s.responses := rfl
@[simp] theorem completeOk_served (s : State) (f : StatusFlags) : (s.completeOk f).served = s.served := rfl
@[simp] theorem completeErr_params (s : State) (c : ErrCode) (i : Word) : (s.completeErr c i).params = s.params := rfl
@[simp] theorem completeErr_seq (s : State) (c : ErrCode) (i : Word) : (s.completeErr c i).seq = .idle := rfl
@[simp] theorem completeErr_mem (s : State) (c : ErrCode) (i : Word) : (s.completeErr c i).mem = s.mem := rfl
@[simp] theorem completeErr_symMem (s : State) (c : ErrCode) (i : Word) : (s.completeErr c i).symMem = s.symMem := rfl
@[simp] theorem completeErr_bitsMem (s : State) (c : ErrCode) (i : Word) : (s.completeErr c i).bitsMem = s.bitsMem := rfl
@[simp] theorem completeErr_inbox (s : State) (c : ErrCode) (i : Word) : (s.completeErr c i).inbox = s.inbox := rfl
@[simp] theorem completeErr_responses (s : State) (c : ErrCode) (i : Word) :
    (s.completeErr c i).responses = s.responses := rfl
@[simp] theorem completeErr_served (s : State) (c : ErrCode) (i : Word) : (s.completeErr c i).served = s.served := rfl

/-! ## The canonical form of memory -/

theorem memWf_iff (s : State) :
    s.memWf = true ↔ Memory.wf s.mem = true ∧ Memory.wfBits s.symMem = true ∧ Memory.wfBits s.bitsMem = true := by
  simp [State.memWf, and_assoc]

theorem memWf_writeBytes (s : State) (w : Window) (bs : List Byte) (h : s.memWf = true) :
    (s.writeBytes w bs).memWf = true := by
  rw [memWf_iff] at h ⊢
  exact ⟨wfFrom_setRange _ _ _ _ h.1, h.2⟩

theorem memWf_writeSym (s : State) (bs : List Bool) (h : s.memWf = true) : (s.writeSym bs).memWf = true := by
  rw [memWf_iff] at h ⊢
  exact ⟨h.1, wfFrom_setRange _ _ _ _ h.2.1, h.2.2⟩

theorem memWf_writeBitString (s : State) (bs : List Bool) (h : s.memWf = true) : (s.writeBitString bs).memWf = true := by
  rw [memWf_iff] at h ⊢
  exact ⟨h.1, h.2.1, wfFrom_setRange _ _ _ _ h.2.2⟩

theorem memWf_writeWindowWord (s : State) (w : Window) (index : Nat) (v : Word) (h : s.memWf = true) :
    (s.writeWindowWord w index v).memWf = true := by
  rw [memWf_iff] at h ⊢
  cases w <;>
    first
    | exact ⟨wfFrom_setRange _ _ _ _ h.1, h.2⟩
    | exact ⟨h.1, wfFrom_setRange _ _ _ _ h.2.1, h.2.2⟩
    | exact ⟨h.1, h.2.1, wfFrom_setRange _ _ _ _ h.2.2⟩

theorem memWf_eraseWindow (s : State) (w : Window) (h : s.memWf = true) : (s.eraseWindow w).memWf = true := by
  rw [memWf_iff] at h ⊢
  cases w <;>
    first
    | exact ⟨wfFrom_eraseRange _ _ _ _ h.1, h.2⟩
    | exact ⟨h.1, rfl, h.2.2⟩
    | exact ⟨h.1, h.2.1, rfl⟩

/-- The memory of a reset state is in canonical form. -/
theorem memWf_resetOf (P : Params) : (State.resetOf P).memWf = true := rfl

theorem memWf_reset : State.reset.memWf = true := memWf_resetOf _

/-! ## The parameters, which nothing changes -/

@[simp] theorem issue_params (s : State) (w : Word) : (s.issue w).params = s.params := rfl

@[simp] theorem hardReset_params (s : State) : s.hardReset.params = s.params := rfl

@[simp] theorem eraseWindow_params (s : State) (w : Window) : (s.eraseWindow w).params = s.params := by cases w <;> rfl

@[simp] theorem writeWindowWord_params (s : State) (w : Window) (index : Nat) (v : Word) :
    (s.writeWindowWord w index v).params = s.params := by cases w <;> rfl

@[simp] theorem softReset_params (s : State) : s.softReset.params = s.params := by
  have h : ∀ (ws : List Window) (u : State), (ws.foldl State.eraseWindow u).params = u.params := by
    intro ws
    induction ws with
    | nil => exact fun _ => rfl
    | cons w ws ih => exact fun u => (ih _).trans (eraseWindow_params u w)
  exact h _ s

end Sys2Proof.Machine
end

