-- ==== Sys2Proof/Laws/PerInstr.lean ====
section
/-! SUPPORT. Statements about every command as syntax, one lemma per constructor. -/

namespace Sys2Proof.Laws.ReservedZero

/-- The command word of a command has RSVD = 0 and its OPCODE is one of the eleven assigned (30_encoding.md R110, R111). -/
def Statement (i : Instr) : Prop :=
  rsvdField (encode i) = 0 ∧ opcodeField (encode i) ∈ assignedOpcodes ∧ legalWord (encode i) = true

theorem nop : Statement .nop := by unfold Statement; decide
theorem genCarrier : Statement .genCarrier := by unfold Statement; decide
theorem encode : Statement .encode := by unfold Statement; decide
theorem generate : Statement .generate := by unfold Statement; decide
theorem txChain : Statement .txChain := by unfold Statement; decide
theorem preprocess : Statement .preprocess := by unfold Statement; decide
theorem detect : Statement .detect := by unfold Statement; decide
theorem slice : Statement .slice := by unfold Statement; decide
theorem sync : Statement .sync := by unfold Statement; decide
theorem decode : Statement .decode := by unfold Statement; decide
theorem rxChain : Statement .rxChain := by unfold Statement; decide

end Sys2Proof.Laws.ReservedZero
end

