-- ==== Sys2Proof/Laws/Step.lean ====
section
/-! SUPPORT. What one step can do, once: nothing, a host action, or the completion of the running command. -/

namespace Sys2Proof.Machine

/-- The three things a step can be. -/
theorem step_cases (s : State) :
    (nextEvent s = .quiet ∧ step s = .next s) ∨
      (∃ x rest, nextEvent s = .action x rest ∧ step s = .next (serve s x rest)) ∨
        (nextEvent s = .completion ∧ step s = runCommand s) := by
  unfold step
  cases h : nextEvent s with
  | quiet => exact .inl ⟨rfl, rfl⟩
  | completion => exact .inr (.inr ⟨rfl, rfl⟩)
  | action x rest => exact .inr (.inl ⟨x, rest, rfl, rfl⟩)

/-- A completion runs the decoded command, or ends in ILLEGAL. -/
theorem runCommand_cases (s : State) :
    (∃ i, decodeWord s.regs.cmd = .ok i ∧ runCommand s = exec i s) ∨
      (∃ r, decodeWord s.regs.cmd = .error r ∧ runCommand s = .next (s.completeErr .illegal s.regs.cmd)) := by
  unfold runCommand
  cases h : decodeWord s.regs.cmd with
  | ok i => exact .inl ⟨i, rfl, rfl⟩
  | error r => exact .inr ⟨r, rfl, rfl⟩

/-- Nothing happens only in IDLE with no host action waiting. -/
theorem nextEvent_eq_quiet (s : State) (h : nextEvent s = .quiet) : s.seq = .idle ∧ s.inbox = [] := by
  unfold nextEvent at h
  split at h <;> first | exact ⟨by assumption, by assumption⟩ | cases h | (split at h <;> cases h)

/-- A served host action is the next one waiting. -/
theorem nextEvent_eq_action (s : State) (x : HostAction) (rest : List HostAction) (h : nextEvent s = .action x rest) :
    s.inbox = x :: rest := by
  unfold nextEvent at h
  split at h
  · cases h
  · cases h; assumption
  · cases h
  · cases h
  · split at h
    · cases h
    · cases h; assumption

/-- A completion happens only while SEQ is BUSY. -/
theorem nextEvent_eq_completion (s : State) (h : nextEvent s = .completion) : s.seq = .busy := by
  unfold nextEvent at h
  split at h <;> first | assumption | cases h

@[simp] theorem serve_inbox (s : State) (x : HostAction) (rest : List HostAction) : (serve s x rest).inbox = rest := rfl
@[simp] theorem serve_served (s : State) (x : HostAction) (rest : List HostAction) :
    (serve s x rest).served = s.served + 1 := rfl

/-- Of one command, everything an answer with a next state can be: the success or the error completion of what its stages
yielded. -/
theorem exec_eq_finish (i : Instr) (s : State) : ∃ r, exec i s = finish r := by
  cases i
  · exact ⟨stageNop s, rfl⟩
  · exact ⟨stageGenCarrier s, rfl⟩
  · exact ⟨stageEncode s, rfl⟩
  · exact ⟨stageGenerate s, rfl⟩
  · exact ⟨stageTxChain s, rfl⟩
  · exact ⟨stagePreprocess s, rfl⟩
  · exact ⟨stageDetect s, rfl⟩
  · exact ⟨stageSlice s, rfl⟩
  · exact ⟨stageSync s, rfl⟩
  · exact ⟨stageDecode s, rfl⟩
  · exact ⟨stageRxChain s, rfl⟩

end Sys2Proof.Machine
end

