-- ==== Sys2Proof/Tests/Slice0.lean ====
section
/-! SUPPORT. Tests: ill-formed terms the checks refuse, words written out from the opcode map, one step of each command with
results from the spec's examples, and for every statement with hypotheses a concrete state that meets them. -/

namespace Sys2Proof.Tests

open Sys2Proof.Machine Sys2Proof.Safety

/-! ## Well-formedness -/

theorem test_legalWord_refuses_unassigned : legalWord 0x00000004#32 = false := by decide
theorem test_legalWord_refuses_reserved : legalWord 0x00000101#32 = false := by decide
theorem test_legalWord_accepts : legalWord 0x0000001F#32 = true := by decide
theorem test_instr_wellFormed : Instr.wellFormed .rxChain = true := by decide
theorem test_read_refuses_misaligned : (HostAction.read 0x00000002#32).wellFormed = false := by decide
theorem test_write_refuses_misaligned : (HostAction.write 0x00000101#32 0#32 0b1111#4).wellFormed = false := by decide
theorem test_write_refuses_strobe : (HostAction.write 0x00000100#32 0#32 0b0111#4).wellFormed = false := by decide
theorem test_write_accepts : (HostAction.write 0x00000100#32 0#32 0b1111#4).wellFormed = true := by decide
theorem test_wr_refuses_misaligned : (HostOp.wr 0x00000103#32 0#32).wellFormed Config.hardware = false := by decide
theorem test_rd_refuses_misaligned : (HostOp.rd 0x00000101#32).wellFormed Config.hardware = false := by decide
theorem test_wrbytes_refuses_misaligned : (HostOp.wrbytes 0x02000001#32 []).wellFormed Config.hardware = false := by decide
theorem test_wrbytes_refuses_past_end : (HostOp.wrbytes 0xFFFFFFFC#32 [1, 2, 3, 4, 5]).wellFormed Config.hardware = false := by decide
theorem test_wrbits_refuses_misaligned : (HostOp.wrbits 0x08000002#32 []).wellFormed Config.hardware = false := by decide
theorem test_wrbits_refuses_past_end : (HostOp.wrbits 0xFFFFFFFC#32 (List.replicate 33 true)).wellFormed Config.hardware = false := by decide
theorem test_enc_refuses_long_code : (HostOp.enc 0x41#8 (List.replicate 33 true)).wellFormed Config.hardware = false := by decide
theorem test_enc_accepts : (HostOp.enc 0x41#8 (List.replicate 32 true)).wellFormed Config.hardware = true := by decide
theorem test_dec_refuses_entry : (HostOp.dec 64 [true] []).wellFormed Config.hardware = false := by decide
theorem test_dec_refuses_empty_key : (HostOp.dec 0 [] []).wellFormed Config.hardware = false := by decide
theorem test_dec_refuses_long_key : (HostOp.dec 0 (List.replicate 33 true) []).wellFormed Config.hardware = false := by decide
theorem test_dec_refuses_long_value : (HostOp.dec 0 [true] [1, 2, 3, 4, 5]).wellFormed Config.hardware = false := by decide
theorem test_dec_accepts : (HostOp.dec 63 [true] [1, 2, 3, 4]).wellFormed Config.hardware = true := by decide
/-- 00_scope.md R5, columns `value`. -/
theorem test_parameter_values :
    Config.hardware.clutDepth = 1024 ∧ Config.hardware.msgDepth = 1024 ∧ Config.hardware.pktDepth = 16384 ∧
    Config.hardware.txbDepth = 1048576 ∧ Config.hardware.rxbDepth = 1048576 ∧ Config.hardware.sigDepth = 524288 ∧
    Config.hardware.bitsDepth = 524288 ∧ Config.hardware.tokdDepth = 4096 ∧ Config.hardware.tokeDepth = 1024 ∧
    Config.hardware.decEntries = 64 := by decide

/-! ## Decoding words written out from 30_encoding.md R110 and R111: RSVD in [31:8], OPCODE in [7:0] -/

theorem test_decode_nop : decodeWord 0b00000000000000000000000000000000#32 = .ok .nop := by decide
theorem test_decode_genCarrier : decodeWord 0b00000000000000000000000000000001#32 = .ok .genCarrier := by decide
theorem test_decode_encode : decodeWord 0b00000000000000000000000000000010#32 = .ok .encode := by decide
theorem test_decode_generate : decodeWord 0b00000000000000000000000000000011#32 = .ok .generate := by decide
theorem test_decode_txChain : decodeWord 0b00000000000000000000000000001111#32 = .ok .txChain := by decide
theorem test_decode_preprocess : decodeWord 0b00000000000000000000000000010000#32 = .ok .preprocess := by decide
theorem test_decode_detect : decodeWord 0b00000000000000000000000000010001#32 = .ok .detect := by decide
theorem test_decode_slice : decodeWord 0b00000000000000000000000000010010#32 = .ok .slice := by decide
theorem test_decode_sync : decodeWord 0b00000000000000000000000000010011#32 = .ok .sync := by decide
theorem test_decode_decode : decodeWord 0b00000000000000000000000000010100#32 = .ok .decode := by decide
theorem test_decode_rxChain : decodeWord 0b00000000000000000000000000011111#32 = .ok .rxChain := by decide
theorem test_decode_unassigned : decodeWord 0x00000005#32 = .error (.unassignedOpcode 0x00000005#32) := by decide
theorem test_decode_reserved : decodeWord 0x00000101#32 = .error (.reservedBits 0x00000101#32) := by decide
theorem test_decode_all_ones : decodeWord 0xFFFFFFFF#32 = .error (.reservedBits 0xFFFFFFFF#32) := by decide
theorem test_decode_table_word : decodeTableWord 32 0x1F = some .rxChain := by decide

/-! ## One step of each command; the expected values are those of the spec's examples -/

/-- A register after a step that answers a next state. -/
def regAfter (o : Host.Outcome State Fault Refusal) (r : Reg) : Option Word :=
  match o with
  | .next t => some (t.readReg r)
  | .fault _ => none
  | .refused _ => none

/-- The first n bytes of a window after a step that answers a next state. -/
def bytesAfter (o : Host.Outcome State Fault Refusal) (w : Window) (n : Nat) : List (Option Byte) :=
  match o with
  | .next t => (List.range n).map (t.windowByte w)
  | .fault _ => []
  | .refused _ => []

/-- The first n bits of BITS after a step that answers a next state. -/
def bitsAfter (o : Host.Outcome State Fault Refusal) (n : Nat) : List (Option Bool) :=
  match o with
  | .next t => (List.range n).map t.bitsAt
  | .fault _ => []
  | .refused _ => []

/-- Reset registers with some of them set, and memory contents. -/
def mk (r : Regs) (mem : List Host.Cell) (sym bits : List Bool) : State :=
  (((State.reset.withRegs r).withMem mem).writeSym sym).writeBitString bits

/-- Reset registers with some of them set, and no memory contents. -/
def mkRegs (r : Regs) : State := mk r [] [] []

/-- The states of the tests have the parameters of this hardware. -/
theorem mk_params (r : Regs) (mem : List Host.Cell) (sym bits : List Bool) : (mk r mem sym bits).params = Config.hardware := rfl

/-- The least value of every parameter (00_scope.md R5). -/
def smallest : Params where
  clutDepth := 1
  msgDepth := 4
  pktDepth := 4
  txbDepth := 4
  rxbDepth := 64
  tokdDepth := 4
  tokeDepth := 1
  decEntries := 1
  clut_legal := by decide
  msg_legal := by decide
  pkt_legal := by decide
  txb_legal := by decide
  rxb_legal := by decide
  tokd_legal := by decide
  toke_legal := by decide
  dec_legal := by decide

/-- 10_state.md R34: a CAP register reads the parameter of its block, and a soft reset leaves it. -/
theorem test_cap_other_block :
    (State.resetOf smallest).softReset.readReg .capSig = 32#32 ∧ State.reset.readReg .capSig = 524288#32 := by decide

/-- 60_exceptions.md R300: a length is checked against the depth of its block. -/
theorem test_length_other_block :
    regAfter (exec .detect ((State.resetOf smallest).withRegs { Regs.reset with sigLen := 33 })) .errInfo = some 0x204#32 := by
  decide

/-- A bit string from its characters. -/
def bitString (x : String) : List Bool := x.toList.map fun c => c = '1'

/-- 40_control.md R148. -/
theorem test_nop : regAfter (step (State.reset.withFetchWord 32 0x00)) .status = some 0x2#32 := by decide

/-- 41_modulator.md R160, example: 0x7F00, 0x0081, 0x8100, 0x007F. -/
theorem test_genCarrier :
    bytesAfter (exec .genCarrier (mkRegs { Regs.reset with fs := 4, fc := 1, amp := 127 })) .clut 16 =
      [0x00, 0x7F, 0x00, 0x00, 0x81, 0x00, 0x00, 0x00, 0x00, 0x81, 0x00, 0x00, 0x7F, 0x00, 0x00, 0x00].map some := by
  decide +kernel

/-- 41_modulator.md R164, example: an exact tie. -/
theorem test_carrier_tie : carrierSample 12 1 127 1 = (-64, 110) := by decide +kernel

/-- ENC: 'A' is "10", 'B' is "110" (41_modulator.md R166, example). -/
def encAB : List Host.Cell :=
  [(0x1208, 0x01), (0x120C, 0x02), (0x120F, 0x80), (0x1210, 0x03), (0x1214, 0x03), (0x1217, 0x80)]

/-- MSG: "ApB". -/
def msgApB : List Host.Cell := [(0x02000000, 0x41), (0x02000001, 0x70), (0x02000002, 0x42)]

/-- CLUT: the 4 entries of R160's example. -/
def clutFour : List Host.Cell :=
  [(0x01000000, 0x00), (0x01000001, 0x7F), (0x01000004, 0x81), (0x01000005, 0x00), (0x01000008, 0x00), (0x01000009, 0x81),
   (0x0100000C, 0x7F), (0x0100000D, 0x00)]

/-- 41_modulator.md R166, example. -/
theorem test_encode :
    bytesAfter (exec .encode (mk { Regs.reset with msgLen := 3 } (encAB ++ msgApB) [] [])) .pkt 7 =
      [some 0x31, some 0x30, some 0x70, some 0x31, some 0x31, some 0x30, none] := by decide +kernel

/-- 41_modulator.md R167, example: "1p0". -/
theorem test_generate :
    bytesAfter
      (exec .generate
        (mk { Regs.reset with pktLen := 3, clutLen := 4, txSymLen := 4, pauseLen := 2 }
          (clutFour ++ [(0x03000000, 0x31), (0x03000001, 0x70), (0x03000002, 0x30)]) [] [])) .txb 21 =
      [0x00, 0x7F, 0x81, 0x00, 0x00, 0x81, 0x7F, 0x00].map some ++ List.replicate 12 (some 0) ++ [none] := by
  decide +kernel

/-- 41_modulator.md R170: an unknown symbol is counted and skipped. -/
theorem test_generate_unknown :
    regAfter (exec .generate (mk { Regs.reset with pktLen := 2 } [(0x03000000, 0x20), (0x03000001, 0x78)] [] [])) .unkPos =
      some 1#32 := by decide +kernel

/-- 41_modulator.md R171, example: TX_LEN = 44. -/
theorem test_txChain :
    regAfter
      (exec .txChain
        (mk { Regs.reset with msgLen := 3, clutLen := 4, txSymLen := 4, pauseLen := 2 } (encAB ++ clutFour ++ msgApB) [] []))
      .txLen = some 44#32 := by decide +kernel

/-- RXB: 10 20 30 40 (42_demodulator.md R200, example). -/
def rxFour : List Host.Cell :=
  [(0x05000000, 10), (0x05000001, 20), (0x05000002, 30), (0x05000003, 40)]

/-- 42_demodulator.md R200, example: -2560 and -2560, then 2560 and 2560. -/
theorem test_preprocess :
    bytesAfter (exec .preprocess (mk { Regs.reset with rxLen := 4 } rxFour [] [])) .sig 16 =
      [0x00, 0xF6, 0xFF, 0xFF, 0x00, 0xF6, 0xFF, 0xFF, 0x00, 0x0A, 0x00, 0x00, 0x00, 0x0A, 0x00, 0x00].map some := by
  decide +kernel

/-- 42_demodulator.md R201: an odd RX_LEN is ODD with the length as information. -/
theorem test_preprocess_odd :
    regAfter (exec .preprocess (mkRegs { Regs.reset with rxLen := 5 })) .errInfo = some 5#32 := by decide

/-- 42_demodulator.md R210 by hand: one sample (768, 1024) has magnitude 1280; with b0 = 1 and b1 = a1 = 0 the filter is the
identity, so LO = HI = 1280 and T = 0. -/
theorem test_detect :
    regAfter
      (exec .detect
        (mk { Regs.reset with sigLen := 1, filtB0 := 0x10000#18 }
          [(0x06000000, 0), (0x06000001, 3), (0x06000002, 0), (0x06000003, 0), (0x06000004, 0), (0x06000005, 4),
           (0x06000006, 0), (0x06000007, 0)] [] [])) .hi = some 1280#32 := by decide +kernel

/-- 42_demodulator.md R216: an empty signal is insufficient. -/
theorem test_detect_empty : regAfter (exec .detect State.reset) .status = some 0xA#32 := by decide

/-- 43_slicer_sync_decoder.md R240, example: L = 4, runs 12, 4, 2, 10. -/
theorem test_slice :
    bitsAfter
      (exec .slice
        (mk { Regs.reset with symLen := 28, rxSymLen := 4 } [] (bitString "0000000000001111001111111111") [])) 7 =
      [some false, some false, some false, some true, some true, some true, none] := by decide +kernel

/-- 43_slicer_sync_decoder.md R250, example: the pattern "100000000" is found at 12. -/
theorem test_sync :
    regAfter
      (exec .sync
        (mk { Regs.reset with bitsLen := 25, syncLen := 9, syncPat0 := 1 } [] []
          (bitString "0000000000001000000001011"))) .syncIdx = some 12#32 := by decide +kernel

/-- DEC: entry 0 is "10" with value 'A', entry 1 is "110" with value 'B' (43_slicer_sync_decoder.md R260, example). -/
def decAB : List Host.Cell :=
  [(0x2000, 0x01), (0x2004, 0x02), (0x2005, 0x01), (0x2007, 0x80), (0x2008, 0x41), (0x2010, 0x03), (0x2014, 0x03),
   (0x2015, 0x01), (0x2017, 0x80), (0x2018, 0x42)]

/-- 43_slicer_sync_decoder.md R260, example: TOKD = "AB", one token. -/
theorem test_decode :
    bytesAfter (exec .decode (mk { Regs.reset with bitsLen := 6 } decAB [] (bitString "101100"))) .tokd 3 =
      [some 0x41, some 0x42, none] := by decide +kernel

/-- 43_slicer_sync_decoder.md R261 and 60_exceptions.md R301, example: entry 5 with an empty key. -/
theorem test_decode_empty_key :
    regAfter (exec .decode (mk Regs.reset [(0x2057, 0x80)] [] [])) .errInfo = some 0x02010005#32 := by decide +kernel

/-- 43_slicer_sync_decoder.md R270 by hand: two samples of one magnitude give T = 0 and SYM = 11; L = 1 gives BITS = 11; the
empty pattern is found at 0: DONE and SYNCED. -/
theorem test_rxChain :
    regAfter
      (exec .rxChain (mk { Regs.reset with rxLen := 4, filtB0 := 0x10000#18, rxSymLen := 1 } rxFour [] [])) .status =
      some 0x42#32 := by decide +kernel

/-- 43_slicer_sync_decoder.md R270: an empty buffer ends the chain with INSUF. -/
theorem test_rxChain_empty : regAfter (exec .rxChain State.reset) .status = some 0xA#32 := by decide

/-- 40_control.md R149, example. -/
theorem test_illegal :
    regAfter (step ((State.reset.issue 0x00000005#32).withInbox [])) .errInfo = some 0x00000005#32 := by decide

/-- 70_reset_and_hazards.md R343: an unspecified operand is a host error. -/
theorem test_unspecified_operand :
    exec .preprocess (mkRegs { Regs.reset with rxLen := 2 }) = .fault (.unspecifiedElement .rxb 0) := by rfl

/-- 20_memory.md R89: the lowest-addressed byte is the least significant. -/
theorem test_byte_order :
    ((busWrite State.reset 0x02000004#32 0x44332211#32 0b1111#4).1).windowByte .msg 4 = some 0x11#8 := by decide

/-- The reset memory is in canonical form, and a write of a value an unlisted address reads as lists nothing. -/
theorem test_canonical_write :
    ((busWrite State.reset 0x00002000#32 0x00000000#32 0b1111#4).1).mem = [] := by decide

/-! ## What the statements suppose can be met: for each statement with hypotheses a concrete state and operands -/

theorem holdsBytes_writeBytes (s : State) (w : Window) (bs : List Byte) : HoldsBytes (s.writeBytes w bs) w bs := by
  intro j hj
  rw [State.windowByte, byteAt_writeBytes, if_pos ⟨by omega, by omega⟩, Nat.add_sub_cancel_left]

theorem holdsSym_writeSym (s : State) (bs : List Bool) : HoldsSym (s.writeSym bs) bs := by
  intro i hi
  rw [symAt_writeSym, if_pos hi]

theorem holdsBits_writeBitString (s : State) (bs : List Bool) : HoldsBits (s.writeBitString bs) bs := by
  intro i hi
  rw [bitsAt_writeBitString, if_pos hi]

theorem witness_ArithmeticPrimitives : (0 : Int) < 1 ∧ 1 * 1 ≤ 1 := by decide

theorem witness_DecodeEncodeAgree : Instr.wellFormed .nop = true := by decide

theorem witness_LegalWordsAreTheEncodings : State.reset.inbox = [] ∧ ∀ i, (0x00000004#32 : Word) ≠ encode i := by
  refine ⟨rfl, fun i => ?_⟩
  cases i <;> decide

theorem witness_StepRunsDecodedCommand :
    ((State.reset.issue 0x00000000#32).seq = .busy ∧
      decodeWord (State.reset.issue 0x00000000#32).regs.cmd = .ok .nop ∧ (State.reset.issue 0x00000000#32).inbox = []) ∧
    (((State.reset.issue 0x0000001F#32).withInbox [.wait]).seq = .busy ∧
      decodeWord ((State.reset.issue 0x0000001F#32).withInbox [.wait]).regs.cmd = .ok .rxChain ∧
      ((State.reset.issue 0x0000001F#32).withInbox [.wait]).inbox.head? = some .wait) ∧
    (((State.reset.issue 0x00000000#32).withInbox [.read 0]).seq = .busy ∧
      ((State.reset.issue 0x00000000#32).withInbox [.read 0]).inbox = [.read 0] ∧ HostAction.read 0 ≠ .wait) ∧
    ((State.reset.withInbox [.wait]).seq = .idle ∧ (State.reset.withInbox [.wait]).inbox = [.wait]) ∧
    (State.reset.seq = .idle ∧ State.reset.inbox = []) := by decide

theorem witness_IllegalCommandCompletes :
    (State.reset.seq = .idle ∧ State.reset.inbox = [] ∧ ∀ i, (0x00000005#32 : Word) ≠ encode i) ∧
    (0x00000100#32 : Word).toNat / 256 ≠ 0 := by
  refine ⟨⟨rfl, rfl, fun i => ?_⟩, by decide⟩
  cases i <;> decide

theorem witness_CommandIssueWrite : State.reset.seq = .idle := rfl

theorem not_mapped {a : Nat} (h : a ∈ [0x048, 0x320, 0x1800, 0x2400, 0x01001000, 0x0B001000, 0x0C000000]) :
    ¬ Mapped Config.hardware a := by
  simp only [List.mem_cons, List.not_mem_nil, or_false] at h
  rintro (⟨r, hr⟩ | ⟨w, hw⟩)
  · rcases h with rfl | rfl | rfl | rfl | rfl | rfl | rfl <;> cases r <;> exact absurd hr (by decide)
  · rcases h with rfl | rfl | rfl | rfl | rfl | rfl | rfl <;> cases w <;> exact absurd hw (by decide)

theorem clut_upper_zero (b0 b1 : Byte) : bytesWord b0 b1 0 0 &&& ~~~(0x0000FFFF#32) = 0 := by
  unfold bytesWord
  apply BitVec.eq_of_getLsbD_eq
  intro i hi
  rw [BitVec.getLsbD_and, BitVec.getLsbD_append, BitVec.getLsbD_append, BitVec.getLsbD_append]
  interval_cases i <;> first | exact Bool.and_false _ | rfl

theorem example_byte {w : Window} {a : Nat} (h : Memory.unlisted (w.base + a) = some 0) :
    (State.reset.withServed 1).windowByte w a = some 0 := h

/-- A state, other than the reset state, that meets the invariant. -/
theorem inv_example : Inv (State.reset.withServed 1) where
  memory := by decide
  bytesMapped e he := nomatch he
  symMapped e he := nomatch he
  bitsMapped e he := nomatch he
  errCode := by decide
  busyClean h := nomatch h
  reserved w k free hw hk := by
    change 4 * k < w.size Config.hardware at hk
    have table : ∀ j, j < 4 → w = .enc ∨ w = .dec → (State.reset.withServed 1).windowByte w (4 * k + j) = some 0 := by
      rintro j hj (rfl | rfl) <;>
      · apply example_byte
        simp only [Window.size, Window.base, Config.hardware, Config.ENC_ENTRIES] at hk ⊢
        unfold Memory.unlisted
        repeat' split
        all_goals first | rfl | omega
    have upper : ∀ j, 2 ≤ j → j < 4 → w = .clut → (State.reset.withServed 1).windowByte w (4 * k + j) = some 0 := by
      rintro j hj2 hj rfl
      apply example_byte
      simp only [Window.size, Window.base, Config.hardware] at hk ⊢
      unfold Memory.unlisted
      repeat' split
      all_goals first | rfl | omega
    have ones : ~~~(0xFFFFFFFF#32) = 0#32 := by decide
    cases w
    case enc =>
      simp only [windowWord, table _ (show 0 < 4 by decide) (.inl rfl), table _ (show 1 < 4 by decide) (.inl rfl),
        table _ (show 2 < 4 by decide) (.inl rfl), table _ (show 3 < 4 by decide) (.inl rfl), Option.getD_some]
      exact BitVec.zero_and
    case dec =>
      simp only [windowWord, table _ (show 0 < 4 by decide) (.inr rfl), table _ (show 1 < 4 by decide) (.inr rfl),
        table _ (show 2 < 4 by decide) (.inr rfl), table _ (show 3 < 4 by decide) (.inr rfl), Option.getD_some]
      exact BitVec.zero_and
    case clut =>
      simp only [windowWord, upper _ (show 2 ≤ 2 by decide) (show 2 < 4 by decide) rfl,
        upper _ (show 2 ≤ 3 by decide) (show 3 < 4 by decide) rfl, Option.getD_some]
      exact clut_upper_zero _ _
    all_goals first | cases hw; done | (show windowWord _ _ _ free &&& ~~~(0xFFFFFFFF#32) = 0#32; rw [ones]; exact BitVec.and_zero)

theorem witness_RegisterWriteDetails :
    (State.reset.seq = .idle ∧ Reg.id ∈ readOnlyRegisters ∧ Reg.tokdLen ∈ readOnlyRegisters) ∧
    (1 ≤ 1 ∧ 6 ≤ 6) ∧
    (Inv (State.reset.withServed 1) ∧ (State.reset.withServed 1).seq = .idle ∧ 4 * 255 < Window.dec.size (State.reset.withServed 1).params) :=
  ⟨by decide, by decide, inv_example, by decide⟩

theorem witness_BusErrorsHaveNoEffect :
    (0x00000001#32 : Word).toNat % 4 ≠ 0 ∧ (0x00000003#32 : Word).toNat % 4 ≠ 0 ∧ (0b1110#4 : Strobe) ≠ 0b1111#4 ∧
    ¬ Mapped State.reset.params (0x00000048#32 : Word).toNat ∧ ¬ Mapped State.reset.params (0x00000320#32 : Word).toNat ∧ ¬ Mapped State.reset.params (0x00001800#32 : Word).toNat ∧
    ¬ Mapped State.reset.params (0x00002400#32 : Word).toNat ∧ ¬ Mapped State.reset.params (0x01001000#32 : Word).toNat ∧
    ¬ Mapped State.reset.params (0x0B001000#32 : Word).toNat ∧ ¬ Mapped State.reset.params (0x0C000000#32 : Word).toNat ∧
    (State.reset.seq = .idle ∧ (0x0B000FFC#32 : Word).toNat % 4 = 0 ∧ Mapped State.reset.params (0x0B000FFC#32 : Word).toNat ∧
      Mapped State.reset.params (0x00000000#32 : Word).toNat) :=
  ⟨by decide, by decide, by decide, not_mapped (by decide), not_mapped (by decide), not_mapped (by decide),
    not_mapped (by decide), not_mapped (by decide), not_mapped (by decide), not_mapped (by decide),
    rfl, by decide, .inr ⟨.toke, by decide⟩, .inl ⟨.id, by decide⟩⟩

theorem witness_AddressMapDecodes : 4 * 0 < Window.enc.size smallest ∧ 4 * 1023 < Window.toke.size Config.hardware := by decide

theorem witness_BusyAccessRules :
    (State.reset.issue 0x00000000#32).seq = .busy ∧ (0x0000000C#32 : Word) ≠ 0x00000008#32 ∧
    Reg.id ∈ readableRegisters ∧ Reg.irqEn ∈ readableRegisters ∧
    (0x00000100#32 : Word).toNat % 4 = 0 ∧ Mapped State.reset.params (0x00000100#32 : Word).toNat ∧ Mapped State.reset.params (0x00001000#32 : Word).toNat :=
  ⟨rfl, by decide, by decide, by decide, by decide, .inl ⟨.fs, by decide⟩, .inr ⟨.enc, by decide⟩⟩

theorem witness_RegisterWriteReadBack :
    State.reset.seq = .idle ∧ Reg.irqEn ∈ readWriteRegisters ∧ Reg.decStart ∈ readWriteRegisters ∧
    (0x00000000#32 : Word) ≠ BitVec.ofNat 32 Reg.irqEn.offset := by decide

/-- Byte 4095 of MSG and bit 31 of SYM have values. -/
def specifiedOne : State := ((State.reset.withMem [(0x020003FF, 7)]).writeSym (List.replicate 32 true)).writeBitString [true]

theorem witness_WindowWriteReadBack :
    (State.reset.seq = .idle ∧ 4 * 1023 < Window.clut.size State.reset.params ∧ 4 * 16383 < Window.sym.size State.reset.params ∧
      Window.clut.isBits = false ∧ 3 < 4 ∧ Window.sym.isBits = true ∧ 0x01000FFB < Window.clut.base + 4 * 1023 ∧
      Window.clut.base + 4 * 1023 + 4 ≤ 0x01001000 ∧ 31 < 32 ∧ Window.clut ≠ .sym ∧ 31 < 32 * 1 ∧ 32 * 1 + 32 ≤ 64) ∧
    (specifiedOne.seq = .idle ∧ 4 * 255 < Window.msg.size specifiedOne.params ∧ Window.msg.isBits = false ∧
      specifiedOne.windowByte .msg (4 * 255 + 3) = some 7 ∧ specifiedOne.symAt (32 * 0 + 31) = some true ∧
      specifiedOne.bitsAt (32 * 0 + 0) = some true) := by decide

/-- 20_memory.md R89, by hand: the highest byte and the highest bit of a word. -/
theorem test_word_places :
    (busWrite State.reset 0x02000000#32 0x80000001#32 0b1111#4).1.windowByte .msg 3 = some 0x80#8 ∧
    (busWrite State.reset 0x08000004#32 0x80000001#32 0b1111#4).1.symAt 63 = some true ∧
    (busWrite State.reset 0x08000004#32 0x80000001#32 0b1111#4).1.symAt 62 = some false := by decide

theorem witness_InterruptLine :
    State.reset.readReg .status = (State.reset.withServed 1).readReg .status ∧
    State.reset.readReg .irqEn = (State.reset.withServed 1).readReg .irqEn ∧ State.reset.readReg .irqEn = 0 ∧
    (0x00000018#32 : Word).toNat ∉ [0x008, 0x00C, 0x010, 0x014] := by decide

theorem witness_SoftReset :
    (0x00000000#32 : Word).getLsbD 0 = false ∧ (0x00000001#32 : Word).getLsbD 0 = true ∧ State.reset.seq = .idle ∧
    ((State.reset.issue 0x00000004#32).seq = .busy ∧ ∀ i, (State.reset.issue 0x00000004#32).regs.cmd ≠ encode i) ∧
    ((State.reset.issue (encode .rxChain)).seq = .busy ∧ (State.reset.issue (encode .rxChain)).regs.cmd = encode .rxChain ∧
      Window.enc ∉ windowsWritten .rxChain ∧ 2047 < elements State.reset.params .enc ∧ Window.sym ∈ windowsWritten .rxChain ∧
      524287 < elements State.reset.params .sym ∧ ¬ (Window.sym = .clut ∧ 2 ≤ 524287 % 4)) := by
  refine ⟨by decide, by decide, rfl, ⟨rfl, fun i => ?_⟩, rfl, rfl, by decide, by decide, by decide, by decide, by decide⟩
  cases i <;> decide

theorem witness_HardReset :
    (Window.enc = .enc ∨ Window.enc = .dec) ∧ 2047 < elements State.reset.params .enc ∧ Window.toke ≠ .enc ∧ Window.toke ≠ .dec ∧
    4095 < elements State.reset.params .toke ∧ ¬ (Window.toke = .clut ∧ 2 ≤ 4095 % 4) := by decide

theorem witness_NopCompletes : State.reset.seq = .idle ∧ State.reset.inbox = [] := by decide

theorem witness_GenCarrierBuildsTable :
    (∀ r : Regs, (mk r [] [] []).regs = r) ∧
    ((1#32 : Word) ≠ 0 ∧ 1 ≤ rne (1#32 : Word).toNat (1#32 : Word).toNat ∧ rne (1#32 : Word).toNat (1#32 : Word).toNat ≤ Config.hardware.clutDepth) ∧
    (1 ≤ rne (1024#32 : Word).toNat (1#32 : Word).toNat ∧ rne (1024#32 : Word).toNat (1#32 : Word).toNat ≤ Config.hardware.clutDepth) ∧
    ((2#32 : Word) ≠ 0 ∧ rne (1#32 : Word).toNat (2#32 : Word).toNat = 0) ∧
    Config.hardware.clutDepth < rne (1025#32 : Word).toNat (1#32 : Word).toNat := by
  exact ⟨fun r => rfl, by decide, by decide, by decide, by decide⟩

theorem witness_CarrierTableLength :
    (2 ≤ 2 * 1 ∧ 1 < 2 * 2) ∧ (2 ≤ 2 * 3 ∧ 3 < 2 * 2) ∧
    ((mkRegs { Regs.reset with fs := 2, fc := 1 }).regs.fs.toNat ≤
        2 * (mkRegs { Regs.reset with fs := 2, fc := 1 }).regs.fc.toNat ∧
      (mkRegs { Regs.reset with fs := 2, fc := 1 }).regs.fc.toNat <
        2 * (mkRegs { Regs.reset with fs := 2, fc := 1 }).regs.fs.toNat ∧
      rne (mkRegs { Regs.reset with fs := 2, fc := 1 }).regs.fs.toNat (mkRegs { Regs.reset with fs := 2, fc := 1 }).regs.fc.toNat ≤
        (mkRegs { Regs.reset with fs := 2, fc := 1 }).params.clutDepth) ∧
    ((mkRegs { Regs.reset with fs := 1, fc := 2 }).regs.fc ≠ 0 ∧
      2 * (mkRegs { Regs.reset with fs := 1, fc := 2 }).regs.fs.toNat ≤
        (mkRegs { Regs.reset with fs := 1, fc := 2 }).regs.fc.toNat) := by decide

theorem witness_CarrierSampleIsExact : 0 < 1 ∧ 1 < 2 ^ 32 ∧ 0 < 2 ^ 32 - 1 ∧ 2 ^ 32 - 1 < 2 ^ 32 ∧ 127 ≤ 127 := by decide

theorem witness_EnclosedComparisonSound :
    0 < 1 ∧ 1 < 2 ∧ ((enclosureOne : Int) : ℝ) ≤ (1 : ℝ) * 2 ^ 128 ∧ (1 : ℝ) * 2 ^ 128 ≤ ((enclosureOne : Int) : ℝ) ∧
    Real.cos (Real.pi * (1 : Nat) / (2 : Nat)) ≠ (1 : ℝ) ∧ cosBelowEnclosed 1 1 2 enclosureOne enclosureOne = some true := by
  refine ⟨by decide, by decide, ?_, ?_, ?_, by decide⟩
  · norm_num [enclosureOne]
  · norm_num [enclosureOne]
  · simp [Real.cos_pi_div_two]

/-! ### Transmit -/

/-- ENC: 'A' is 32 zeros. -/
def encLong : List Host.Cell := [(0x120C, 0x20), (0x120F, 0x80)]

theorem encEntry_writeBytes_msg (s : State) (bs : List Byte) (c : Nat) (hc : c < 256) :
    encEntry (s.writeBytes .msg bs) c = encEntry s c := by
  have h : ∀ off, off < 2048 → (s.writeBytes .msg bs).windowByte .enc off = s.windowByte .enc off := by
    intro off ho
    have h1 : Window.enc.base = 4096 := rfl
    have h2 : Window.msg.base = 33554432 := rfl
    rw [State.windowByte, byteAt_writeBytes, if_neg (by omega)]
    rfl
  simp only [encEntry, tableWordAt, windowWord]
  repeat rw [h _ (by omega)]

theorem packetOf_replicate (s : State) (n : Nat) (c : Byte) (rest : List Byte) :
    (packetOf s (List.replicate n c ++ rest)).length = n * (packetOf s [c]).length + (packetOf s rest).length := by
  induction n with
  | zero => simp [packetOf]
  | succ n ih =>
    have : packetOf s (List.replicate (n + 1) c ++ rest) = packetOf s [c] ++ packetOf s (List.replicate n c ++ rest) := by
      simp [packetOf, List.replicate_succ]
    rw [this, List.length_append, ih]
    ring

/-- MSG of 512 bytes 'A' and then `rest`. -/
def longMessage (rest : List Byte) : State :=
  (mk { Regs.reset with msgLen := BitVec.ofNat 32 (512 + rest.length) } encLong [] []).writeBytes .msg
    (List.replicate 512 0x41#8 ++ rest)

theorem encEntry_congr (s t : State) (c : Nat) (h : s.mem = t.mem) : encEntry s c = encEntry t c := by
  simp only [encEntry, tableWordAt, windowWord, State.windowByte, State.byteAt, h]

theorem longMessage_enc (rest : List Byte) (c : Nat) (hc : c < 256) :
    encEntry (longMessage rest) c = encEntry (mk Regs.reset encLong [] []) c := by
  rw [longMessage, encEntry_writeBytes_msg _ _ c hc]
  exact encEntry_congr _ _ c rfl

theorem longMessage_legal (rest : List Byte) : EncTableLegal (longMessage rest) := by
  intro c hc
  rw [longMessage_enc rest c hc]
  have h : ∀ c, c < 256 → (encEntry (mk Regs.reset encLong [] []) c).present = true →
      (encEntry (mk Regs.reset encLong [] []) c).clen ≤ 32 := by decide +kernel
  exact h c hc

theorem longMessage_code (rest : List Byte) : (packetOf (longMessage rest) [0x41#8]).length = 32 := by
  have h : (packetOf (mk Regs.reset encLong [] []) [0x41#8]).length = 32 := by decide +kernel
  rw [← h]
  simp only [packetOf, List.flatMap_cons, List.flatMap_nil, List.append_nil]
  rw [longMessage_enc rest _ (by decide)]

theorem longMessage_packet (rest : List Byte) :
    (packetOf (longMessage rest) (List.replicate 512 0x41#8 ++ rest)).length =
      16384 + (packetOf (longMessage rest) rest).length := by
  rw [packetOf_replicate, longMessage_code]

theorem longMessage_length (rest : List Byte) : (List.replicate 512 0x41#8 ++ rest).length = 512 + rest.length := by
  rw [List.length_append, List.length_replicate]

theorem witness_EncodeSubstitutes :
    (EncTableLegal (longMessage []) ∧
      (List.replicate 512 0x41#8 ++ []).length = (longMessage []).regs.msgLen.toNat ∧
      (List.replicate 512 0x41#8 ++ []).length ≤ (longMessage []).params.msgDepth ∧ HoldsBytes (longMessage []) .msg (List.replicate 512 0x41#8 ++ []) ∧
      (packetOf (longMessage []) (List.replicate 512 0x41#8 ++ [])).length ≤ (longMessage []).params.pktDepth) := by
  refine ⟨longMessage_legal _, by rw [longMessage_length]; rfl, by rw [longMessage_length]; decide,
    holdsBytes_writeBytes _ _ _, ?_⟩
  rw [longMessage_packet]
  exact Nat.le_refl _

theorem witness_EncodeErrors :
    (State.reset.regs.msgLen.toNat ≤ State.reset.params.msgDepth ∧ 255 < 256 ∧
      (encEntry (mk Regs.reset [(0x17FC, 0x21), (0x17FF, 0x80)] [] []) 255).present = true ∧
      32 < (encEntry (mk Regs.reset [(0x17FC, 0x21), (0x17FF, 0x80)] [] []) 255).clen ∧
      ∀ d, d < 255 → (encEntry (mk Regs.reset [(0x17FC, 0x21), (0x17FF, 0x80)] [] []) d).present = true →
        (encEntry (mk Regs.reset [(0x17FC, 0x21), (0x17FF, 0x80)] [] []) d).clen ≤ 32) ∧
    (EncTableLegal (longMessage [0x41#8]) ∧
      (List.replicate 512 0x41#8 ++ [0x41#8]).length = (longMessage [0x41#8]).regs.msgLen.toNat ∧
      (List.replicate 512 0x41#8 ++ [0x41#8]).length ≤ (longMessage [0x41#8]).params.msgDepth ∧
      HoldsBytes (longMessage [0x41#8]) .msg (List.replicate 512 0x41#8 ++ [0x41#8]) ∧
      (longMessage [0x41#8]).params.pktDepth < (packetOf (longMessage [0x41#8]) (List.replicate 512 0x41#8 ++ [0x41#8])).length) := by
  refine ⟨by decide +kernel, longMessage_legal _, by rw [longMessage_length]; rfl, by rw [longMessage_length]; decide,
    holdsBytes_writeBytes _ _ _, ?_⟩
  rw [longMessage_packet, longMessage_code]
  decide

/-- "1x" with one carrier entry, L = 3, P = 2. -/
def smallPacket : State :=
  mk { Regs.reset with pktLen := 2, clutLen := 1, txSymLen := 3, pauseLen := 2 }
    [(0x01000000, 5), (0x01000001, 7), (0x03000000, 0x31), (0x03000001, 0x78)] [] []

theorem smallPacket_ready : GenerateReady smallPacket [(5, 7)] [0x31#8, 0x78#8] := by
  refine ⟨by decide, by decide, fun _ _ => ⟨by decide, ?_⟩, by decide⟩
  unfold HoldsCarrier
  decide

theorem smallPacket_holds : HoldsBytes smallPacket .pkt [0x31#8, 0x78#8] := by
  unfold HoldsBytes
  decide

/-- One zero symbol of L samples. -/
def oneZero (L : Word) : State := mk { Regs.reset with pktLen := 1, txSymLen := L } [(0x03000000, 0x30)] [] []

theorem oneZero_holds (L : Word) : HoldsBytes (oneZero L) .pkt [0x30#8] := by
  have h : HoldsBytes (oneZero 0) .pkt [0x30#8] := by
    unfold HoldsBytes
    decide
  exact h

theorem witness_GenerateWaveform :
    ([0x31#8, 0x78#8].length = smallPacket.regs.pktLen.toNat ∧ [0x31#8, 0x78#8].length ≤ smallPacket.params.pktDepth ∧
      HoldsBytes smallPacket .pkt [0x31#8, 0x78#8] ∧ GenerateReady smallPacket [(5, 7)] [0x31#8, 0x78#8]) ∧
    ([0x30#8].length = (oneZero 524288#32).regs.pktLen.toNat ∧ HoldsBytes (oneZero 524288#32) .pkt [0x30#8] ∧
      GenerateReady (oneZero 524288#32) [] [0x30#8]) := by
  refine ⟨⟨by decide, by decide, smallPacket_holds, smallPacket_ready⟩, by decide, oneZero_holds _, by decide, ?_, ?_, ?_⟩
  · intro h; exact absurd h (by decide)
  · intro h; exact absurd h (by decide)
  · decide

/-- "1" with N carrier entries and L samples. -/
def oneMark (N L : Word) : State := mk { Regs.reset with pktLen := 1, clutLen := N, txSymLen := L } [(0x03000000, 0x31)] [] []

theorem oneMark_holds (N L : Word) : HoldsBytes (oneMark N L) .pkt [0x31#8] := by
  have h : HoldsBytes (oneMark 0 0) .pkt [0x31#8] := by
    unfold HoldsBytes
    decide
  exact h

theorem witness_GenerateErrors :
    ([0x31#8].length = (oneMark 0 0).regs.pktLen.toNat ∧ [0x31#8].length ≤ (oneMark 0 0).params.pktDepth ∧ HoldsBytes (oneMark 0 0) .pkt [0x31#8] ∧
      (oneMark 0 0).regs.clutLen.toNat ≤ (oneMark 0 0).params.clutDepth ∧ 0x31#8 ∈ [0x31#8] ∧ (oneMark 0 0).regs.clutLen = 0) ∧
    ([0x31#8].length = (oneMark 1024 1).regs.pktLen.toNat ∧ HoldsBytes (oneMark 1024 1) .pkt [0x31#8] ∧
      (oneMark 1024 1).regs.clutLen.toNat ≤ (oneMark 1024 1).params.clutDepth ∧ (oneMark 1024 1).regs.clutLen ≠ 0 ∧
      (oneMark 1024 1).regs.txSymLen.toNat % (oneMark 1024 1).regs.clutLen.toNat ≠ 0) ∧
    ([0x30#8].length = (oneZero 524289#32).regs.pktLen.toNat ∧ HoldsBytes (oneZero 524289#32) .pkt [0x30#8] ∧
      (oneZero 524289#32).regs.clutLen.toNat ≤ (oneZero 524289#32).params.clutDepth ∧
      (0x31#8 ∈ [0x30#8] → (oneZero 524289#32).regs.clutLen ≠ 0 ∧
        (oneZero 524289#32).regs.txSymLen.toNat % (oneZero 524289#32).regs.clutLen.toNat = 0) ∧
      (oneZero 524289#32).params.txbDepth < 2 * packetSamples (oneZero 524289#32).regs.txSymLen.toNat (oneZero 524289#32).regs.pauseLen.toNat [0x30#8]) :=
  ⟨⟨by decide, by decide, oneMark_holds _ _, by decide, by decide, by decide⟩,
    ⟨by decide, oneMark_holds _ _, by decide, by decide, by decide⟩,
    by decide, oneZero_holds _, by decide, fun h => absurd h (by decide), by decide⟩

theorem witness_TilingRepeatsTable :
    [0x31#8, 0x78#8].length = smallPacket.regs.pktLen.toNat ∧ [0x31#8, 0x78#8].length ≤ smallPacket.params.pktDepth ∧
    HoldsBytes smallPacket .pkt [0x31#8, 0x78#8] ∧ GenerateReady smallPacket [(5, 7)] [0x31#8, 0x78#8] ∧
    [0x31#8, 0x78#8][0]? = some 0x31#8 ∧ smallPacket.regs.txSymLen.toNat = 3 * smallPacket.regs.clutLen.toNat ∧
    2 < 3 ∧ 0 < smallPacket.regs.clutLen.toNat :=
  ⟨by decide, by decide, smallPacket_holds, smallPacket_ready, by decide, by decide, by decide, by decide⟩

/-- An error completion of a state that writes nothing. -/
theorem after_errRegs (s : State) (code : ErrCode) (info : Word) :
    After s (s.completeErr code info) (errRegs s.regs code.value info) [] [] [] :=
  ⟨rfl, rfl, fun _ => rfl, fun _ => rfl, fun _ => rfl, rfl, rfl, rfl, rfl⟩

/-- MSG "1", no dictionary, no carrier. -/
def markMessage (N : Word) : State :=
  mk { Regs.reset with msgLen := 1, clutLen := N } [(0x01000000, 5), (0x01000001, 7), (0x02000000, 0x31)] [] []

theorem markMessage_packet (N : Word) : packetOf (markMessage N) [0x31#8] = [0x31#8] := by
  have h : packetOf (markMessage 0) [0x31#8] = [0x31#8] := by decide +kernel
  exact h

theorem markMessage_legal (N : Word) : EncTableLegal (markMessage N) := by
  have h : EncTableLegal (markMessage 0) := by
    unfold EncTableLegal
    decide +kernel
  exact h

theorem markMessage_holds (N : Word) : HoldsBytes (markMessage N) .msg [0x31#8] := by
  have h : HoldsBytes (markMessage 0) .msg [0x31#8] := by
    unfold HoldsBytes
    decide
  exact h

theorem witness_TxChainRunsBothStages :
    ((0x2#4 : BitVec 4) ≠ 0 ∧ FailsWith .encode (mkRegs { Regs.reset with msgLen := 1025 }) 2 0x118#32) ∧
    (EncTableLegal (markMessage 0) ∧ [0x31#8].length = (markMessage 0).regs.msgLen.toNat ∧ [0x31#8].length ≤ (markMessage 0).params.msgDepth ∧
      HoldsBytes (markMessage 0) .msg [0x31#8] ∧ (packetOf (markMessage 0) [0x31#8]).length ≤ (markMessage 0).params.pktDepth ∧
      (0x4#4 : BitVec 4) ≠ 0 ∧
      FailsWith .generate
        (((markMessage 0).writeBytes .pkt (packetOf (markMessage 0) [0x31#8])).withRegs
          { (markMessage 0).regs with pktLen := BitVec.ofNat 32 (packetOf (markMessage 0) [0x31#8]).length }) 4 1) ∧
    (EncTableLegal (markMessage 1) ∧ [0x31#8].length = (markMessage 1).regs.msgLen.toNat ∧
      HoldsBytes (markMessage 1) .msg [0x31#8] ∧
      GenerateReady (markMessage 1) [(5, 7)] (packetOf (markMessage 1) [0x31#8])) := by
  refine ⟨⟨by decide, _, rfl, after_errRegs _ .param 0x118#32⟩,
    ⟨markMessage_legal _, by decide, by decide, markMessage_holds _, by rw [markMessage_packet]; decide, by decide, ?_⟩,
    markMessage_legal _, by decide, markMessage_holds _, ?_⟩
  · rw [markMessage_packet]
    exact ⟨_, rfl, after_errRegs _ .tile 1⟩
  · rw [markMessage_packet]
    refine ⟨by decide, by decide, fun _ h => absurd rfl h, by decide⟩

/-! ### Receive -/

/-- RXB holds the four bytes of the example of R200; the filter is the identity. -/
def rxExample (L syncLen min : Word) : State :=
  mk { Regs.reset with rxLen := 4, filtB0 := 0x10000#18, rxSymLen := L, syncLen := syncLen, threshMin := min } rxFour [] []

theorem rxExample_holds (L n m : Word) : HoldsBytes (rxExample L n m) .rxb [10, 20, 30, 40] := by
  have h : HoldsBytes (rxExample 0 0 0) .rxb [10, 20, 30, 40] := by
    unfold HoldsBytes
    decide
  exact h

theorem rxExample_envelope (L n m : Word) :
    envelope (rxExample L n m).regs (signalOf [10, 20, 30, 40]) = [3620, 3620] := by
  have h : envelope (rxExample 0 0 0).regs (signalOf [10, 20, 30, 40]) = [3620, 3620] := by decide +kernel
  exact h

theorem rxExample_percentiles (L n m : Word) :
    Percentiles (envelope (rxExample L n m).regs (signalOf [10, 20, 30, 40])) 3620 3620 := by
  rw [rxExample_envelope]
  exact ⟨[3620, 3620], by decide, by decide, by decide, by decide⟩

/-- A full RXB. -/
def rxFull : State := (mkRegs { Regs.reset with rxLen := 1048576 }).writeBytes .rxb (List.replicate 1048576 0)

theorem witness_PreprocessRemovesMean :
    ([10, 20, 30, 40].length = (rxExample 0 0 0).regs.rxLen.toNat ∧ [10, 20, 30, 40].length ≤ (rxExample 0 0 0).params.rxbDepth ∧
      [10, 20, 30, 40].length % 2 = 0 ∧ HoldsBytes (rxExample 0 0 0) .rxb [10, 20, 30, 40]) ∧
    ((List.replicate 1048576 (0 : Byte)).length = rxFull.regs.rxLen.toNat ∧
      (List.replicate 1048576 (0 : Byte)).length ≤ rxFull.params.rxbDepth ∧ (List.replicate 1048576 (0 : Byte)).length % 2 = 0 ∧
      HoldsBytes rxFull .rxb (List.replicate 1048576 0)) ∧
    State.reset.regs.rxLen = 0 ∧
    (mkRegs { Regs.reset with rxLen := 1048577 }).params.rxbDepth < (mkRegs { Regs.reset with rxLen := 1048577 }).regs.rxLen.toNat ∧
    ((mkRegs { Regs.reset with rxLen := 1048575 }).regs.rxLen.toNat ≤ (mkRegs { Regs.reset with rxLen := 1048575 }).params.rxbDepth ∧
      (mkRegs { Regs.reset with rxLen := 1048575 }).regs.rxLen.toNat % 2 = 1) :=
  ⟨⟨by decide, by decide, by decide, rxExample_holds _ _ _⟩,
    ⟨by rw [List.length_replicate]; rfl, by rw [List.length_replicate]; exact Nat.le_refl _, by rw [List.length_replicate],
      holdsBytes_writeBytes _ _ _⟩, by decide, by decide, by decide⟩

theorem witness_PreprocessRanges : 2 ≤ [0x80#8, 0x7F#8].length ∧ (-128 : Int) ∈ railI [0x80#8, 0x7F#8] := by decide

/-- One sample (768, 1024) in SIG. -/
def sigOne (min : Word) : State :=
  mk { Regs.reset with sigLen := 1, filtB0 := 0x10000#18, threshMin := min }
    [(0x06000000, 0), (0x06000001, 3), (0x06000002, 0), (0x06000003, 0), (0x06000004, 0), (0x06000005, 4),
     (0x06000006, 0), (0x06000007, 0)] [] []

theorem sigOne_holds (m : Word) : HoldsBytes (sigOne m) .sig (signalBytes [(768, 1024)]) := by
  have h : HoldsBytes (sigOne 0) .sig (signalBytes [(768, 1024)]) := by
    unfold HoldsBytes
    decide
  exact h

theorem sigOne_percentiles (m : Word) : Percentiles (envelope (sigOne m).regs [(768, 1024)]) 1280 1280 := by
  have h : envelope (sigOne 0).regs [(768, 1024)] = [1280] := by decide +kernel
  rw [show envelope (sigOne m).regs [(768, 1024)] = [1280] from h]
  exact ⟨[1280], by decide, by decide, by decide, by decide⟩

theorem witness_DetectThresholds :
    (mkRegs { Regs.reset with sigLen := 524289 }).params.sigDepth < (mkRegs { Regs.reset with sigLen := 524289 }).regs.sigLen.toNat ∧ State.reset.regs.sigLen = 0 ∧
    (∀ m : Word, [((768 : Int), (1024 : Int))].length = (sigOne m).regs.sigLen.toNat ∧ HoldsBytes (sigOne m) .sig (signalBytes [(768, 1024)]) ∧
      Percentiles (envelope (sigOne m).regs [(768, 1024)]) 1280 1280) ∧
    (1 ≤ [((768 : Int), (1024 : Int))].length ∧ [((768 : Int), (1024 : Int))].length ≤ (sigOne 0).params.sigDepth ∧
      ∀ z ∈ [((768 : Int), (1024 : Int))], -2147483648 ≤ z.1 ∧ z.1 ≤ 2147483647 ∧ -2147483648 ≤ z.2 ∧ z.2 ≤ 2147483647) ∧
    ((1280 : Int) - 1280 < (sigOne 1).regs.threshMin.toNat) ∧ ((sigOne 0).regs.threshMin.toNat ≤ (1280 : Int) - 1280) :=
  ⟨by decide, by decide, fun m => ⟨rfl, sigOne_holds m, sigOne_percentiles m⟩, by decide, by decide, by decide⟩

theorem witness_EnvelopeIsTheFilter : [((0 : Int), (0 : Int))] ≠ [] ∧ 0 < [((0 : Int), (0 : Int))].length := by decide

theorem witness_MagnitudeIsFloorRoot : |(65280 : Int)| ≤ 65280 ∧ |(-65280 : Int)| ≤ 65280 := by decide

theorem witness_LengthChecks :
    (mkRegs { Regs.reset with msgLen := 1025 }).params.msgDepth < (mkRegs { Regs.reset with msgLen := 1025 }).regs.msgLen.toNat ∧
    (mkRegs { Regs.reset with pktLen := 16385 }).params.pktDepth < (mkRegs { Regs.reset with pktLen := 16385 }).regs.pktLen.toNat ∧
    ((mkRegs { Regs.reset with pktLen := 16384, clutLen := 1025 }).regs.pktLen.toNat ≤ (mkRegs { Regs.reset with pktLen := 16384, clutLen := 1025 }).params.pktDepth ∧
      (mkRegs { Regs.reset with pktLen := 16384, clutLen := 1025 }).params.clutDepth < (mkRegs { Regs.reset with pktLen := 16384, clutLen := 1025 }).regs.clutLen.toNat) ∧
    (mkRegs { Regs.reset with rxLen := 1048577 }).params.rxbDepth < (mkRegs { Regs.reset with rxLen := 1048577 }).regs.rxLen.toNat ∧
    (mkRegs { Regs.reset with sigLen := 524289 }).params.sigDepth < (mkRegs { Regs.reset with sigLen := 524289 }).regs.sigLen.toNat ∧
    (mkRegs { Regs.reset with symLen := 524289 }).params.sigDepth < (mkRegs { Regs.reset with symLen := 524289 }).regs.symLen.toNat ∧
    ((mkRegs { Regs.reset with symLen := 524288 }).regs.symLen.toNat ≤ (mkRegs { Regs.reset with symLen := 524288 }).params.sigDepth ∧
      (mkRegs { Regs.reset with symLen := 524288 }).regs.rxSymLen = 0) ∧
    (mkRegs { Regs.reset with bitsLen := 524289 }).params.bitsDepth < (mkRegs { Regs.reset with bitsLen := 524289 }).regs.bitsLen.toNat ∧
    ((mkRegs { Regs.reset with bitsLen := 524288, syncLen := 65 }).regs.bitsLen.toNat ≤ (mkRegs { Regs.reset with bitsLen := 524288, syncLen := 65 }).params.bitsDepth ∧
      64 < (mkRegs { Regs.reset with bitsLen := 524288, syncLen := 65 }).regs.syncLen.toNat) ∧
    ((mkRegs { Regs.reset with bitsLen := 524288, decStart := 524289 }).regs.bitsLen.toNat ≤ (mkRegs { Regs.reset with bitsLen := 524288, decStart := 524289 }).params.bitsDepth ∧
      (mkRegs { Regs.reset with bitsLen := 524288, decStart := 524289 }).regs.bitsLen.toNat <
        (mkRegs { Regs.reset with bitsLen := 524288, decStart := 524289 }).regs.decStart.toNat) ∧
    exec .preprocess (mkRegs { Regs.reset with rxLen := 2 }) = .fault (.unspecifiedElement .rxb 0) := by
  refine ⟨by decide, by decide, by decide, by decide, by decide, by decide, by decide, by decide, by decide, by decide, rfl⟩

/-- SYM with one run of 524288 ones. -/
def symFull : State :=
  (mkRegs { Regs.reset with symLen := 524288, rxSymLen := 1 }).writeSym (runsExpand [(true, 524288)])

theorem witness_SliceRecoversBits :
    (MaximalRuns [(true, 1), (false, 1)] ∧
      (runsExpand [(true, 1), (false, 1)]).length = (mk { Regs.reset with symLen := 2, rxSymLen := 1 } [] [true, false] []).regs.symLen.toNat ∧
      (runsExpand [(true, 1), (false, 1)]).length ≤ Config.hardware.sigDepth ∧
      (mk { Regs.reset with symLen := 2, rxSymLen := 1 } [] [true, false] []).regs.rxSymLen ≠ 0 ∧
      HoldsSym (mk { Regs.reset with symLen := 2, rxSymLen := 1 } [] [true, false] []) (runsExpand [(true, 1), (false, 1)])) ∧
    (MaximalRuns [(true, 524288)] ∧ (runsExpand [(true, 524288)]).length = symFull.regs.symLen.toNat ∧
      (runsExpand [(true, 524288)]).length ≤ symFull.params.sigDepth ∧ symFull.regs.rxSymLen ≠ 0 ∧ HoldsSym symFull (runsExpand [(true, 524288)])) ∧
    (mkRegs { Regs.reset with symLen := 524289 }).params.sigDepth < (mkRegs { Regs.reset with symLen := 524289 }).regs.symLen.toNat ∧
    ((mkRegs { Regs.reset with symLen := 524288 }).regs.symLen.toNat ≤ (mkRegs { Regs.reset with symLen := 524288 }).params.sigDepth ∧
      (mkRegs { Regs.reset with symLen := 524288 }).regs.rxSymLen = 0) := by
  have hl : (runsExpand [(true, 524288)]).length = 524288 := by
    unfold runsExpand
    rw [List.flatMap_cons, List.flatMap_nil, List.append_nil, List.length_replicate]
  refine ⟨⟨?_, by decide, by decide, by decide, ?_⟩, ⟨?_, by rw [hl]; rfl, by rw [hl]; exact Nat.le_refl _, by decide, holdsSym_writeSym _ _⟩,
    by decide, by decide⟩
  · unfold MaximalRuns
    simp
  · unfold HoldsSym
    decide
  · unfold MaximalRuns
    simp

theorem witness_RunLengthQuantization : 1 ≤ 1 ∧ 1 ≤ 1 ∧ 4 - 1 < 4 ∧ 1 ≤ 4 := by decide

theorem witness_SliceNeverOverflows :
    1 ≤ 1 ∧ 1 ≤ 1 ∧ ∃ t, exec .slice (mkRegs { Regs.reset with rxSymLen := 1 }) = .next t ∧ t.regs.errCode = 0 :=
  ⟨by decide, by decide, _, rfl, rfl⟩

theorem witness_OperandAssembly : 255 < 256 ∧ 63 < State.reset.params.decEntries := by decide

/-- The entry of the key "1" with the value 'A'. -/
def entryOne : DecEntry := ⟨0x00000001#32, 0x80000101#32, 0x00000041#32⟩

theorem witness_LongestMatchSelected :
    matchAt [entryOne] [true] = some entryOne ∧ [entryOne][0]? = some entryOne ∧ entryOne.present = true ∧
    entryOne.keyBits <+: [true] ∧ matchAt [entryOne] [false] = none := by decide

theorem witness_GreedyLoopRefinement :
    (∀ x ∈ [entryOne], x.present = true → 1 ≤ x.klen) ∧ 2 ≤ [true, false].length ∧ [true, false].length ≤ 2 ∧
    0 ≤ [true, false].length := by decide

/-- Only DEC entry 0 is present: "1" with the value 'A'. -/
def decOne : List Host.Cell := [(0x2000, 0x01), (0x2004, 0x01), (0x2005, 0x01), (0x2007, 0x80), (0x2008, 0x41)]

theorem decTable_decOne (r : Regs) (bits : List Bool) :
    decTable ((mk r decOne [] []).writeBitString bits) = entryOne :: List.replicate 63 ⟨0, 0, 0⟩ := by
  have h : decTable (mk Regs.reset decOne [] []) = entryOne :: List.replicate 63 ⟨0, 0, 0⟩ := by decide +kernel
  exact h

theorem decOne_legal (r : Regs) (bits : List Bool) : DecTableLegal ((mk r decOne [] []).writeBitString bits) := by
  have h : DecTableLegal (mk Regs.reset decOne [] []) := by
    unfold DecTableLegal
    decide +kernel
  exact h

theorem matchAt_decOne (b : Bool) (bits : List Bool) :
    matchAt (entryOne :: List.replicate 63 ⟨0, 0, 0⟩) (b :: bits) = if b then some entryOne else none := by
  have h : ∀ x ∈ List.replicate 63 (⟨0, 0, 0⟩ : DecEntry), ¬ keyMatches (b :: bits) x = true := by
    intro x hx
    rw [List.eq_of_mem_replicate hx]
    simp [keyMatches, DecEntry.present]
  have hk : keyMatches (b :: bits) entryOne = b := by
    have h1 : entryOne.present = true := by decide
    have h2 : entryOne.keyBits = [true] := by decide
    rw [keyMatches, h1, h2]
    cases b <;> rfl
  rw [matchAt, List.filter_cons, hk, List.filter_eq_nil_iff.mpr h]
  cases b <;> rfl

/-- A table that matches "1" with the value 'A', and nothing else. -/
def MatchesOne (table : List DecEntry) : Prop :=
  ∀ (b : Bool) (bits : List Bool), matchAt table (b :: bits) = if b then some entryOne else none

theorem greedyTokens_ones (table : List DecEntry) (h : MatchesOne table) (n : Nat) (tok : List Byte) (ht : tok ≠ []) :
    greedyTokens table tok 0 (List.replicate n true ++ [false]) = [tok ++ List.replicate n 0x41#8] := by
  induction n generalizing tok with
  | zero =>
    rw [List.replicate_zero, List.nil_append, greedyTokens, h]
    cases tok with
    | nil => exact absurd rfl ht
    | cons c cs => simp [greedyTokens]
  | succ n ih =>
    rw [List.replicate_succ, List.cons_append, greedyTokens, h]
    have hv : entryOne.valBytes = [0x41#8] := by decide
    have hk : entryOne.klen - 1 = 0 := by decide
    simp only [if_true, hv, hk]
    rw [ih _ (by simp)]
    simp [List.replicate_succ]

theorem greedyTokens_one_token (table : List DecEntry) (h : MatchesOne table) (n : Nat) :
    greedyTokens table [] 0 (List.replicate (n + 1) true ++ [false]) = [List.replicate (n + 1) 0x41#8] := by
  rw [List.replicate_succ, List.cons_append, greedyTokens, h]
  have hv : entryOne.valBytes = [0x41#8] := by decide
  have hk : entryOne.klen - 1 = 0 := by decide
  simp only [if_true, hv, hk, List.nil_append]
  rw [greedyTokens_ones table h n _ (by simp)]
  rfl

theorem greedyTokens_pairs (table : List DecEntry) (h : MatchesOne table) (n : Nat) :
    greedyTokens table [] 0 (List.replicate n [true, false]).flatten = List.replicate n [0x41#8] := by
  induction n with
  | zero => rfl
  | succ n ih =>
    have hv : entryOne.valBytes = [0x41#8] := by decide
    have hk : entryOne.klen - 1 = 0 := by decide
    rw [List.replicate_succ, List.flatten_cons, List.cons_append, List.cons_append, List.nil_append, greedyTokens, h]
    simp only [if_true, hv, hk]
    rw [greedyTokens, h]
    simp [ih, List.replicate_succ]

theorem length_ones (n : Nat) : (List.replicate n true ++ [false]).length = n + 1 := by simp
theorem length_pairs (n : Nat) : (List.replicate n [true, false]).flatten.length = n * 2 := by simp
theorem length_tokens (n : Nat) : (List.replicate n [0x41#8]).flatten.length = n := by simp

/-- BITS holds `bits`, DEC the one entry "1". -/
def bitsState (bits : List Bool) (syncLen syncPat0 decStart : Word) : State :=
  (mk { Regs.reset with bitsLen := BitVec.ofNat 32 bits.length, syncLen := syncLen, syncPat0 := syncPat0, decStart := decStart }
    decOne [] []).writeBitString bits

theorem bits_fit (bits : List Bool) (n p d : Word) (h : bits.length ≤ Config.hardware.bitsDepth) :
    bits.length ≤ (bitsState bits n p d).params.bitsDepth := h

theorem witness_SyncFindsFirstOccurrence :
    (∀ n p : Word, [true, false].length = (bitsState [true, false] n p 0).regs.bitsLen.toNat ∧
      [true, false].length ≤ (bitsState [true, false] n p 0).params.bitsDepth ∧ DecTableLegal (bitsState [true, false] n p 0) ∧
      HoldsBits (bitsState [true, false] n p 0) [true, false]) ∧
    ((bitsState [true, false] 0 0 0).regs.syncLen.toNat ≤ 64 ∧
      FirstOccurrence (syncPattern (bitsState [true, false] 0 0 0).regs) [true, false] 0 ∧
      TokensFit (bitsState [true, false] 0 0 0).params (greedyTokens (decTable (bitsState [true, false] 0 0 0)) [] 0 ([true, false].drop 0))) ∧
    (FirstOccurrence (syncPattern (bitsState [true, false] 1 0 0).regs) [true, false] 1 ∧
      TokensFit (bitsState [true, false] 1 0 0).params (greedyTokens (decTable (bitsState [true, false] 1 0 0)) [] 0 ([true, false].drop 1))) ∧
    ((bitsState [true, false] 64 0 0).regs.syncLen.toNat ≤ 64 ∧
      ∀ j : Nat, (syncPattern (bitsState [true, false] 64 0 0).regs).isPrefixOf ([true, false].drop j) = false) := by
  refine ⟨fun n p => ⟨rfl, bits_fit _ _ _ _ (by decide), decOne_legal _ _, holdsBits_writeBitString _ _⟩, ⟨by decide, ⟨by decide, ?_⟩, ?_⟩,
    ⟨⟨by decide, by decide⟩, ?_⟩, by decide, ?_⟩
  · intro i hi
    omega
  · rw [bitsState, decTable_decOne]
    unfold TokensFit
    decide
  · rw [bitsState, decTable_decOne]
    unfold TokensFit
    decide
  · intro j
    rcases j with _ | _ | j
    · decide
    · decide
    · rw [show [true, false].drop (j + 2) = [] from by simp]
      decide

theorem witness_DecodeWritesTokens :
    (∀ i : Word, [true, false].length = (bitsState [true, false] 0 0 i).regs.bitsLen.toNat ∧
      [true, false].length ≤ (bitsState [true, false] 0 0 i).params.bitsDepth ∧ DecTableLegal (bitsState [true, false] 0 0 i) ∧
      HoldsBits (bitsState [true, false] 0 0 i) [true, false]) ∧
    (bitsState [true, false] 0 0 0).regs.decStart.toNat ≤ [true, false].length ∧
    (bitsState [true, false] 0 0 2).regs.decStart.toNat ≤ [true, false].length ∧
    TokensFit (bitsState [true, false] 0 0 0).params (greedyTokens (decTable (bitsState [true, false] 0 0 0)) [] 0
      ([true, false].drop (bitsState [true, false] 0 0 0).regs.decStart.toNat)) := by
  refine ⟨fun i => ⟨rfl, bits_fit _ _ _ _ (by decide), decOne_legal _ _, holdsBits_writeBitString _ _⟩, by decide, by decide, ?_⟩
  rw [bitsState, decTable_decOne]
  unfold TokensFit
  decide

/-- DEC entry 63 is present with the given second word. -/
def decLast (info : List Host.Cell) : State := mk Regs.reset info [] []

theorem decLast_before (m : List Host.Cell) (h : ∀ d, d < 63 → (decEntry (decLast m) d).present = false) :
    ∀ d, d < 63 → (decEntry (decLast m) d).present = true →
      1 ≤ (decEntry (decLast m) d).klen ∧ (decEntry (decLast m) d).klen ≤ 32 ∧ (decEntry (decLast m) d).vlen ≤ 4 := by
  intro d hd hp
  rw [h d hd] at hp
  cases hp

theorem witness_DecodeTableValidation :
    (State.reset.regs.bitsLen.toNat ≤ State.reset.params.bitsDepth ∧ State.reset.regs.syncLen.toNat ≤ 64 ∧
      State.reset.regs.decStart.toNat ≤ State.reset.regs.bitsLen.toNat) ∧
    ((decEntry (decLast [(0x23F7, 0x80)]) 63).present = true ∧ (decEntry (decLast [(0x23F7, 0x80)]) 63).klen = 0 ∧
      ∀ d, d < 63 → (decEntry (decLast [(0x23F7, 0x80)]) d).present = false) ∧
    ((decEntry (decLast [(0x23F4, 0x21), (0x23F7, 0x80)]) 63).present = true ∧
      32 < (decEntry (decLast [(0x23F4, 0x21), (0x23F7, 0x80)]) 63).klen ∧
      ∀ d, d < 63 → (decEntry (decLast [(0x23F4, 0x21), (0x23F7, 0x80)]) d).present = false) ∧
    ((decEntry (decLast [(0x23F4, 0x20), (0x23F5, 0x05), (0x23F7, 0x80)]) 63).present = true ∧
      1 ≤ (decEntry (decLast [(0x23F4, 0x20), (0x23F5, 0x05), (0x23F7, 0x80)]) 63).klen ∧
      (decEntry (decLast [(0x23F4, 0x20), (0x23F5, 0x05), (0x23F7, 0x80)]) 63).klen ≤ 32 ∧
      4 < (decEntry (decLast [(0x23F4, 0x20), (0x23F5, 0x05), (0x23F7, 0x80)]) 63).vlen ∧
      ∀ d, d < 63 → (decEntry (decLast [(0x23F4, 0x20), (0x23F5, 0x05), (0x23F7, 0x80)]) d).present = false) ∧
    DecTableLegal ((mk Regs.reset decOne [] []).writeBitString []) ∧ ∃ t, exec .decode State.reset = .next t :=
  ⟨by decide, by decide +kernel, by decide +kernel, by decide +kernel, decOne_legal _ _, _, rfl⟩

theorem witness_TokenOverflow :
    ((List.replicate 4097 true ++ [false]).length = (bitsState (List.replicate 4097 true ++ [false]) 0 0 0).regs.bitsLen.toNat ∧
      (List.replicate 4097 true ++ [false]).length ≤ Config.hardware.bitsDepth ∧
      DecTableLegal (bitsState (List.replicate 4097 true ++ [false]) 0 0 0) ∧
      HoldsBits (bitsState (List.replicate 4097 true ++ [false]) 0 0 0) (List.replicate 4097 true ++ [false]) ∧
      (bitsState (List.replicate 4097 true ++ [false]) 0 0 0).regs.syncLen.toNat ≤ 64 ∧
      FirstOccurrence (syncPattern (bitsState (List.replicate 4097 true ++ [false]) 0 0 0).regs)
        (List.replicate 4097 true ++ [false]) 0 ∧
      (bitsState (List.replicate 4097 true ++ [false]) 0 0 0).regs.decStart.toNat = 0 ∧
      Config.hardware.tokdDepth < (greedyTokens (decTable (bitsState (List.replicate 4097 true ++ [false]) 0 0 0)) [] 0
        ((List.replicate 4097 true ++ [false]).drop 0)).flatten.length) ∧
    ((List.replicate 1025 [true, false]).flatten.length =
        (bitsState (List.replicate 1025 [true, false]).flatten 0 0 0).regs.bitsLen.toNat ∧
      (List.replicate 1025 [true, false]).flatten.length ≤ Config.hardware.bitsDepth ∧
      DecTableLegal (bitsState (List.replicate 1025 [true, false]).flatten 0 0 0) ∧
      HoldsBits (bitsState (List.replicate 1025 [true, false]).flatten 0 0 0) (List.replicate 1025 [true, false]).flatten ∧
      (bitsState (List.replicate 1025 [true, false]).flatten 0 0 0).regs.decStart.toNat = 0 ∧
      (greedyTokens (decTable (bitsState (List.replicate 1025 [true, false]).flatten 0 0 0)) [] 0
        ((List.replicate 1025 [true, false]).flatten.drop 0)).flatten.length ≤ Config.hardware.tokdDepth ∧
      Config.hardware.tokeDepth < (greedyTokens (decTable (bitsState (List.replicate 1025 [true, false]).flatten 0 0 0)) [] 0
        ((List.replicate 1025 [true, false]).flatten.drop 0)).length) := by
  have l1 := length_ones 4097
  have l2 := length_pairs 1025
  have lb : Config.hardware.bitsDepth = 524288 := by decide
  refine ⟨⟨?_, by omega, decOne_legal _ _, holdsBits_writeBitString _ _, by decide, ⟨?_, by omega⟩, rfl, ?_⟩,
    ?_, by omega, decOne_legal _ _, holdsBits_writeBitString _ _, rfl, ?_, ?_⟩
  · show _ = (BitVec.ofNat 32 (List.replicate 4097 true ++ [false]).length).toNat
    rw [l1]
    rfl
  · rfl
  · rw [bitsState, decTable_decOne, List.drop_zero, greedyTokens_one_token _ matchAt_decOne 4096, List.flatten_cons,
      List.flatten_nil, List.append_nil, List.length_replicate]
    decide
  · show _ = (BitVec.ofNat 32 (List.replicate 1025 [true, false]).flatten.length).toNat
    rw [l2]
    rfl
  · rw [bitsState, decTable_decOne, List.drop_zero, greedyTokens_pairs _ matchAt_decOne, length_tokens]
    decide
  · rw [bitsState, decTable_decOne, List.drop_zero, greedyTokens_pairs _ matchAt_decOne, List.length_replicate]
    decide

/-- ENC: 'A' is "10"; DEC: "10" is 'A'. -/
def tablesA : List Host.Cell :=
  [(0x1208, 0x01), (0x120C, 0x02), (0x120F, 0x80), (0x2000, 0x01), (0x2004, 0x02), (0x2005, 0x01), (0x2007, 0x80),
   (0x2008, 0x41)]

/-- The tables of 'A' with BITS. -/
def roundTrip (bits : List Bool) : State := mk { Regs.reset with bitsLen := BitVec.ofNat 32 bits.length } tablesA [] bits

theorem roundTrip_enc (bits : List Bool) (c : Nat) (hc : c < 256) (h : (encEntry (roundTrip bits) c).present = true) :
    c = 0x41 := by
  have key : ∀ c, c < 256 → (encEntry (roundTrip []) c).present = true → c = 0x41 := by decide +kernel
  exact key c hc h

theorem roundTrip_dec (bits : List Bool) (e : Nat) (he : e < 64) (h : (decEntry (roundTrip bits) e).present = true) :
    e = 0 := by
  have key : ∀ e, e < 64 → (decEntry (roundTrip []) e).present = true → e = 0 := by decide +kernel
  exact key e he h

theorem roundTrip_inverse (bits : List Bool) : InverseTables (roundTrip bits) where
  lengths c hc h := by
    obtain rfl := roundTrip_enc bits c hc h
    have k : 1 ≤ (encEntry (roundTrip []) 0x41).clen ∧ (encEntry (roundTrip []) 0x41).clen ≤ 32 := by decide +kernel
    exact k
  prefixFree c d hc hd hcd h1 h2 := by
    exact absurd ((roundTrip_enc bits c hc h1).trans (roundTrip_enc bits d hd h2).symm) hcd
  mapped c hc h := by
    obtain rfl := roundTrip_enc bits c hc h
    have k : (decEntry (roundTrip []) 0).present = true ∧
        (decEntry (roundTrip []) 0).keyBits = (encEntry (roundTrip []) 0x41).codeBits ∧
        (decEntry (roundTrip []) 0).valBytes = [BitVec.ofNat 8 0x41] := by decide +kernel
    exact ⟨0, show 0 < Config.hardware.decEntries by decide, k⟩
  onlyMapped e he h := by
    obtain rfl := roundTrip_dec bits e he h
    have k : (encEntry (roundTrip []) 0x41).present = true ∧
        (decEntry (roundTrip []) 0).keyBits = (encEntry (roundTrip []) 0x41).codeBits ∧
        (decEntry (roundTrip []) 0).valBytes = [BitVec.ofNat 8 0x41] := by decide +kernel
    exact ⟨0x41, by decide, k⟩

theorem witness_EncodeDecodeRoundTrip :
    (∀ bits, InverseTables (roundTrip bits) ∧
      (∀ e, e < (roundTrip bits).params.decEntries → (decEntry (roundTrip bits) e).present = true → (decEntry (roundTrip bits) e).keyBits ≠ [false]) ∧
      (∀ c ∈ [0x41#8], (encEntry (roundTrip bits) c.toNat).present = true) ∧ (roundTrip bits).regs.decStart = 0) ∧
    [0x41#8] ≠ [] ∧ (∀ bits, [0x41#8].length ≤ (roundTrip bits).params.tokdDepth) ∧
    (HoldsBits (roundTrip [true, false, false]) (messageBits (roundTrip [true, false, false]) [0x41#8] ++ [false]) ∧
      (roundTrip [true, false, false]).regs.bitsLen.toNat ≤ (roundTrip [true, false, false]).params.bitsDepth ∧
      (roundTrip [true, false, false]).regs.bitsLen.toNat = (messageBits (roundTrip [true, false, false]) [0x41#8]).length + 1) ∧
    (HoldsBits (roundTrip [true, false]) (messageBits (roundTrip [true, false]) [0x41#8]) ∧
      (roundTrip [true, false]).regs.bitsLen.toNat ≤ (roundTrip [true, false]).params.bitsDepth ∧
      (roundTrip [true, false]).regs.bitsLen.toNat = (messageBits (roundTrip [true, false]) [0x41#8]).length) := by
  have code : ∀ bits, messageBits (roundTrip bits) [0x41#8] = [true, false] := by
    intro bits
    have k : messageBits (roundTrip []) [0x41#8] = [true, false] := by decide +kernel
    exact k
  refine ⟨fun bits => ⟨roundTrip_inverse bits, ?_, ?_, rfl⟩, by decide, fun bits => ?_, ?_, ?_⟩
  · intro e he h
    obtain rfl := roundTrip_dec bits e he h
    have k : (decEntry (roundTrip []) 0).keyBits ≠ [false] := by decide +kernel
    exact k
  · intro c hc
    rw [List.mem_singleton.mp hc]
    have k : (encEntry (roundTrip []) (0x41#8 : Byte).toNat).present = true := by decide +kernel
    exact k
  · show 1 ≤ Config.hardware.tokdDepth
    decide
  · rw [code]
    exact ⟨holdsBits_writeBitString _ _, by decide, rfl⟩
  · rw [code]
    exact ⟨holdsBits_writeBitString _ _, by decide, rfl⟩

theorem witness_RxChainRunsAllStages :
    (∀ L n m : Word, [10, 20, 30, 40].length = (rxExample L n m).regs.rxLen.toNat ∧
      HoldsBytes (rxExample L n m) .rxb [10, 20, 30, 40] ∧
      Percentiles (envelope (rxExample L n m).regs (signalOf [10, 20, 30, 40])) 3620 3620 ∧
      DecTableLegal (rxExample L n m)) ∧
    ([10, 20, 30, 40].length % 2 = 0 ∧ 2 ≤ [10, 20, 30, 40].length ∧ [10, 20, 30, 40].length ≤ (rxExample 0 0 0).params.rxbDepth) ∧
    ((rxExample 1 0 0).regs.threshMin.toNat ≤ (3620 : Int) - 3620 ∧ (rxExample 1 0 0).regs.rxSymLen ≠ 0 ∧
      (rxExample 1 0 0).regs.syncLen.toNat ≤ 64 ∧ (rxExample 1 64 0).regs.syncLen.toNat ≤ 64) ∧
    ([true, true] = [3620, 3620].map (fun x => decide ((3620 : Int) - 3620 < 2 * |x|)) ∧
      [true, true] = recoverBits (rxExample 1 0 0).regs.rxSymLen.toNat [true, true]) ∧
    (FirstOccurrence (syncPattern (rxExample 1 0 0).regs) [true, true] 0 ∧
      TokensFit (rxExample 1 0 0).params (greedyTokens (decTable (rxExample 1 0 0)) [] 0 ([true, true].drop 0))) ∧
    (∀ j : Nat, (syncPattern (rxExample 1 64 0).regs).isPrefixOf ([true, true].drop j) = false) := by
  refine ⟨fun L n m => ⟨rfl, rxExample_holds _ _ _, rxExample_percentiles _ _ _, ?_⟩, by decide, by decide,
    ⟨by decide, by decide⟩, ⟨⟨by decide, by omega⟩, ?_⟩, ?_⟩
  · have k : DecTableLegal (rxExample 0 0 0) := by
      unfold DecTableLegal
      decide +kernel
    exact k
  · unfold TokensFit
    decide +kernel
  · intro j
    rcases j with _ | _ | j
    · decide
    · decide
    · rw [show [true, true].drop (j + 2) = [] from by simp]
      decide

/-- A block with the parameters P whose RXB holds `bytes` after the DEC cells `dec`; the filter is the identity and L = 1. -/
def chainState (P : Params) (syncLen : Word) (dec : List Host.Cell) (bytes : List Byte) : State :=
  (((State.resetOf P).withRegs
    { Regs.reset with
      rxLen := BitVec.ofNat 32 bytes.length, filtB0 := 0x10000#18, rxSymLen := 1, syncLen := syncLen }).withMem dec).writeBytes
    .rxb bytes

/-- What the SYNC clauses of `RxChainStopsEarly` suppose of the stages before SYNC. -/
def ReachesSync (s : State) (bytes : List Byte) (lo hi : Int) (w : List Int) (sym bits : List Bool) : Prop :=
  bytes.length = s.regs.rxLen.toNat ∧ bytes.length % 2 = 0 ∧ 2 ≤ bytes.length ∧ bytes.length ≤ s.params.rxbDepth ∧
  HoldsBytes s .rxb bytes ∧ w = envelope s.regs (signalOf bytes) ∧ Percentiles w lo hi ∧
  s.regs.threshMin.toNat ≤ hi - lo ∧ sym = w.map (fun x => decide (hi - lo < 2 * |x|)) ∧ s.regs.rxSymLen ≠ 0 ∧
  bits = recoverBits s.regs.rxSymLen.toNat sym

/-- Two samples on and two off: SYM = BITS = 1100. -/
def bytesOnOff : List Byte := [100, 0, 156, 0, 0, 0, 0, 0]
/-- On and off twice: SYM = BITS = 1010. -/
def bytesTwice : List Byte := [100, 0, 0, 0, 156, 0, 0, 0]

theorem onOff_reaches (P : Params) (n : Word) (dec : List Host.Cell) :
    ReachesSync (chainState P n dec bytesOnOff) bytesOnOff 0 25600 [25600, 25600, 0, 0] [true, true, false, false]
      [true, true, false, false] := by
  refine ⟨rfl, by decide, by decide, ?_, holdsBytes_writeBytes _ _ _, ?_, ?_, ?_, by decide, ?_, ?_⟩
  · exact Nat.le_trans (by decide) P.rxb_legal.2.1
  · have h : [25600, 25600, 0, 0] = envelope (chainState smallest 0 [] bytesOnOff).regs (signalOf bytesOnOff) := by
      decide +kernel
    exact h
  · exact ⟨[0, 0, 25600, 25600], by decide, by decide, by decide, by decide⟩
  · show ((0#32 : Word).toNat : Int) ≤ 25600 - 0
    decide
  · show (1#32 : Word) ≠ 0
    decide
  · show [true, true, false, false] = recoverBits (1#32 : Word).toNat [true, true, false, false]
    decide

theorem twice_reaches (P : Params) (n : Word) (dec : List Host.Cell) :
    ReachesSync (chainState P n dec bytesTwice) bytesTwice 0 25600 [25600, 0, 25600, 0] [true, false, true, false]
      [true, false, true, false] := by
  refine ⟨rfl, by decide, by decide, ?_, holdsBytes_writeBytes _ _ _, ?_, ?_, ?_, by decide, ?_, ?_⟩
  · exact Nat.le_trans (by decide) P.rxb_legal.2.1
  · have h : [25600, 0, 25600, 0] = envelope (chainState smallest 0 [] bytesTwice).regs (signalOf bytesTwice) := by
      decide +kernel
    exact h
  · exact ⟨[0, 0, 25600, 25600], by decide, by decide, by decide, by decide⟩
  · show ((0#32 : Word).toNat : Int) ≤ 25600 - 0
    decide
  · show (1#32 : Word) ≠ 0
    decide
  · show [true, false, true, false] = recoverBits (1#32 : Word).toNat [true, false, true, false]
    decide

/-- DEC: entry 0 is "1" with a value of four bytes. -/
def decFour : List Host.Cell :=
  [(0x2000, 0x01), (0x2004, 0x01), (0x2005, 0x04), (0x2007, 0x80), (0x2008, 0x41), (0x2009, 0x42), (0x200A, 0x43), (0x200B, 0x44)]

/-- The state whose DEC entry 63 has the given second word. -/
def chainLast (info : List Host.Cell) : State := chainState Config.hardware 0 info bytesOnOff

theorem witness_RxChainStopsEarly :
    ((0x5#4 : BitVec 4) ≠ 0 ∧ FailsWith .preprocess (mkRegs { Regs.reset with rxLen := 1 }) 5 1) ∧
    State.reset.regs.rxLen = 0 ∧
    (∀ L n m : Word, [10, 20, 30, 40].length = (rxExample L n m).regs.rxLen.toNat ∧
      HoldsBytes (rxExample L n m) .rxb [10, 20, 30, 40] ∧
      Percentiles (envelope (rxExample L n m).regs (signalOf [10, 20, 30, 40])) 3620 3620) ∧
    (3620 : Int) - 3620 < (rxExample 1 0 1).regs.threshMin.toNat ∧
    ((rxExample 0 0 0).regs.threshMin.toNat ≤ (3620 : Int) - 3620 ∧ (rxExample 0 0 0).regs.rxSymLen = 0) ∧
    (∀ (P : Params) (n : Word) (dec : List Host.Cell),
      ReachesSync (chainState P n dec bytesOnOff) bytesOnOff 0 25600 [25600, 25600, 0, 0] [true, true, false, false]
        [true, true, false, false] ∧
      ReachesSync (chainState P n dec bytesTwice) bytesTwice 0 25600 [25600, 0, 25600, 0] [true, false, true, false]
        [true, false, true, false]) ∧
    64 < (chainState Config.hardware 65 [] bytesOnOff).regs.syncLen.toNat ∧
    ((chainLast []).regs.syncLen.toNat ≤ 64 ∧ 63 < (chainLast []).params.decEntries ∧
      ((decEntry (chainLast [(0x23F7, 0x80)]) 63).present = true ∧ (decEntry (chainLast [(0x23F7, 0x80)]) 63).klen = 0 ∧
        ∀ d, d < 63 → (decEntry (chainLast [(0x23F7, 0x80)]) d).present = false) ∧
      ((decEntry (chainLast [(0x23F4, 0x21), (0x23F7, 0x80)]) 63).present = true ∧
        32 < (decEntry (chainLast [(0x23F4, 0x21), (0x23F7, 0x80)]) 63).klen ∧
        ∀ d, d < 63 → (decEntry (chainLast [(0x23F4, 0x21), (0x23F7, 0x80)]) d).present = false) ∧
      ((decEntry (chainLast [(0x23F4, 0x20), (0x23F5, 0x05), (0x23F7, 0x80)]) 63).present = true ∧
        1 ≤ (decEntry (chainLast [(0x23F4, 0x20), (0x23F5, 0x05), (0x23F7, 0x80)]) 63).klen ∧
        (decEntry (chainLast [(0x23F4, 0x20), (0x23F5, 0x05), (0x23F7, 0x80)]) 63).klen ≤ 32 ∧
        4 < (decEntry (chainLast [(0x23F4, 0x20), (0x23F5, 0x05), (0x23F7, 0x80)]) 63).vlen ∧
        ∀ d, d < 63 → (decEntry (chainLast [(0x23F4, 0x20), (0x23F5, 0x05), (0x23F7, 0x80)]) d).present = false)) ∧
    ((chainState smallest 0 decFour bytesOnOff).regs.syncLen.toNat ≤ 64 ∧
      DecTableLegal (chainState smallest 0 decFour bytesOnOff) ∧
      FirstOccurrence (syncPattern (chainState smallest 0 decFour bytesOnOff).regs) [true, true, false, false] 0 ∧
      smallest.tokdDepth < (greedyTokens (decTable (chainState smallest 0 decFour bytesOnOff)) [] 0
        ([true, true, false, false].drop 0)).flatten.length) ∧
    ((chainState smallest 0 decOne bytesTwice).regs.syncLen.toNat ≤ 64 ∧
      DecTableLegal (chainState smallest 0 decOne bytesTwice) ∧
      FirstOccurrence (syncPattern (chainState smallest 0 decOne bytesTwice).regs) [true, false, true, false] 0 ∧
      (greedyTokens (decTable (chainState smallest 0 decOne bytesTwice)) [] 0
        ([true, false, true, false].drop 0)).flatten.length ≤ smallest.tokdDepth ∧
      smallest.tokeDepth < (greedyTokens (decTable (chainState smallest 0 decOne bytesTwice)) [] 0
        ([true, false, true, false].drop 0)).length) := by
  refine ⟨⟨by decide, _, rfl, after_errRegs _ .odd 1⟩, by decide,
    fun L n m => ⟨rfl, rxExample_holds _ _ _, rxExample_percentiles _ _ _⟩, by decide, by decide,
    fun P n dec => ⟨onOff_reaches P n dec, twice_reaches P n dec⟩, by decide,
    ⟨by decide, by decide, by decide +kernel, by decide +kernel, by decide +kernel⟩,
    ⟨by decide, ?_, ⟨by decide, by omega⟩, by decide +kernel⟩,
    by decide, ?_, ⟨by decide, by omega⟩, by decide +kernel, by decide +kernel⟩
  · unfold DecTableLegal
    decide +kernel
  · unfold DecTableLegal
    decide +kernel

/-! ### Every command -/

theorem witness_CompletionLeavesIdle :
    (∃ t, runCommand (State.reset.issue 0x00000000#32) = .next t ∧ t.regs.errCode = 0) ∧
    (∃ t, runCommand (State.reset.issue 0x00000005#32) = .next t ∧ t.regs.errCode ≠ 0) :=
  ⟨⟨_, rfl, rfl⟩, _, rfl, by decide⟩

theorem witness_FlagsExclusion :
    (State.reset.issue 0x00000005#32).regs.status = noFlags ∧
    ∃ t, runCommand (State.reset.issue 0x00000005#32) = .next t ∧ t.regs.status.err = true :=
  ⟨rfl, _, rfl, rfl⟩

theorem witness_CommandWritesOnlyItsOutputs :
    (∃ t, exec .preprocess (rxExample 0 0 0) = .next t ∧ 15 < elements State.reset.params .sig ∧
      Window.sym ∉ windowsWritten .preprocess ∧ Reg.fs ∉ registersWritten .preprocess ∧ Reg.fs ∉ [.status, .errCode, .errInfo]) ∧
    (∃ t, exec .slice State.reset = .next t ∧ t.regs.errCode ≠ 0 ∧ Instr.slice ≠ .txChain ∧ Instr.slice ≠ .rxChain) :=
  ⟨⟨_, rfl, by decide, by decide, by decide, by decide⟩, _, rfl, by decide, by decide, by decide⟩

theorem witness_ReissueGivesSameResult :
    (State.reset.issue 0x00000012#32).memWf = true ∧ (State.reset.issue 0x00000012#32).seq = .busy ∧
    (State.reset.issue 0x00000012#32).regs.status = noFlags ∧ (State.reset.issue 0x00000012#32).regs.errCode = 0 ∧
    (State.reset.issue 0x00000012#32).regs.errInfo = 0 ∧ ∃ t, exec .slice (State.reset.issue 0x00000012#32) = .next t :=
  ⟨by decide, rfl, rfl, rfl, rfl, _, rfl⟩

theorem witness_StepKeepsInv :
    Inv (State.reset.withServed 1) ∧ ∃ t, step (State.reset.withServed 1) = .next t :=
  ⟨inv_example, _, rfl⟩

theorem witness_FaultsOnlyOnUnspecified :
    exec .preprocess (mkRegs { Regs.reset with rxLen := 2 }) = .fault (.unspecifiedElement .rxb 0) ∧
    step ((mkRegs { Regs.reset with rxLen := 2 }).issue 0x00000010#32) = .fault (.unspecifiedElement .rxb 0) :=
  ⟨rfl, rfl⟩

theorem witness_SpecifiedOperandsComplete : OperandsSpecified .preprocess (rxExample 0 0 0) := by
  show ∀ j, j < 4 → _
  decide

theorem witness_EveryCommandEnds : (State.reset.issue 0x0000001F#32).seq = .busy := rfl

theorem witness_HostProgramLoads :
    State.reset.seq = .idle ∧ (List.replicate 32 true).length ≤ 32 ∧ 63 < State.reset.params.decEntries ∧ 1 ≤ [true].length ∧ [true].length ≤ 32 ∧
    [(1 : Byte), 2, 3, 4].length ≤ 4 ∧ Window.msg ∈ [Window.msg, .pkt, .txb, .rxb, .sig, .env, .tokd, .toke] ∧
    (List.replicate 5 (0 : Byte)).length ≤ Window.msg.size State.reset.params ∧ [true].length ≤ State.reset.params.sigDepth := by decide

end Sys2Proof.Tests
end

/-! PROOF. The arithmetic primitives of 00_scope.md R9 and R10, and the order of bit strings of R13. -/
section

namespace Sys2Proof.Proofs.Scope

open Sys2Proof.Machine Sys2Proof.Safety

/-! ## Rounding (R9) -/

/-- Rounding a quotient, said over the integers: the error `a - b * n` is at most half of `b`. -/
theorem roundsTo_div_iff {a b : Int} (hb : 0 < b) (n : Int) :
    RoundsTo ((a : ℝ) / b) n ↔ |2 * (a - b * n)| ≤ b ∧ (|2 * (a - b * n)| = b → Even n) := by
  have hbR : (0 : ℝ) < b := by exact_mod_cast hb
  have error : |(a : ℝ) / b - n| = (|2 * (a - b * n)| : Int) / (2 * b) := by
    rw [div_sub' hbR.ne', abs_div, abs_of_pos hbR]
    push_cast
    rw [abs_mul, abs_two, mul_div_mul_left _ _ two_ne_zero]
  have half : (1 / 2 : ℝ) = b / (2 * b) := by field_simp
  unfold RoundsTo
  rw [error, half, div_le_div_iff_of_pos_right (by positivity), div_left_inj' (by positivity)]
  norm_cast

/-- `rne` rounds the exact quotient: the error of `a / b` is the remainder, that of `a / b + 1` the remainder less `b`. -/
theorem roundsTo_rne (a : Int) {b : Int} (hb : 0 < b) : RoundsTo ((a : ℝ) / b) (rne a b) := by
  have remainder_nonneg := Int.emod_nonneg a hb.ne'
  have remainder_lt := Int.emod_lt_of_pos a hb
  have errorDown : |2 * (a - b * (a / b))| = 2 * (a % b) := by
    rw [← Int.emod_def, abs_of_nonneg (by omega)]
  have errorUp : |2 * (a - b * (a / b + 1))| = 2 * (b - a % b) := by
    rw [mul_add, mul_one, ← sub_sub, ← Int.emod_def, abs_of_neg (by omega)]
    ring
  rw [roundsTo_div_iff hb]
  unfold rne
  dsimp only
  split_ifs with below above quotientEven
  · rw [errorDown]; omega
  · rw [errorUp]; omega
  · rw [errorDown, Int.even_iff]; omega
  · rw [errorUp, Int.even_iff]; omega

/-- Of two consecutive integers that are both within a half of `x`, both are exactly a half away, and one is odd. -/
theorem roundsTo_not_lt {x : ℝ} {m n : Int} (hm : RoundsTo x m) (hn : RoundsTo x n) : ¬ m < n := by
  intro lt
  obtain ⟨nearM, tieM⟩ := hm
  obtain ⟨nearN, tieN⟩ := hn
  have leM := (abs_le.mp nearM).2
  have leN := (abs_le.mp nearN).1
  have succ_le : (m : ℝ) + 1 ≤ n := by exact_mod_cast lt
  have next : n = m + 1 := by
    have : (n : ℝ) ≤ (m + 1 : Int) := by push_cast; linarith
    exact le_antisymm (by exact_mod_cast this) lt
  have evenM : Even m := tieM (le_antisymm nearM ((by linarith : 1 / 2 ≤ x - m).trans (le_abs_self _)))
  have evenN : Even n := tieN (le_antisymm nearN ((by linarith : 1 / 2 ≤ -(x - n)).trans (neg_le_abs _)))
  rw [next] at evenN
  exact Int.even_add_one.mp evenN evenM

theorem roundsTo_unique {x : ℝ} {m n : Int} (hm : RoundsTo x m) (hn : RoundsTo x n) : m = n :=
  le_antisymm (not_lt.mp (roundsTo_not_lt hn hm)) (not_lt.mp (roundsTo_not_lt hm hn))

/-- Mathlib's `round` breaks ties upwards; where that gives an odd integer, the even one is its neighbour on the other side
of `x`. -/
theorem exists_roundsTo (x : ℝ) : ∃ n, RoundsTo x n := by
  have near := abs_sub_round x
  by_cases tie : |x - round x| = 1 / 2
  · by_cases even : Even (round x)
    · exact ⟨round x, near, fun _ => even⟩
    · rcases eq_or_eq_neg_of_abs_eq tie with above | below
      · have dist : |x - (round x + 1 : Int)| = 1 / 2 := by
          rw [show x - (round x + 1 : Int) = -(1 / 2) by push_cast; linarith, abs_neg, abs_of_pos one_half_pos]
        exact ⟨round x + 1, dist.le, fun _ => Int.even_add_one.mpr even⟩
      · have dist : |x - (round x - 1 : Int)| = 1 / 2 := by
          rw [show x - (round x - 1 : Int) = 1 / 2 by push_cast; linarith, abs_of_pos one_half_pos]
        exact ⟨round x - 1, dist.le, fun _ => Int.even_sub_one.mpr even⟩
  · exact ⟨round x, near, fun h => absurd h tie⟩

theorem existsUnique_roundsTo (x : ℝ) : ∃! n, RoundsTo x n :=
  existsUnique_of_exists_of_unique (exists_roundsTo x) fun _ _ => roundsTo_unique

/-! ## Integer square root and saturation (R10) -/

/-- The search keeps the root in `[m, m + 2 ^ bits)`, and each round halves that interval. -/
theorem isqrtFrom_spec {n : Nat} (bits m : Nat) (lower : m * m ≤ n) (upper : n < (m + 2 ^ bits) * (m + 2 ^ bits)) :
    isqrtFrom n bits m * isqrtFrom n bits m ≤ n ∧ n < (isqrtFrom n bits m + 1) * (isqrtFrom n bits m + 1) := by
  induction bits generalizing m with
  | zero => exact ⟨lower, upper⟩
  | succ b ih =>
    rw [isqrtFrom]
    split_ifs with fits
    · exact ih _ fits (by rwa [add_assoc, ← two_mul, ← pow_succ'])
    · exact ih _ lower (not_le.mp fits)

theorem lt_isqrt_start (n : Nat) : n < (0 + 2 ^ (n.log2 / 2 + 1)) * (0 + 2 ^ (n.log2 / 2 + 1)) :=
  calc n < 2 ^ (n.log2 + 1) := Nat.lt_log2_self
    _ ≤ 2 ^ (n.log2 / 2 + 1 + (n.log2 / 2 + 1)) := Nat.pow_le_pow_right two_pos (by omega)
    _ = _ := by rw [pow_add, zero_add]

theorem isqrt_spec (n : Nat) : isqrt n * isqrt n ≤ n ∧ n < (isqrt n + 1) * (isqrt n + 1) :=
  isqrtFrom_spec _ 0 (Nat.zero_le n) (lt_isqrt_start n)

theorem le_isqrt {m n : Nat} (h : m * m ≤ n) : m ≤ isqrt n :=
  Nat.lt_succ_iff.mp (Nat.mul_self_lt_mul_self_iff.mp (h.trans_lt (isqrt_spec n).2))

theorem sat32_eq_clamp (x : Int) : sat32 x = max (-2 ^ 31) (min x (2 ^ 31 - 1)) := by
  unfold sat32
  split_ifs <;> omega

/-- Settles O1, from the rounding, root and clamp lemmas above. -/
theorem arithmeticPrimitives : Obligations.ArithmeticPrimitives :=
  ⟨fun a _ hb => roundsTo_rne a hb, existsUnique_roundsTo, fun n => ⟨(isqrt_spec n).1, fun _ => le_isqrt⟩, sat32_eq_clamp⟩

/-! ## Bit strings (R13) -/

/-- `j` is the first index where `s` and `t` differ, and there `s` has 0 and `t` has 1. -/
def SmallerAt (s t : List Bool) (j : Nat) : Prop :=
  s.take j = t.take j ∧ s[j]? = some false ∧ t[j]? = some true

/-- The order of 00_scope.md R13, as the obligation states it. -/
def LexBefore (s t : List Bool) : Prop := (s <+: t ∧ s ≠ t) ∨ ∃ j, SmallerAt s t j

theorem exists_smallerAt_cons (a b : Bool) (s t : List Bool) :
    (∃ j, SmallerAt (a :: s) (b :: t) j) ↔ (a = false ∧ b = true) ∨ (a = b ∧ ∃ j, SmallerAt s t j) := by
  rw [← Nat.or_exists_add_one]
  simp [SmallerAt, and_assoc]

theorem not_lexBefore_nil (s : List Bool) : ¬ LexBefore s [] := by
  simp [LexBefore, SmallerAt]

theorem nil_lexBefore_cons (b : Bool) (t : List Bool) : LexBefore [] (b :: t) :=
  .inl ⟨List.nil_prefix, List.cons_ne_nil b t |>.symm⟩

theorem cons_lexBefore_cons_same (a : Bool) (s t : List Bool) : LexBefore (a :: s) (a :: t) ↔ LexBefore s t := by
  unfold LexBefore
  rw [exists_smallerAt_cons]
  simp [List.cons_prefix_cons]

theorem cons_lexBefore_cons_of_ne {a b : Bool} (h : a ≠ b) (s t : List Bool) :
    LexBefore (a :: s) (b :: t) ↔ b = true := by
  unfold LexBefore
  rw [exists_smallerAt_cons]
  cases b <;> simp_all [List.cons_prefix_cons]

theorem lexLess_iff_lexBefore (s t : List Bool) : lexLess s t = true ↔ LexBefore s t := by
  induction s generalizing t with
  | nil =>
    cases t with
    | nil => simp [lexLess, not_lexBefore_nil]
    | cons b bs => simp [lexLess, nil_lexBefore_cons]
  | cons a as ih =>
    cases t with
    | nil => simp [lexLess, not_lexBefore_nil]
    | cons b bs =>
      rw [lexLess]
      split_ifs with heads
      · rw [heads, cons_lexBefore_cons_same, ih]
      · rw [cons_lexBefore_cons_of_ne heads]

/-- Settles O42, by induction along the recursion of `lexLess`. -/
theorem lexicographicOrder : Obligations.LexicographicOrder := lexLess_iff_lexBefore

end Sys2Proof.Proofs.Scope
end

/-! PROOF. Frames: what a transition may have written, as a list of registers and a list of windows, and how frames compose
(10_state.md R76). -/
section

namespace Sys2Proof.Proofs.CommandFrame

open Sys2Proof.Machine Sys2Proof.Safety

/-! ## Elements of windows -/

theorem sameElement_refl (s : State) (w : Window) (k : Nat) : SameElement s s w k := by
  cases w <;> rfl

theorem sameElement_trans {s t u : State} {w : Window} {k : Nat} (h₁ : SameElement s t w k) (h₂ : SameElement t u w k) :
    SameElement s u w k := by
  cases w <;> exact Eq.trans h₂ h₁

/-- The bus bytes that 20_memory.md R82 leaves to a memory at its largest legal depth. -/
def room : Window → Nat
  | .enc => 0x800
  | .dec => 0x1000
  | .clut | .msg | .pkt | .txb | .rxb | .sig | .env | .sym | .bits | .tokd | .toke => 0x1000000

theorem size_le_room (P : Params) (w : Window) : w.size P ≤ room w := by
  have := P.clut_legal
  have := P.msg_legal
  have := P.pkt_legal
  have := P.txb_legal
  have := P.rxb_legal
  have := P.tokd_legal
  have := P.toke_legal
  have := P.dec_legal
  cases w <;> simp only [Window.size, room, Params.bitsDepth, Params.sigDepth, Config.ENC_ENTRIES] <;> omega

/-- The rooms of two memories do not overlap. -/
def RoomsApart (v w : Window) : Prop := v.base + room v ≤ w.base ∨ w.base + room w ≤ v.base

/-- The memories are listed in address order, so each ends before all later ones begin. -/
theorem roomsApart {v w : Window} (h : v ≠ w) : RoomsApart v w := by
  have ordered : Window.all.Pairwise fun v w => v.base + room v ≤ w.base := by decide
  have listed : ∀ w, w ∈ Window.all := by intro w; cases w <;> decide
  have symmetric : Std.Symm RoomsApart := ⟨fun _ _ => Or.symm⟩
  have apart : Window.all.Pairwise RoomsApart := ordered.imp Or.inl
  exact apart.forall (listed v) (listed w) h

theorem windowByte_writeBytes_of_outside {s : State} {v w : Window} {bs : List Byte} {k : Nat}
    (fits : bs.length ≤ w.size s.params) (inside : k < v.size s.params) (outside : v ≠ w ∨ bs.length ≤ k) :
    (s.writeBytes w bs).windowByte v k = s.windowByte v k := by
  have fitsRoom := fits.trans (size_le_room s.params w)
  have insideRoom := inside.trans_le (size_le_room s.params v)
  unfold State.windowByte
  rw [byteAt_writeBytes, if_neg]
  rcases eq_or_ne v w with rfl | other
  · have := outside.resolve_left (· rfl)
    omega
  · have := roomsApart other
    unfold RoomsApart at this
    omega

theorem sameElement_writeBytes {s : State} {v w : Window} {bs : List Byte} {k : Nat} (fits : bs.length ≤ w.size s.params)
    (inside : k < elements s.params v) (outside : v ≠ w ∨ bs.length ≤ k) : SameElement s (s.writeBytes w bs) v k := by
  cases v
  case sym => rfl
  case bits => rfl
  all_goals exact windowByte_writeBytes_of_outside fits inside outside

theorem sameElement_writeSym {s : State} {w : Window} {bs : List Bool} {k : Nat} (outside : w ≠ .sym ∨ bs.length ≤ k) :
    SameElement s (s.writeSym bs) w k := by
  cases w
  case sym => exact (symAt_writeSym s bs k).trans (if_neg (not_lt.mpr (outside.resolve_left (· rfl))))
  all_goals rfl

theorem sameElement_writeBitString {s : State} {w : Window} {bs : List Bool} {k : Nat}
    (outside : w ≠ .bits ∨ bs.length ≤ k) : SameElement s (s.writeBitString bs) w k := by
  cases w
  case bits => exact (bitsAt_writeBitString s bs k).trans (if_neg (not_lt.mpr (outside.resolve_left (· rfl))))
  all_goals rfl

/-! ## The register that tells how much of a window was written -/

/-- The length register of a window that commands write (10_state.md R76). -/
def lengthReg : Window → Option Reg
  | .clut => some .clutLen
  | .pkt => some .pktLen
  | .txb => some .txLen
  | .sig | .env => some .sigLen
  | .sym => some .symLen
  | .bits => some .bitsLen
  | .tokd => some .tokdLen
  | .toke => some .tokCount
  | .enc | .dec | .msg | .rxb => none

theorem writtenLength_congr {s t : State} {w : Window} (h : ∀ r ∈ lengthReg w, t.readReg r = s.readReg r) :
    writtenLength t.regs w = writtenLength s.regs w := by
  cases w <;> simp_all [lengthReg, writtenLength, State.readReg]

/-! ## Frames -/

/-- From `s` to `t` only the registers `R` changed and, of each window of `W`, only elements below the length that `t` holds
for it. -/
structure Frame (R : List Reg) (W : List Window) (s t : State) : Prop where
  params : t.params = s.params
  regs : ∀ r, r ∉ R → t.readReg r = s.readReg r
  elems : ∀ w k, k < elements s.params w → w ∉ W ∨ writtenLength t.regs w ≤ k → SameElement s t w k

theorem Frame.refl (s : State) : Frame [] [] s s where
  params := rfl
  regs _ _ := rfl
  elems w k _ _ := sameElement_refl s w k

theorem Frame.mono {R R' : List Reg} {W W' : List Window} {s t : State} (h : Frame R W s t) (hR : R ⊆ R') (hW : W ⊆ W') :
    Frame R' W' s t where
  params := h.params
  regs r hr := h.regs r fun mem => hr (hR mem)
  elems w k hk out := h.elems w k hk (out.imp_left fun hw mem => hw (hW mem))

/-- Two transitions in a row, the second of which leaves the length registers of the first one's windows alone. -/
theorem Frame.trans {R₁ R₂ : List Reg} {W₁ W₂ : List Window} {s t u : State} (h₁ : Frame R₁ W₁ s t)
    (h₂ : Frame R₂ W₂ t u) (kept : ∀ w ∈ W₁, ∀ r ∈ lengthReg w, r ∉ R₂) : Frame (R₁ ++ R₂) (W₁ ++ W₂) s u where
  params := h₂.params.trans h₁.params
  regs r hr := by
    rw [List.mem_append, not_or] at hr
    exact (h₂.regs r hr.2).trans (h₁.regs r hr.1)
  elems w k hk out := by
    rw [List.mem_append, not_or] at out
    have first : w ∉ W₁ ∨ writtenLength t.regs w ≤ k := by
      by_cases hw : w ∈ W₁
      · rw [← writtenLength_congr fun r hr => h₂.regs r (kept w hw r hr)]
        exact .inr (out.resolve_left fun h => h.1 hw)
      · exact .inl hw
    exact sameElement_trans (h₁.elems w k hk first) (h₂.elems w k (by rwa [h₁.params]) (out.imp_left And.right))

theorem frame_withRegs {R : List Reg} (s : State) (x : Regs)
    (kept : ∀ r, r ∉ R → (s.withRegs x).readReg r = s.readReg r) :
    Frame R [] s (s.withRegs x) where
  params := rfl
  regs := kept
  elems w k _ _ := sameElement_refl s w k

/-- A write of the first `n` elements of a window, after the write of a length register that covers them. (The model writes
the window first; the two updates are of different fields of the state, so either order gives the same state.) -/
theorem Frame.writeWindow {R : List Reg} {W : List Window} {s t u : State} (h : Frame R W s t) {w : Window} {n : Nat}
    (params : u.params = t.params) (regs : ∀ r, u.readReg r = t.readReg r)
    (elems : ∀ v k, k < elements t.params v → v ≠ w ∨ n ≤ k → SameElement t u v k)
    (counted : n ≤ writtenLength t.regs w) : Frame R (W ++ [w]) s u := by
  have write : Frame [] [w] t u :=
    { params := params
      regs := fun r _ => regs r
      elems := fun v k hk out => elems v k hk <| by
        rcases eq_or_ne v w with rfl | other
        · rw [writtenLength_congr fun r _ => regs r] at out
          exact .inr (counted.trans (out.resolve_left (by simp)))
        · exact .inl other }
  simpa using h.trans write (by simp)

theorem Frame.writeBytes {R : List Reg} {W : List Window} {s t : State} (h : Frame R W s t) (w : Window) (bs : List Byte)
    (fits : bs.length ≤ w.size t.params) (counted : bs.length ≤ writtenLength t.regs w) :
    Frame R (W ++ [w]) s (t.writeBytes w bs) :=
  h.writeWindow rfl (fun _ => rfl) (fun _ _ => sameElement_writeBytes fits) counted

theorem Frame.writeSym {R : List Reg} {W : List Window} {s t : State} (h : Frame R W s t) (bs : List Bool)
    (counted : bs.length ≤ writtenLength t.regs .sym) : Frame R (W ++ [.sym]) s (t.writeSym bs) :=
  h.writeWindow rfl (fun _ => rfl) (fun _ _ _ => sameElement_writeSym) counted

theorem Frame.writeBitString {R : List Reg} {W : List Window} {s t : State} (h : Frame R W s t) (bs : List Bool)
    (counted : bs.length ≤ writtenLength t.regs .bits) : Frame R (W ++ [.bits]) s (t.writeBitString bs) :=
  h.writeWindow rfl (fun _ => rfl) (fun _ _ _ => sameElement_writeBitString) counted

/-! ## Completion -/

/-- The registers every completion writes (40_control.md R143, 60_exceptions.md R303). -/
def completionRegs : List Reg := [.status, .errCode, .errInfo]

theorem frame_completion (s : State) (status : StatusFlags) (code : BitVec 4) (info : Word) :
    Frame completionRegs []
      s ((s.withRegs { s.regs with status := status, errCode := code, errInfo := info }).withSeq .idle) where
  params := rfl
  regs r hr := by
    cases r
    case status | errCode | errInfo => simp [completionRegs] at hr
    all_goals rfl
  elems w k _ _ := sameElement_refl s w k

theorem frame_completeOk (s : State) (f : StatusFlags) : Frame completionRegs [] s (s.completeOk f) :=
  frame_completion s _ _ _

theorem frame_completeErr (s : State) (c : ErrCode) (i : Word) : Frame completionRegs [] s (s.completeErr c i) :=
  frame_completion s _ _ _

/-- No window is measured by a register that a completion writes. -/
theorem lengthReg_not_completion (w : Window) : ∀ r ∈ lengthReg w, r ∉ completionRegs := by
  cases w <;> decide

/-! ## Stages -/

/-- A stage that completes leaves a state that meets `ok`, one that fails a state that meets `err`. -/
def Leaves (ok err : State → Prop) : StageResult → Prop
  | .done t _ => ok t
  | .fail t _ _ => err t
  | .stop _ => True

theorem Leaves.imp {ok ok' err err' : State → Prop} {x : StageResult} (h : Leaves ok err x) (hok : ∀ t, ok t → ok' t)
    (herr : ∀ t, err t → err' t) : Leaves ok' err' x := by
  cases x with
  | done t f => exact hok t h
  | fail t c i => exact herr t h
  | stop f => trivial

theorem Leaves.withRead {α : Type} {ok err : State → Prop} {x : Except Fault α} {k : α → StageResult}
    (h : ∀ a, x = .ok a → Leaves ok err (k a)) : Leaves ok err (withRead x k) := by
  cases x with
  | ok a => exact h a rfl
  | error f => trivial

theorem Leaves.thenStage {mid ok err : State → Prop} {x : StageResult} {k : State → StatusFlags → StageResult}
    (h : Leaves mid err x) (hk : ∀ t f, mid t → Leaves ok err (k t f)) : Leaves ok err (x.thenStage k) := by
  cases x with
  | done t f => exact hk t f h
  | fail t c i => exact h
  | stop f => trivial

/-- A stage of a single command on `s`: completing, it writes the registers `R` and the windows `W`; failing, nothing. -/
abbrev WritesOnly (R : List Reg) (W : List Window) (s : State) : StageResult → Prop := Leaves (Frame R W s) (· = s)

/-- A stage of a chain, run on the state `t` that the stages before it left: failing, it leaves their outputs. -/
theorem WritesOnly.after {R₁ R₂ R : List Reg} {W₁ W₂ W : List Window} {s t : State} {x : StageResult}
    (h : WritesOnly R₂ W₂ t x) (before : Frame R₁ W₁ s t) (kept : ∀ w ∈ W₁, ∀ r ∈ lengthReg w, r ∉ R₂) (hR : R₁ ⊆ R)
    (hW : W₁ ⊆ W) : Leaves (Frame (R₁ ++ R₂) (W₁ ++ W₂) s) (Frame R W s) x :=
  h.imp (fun _ now => before.trans now kept) fun u same => by subst same; exact before.mono hR hW

/-- A single command, or the first stage of a chain: failing, it leaves nothing of any outputs. -/
theorem WritesOnly.first {R₁ R : List Reg} {W₁ W : List Window} {s : State} {x : StageResult} (h : WritesOnly R₁ W₁ s x) :
    Leaves (Frame R₁ W₁ s) (Frame R W s) x :=
  h.after (Frame.refl s) (by simp) (List.nil_subset _) (List.nil_subset _)

end Sys2Proof.Proofs.CommandFrame
end

/-! PROOF. The outputs of every command: what each stage writes, and the frame of R76 (10_state.md) for every command. -/
section

namespace Sys2Proof.Proofs.CommandOutputs

open Sys2Proof.Machine Sys2Proof.Safety Sys2Proof.Proofs.CommandFrame

/-! ## Lengths of what stages write -/

theorem natWord_toNat {n : Nat} (h : n < 2 ^ 32) : (natWord n).toNat = n := Nat.mod_eq_of_lt h

theorem length_bytesOfWords (ws : List Word) : (bytesOfWords ws).length = 4 * ws.length := by
  simp [bytesOfWords, wordBytes, List.length_flatMap, mul_comm]

theorem length_pairUp {α : Type} : ∀ xs : List α, (pairUp xs).length = xs.length / 2
  | [] | [_] => by simp [pairUp]
  | a :: b :: rest => by
    simp only [pairUp, List.length_cons, length_pairUp rest]
    omega

theorem length_wordsOfBytes : ∀ bytes : List Byte, (wordsOfBytes bytes).length = bytes.length / 4
  | [] | [_] | [_, _] | [_, _, _] => by simp [wordsOfBytes]
  | b0 :: b1 :: b2 :: b3 :: rest => by
    simp only [wordsOfBytes, List.length_cons, length_wordsOfBytes rest]
    omega

theorem length_iqBytes : ∀ bytes : List Byte, (iqBytes bytes).length = 2 * (bytes.length / 4)
  | [] | [_] | [_, _] | [_, _, _] => by simp [iqBytes]
  | i :: q :: x :: y :: rest => by
    simp only [iqBytes, List.length_cons, length_iqBytes rest]
    omega

theorem length_iqWords {α : Type} (f g : α → Word) (xs : List α) :
    (xs.flatMap fun x => [f x, g x]).length = 2 * xs.length := by
  simp [List.length_flatMap, mul_comm]

theorem length_carrierTable (n : Nat) (f : Nat → Int × Int) :
    ((List.range n).flatMap fun k => clutBytes (f k)).length = 4 * n := by
  simp [clutBytes, List.length_flatMap, mul_comm]

theorem length_substitute (s : State) (c : Byte) : (substitute s c).length = substituteLen s c := by
  unfold substitute substituteLen
  dsimp only
  split_ifs
  · simp [EncEntry.codeBits, wordBits]
  · rfl

theorem length_filterPass (b0 b1 a1 xp yp : Int) (xs : List Int) :
    (filterPass b0 b1 a1 xp yp xs).length = xs.length := by
  induction xs generalizing xp yp with
  | nil => rfl
  | cons x xs ih => simp [filterPass, ih]

theorem length_filterFromEdge (b0 b1 a1 : Int) (xs : List Int) : (filterFromEdge b0 b1 a1 xs).length = xs.length := by
  cases xs with
  | nil => rfl
  | cons x xs => exact length_filterPass ..

theorem length_envelope (r : Regs) (sig : List (Int × Int)) : (envelope r sig).length = sig.length := by
  simp [envelope, zeroPhaseLpf, length_filterFromEdge]

theorem length_tokenEnds (start : Nat) (tokens : List (List Byte)) :
    (tokenEnds start tokens).length = tokens.length := by
  induction tokens generalizing start with
  | nil => rfl
  | cons t ts ih => simp [tokenEnds, ih]

/-! ### The waveform -/

/-- A carrier table that is read has I and Q for each of its N entries; one that is not read has no segment to fill. -/
theorem length_carrierFor {s : State} {pkt table : List Byte} {N L : Nat} (h : carrierFor s pkt N L = .ok table)
    (mark : hasMark pkt = true) (whole : L % N = 0) : L / N * table.length = 2 * L := by
  unfold carrierFor at h
  split_ifs at h with used
  · unfold readCarrier at h
    split at h
    · rename_i bytes read
      have count := ((readBytes_eq_ok_iff ..).mp read).1
      cases h
      rw [length_iqBytes, count, Nat.mul_div_cancel_left _ four_pos, mul_left_comm,
        Nat.div_mul_cancel (Nat.dvd_of_mod_eq_zero whole)]
    · cases h
  · have : L = 0 := by simpa [mark] using used
    simp [this]

theorem length_segment {table : List Byte} {N L P : Nat} {c : Byte}
    (tiles : packetSymbol c = .mark → L / N * table.length = 2 * L) :
    (Machine.segment table N L P c).length = 2 * segLen L P c := by
  unfold Machine.segment segLen
  cases symbol : packetSymbol c with
  | mark => simpa using tiles symbol
  | zero | pause | space | unknown => simp

theorem length_waveform {table pkt : List Byte} {N L P : Nat}
    (tiles : hasMark pkt = true → L / N * table.length = 2 * L) :
    (pkt.flatMap (Machine.segment table N L P)).length = 2 * (pkt.map (segLen L P)).sum := by
  rw [List.length_flatMap, ← List.sum_map_mul_left]
  refine congrArg List.sum (List.map_congr_left fun c mem => length_segment fun mark => tiles ?_)
  exact List.any_eq_true.mpr ⟨c, mem, by simpa using mark⟩

/-! ### The recovered bits (43_slicer_sync_decoder.md R243) -/

/-- Rounding r / L gives at most r where L is between 1 and r: for L = 1 the quotient is exact, for a larger L it is
below r. -/
theorem rne_le_self {r L : Nat} (pos : 0 < L) (le : L ≤ r) : rne r L ≤ r := by
  have room : r % L = 0 ∧ r / L = r ∨ r / L < r := by
    rcases Nat.eq_or_lt_of_le pos with rfl | two
    · exact .inl ⟨Nat.mod_one r, Nat.div_one r⟩
    · exact .inr (Nat.div_lt_self (pos.trans_le le) two)
  simp only [rne, ← Int.natCast_div, ← Int.natCast_mod]
  split_ifs <;> omega

theorem length_runBits_le {L : Nat} (pos : 0 < L) (run : Bool × Nat) : (runBits L run).length ≤ run.2 := by
  unfold runBits
  split_ifs with le
  · rw [List.length_replicate, Int.toNat_le]
    exact rne_le_self pos le
  · exact Nat.zero_le _

theorem sum_runs (bits : List Bool) : ((runs bits).map Prod.snd).sum = bits.length := by
  induction bits with
  | nil => rfl
  | cons b bs ih =>
    rw [runs]
    cases tail : runs bs with
    | nil =>
      rw [tail] at ih
      simp only [List.map_cons, List.map_nil, List.sum_cons, List.sum_nil, List.length_cons] at ih ⊢
      omega
    | cons run rest =>
      rw [tail] at ih
      dsimp only
      split_ifs <;> simp only [List.map_cons, List.sum_cons, List.length_cons] at ih ⊢ <;> omega

theorem length_recoverBits_le {L : Nat} (pos : 0 < L) (sym : List Bool) : (recoverBits L sym).length ≤ sym.length := by
  rw [← sum_runs sym, recoverBits, List.length_flatMap]
  exact List.sum_le_sum fun run _ => length_runBits_le pos run

/-! ## The registers each stage writes -/

theorem frame_carrierRegs (s : State) (n : Word) :
    Frame (registersWritten .genCarrier) [] s (s.withRegs { s.regs with clutLen := n }) :=
  frame_withRegs s _ fun r hr => by
    cases r
    case clutLen => simp [registersWritten] at hr
    all_goals rfl

theorem frame_packetRegs (s : State) (n : Word) :
    Frame (registersWritten .encode) [] s (s.withRegs { s.regs with pktLen := n }) :=
  frame_withRegs s _ fun r hr => by
    cases r
    case pktLen => simp [registersWritten] at hr
    all_goals rfl

theorem frame_waveRegs (s : State) (n count pos : Word) (val : Byte) :
    Frame (registersWritten .generate) []
      s (s.withRegs { s.regs with txLen := n, unkCount := count, unkPos := pos, unkVal := val }) :=
  frame_withRegs s _ fun r hr => by
    cases r
    case txLen | unkCount | unkPos | unkVal => simp [registersWritten] at hr
    all_goals rfl

theorem frame_signalRegs (s : State) (n i q : Word) :
    Frame (registersWritten .preprocess) [] s (s.withRegs { s.regs with sigLen := n, meanI := i, meanQ := q }) :=
  frame_withRegs s _ fun r hr => by
    cases r
    case sigLen | meanI | meanQ => simp [registersWritten] at hr
    all_goals rfl

theorem frame_detectRegs (s : State) (T lo hi n : Word) :
    Frame (registersWritten .detect) [] s (s.withRegs { s.regs with thresh := T, lo := lo, hi := hi, symLen := n }) :=
  frame_withRegs s _ fun r hr => by
    cases r
    case thresh | lo | hi | symLen => simp [registersWritten] at hr
    all_goals rfl

theorem frame_bitsRegs (s : State) (n : Word) :
    Frame (registersWritten .slice) [] s (s.withRegs { s.regs with bitsLen := n }) :=
  frame_withRegs s _ fun r hr => by
    cases r
    case bitsLen => simp [registersWritten] at hr
    all_goals rfl

theorem frame_syncRegs (s : State) (j d n : Word) :
    Frame (registersWritten .sync) [] s (s.withRegs { s.regs with syncIdx := j, tokdLen := d, tokCount := n }) :=
  frame_withRegs s _ fun r hr => by
    cases r
    case syncIdx | tokCount | tokdLen => simp [registersWritten] at hr
    all_goals rfl

theorem frame_tokenRegs (s : State) (d n : Word) :
    Frame (registersWritten .decode) [] s (s.withRegs { s.regs with tokdLen := d, tokCount := n }) :=
  frame_withRegs s _ fun r hr => by
    cases r
    case tokCount | tokdLen => simp [registersWritten] at hr
    all_goals rfl

/-! ## What each stage writes -/

/-- The command `i`, alone and run on `s`, writes only its own registers and windows, and nothing where it fails. -/
abbrev WritesOwn (i : Instr) (s : State) : StageResult → Prop := WritesOnly (registersWritten i) (windowsWritten i) s

theorem stageNop_writes (s : State) : WritesOwn .nop s (stageNop s) := Frame.refl s

theorem stageGenCarrier_writes (s : State) : WritesOwn .genCarrier s (stageGenCarrier s) := by
  unfold stageGenCarrier
  dsimp only
  split_ifs with noCarrier empty large
  · rfl
  · rfl
  · rfl
  · have depth := s.params.clut_legal
    refine (frame_carrierRegs s _).writeBytes .clut _ ?_ ?_
    · rw [length_carrierTable]
      simp only [Window.size, withRegs_params]
      omega
    · rw [length_carrierTable]
      simp only [writtenLength, withRegs_regs]
      rw [natWord_toNat (by omega)]

theorem stageEncode_writes (s : State) : WritesOwn .encode s (stageEncode s) := by
  unfold stageEncode
  split_ifs with long
  · rfl
  · split
    · rfl
    · refine .withRead fun msg _ => ?_
      split_ifs with overflow
      · rfl
      · have depth := s.params.pkt_legal
        have count : (msg.flatMap (substitute s)).length = (msg.map (substituteLen s)).sum := by
          simp only [List.length_flatMap, length_substitute]
        refine (frame_packetRegs s _).writeBytes .pkt _ ?_ ?_
        · simp only [Window.size, withRegs_params]
          omega
        · simp only [writtenLength, withRegs_regs]
          rw [natWord_toNat (by omega)]

theorem generateWrites_writes (s : State) (pkt table : List Byte) (N L P : Nat)
    (fits : (pkt.flatMap (Machine.segment table N L P)).length ≤ s.params.txbDepth) :
    WritesOwn .generate s (generateWrites s pkt table N L P) := by
  have depth := s.params.txb_legal
  refine (frame_waveRegs s _ _ _ _).writeBytes .txb _ fits ?_
  simp only [writtenLength, withRegs_regs]
  rw [natWord_toNat (by omega)]

theorem stageGenerate_writes (s : State) : WritesOwn .generate s (stageGenerate s) := by
  unfold stageGenerate
  dsimp only
  split_ifs
  · rfl
  · rfl
  · refine .withRead fun pkt _ => ?_
    split_ifs with noTable ragged overflow
    · rfl
    · rfl
    · rfl
    · refine .withRead fun table carrier => generateWrites_writes s pkt table _ _ _ ?_
      rw [length_waveform fun mark => length_carrierFor carrier mark (by simpa [mark] using ragged)]
      omega

theorem stagePreprocess_writes (s : State) : WritesOwn .preprocess s (stagePreprocess s) := by
  unfold stagePreprocess
  dsimp only
  split_ifs with large odd empty
  · rfl
  · rfl
  · exact (frame_signalRegs s 0 0 0).mono (List.Subset.refl _) (List.nil_subset _)
  · refine .withRead fun bytes read => ?_
    have depth := s.params.rxb_legal
    have count := ((readBytes_eq_ok_iff ..).mp read).1
    have samples : (iqSamples bytes).length = zext s.regs.rxLen / 2 := by
      rw [iqSamples, List.length_map, length_pairUp, count]
    refine (frame_signalRegs s _ _ _).writeBytes .sig _ ?_ ?_
    · rw [length_bytesOfWords, length_iqWords, samples]
      simp only [Window.size, Params.sigDepth, withRegs_params]
      omega
    · rw [length_bytesOfWords, length_iqWords, samples]
      simp only [writtenLength, withRegs_regs]
      rw [natWord_toNat (by omega)]
      omega

theorem stageDetect_writes (s : State) : WritesOwn .detect s (stageDetect s) := by
  unfold stageDetect
  dsimp only
  split_ifs with large empty
  · rfl
  · exact (frame_detectRegs s 0 0 0 0).mono (List.Subset.refl _) (List.nil_subset _)
  · refine .withRead fun bytes read => ?_
    have depth := s.params.rxb_legal
    have count := ((readBytes_eq_ok_iff ..).mp read).1
    have samples : (envelope s.regs (sigSamples bytes)).length = zext s.regs.sigLen := by
      simp only [length_envelope, sigSamples, List.length_map, length_pairUp, length_wordsOfBytes, count]
      omega
    have envWritten := (Frame.refl s).writeBytes .env
      (bytesOfWords ((envelope s.regs (sigSamples bytes)).map enc32))
      (by rw [length_bytesOfWords, List.length_map, samples]; simp only [Window.size]; omega)
      (by rw [length_bytesOfWords, List.length_map, samples]; rfl)
    have kept : ∀ w ∈ [Window.env], ∀ r ∈ lengthReg w, r ∉ registersWritten .detect := by decide
    split_ifs
    · exact (envWritten.trans (frame_detectRegs _ _ _ _ _) kept).mono (List.Subset.refl _) (by decide)
    · refine (envWritten.trans (frame_detectRegs _ _ _ _ _) kept).writeSym _ ?_
      rw [List.length_map, samples]
      simp only [writtenLength, withRegs_regs]
      rw [natWord_toNat (by simp only [Params.sigDepth] at large; omega)]

theorem stageSlice_writes (s : State) : WritesOwn .slice s (stageSlice s) := by
  unfold stageSlice
  split_ifs with large zero
  · rfl
  · rfl
  · refine .withRead fun sym read => ?_
    have depth := s.params.rxb_legal
    have count := ((readBits_eq_ok_iff ..).mp read).1
    have recovered := length_recoverBits_le (Nat.pos_of_ne_zero zero) sym
    refine (frame_bitsRegs s _).writeBitString _ ?_
    simp only [writtenLength, withRegs_regs]
    rw [natWord_toNat (by simp only [Params.sigDepth] at large; omega)]

/-- The writes of a decode, with registers `x` that differ from those of `s` in outputs of the command only. -/
theorem tokenWrites_writes {R : List Reg} (s : State) (tokens : List (List Byte)) (x : Regs) (f : StatusFlags)
    (kept : ∀ d n, Frame R [] s (s.withRegs { x with tokdLen := d, tokCount := n })) :
    WritesOnly R [.tokd, .toke] s (tokenWrites s tokens x f) := by
  have dataDepth := s.params.tokd_legal
  have endDepth := s.params.toke_legal
  unfold tokenWrites
  dsimp only
  split_ifs with dataLong endsLong
  · rfl
  · rfl
  · refine ((kept _ _).writeBytes .tokd _ ?_ ?_).writeBytes .toke _ ?_ ?_
    · simp only [Window.size, withRegs_params]
      omega
    · simp only [writtenLength, withRegs_regs]
      rw [natWord_toNat (by omega)]
    · simp only [length_bytesOfWords, List.length_map, length_tokenEnds, Window.size, writeBytes_params, withRegs_params]
      omega
    · simp only [length_bytesOfWords, List.length_map, length_tokenEnds, writtenLength, writeBytes_regs, withRegs_regs]
      rw [natWord_toNat (by omega)]

theorem stageSync_writes (s : State) : WritesOwn .sync s (stageSync s) := by
  unfold stageSync
  dsimp only
  split_ifs
  · rfl
  · rfl
  · split
    · rfl
    · refine .withRead fun bits _ => ?_
      split
      · exact (frame_syncRegs s _ _ _).mono (List.Subset.refl _) (List.nil_subset _)
      · exact tokenWrites_writes s _ _ _ fun d n => frame_syncRegs s _ d n

theorem stageDecode_writes (s : State) : WritesOwn .decode s (stageDecode s) := by
  unfold stageDecode
  dsimp only
  split_ifs
  · rfl
  · rfl
  · split
    · rfl
    · exact .withRead fun bits _ => tokenWrites_writes s _ _ _ (frame_tokenRegs s)

/-! ## The chains -/

/-- The command `i` writes only its own registers and windows, failing or not. -/
abbrev FramedBy (i : Instr) (s : State) : StageResult → Prop :=
  Leaves (Frame (registersWritten i) (windowsWritten i) s) (Frame (registersWritten i) (windowsWritten i) s)

theorem stageTxChain_framed (s : State) : FramedBy .txChain s (stageTxChain s) :=
  (WritesOnly.first (stageEncode_writes s)).thenStage fun t _ encoded =>
    WritesOnly.after (stageGenerate_writes t) encoded (by decide) (by decide) (by decide)

theorem stageRxChain_framed (s : State) : FramedBy .rxChain s (stageRxChain s) := by
  refine (WritesOnly.first (stagePreprocess_writes s)).thenStage fun s1 f1 preprocessed => ?_
  refine (WritesOnly.after (stageDetect_writes s1) preprocessed (by decide) (by decide) (by decide)).thenStage
    fun s2 f2 detected => ?_
  split_ifs
  · exact detected.mono (by decide) (by decide)
  · refine (WritesOnly.after (stageSlice_writes s2) detected (by decide) (by decide) (by decide)).thenStage
      fun s3 f3 sliced => ?_
    exact (WritesOnly.after (stageSync_writes s3) sliced (by decide) (by decide) (by decide)).thenStage
      fun s4 f4 synced => synced

/-! ## Every command -/

/-- What the completion step of a command finishes (30_encoding.md R111). -/
def stageOf : Instr → State → StageResult
  | .nop => stageNop
  | .genCarrier => stageGenCarrier
  | .encode => stageEncode
  | .generate => stageGenerate
  | .txChain => stageTxChain
  | .preprocess => stagePreprocess
  | .detect => stageDetect
  | .slice => stageSlice
  | .sync => stageSync
  | .decode => stageDecode
  | .rxChain => stageRxChain

theorem exec_eq_finish_stageOf (i : Instr) (s : State) : exec i s = finish (stageOf i s) := by
  cases i <;> rfl

theorem stageOf_writes {i : Instr} (noTx : i ≠ .txChain) (noRx : i ≠ .rxChain) (s : State) :
    WritesOwn i s (stageOf i s) := by
  cases i with
  | nop => exact stageNop_writes s
  | genCarrier => exact stageGenCarrier_writes s
  | encode => exact stageEncode_writes s
  | generate => exact stageGenerate_writes s
  | preprocess => exact stagePreprocess_writes s
  | detect => exact stageDetect_writes s
  | slice => exact stageSlice_writes s
  | sync => exact stageSync_writes s
  | decode => exact stageDecode_writes s
  | txChain => exact absurd rfl noTx
  | rxChain => exact absurd rfl noRx

theorem stageOf_framed (i : Instr) (s : State) : FramedBy i s (stageOf i s) := by
  by_cases tx : i = .txChain
  · subst tx
    exact stageTxChain_framed s
  by_cases rx : i = .rxChain
  · subst rx
    exact stageRxChain_framed s
  exact WritesOnly.first (stageOf_writes tx rx s)

theorem exec_frame {i : Instr} {s t : State} (h : exec i s = .next t) :
    Frame (registersWritten i ++ completionRegs) (windowsWritten i) s t := by
  have framed := stageOf_framed i s
  rw [exec_eq_finish_stageOf, finish_eq_next_iff] at h
  rw [← List.append_nil (windowsWritten i)]
  rcases h with ⟨u, f, eq, rfl⟩ | ⟨u, c, info, eq, rfl⟩ <;> rw [eq] at framed
  · exact Frame.trans framed (frame_completeOk u f) fun w _ => lengthReg_not_completion w
  · exact Frame.trans framed (frame_completeErr u c info) fun w _ => lengthReg_not_completion w

theorem exec_error_frame {i : Instr} {s t : State} (h : exec i s = .next t) (error : t.regs.errCode ≠ 0)
    (noTx : i ≠ .txChain) (noRx : i ≠ .rxChain) : Frame completionRegs [] s t := by
  have writes := stageOf_writes noTx noRx s
  rw [exec_eq_finish_stageOf, finish_eq_next_iff] at h
  rcases h with ⟨u, f, eq, rfl⟩ | ⟨u, c, info, eq, rfl⟩
  · exact absurd rfl error
  · rw [eq] at writes
    obtain rfl : u = s := writes
    exact frame_completeErr u c info

/-- Settles O54, from the frame of every command and that of an error. -/
theorem commandWritesOnlyItsOutputs : Obligations.CommandWritesOnlyItsOutputs := by
  intro i s t h
  have frame := exec_frame h
  refine ⟨fun r own completion => frame.regs r ?_, frame.elems, fun error noTx noRx => ?_⟩
  · exact fun mem => (List.mem_append.mp mem).elim own completion
  · have unchanged := exec_error_frame h error noTx noRx
    exact ⟨unchanged.regs, fun w k hk => unchanged.elems w k hk (.inl (by simp))⟩

end Sys2Proof.Proofs.CommandOutputs
end

/-! PROOF. The address decoder (20_memory.md R82, R83): what a mapped address selects, and that no other address selects
anything. -/
section

namespace Sys2Proof.Proofs.AddressMap

open Sys2Proof.Machine Sys2Proof.Safety Sys2Proof.Proofs.CommandFrame

/-! ## Registers -/

theorem regAt_offset (r : Reg) : regAt r.offset = some r := by cases r <;> rfl

theorem regAt_eq_some_iff (a : Nat) (r : Reg) : regAt a = some r ↔ r.offset = a := by
  constructor
  · intro found
    simpa using List.find?_some found
  · rintro rfl
    exact regAt_offset r

theorem offset_lt (r : Reg) : r.offset < 0x1000 := by cases r <;> decide

theorem offset_aligned (r : Reg) : r.offset % 4 = 0 := by cases r <;> decide

theorem toNat_offset (r : Reg) : (BitVec.ofNat 32 r.offset).toNat = r.offset :=
  Nat.mod_eq_of_lt ((offset_lt r).trans (by decide))

/-! ## Windows -/

theorem base_ge (w : Window) : 0x1000 ≤ w.base := by cases w <;> decide

theorem base_aligned (w : Window) : w.base % 4 = 0 := by cases w <;> decide

theorem base_add_room_lt (w : Window) : w.base + room w < 2 ^ 32 := by cases w <;> decide

theorem contains_iff (P : Params) (w : Window) (a : Nat) :
    w.contains P a = true ↔ w.base ≤ a ∧ a < w.base + w.size P := by
  simp [Window.contains]

/-- The memories do not overlap, whatever the parameters. -/
theorem contains_unique {P : Params} {v w : Window} {a : Nat} (hv : v.contains P a = true)
    (hw : w.contains P a = true) : v = w := by
  rw [contains_iff] at hv hw
  have := size_le_room P v
  have := size_le_room P w
  by_contra other
  rcases roomsApart other with before | behind <;> omega

theorem contains_of_windowAt {P : Params} {a : Nat} {w : Window} (found : windowAt P a = some w) :
    w.contains P a = true := by
  unfold windowAt at found
  simpa using List.find?_some found

theorem windowAt_eq_some_iff (P : Params) (a : Nat) (w : Window) : windowAt P a = some w ↔ w.contains P a = true := by
  refine ⟨contains_of_windowAt, fun inside => ?_⟩
  have listed : w ∈ Window.all := by cases w <;> decide
  have found : (windowAt P a).isSome := List.find?_isSome.mpr ⟨w, listed, inside⟩
  obtain ⟨v, hv⟩ := Option.isSome_iff_exists.mp found
  rw [hv, contains_unique (contains_of_windowAt hv) inside]

theorem toNat_wordAddr {P : Params} {w : Window} {k : Nat} (inside : 4 * k < w.size P) :
    (BitVec.ofNat 32 (w.base + 4 * k)).toNat = w.base + 4 * k := by
  have := size_le_room P w
  have := base_add_room_lt w
  exact Nat.mod_eq_of_lt (by omega)

/-! ## The decoder -/

theorem decodeAddr_of_misaligned (P : Params) {a : Word} (h : a.toNat % 4 ≠ 0) : decodeAddr P a = .misaligned :=
  if_pos h

theorem decodeAddr_register (P : Params) (r : Reg) : decodeAddr P (BitVec.ofNat 32 r.offset) = .register r := by
  unfold decodeAddr
  simp only [toNat_offset, offset_aligned, ne_eq, not_true_eq_false, if_false, regAt_offset]

theorem decodeAddr_word {P : Params} {w : Window} {k : Nat} (inside : 4 * k < w.size P) :
    decodeAddr P (BitVec.ofNat 32 (w.base + 4 * k)) = .word w k := by
  have aligned : (w.base + 4 * k) % 4 = 0 := by have := base_aligned w; omega
  have noReg : regAt (w.base + 4 * k) = none := by
    refine Option.eq_none_iff_forall_ne_some.mpr fun r found => ?_
    have := (regAt_eq_some_iff _ r).mp found
    have := offset_lt r
    have := base_ge w
    omega
  have here : windowAt P (w.base + 4 * k) = some w := by
    rw [windowAt_eq_some_iff, contains_iff]
    omega
  have index : (w.base + 4 * k - w.base) / 4 = k := by omega
  unfold decodeAddr
  simp only [toNat_wordAddr inside, aligned, ne_eq, not_true_eq_false, if_false, noReg, here, index]

theorem decodeAddr_of_not_mapped {P : Params} {a : Word} (aligned : a.toNat % 4 = 0) (h : ¬ Mapped P a.toNat) :
    decodeAddr P a = .unmapped := by
  have noReg : regAt a.toNat = none :=
    Option.eq_none_iff_forall_ne_some.mpr fun r found => h (.inl ⟨r, (regAt_eq_some_iff _ r).mp found⟩)
  have noWindow : windowAt P a.toNat = none :=
    Option.eq_none_iff_forall_ne_some.mpr fun w found =>
      h (.inr ⟨w, (contains_iff P w _).mp ((windowAt_eq_some_iff P _ w).mp found)⟩)
  unfold decodeAddr
  simp only [aligned, ne_eq, not_true_eq_false, if_false, noReg, noWindow]

/-- An aligned mapped address is that of a register or that of a word of a window. -/
theorem mapped_cases {P : Params} {a : Word} (aligned : a.toNat % 4 = 0) (h : Mapped P a.toNat) :
    (∃ r : Reg, a = BitVec.ofNat 32 r.offset) ∨
      ∃ (w : Window) (k : Nat), 4 * k < w.size P ∧ a = BitVec.ofNat 32 (w.base + 4 * k) := by
  rcases h with ⟨r, here⟩ | ⟨w, from_base, below_end⟩
  · exact .inl ⟨r, by rw [here, BitVec.ofNat_toNat, BitVec.setWidth_eq]⟩
  · have := base_aligned w
    refine .inr ⟨w, (a.toNat - w.base) / 4, by omega, ?_⟩
    rw [show w.base + 4 * ((a.toNat - w.base) / 4) = a.toNat by omega, BitVec.ofNat_toNat, BitVec.setWidth_eq]

end Sys2Proof.Proofs.AddressMap
end

/-! PROOF. The slave port (20_memory.md R84 to R90): what a READ and a WRITE answer at each kind of place, for SEQ IDLE
and BUSY. -/
section

namespace Sys2Proof.Proofs.BusAccess

open Sys2Proof.Machine Sys2Proof.Safety Sys2Proof.Proofs.AddressMap

/-! ## Requests, by the place they select -/

theorem busy_of_idle {s : State} (h : s.seq = .idle) : s.busy = false := by simp [State.busy, h]

theorem busy_of_busy {s : State} (h : s.seq = .busy) : s.busy = true := by simp [State.busy, h]

/-- The requests that no place serves. -/
def Unserved (P : Params) (a : Word) : Prop := a.toNat % 4 ≠ 0 ∨ ¬ Mapped P a.toNat

theorem decodeAddr_of_unserved {P : Params} {a : Word} (h : Unserved P a) :
    decodeAddr P a = .misaligned ∨ decodeAddr P a = .unmapped := by
  by_cases aligned : a.toNat % 4 = 0
  · exact .inr (decodeAddr_of_not_mapped aligned (h.resolve_left (not_not.mpr aligned)))
  · exact .inl (decodeAddr_of_misaligned P aligned)

theorem busRead_unserved {s : State} {a : Word} (h : Unserved s.params a) : busRead s a = slverr := by
  rcases decodeAddr_of_unserved h with place | place <;> simp only [busRead, place]

theorem busWrite_partial (s : State) (a v : Word) {strb : Strobe} (h : strb ≠ 0b1111#4) :
    busWrite s a v strb = (s, slverr) :=
  if_pos h

theorem busWrite_unserved {s : State} {a : Word} (v : Word) (strb : Strobe) (h : Unserved s.params a) :
    busWrite s a v strb = (s, slverr) := by
  rcases decodeAddr_of_unserved h with place | place <;> simp only [busWrite, place, ite_self]

theorem busRead_register (s : State) (r : Reg) :
    busRead s (BitVec.ofNat 32 r.offset) =
      okay (if s.busy && !r.readableWhileBusy then s.freeNow else s.readReg r) := by
  simp only [busRead, decodeAddr_register, apply_ite okay]

theorem busRead_word {s : State} {w : Window} {k : Nat} (inside : 4 * k < w.size s.params) :
    busRead s (BitVec.ofNat 32 (w.base + 4 * k)) = okay (if s.busy then s.freeNow else windowWord s w k s.freeNow) := by
  simp only [busRead, decodeAddr_word inside, apply_ite okay]

theorem busWrite_register (s : State) (r : Reg) (v : Word) :
    busWrite s (BitVec.ofNat 32 r.offset) v 0b1111#4 =
      if s.busy && decide (r ≠ .ctrl) then (s, slverr) else (writeRegister s r v, okay 0) := by
  simp only [busWrite, decodeAddr_register, ne_eq, not_true_eq_false, if_false]

theorem busWrite_word {s : State} {w : Window} {k : Nat} (v : Word) (inside : 4 * k < w.size s.params) :
    busWrite s (BitVec.ofNat 32 (w.base + 4 * k)) v 0b1111#4 =
      if s.busy then (s, slverr) else (s.writeWindowWord w k v, okay 0) := by
  simp only [busWrite, decodeAddr_word inside, ne_eq, not_true_eq_false, if_false]

/-! ## SEQ IDLE -/

theorem busRead_register_idle {s : State} (idle : s.seq = .idle) (r : Reg) :
    busRead s (BitVec.ofNat 32 r.offset) = okay (s.readReg r) := by
  simp [busRead_register, busy_of_idle idle]

theorem busRead_word_idle {s : State} {w : Window} {k : Nat} (idle : s.seq = .idle) (inside : 4 * k < w.size s.params) :
    busRead s (BitVec.ofNat 32 (w.base + 4 * k)) = okay (windowWord s w k s.freeNow) := by
  simp [busRead_word inside, busy_of_idle idle]

theorem busWrite_register_idle {s : State} (idle : s.seq = .idle) (r : Reg) (v : Word) :
    busWrite s (BitVec.ofNat 32 r.offset) v 0b1111#4 = (writeRegister s r v, okay 0) := by
  simp [busWrite_register, busy_of_idle idle]

theorem busWrite_word_idle {s : State} {w : Window} {k : Nat} (idle : s.seq = .idle) (v : Word)
    (inside : 4 * k < w.size s.params) :
    busWrite s (BitVec.ofNat 32 (w.base + 4 * k)) v 0b1111#4 = (s.writeWindowWord w k v, okay 0) := by
  simp [busWrite_word v inside, busy_of_idle idle]

/-! ## Mapped places -/

theorem resp_busRead_mapped {s : State} {a : Word} (aligned : a.toNat % 4 = 0) (mapped : Mapped s.params a.toNat) :
    (busRead s a).resp = .okay := by
  rcases mapped_cases aligned mapped with ⟨r, rfl⟩ | ⟨w, k, inside, rfl⟩
  · rw [busRead_register]; rfl
  · rw [busRead_word inside]; rfl

theorem resp_busWrite_mapped_idle {s : State} {a : Word} (v : Word) (idle : s.seq = .idle) (aligned : a.toNat % 4 = 0)
    (mapped : Mapped s.params a.toNat) : (busWrite s a v 0b1111#4).2 = okay 0 := by
  rcases mapped_cases aligned mapped with ⟨r, rfl⟩ | ⟨w, k, inside, rfl⟩
  · rw [busWrite_register_idle idle]
  · rw [busWrite_word_idle idle v inside]

/-- Settles O9: the decoder selects nothing at a misaligned or unmapped address, and a register or a window word at
every other. -/
theorem busErrorsHaveNoEffect : Obligations.BusErrorsHaveNoEffect :=
  ⟨fun _ _ v strb misaligned => ⟨busRead_unserved (.inl misaligned), busWrite_unserved v strb (.inl misaligned)⟩,
    fun s a v _ strobes => busWrite_partial s a v strobes,
    fun _ _ v strb unmapped => ⟨busRead_unserved (.inr unmapped), busWrite_unserved v strb (.inr unmapped)⟩,
    fun _ _ v idle aligned mapped =>
      ⟨resp_busRead_mapped aligned mapped, resp_busWrite_mapped_idle v idle aligned mapped⟩⟩

/-! ## SEQ BUSY (R90) -/

theorem busWrite_ctrl_busy {s : State} (v : Word) :
    busWrite s (BitVec.ofNat 32 Reg.ctrl.offset) v 0b1111#4 = (if v.getLsbD 0 then s.softReset else s, okay 0) := by
  simp [busWrite_register, writeRegister]

theorem busWrite_busy_of_ne_ctrl {s : State} {a : Word} (v : Word) (strb : Strobe) (busy : s.seq = .busy)
    (other : a ≠ BitVec.ofNat 32 Reg.ctrl.offset) : busWrite s a v strb = (s, slverr) := by
  by_cases partialStrobes : strb ≠ 0b1111#4
  · exact busWrite_partial s a v partialStrobes
  by_cases unserved : Unserved s.params a
  · exact busWrite_unserved v strb unserved
  obtain rfl := not_not.mp partialStrobes
  obtain ⟨aligned, mapped⟩ : a.toNat % 4 = 0 ∧ Mapped s.params a.toNat := by simpa [Unserved] using unserved
  rcases mapped_cases aligned mapped with ⟨r, rfl⟩ | ⟨w, k, inside, rfl⟩
  · have notCtrl : r ≠ .ctrl := fun same => other (same ▸ rfl)
    simp [busWrite_register, busy_of_busy busy, notCtrl]
  · simp [busWrite_word v inside, busy_of_busy busy]

theorem readableWhileBusy_of_mem : ∀ r ∈ readableRegisters, r.readableWhileBusy = true := by decide

/-- Settles O11, from the answers at each place while SEQ is BUSY. -/
theorem busyAccessRules : Obligations.BusyAccessRules := by
  refine ⟨fun s v _ => busWrite_ctrl_busy v, fun s a v strb busy other => busWrite_busy_of_ne_ctrl v strb busy other,
    fun s r _ readable => ?_, fun s a _ aligned mapped => ⟨resp_busRead_mapped aligned mapped, rfl⟩⟩
  rw [busRead_register, readableWhileBusy_of_mem r readable]
  simp [okay]

end Sys2Proof.Proofs.BusAccess
end

/-! PROOF. Reserved bits, read-only registers and write-1-to-clear on the bus (20_memory.md R87). -/
section

namespace Sys2Proof.Proofs.ReservedBits

open Sys2Proof.Machine Sys2Proof.Safety Sys2Proof.Proofs.BusAccess

/-! ## Words by their bits -/

theorem testBit_bitsNat (bs : List Bool) (i : Nat) : (bitsNat bs).testBit i = bs.getD i false := by
  induction bs generalizing i with
  | nil => simp [bitsNat]
  | cons b bs ih =>
    cases i with
    | zero => cases b <;> simp [bitsNat, Nat.testBit_zero, Nat.add_mod]
    | succ i =>
      have half : (2 * bitsNat bs + b.toNat) / 2 = bitsNat bs := by have := b.toNat_lt; omega
      rw [bitsNat, Nat.testBit_succ, half, ih, List.getD_cons_succ]

theorem getLsbD_bitsWord (bs : List Bool) {i : Nat} (hi : i < 32) : (bitsWord bs).getLsbD i = bs.getD i false := by
  rw [bitsWord, BitVec.getLsbD_ofNat, testBit_bitsNat]
  simp [hi]

/-- Bits [6:1] of STATUS and of IRQ_EN, bit 1 first (10_state.md R37, R38). -/
def flagBits (f : StatusFlags) : List Bool := [f.done, f.err, f.insuf, f.premiss, f.unksym, f.synced]

theorem bitsNat_flagBits (b : Bool) (f : StatusFlags) :
    bitsNat (b :: flagBits f) =
      2 * f.done.toNat + 4 * f.err.toNat + 8 * f.insuf.toNat + 16 * f.premiss.toNat + 32 * f.unksym.toNat +
        64 * f.synced.toNat + b.toNat := by
  simp only [flagBits, bitsNat]
  omega

theorem toWord_eq_bitsWord (f : StatusFlags) : f.toWord = bitsWord (false :: flagBits f) := by
  rw [bitsWord, bitsNat_flagBits]
  rfl

theorem readReg_status (s : State) : s.readReg .status = bitsWord (s.busy :: flagBits s.regs.status) := by
  rw [bitsWord, bitsNat_flagBits, BitVec.ofNat_add]
  exact (BitVec.ofNat_add ..).trans (congrArg (· + _) ((BitVec.ofNat_toNat ..).trans (BitVec.setWidth_eq _)))

theorem and_eq_zero_of_clear {x mask : Word} (clear : ∀ i, i < 32 → mask.getLsbD i = true → x.getLsbD i = false) :
    x &&& mask = 0 := by
  refine BitVec.eq_of_getLsbD_eq fun i hi => ?_
  rw [BitVec.getLsbD_and]
  cases set : mask.getLsbD i with
  | false => simp
  | true => simp [clear i hi set]

theorem getLsbD_and_not {v mask : Word} {i : Nat} (clear : mask.getLsbD i = false) :
    (v &&& ~~~mask).getLsbD i = v.getLsbD i := by
  rw [BitVec.getLsbD_and, BitVec.getLsbD_not, clear]
  by_cases hi : i < 32
  · simp [hi]
  · simp [BitVec.getLsbD_of_ge _ _ (not_lt.mp hi)]

/-- Every bit of the mask lies at or above bit `n`. -/
abbrev MaskFrom (n : Nat) (mask : Word) : Prop := ∀ i, i < 32 → mask.getLsbD i = true → n ≤ i

theorem setWidth_and_eq_zero {n : Nat} (x : BitVec n) {mask : Word} (high : MaskFrom n mask) :
    x.setWidth 32 &&& mask = 0 :=
  and_eq_zero_of_clear fun i hi set => by
    rw [BitVec.getLsbD_setWidth, BitVec.getLsbD_of_ge _ _ (high i hi set), Bool.and_false]

theorem setWidth_and_not {n : Nat} (v : Word) {mask : Word} (high : MaskFrom n mask) :
    (v &&& ~~~mask).setWidth n = v.setWidth n := by
  refine BitVec.eq_of_getLsbD_eq fun i hi => ?_
  have clear : mask.getLsbD i = false := by
    by_contra set
    rw [Bool.not_eq_false] at set
    have := high i (BitVec.lt_of_getLsbD set) set
    omega
  rw [BitVec.getLsbD_setWidth, BitVec.getLsbD_setWidth, getLsbD_and_not clear]

/-! ## Reserved bits of registers -/

theorem getD_flagBits_eq_false (b : Bool) (f : StatusFlags) {i : Nat} (h : 7 ≤ i) :
    (b :: flagBits f).getD i false = false := by
  rw [List.getD_eq_getElem?_getD, List.getElem?_eq_none (by simpa [flagBits] using h), Option.getD_none]

theorem readReg_reserved (s : State) (r : Reg) : s.readReg r &&& reservedBits r = 0 := by
  cases r
  case status =>
    have high : MaskFrom 7 (reservedBits .status) := by decide
    rw [readReg_status]
    exact and_eq_zero_of_clear fun i hi set => by rw [getLsbD_bitsWord _ hi, getD_flagBits_eq_false _ _ (high i hi set)]
  case irqEn =>
    have places : ∀ i, i < 32 → (reservedBits .irqEn).getLsbD i = true → i = 0 ∨ 7 ≤ i := by decide
    refine and_eq_zero_of_clear fun i hi set => ?_
    rw [State.readReg, toWord_eq_bitsWord, getLsbD_bitsWord _ hi]
    rcases places i hi set with rfl | high
    · rfl
    · exact getD_flagBits_eq_false _ _ high
  case ctrl => exact BitVec.zero_and
  case errCode => exact setWidth_and_eq_zero s.regs.errCode (by decide)
  case amp => exact setWidth_and_eq_zero s.regs.amp (by decide)
  case unkVal => exact setWidth_and_eq_zero s.regs.unkVal (by decide)
  all_goals exact BitVec.and_zero

theorem ofWord_and_not (v : Word) {mask : Word} (clear : ∀ i, i < 7 → 1 ≤ i → mask.getLsbD i = false) :
    StatusFlags.ofWord (v &&& ~~~mask) = StatusFlags.ofWord v := by
  simp only [StatusFlags.ofWord, StatusFlags.mk.injEq]
  refine ⟨?_, ?_, ?_, ?_, ?_, ?_⟩ <;> exact getLsbD_and_not (clear _ (by decide) (by decide))

theorem writeRegister_reserved (s : State) (r : Reg) (v : Word) :
    writeRegister s r v = writeRegister s r (v &&& ~~~(reservedBits r)) := by
  cases r
  case ctrl => simp only [writeRegister, getLsbD_and_not (show (reservedBits .ctrl).getLsbD 0 = false by decide)]
  case status =>
    have clear : ∀ i, i < 7 → 1 ≤ i → (reservedBits .status).getLsbD i = false := by decide
    simp only [writeRegister, Regs.write, ofWord_and_not v clear]
  case irqEn =>
    have clear : ∀ i, i < 7 → 1 ≤ i → (reservedBits .irqEn).getLsbD i = false := by decide
    simp only [writeRegister, Regs.write, ofWord_and_not v clear]
  case amp =>
    have high : MaskFrom 7 (reservedBits .amp) := by decide
    simp only [writeRegister, Regs.write, setWidth_and_not v high]
  case errCode | unkVal => rfl
  all_goals
    have all : v &&& ~~~(0#32) = v := BitVec.and_allOnes
    exact congrArg _ all.symm

/-! ## Reserved bits of window words -/

theorem writeWindowWord_reserved (s : State) (w : Window) (k : Nat) (v : Word) :
    s.writeWindowWord w k v = s.writeWindowWord w k (v &&& w.definedBits k) := by
  cases w
  case sym | bits =>
    have all : v &&& 0xFFFFFFFF#32 = v := BitVec.and_allOnes
    exact congrArg _ all.symm
  all_goals simp only [State.writeWindowWord, BitVec.and_assoc, BitVec.and_self]

theorem windowWord_reserved {s : State} (inv : Inv s) {w : Window} {k : Nat} (free : Word)
    (inside : 4 * k < w.size s.params) : windowWord s w k free &&& ~~~(w.definedBits k) = 0 := by
  cases w
  case sym | bits =>
    have noReserved : ~~~(0xFFFFFFFF#32) = 0#32 := by decide
    exact (congrArg (windowWord s _ k free &&& ·) noReserved).trans BitVec.and_zero
  all_goals exact inv.reserved _ k free rfl inside

/-! ## Read-only registers and STATUS -/

theorem writeRegister_readOnly (s : State) {r : Reg} (v : Word) (h : r ∈ readOnlyRegisters) :
    writeRegister s r v = s := by
  fin_cases h <;> rfl

theorem getLsbD_status_write_one_clears (s : State) (v : Word) {b : Nat} (lo : 1 ≤ b) (hi : b ≤ 6) :
    ((writeRegister s .status v).readReg .status).getLsbD b = ((s.readReg .status).getLsbD b && !v.getLsbD b) := by
  rw [readReg_status, readReg_status, getLsbD_bitsWord _ (by omega), getLsbD_bitsWord _ (by omega)]
  interval_cases b <;> rfl

/-- Settles O8, from what reads and writes do to the reserved bits of each place. -/
theorem registerWriteDetails : Obligations.RegisterWriteDetails := by
  refine ⟨fun s r v idle readOnly => ?_, fun s v idle => ?_, fun s r v idle => ⟨?_, ?_⟩,
    fun s w k v inv idle inside => ⟨?_, ?_⟩⟩
  · rw [busWrite_register_idle idle, writeRegister_readOnly s v readOnly]
    rfl
  · exact ⟨writeRegister s .status v, busWrite_register_idle idle .status v, rfl,
      fun b lo hi => getLsbD_status_write_one_clears s v lo hi⟩
  · rw [busRead_register_idle idle]
    exact readReg_reserved s r
  · rw [busWrite_register_idle idle, busWrite_register_idle idle, ← writeRegister_reserved]
  · rw [busRead_word_idle idle inside]
    exact windowWord_reserved inv _ inside
  · rw [busWrite_word_idle idle _ inside, busWrite_word_idle idle _ inside, ← writeWindowWord_reserved]

end Sys2Proof.Proofs.ReservedBits
end

/-! PROOF. The command words (30_encoding.md R110 to R112): which words decode, to what, and how the others complete
(40_control.md R149). -/
section

namespace Sys2Proof.Proofs.CommandWords

open Sys2Proof.Machine Sys2Proof.Safety

/-! ## The fields (R110) -/

/-- The model reads a field of a word by division and remainder. -/
theorem toNat_extract_word (w : Word) (start len : Nat) :
    (w.extractLsb' start len).toNat = w.toNat / 2 ^ start % 2 ^ len := by
  rw [BitVec.extractLsb'_toNat, Nat.shiftRight_eq_div_pow]

theorem rsvdField_eq_zero_iff (w : Word) : rsvdField w = 0 ↔ w.extractLsb' 8 24 = 0 := by
  have field : (w.extractLsb' 8 24).toNat = rsvdField w := by
    rw [toNat_extract_word, rsvdField]
    omega
  rw [← field, ← BitVec.toNat_inj]
  rfl

theorem toNat_extract_opcode (w : Word) : (w.extractLsb' 0 8).toNat = opcodeField w :=
  BitVec.extractLsb'_toNat ..

/-! ## The opcode map (R111) -/

theorem opcodeOf_lt (i : Instr) : opcodeOf i < 256 := by cases i <;> decide

theorem opcodeMap_eq_some_iff (n : Nat) (i : Instr) : opcodeMap n = some i ↔ n = opcodeOf i := by
  constructor
  · intro row
    unfold opcodeMap at row
    split at row <;> cases row <;> rfl
  · rintro rfl
    cases i <;> rfl

/-- The commands, in the order of their OPCODE values. -/
def commands : List Instr :=
  [.nop, .genCarrier, .encode, .generate, .txChain, .preprocess, .detect, .slice, .sync, .decode, .rxChain]

theorem mem_commands (i : Instr) : i ∈ commands := by cases i <;> decide

theorem mem_assignedOpcodes_iff (n : Nat) : n ∈ assignedOpcodes ↔ ∃ i, n = opcodeOf i := by
  have rows : assignedOpcodes = commands.map opcodeOf := rfl
  simp only [rows, List.mem_map, mem_commands, true_and, eq_comm]

/-! ## The decoder and the encoder (R112) -/

theorem toNat_encode (i : Instr) : (encode i).toNat = opcodeOf i := by
  have := opcodeOf_lt i
  exact Nat.mod_eq_of_lt (by omega)

theorem eq_encode_iff (w : Word) (i : Instr) : w = encode i ↔ rsvdField w = 0 ∧ opcodeField w = opcodeOf i := by
  have := opcodeOf_lt i
  rw [← BitVec.toNat_inj, toNat_encode]
  unfold rsvdField opcodeField
  omega

theorem decodeWord_eq_ok_iff (w : Word) (i : Instr) : decodeWord w = .ok i ↔ w = encode i := by
  rw [eq_encode_iff, ← opcodeMap_eq_some_iff, decodeWord]
  by_cases rsvd : rsvdField w = 0
  · cases opcodeMap (opcodeField w) <;> simp [rsvd]
  · simp [rsvd]

theorem exists_decodeWord_iff (w : Word) :
    (∃ i, decodeWord w = .ok i) ↔ rsvdField w = 0 ∧ opcodeField w ∈ assignedOpcodes := by
  simp only [decodeWord_eq_ok_iff, eq_encode_iff, exists_and_left, mem_assignedOpcodes_iff]

/-! ## Completion of an illegal word (40_control.md R149) -/

theorem after_completeErr (s : State) (code : ErrCode) (info : Word) :
    After s (s.completeErr code info) (errRegs s.regs code.value info) [] [] [] where
  seq := rfl
  regs := rfl
  byteAt _ := rfl
  symAt _ := rfl
  bitsAt _ := rfl
  inbox := rfl
  responses := rfl
  served := rfl
  params := rfl

theorem step_of_busy {s : State} (busy : s.seq = .busy) (alone : s.inbox = []) : step s = runCommand s := by
  simp only [step, nextEvent, busy, alone]

theorem runCommand_of_illegal {s : State} (illegal : ∀ i, s.regs.cmd ≠ encode i) :
    runCommand s = .next (s.completeErr .illegal s.regs.cmd) := by
  rcases runCommand_cases s with ⟨i, decoded, -⟩ | ⟨_, -, run⟩
  · exact absurd ((decodeWord_eq_ok_iff _ i).mp decoded) (illegal i)
  · exact run

theorem step_issue_of_illegal {s : State} {w : Word} (alone : s.inbox = []) (illegal : ∀ i, w ≠ encode i) :
    step (s.issue w) = .next ((s.issue w).completeErr .illegal w) := by
  have busy : (s.issue w).seq = .busy := rfl
  rw [step_of_busy busy alone]
  exact runCommand_of_illegal illegal

/-- Settles O3, from the decoder as the inverse of the encoder and the completion of an illegal word. -/
theorem legalWordsAreTheEncodings : Obligations.LegalWordsAreTheEncodings := by
  refine ⟨fun w => ?_, decodeWord_eq_ok_iff, fun w s alone illegal => ?_⟩
  · rw [exists_decodeWord_iff, rsvdField_eq_zero_iff, toNat_extract_opcode]
    rfl
  · exact ⟨_, step_issue_of_illegal alone illegal, after_completeErr _ .illegal w⟩

end Sys2Proof.Proofs.CommandWords
end

/-! PROOF. Operand assembly (30_encoding.md R115): the fields of the dictionary words and the pattern, bit by bit. -/
section

namespace Sys2Proof.Proofs.OperandBits

open Sys2Proof.Machine Sys2Proof.Proofs.CommandWords

theorem clen_eq_field (x : EncEntry) : x.clen = (x.info.extractLsb' 0 6).toNat := by
  rw [toNat_extract_word, pow_zero, Nat.div_one]
  rfl

theorem klen_eq_field (x : DecEntry) : x.klen = (x.info.extractLsb' 0 6).toNat := by
  rw [toNat_extract_word, pow_zero, Nat.div_one]
  rfl

theorem vlen_eq_field (x : DecEntry) : x.vlen = (x.info.extractLsb' 8 3).toNat := by
  rw [toNat_extract_word]
  rfl

theorem codeBits_eq (x : EncEntry) :
    x.codeBits = (List.range (x.info.extractLsb' 0 6).toNat).map x.code.getLsbD := by
  rw [EncEntry.codeBits, wordBits, clen_eq_field]

theorem keyBits_eq (x : DecEntry) :
    x.keyBits = (List.range (x.info.extractLsb' 0 6).toNat).map x.key.getLsbD := by
  rw [DecEntry.keyBits, wordBits, klen_eq_field]

theorem valBytes_eq (x : DecEntry) :
    x.valBytes = (List.range (x.info.extractLsb' 8 3).toNat).map fun b => x.val.extractLsb' (8 * b) 8 := by
  rw [DecEntry.valBytes, vlen_eq_field]
  rfl

theorem syncPattern_eq (r : Regs) :
    syncPattern r =
      (List.range r.syncLen.toNat).map fun j =>
        if j < 32 then r.syncPat0.getLsbD j else r.syncPat1.getLsbD (j - 32) :=
  List.map_congr_left fun _ _ => BitVec.getLsbD_append

/-- Settles O41, from the fields of one entry: the words of `ENC[c]` and `DEC[e]` are those of the windows. -/
theorem operandAssembly : Obligations.OperandAssembly :=
  ⟨fun s c _ => ⟨rfl, codeBits_eq (encEntry s c)⟩,
    fun s e _ => ⟨rfl, keyBits_eq (decEntry s e), valBytes_eq (decEntry s e)⟩,
    syncPattern_eq⟩

end Sys2Proof.Proofs.OperandBits
end

/-! PROOF. NOP and the illegal command word (40_control.md R148, R149): the write of CMD that issues a command, and the step
that completes it. -/
section

namespace Sys2Proof.Proofs.Control

open Sys2Proof.Machine Sys2Proof.Safety Sys2Proof.Proofs.BusAccess Sys2Proof.Proofs.CommandWords

/-! ## The issue of a command (R140) -/

theorem busWrite_cmd_idle {s : State} (idle : s.seq = .idle) (w : Word) :
    busWrite s 0x0000000C#32 w 0b1111#4 = (s.issue w, okay 0) :=
  busWrite_register_idle idle .cmd w

theorem irq_issue (s : State) (w : Word) : (s.issue w).irq = false := rfl

/-- The issue leaves every memory and the bus port alone, so a completion's frame can be counted from the state before it. -/
theorem after_of_after_issue {s t : State} {w : Word} {regs : Regs} {bytes : List (Window × List Byte)}
    {sym bits : List Bool} (h : After (s.issue w) t regs bytes sym bits) : After s t regs bytes sym bits where
  seq := h.seq
  regs := h.regs
  byteAt := h.byteAt
  symAt := h.symAt
  bitsAt := h.bitsAt
  inbox := h.inbox
  responses := h.responses
  served := h.served
  params := h.params

/-! ## Completions -/

theorem after_completeOk (s : State) (f : StatusFlags) : After s (s.completeOk f) (okRegs s.regs f) [] [] [] where
  seq := rfl
  regs := rfl
  byteAt _ := rfl
  symAt _ := rfl
  bitsAt _ := rfl
  inbox := rfl
  responses := rfl
  served := rfl
  params := rfl

theorem readReg_status_of_idle {t : State} (idle : t.seq = .idle) : t.readReg .status = t.regs.status.toWord := by
  change t.statusWord = _
  simp [State.statusWord, busy_of_idle idle]

/-! ## NOP (R148) -/

theorem exec_nop (s : State) : exec .nop s = .next (s.completeOk noFlags) := rfl

theorem step_issue_of_command {s : State} (i : Instr) (alone : s.inbox = []) :
    step (s.issue (encode i)) = exec i (s.issue (encode i)) := by
  have busy : (s.issue (encode i)).seq = .busy := rfl
  have decoded : decodeWord (s.issue (encode i)).regs.cmd = .ok i := (decodeWord_eq_ok_iff _ i).mpr rfl
  rw [step_of_busy busy alone, runCommand, decoded]

/-- Settles O21: the completion with no flag, from the state the write of CMD leaves. -/
theorem nopCompletes : Obligations.NopCompletes := by
  refine ⟨fun s => ⟨_, exec_nop s, after_completeOk s noFlags⟩, fun s idle alone => ?_⟩
  rw [busWrite_cmd_idle idle]
  have completed := after_completeOk (s.issue (encode .nop)) noFlags
  have run := (step_issue_of_command .nop alone).trans (exec_nop (s.issue (encode .nop)))
  refine ⟨irq_issue s _, _, run, after_of_after_issue completed, ?_⟩
  rw [readReg_status_of_idle completed.seq, completed.regs]
  rfl

/-! ## An illegal command word (R149) -/

theorem ne_encode_of_high_bits {w : Word} (high : w.toNat / 256 ≠ 0) (i : Instr) : w ≠ encode i := by
  intro word
  obtain ⟨rsvd, -⟩ := (eq_encode_iff w i).mp word
  exact high rsvd

/-- Settles O6: the error completion with ILLEGAL, from the state the write of CMD leaves; a command word has RSVD = 0. -/
theorem illegalCommandCompletes : Obligations.IllegalCommandCompletes := by
  refine ⟨fun s w idle alone illegal => ?_, fun w high => ne_encode_of_high_bits high⟩
  rw [busWrite_cmd_idle idle]
  have completed := after_completeErr (s.issue w) .illegal w
  refine ⟨rfl, _, step_issue_of_illegal alone illegal, after_of_after_issue completed, ?_, rfl, rfl⟩
  rw [readReg_status_of_idle completed.seq, completed.regs]
  rfl

end Sys2Proof.Proofs.Control
end

/-! PROOF. The carrier samples (41_modulator.md R163, R164): the comparison of a cosine with a rational number, the rounding
of A times a sine that rests on it, and the sample as the rounding of the exact real value. -/
section

namespace Sys2Proof.Proofs.CarrierSamples

open Sys2Proof.Machine Sys2Proof.Safety Sys2Proof.Proofs.Scope

/-! ## The angles pi*r/q -/

/-- The angle that the comparisons hold as two naturals: the part r/q of half a turn. -/
noncomputable abbrev angle (r q : Nat) : ℝ := Real.pi * r / q

theorem angle_lt_angle_iff {r m q : Nat} (pos : 0 < q) : angle r q < angle m q ↔ r < m := by
  have posR : (0 : ℝ) < q := by exact_mod_cast pos
  rw [div_lt_div_iff_of_pos_right posR, mul_lt_mul_iff_right₀ Real.pi_pos, Nat.cast_lt]

@[simp] theorem angle_zero (q : Nat) : angle 0 q = 0 := by simp [angle]

theorem angle_nonneg (r q : Nat) : 0 ≤ angle r q := by positivity

theorem angle_le_pi {r q : Nat} (le : r ≤ q) : angle r q ≤ Real.pi := by
  have leR : (r : ℝ) ≤ q := by exact_mod_cast le
  exact div_le_of_le_mul₀ (Nat.cast_nonneg q) Real.pi_pos.le (mul_le_mul_of_nonneg_left leR Real.pi_pos.le)

theorem angle_double (r q : Nat) : angle (2 * r) q = 2 * angle r q := by
  simp only [angle, Nat.cast_mul, Nat.cast_ofNat]
  ring

/-- The double of an angle beyond pi/2 is folded back into [0, pi]. -/
theorem angle_folded {r q : Nat} (lt : r < q) : angle (2 * q - 2 * r) q = 2 * Real.pi - 2 * angle r q := by
  have : (q : ℝ) ≠ 0 := by exact_mod_cast (by omega : q ≠ 0)
  simp only [angle, Nat.cast_sub (show 2 * r ≤ 2 * q by omega), Nat.cast_mul, Nat.cast_ofNat]
  field_simp

theorem angle_half {r q : Nat} (pos : 0 < r) (h : 2 * r = q) : angle r q = Real.pi / 2 := by
  have : (r : ℝ) ≠ 0 := by exact_mod_cast pos.ne'
  simp only [angle, ← h, Nat.cast_mul, Nat.cast_ofNat]
  field_simp

theorem angle_lt_half {r q : Nat} (h : 2 * r < q) : angle r q < Real.pi / 2 := by
  have := (angle_lt_angle_iff (q := q) (by omega)).mpr h
  rw [angle_double] at this
  linarith [angle_le_pi (le_refl q)]

theorem half_lt_angle {r q : Nat} (lt : r < q) (h : q < 2 * r) : Real.pi / 2 < angle r q := by
  have := (angle_lt_angle_iff (q := q) (by omega)).mpr (show 2 * q - 2 * r < q by omega)
  rw [angle_folded lt] at this
  linarith [angle_le_pi (le_refl q)]

theorem cos_angle_double (r q : Nat) : Real.cos (angle (2 * r) q) = 2 * Real.cos (angle r q) ^ 2 - 1 := by
  rw [angle_double, Real.cos_two_mul]

theorem cos_angle_folded {r q : Nat} (lt : r < q) :
    Real.cos (angle (2 * q - 2 * r) q) = 2 * Real.cos (angle r q) ^ 2 - 1 := by
  rw [angle_folded lt, Real.cos_two_pi_sub, Real.cos_two_mul]

theorem cos_angle_pos {r q : Nat} (h : 2 * r < q) : 0 < Real.cos (angle r q) :=
  Real.cos_pos_of_mem_Ioo ⟨by linarith [Real.pi_pos, angle_nonneg r q], angle_lt_half h⟩

theorem cos_angle_neg {r q : Nat} (lt : r < q) (h : q < 2 * r) : Real.cos (angle r q) < 0 :=
  Real.cos_neg_of_pi_div_two_lt_of_lt (half_lt_angle lt h) (by linarith [Real.pi_pos, angle_le_pi lt.le])

theorem cos_angle_half {r q : Nat} (pos : 0 < r) (h : 2 * r = q) : Real.cos (angle r q) = 0 := by
  rw [angle_half pos h, Real.cos_pi_div_two]

/-! ## The enclosed comparison -/

/-- Two numbers on the right of 0 keep their order when both are doubled as cosines. -/
theorem doubled_lt_doubled_iff {x u : ℝ} (hx : 0 < x) (hu : 0 < u) : 2 * x ^ 2 - 1 < 2 * u ^ 2 - 1 ↔ x < u := by
  rw [sub_lt_sub_iff_right, mul_lt_mul_iff_right₀ two_pos, sq_lt_sq₀ hx.le hu.le]

/-- Two numbers on the left of 0 change their order. -/
theorem doubled_lt_doubled_iff_of_neg {x u : ℝ} (hx : x < 0) (hu : u < 0) : 2 * x ^ 2 - 1 < 2 * u ^ 2 - 1 ↔ u < x := by
  rw [← neg_sq x, ← neg_sq u, doubled_lt_doubled_iff (neg_pos.mpr hx) (neg_pos.mpr hu), neg_lt_neg_iff]

theorem cast_enclosureOne : (enclosureOne : ℝ) = 2 ^ 128 := by norm_num [enclosureOne]

theorem doubledBelow_le {v : Int} {u : ℝ} (h : (v : ℝ) ^ 2 ≤ (u * 2 ^ 128) ^ 2) :
    (doubledBelow v : ℝ) ≤ (2 * u ^ 2 - 1) * 2 ^ 128 := by
  have floor : 2 * (v * v) / enclosureOne * enclosureOne ≤ 2 * (v * v) := Int.ediv_mul_le _ (by decide)
  have floorR : ((2 * (v * v) / enclosureOne : Int) : ℝ) * 2 ^ 128 ≤ 2 * (v * v) := by
    rw [← cast_enclosureOne]
    exact_mod_cast floor
  rw [doubledBelow, Int.cast_sub, cast_enclosureOne]
  nlinarith

theorem le_doubledAbove {v : Int} {u : ℝ} (h : (u * 2 ^ 128) ^ 2 ≤ (v : ℝ) ^ 2) :
    (2 * u ^ 2 - 1) * 2 ^ 128 ≤ doubledAbove v := by
  have floor : 2 * (v * v) < (2 * (v * v) / enclosureOne + 1) * enclosureOne := Int.lt_ediv_add_one_mul_self _ (by decide)
  have floorR : 2 * (v * v : ℝ) < (((2 * (v * v) / enclosureOne : Int) : ℝ) + 1) * 2 ^ 128 := by
    rw [← cast_enclosureOne]
    exact_mod_cast floor
  rw [doubledAbove, Int.cast_sub, Int.cast_add, Int.cast_one, cast_enclosureOne]
  nlinarith

/-- Two different numbers on the same side of 0 are doubled to different numbers. -/
theorem doubled_ne {x u : ℝ} (same : 0 < x * u) (ne : x ≠ u) : 2 * x ^ 2 - 1 ≠ 2 * u ^ 2 - 1 := by
  intro eq
  rcases sq_eq_sq_iff_eq_or_eq_neg.mp (show x ^ 2 = u ^ 2 by linarith) with h | h
  · exact ne h
  · rw [h] at same
    nlinarith [sq_nonneg u]

/-- An answer of the enclosed comparison is the truth about every real number in the enclosure. -/
theorem cosBelowEnclosed_sound {fuel r q : Nat} {lo hi : Int} {u : ℝ} {b : Bool} (pos : 0 < r) (lt : r < q)
    (above : lo ≤ u * 2 ^ 128) (below : u * 2 ^ 128 ≤ hi) (ne : Real.cos (angle r q) ≠ u)
    (answer : cosBelowEnclosed fuel r q lo hi = some b) : b = true ↔ Real.cos (angle r q) < u := by
  induction fuel generalizing r lo hi u b with
  | zero => cases answer
  | succ fuel ih =>
    have nonneg_of_lo (h : 0 ≤ lo) : 0 ≤ u := by
      have : (0 : ℝ) ≤ lo := by exact_mod_cast h
      linarith
    have nonpos_of_hi (h : hi ≤ 0) : u ≤ 0 := by
      have : (hi : ℝ) ≤ 0 := by exact_mod_cast h
      linarith
    rw [cosBelowEnclosed] at answer
    split_ifs at answer with acute hiNonpos loNonpos obtuse loNonneg hiNonneg loPos hiNonpos
    · cases answer
      have cosPos := cos_angle_pos acute
      simpa using (nonpos_of_hi hiNonpos).trans cosPos.le
    · have cosPos := cos_angle_pos acute
      have loPos : (0 : ℝ) < lo := by exact_mod_cast not_le.mp loNonpos
      have uPos : 0 < u := by linarith
      have doubled := ih (u := 2 * u ^ 2 - 1) (by omega) acute (doubledBelow_le (by gcongr)) (le_doubledAbove (by gcongr))
        (by rw [cos_angle_double]; exact doubled_ne (mul_pos cosPos uPos) ne) answer
      rw [doubled, cos_angle_double, doubled_lt_doubled_iff cosPos uPos]
    · cases answer
      simpa using (cos_angle_neg lt obtuse).trans_le (nonneg_of_lo loNonneg)
    · have cosNeg := cos_angle_neg lt obtuse
      have hiNeg : (hi : ℝ) < 0 := by exact_mod_cast not_le.mp hiNonneg
      have uNeg : u < 0 := by linarith
      obtain ⟨c, inner, rfl⟩ := Option.map_eq_some_iff.mp answer
      have folded := ih (u := 2 * u ^ 2 - 1) (by omega) (by omega) (doubledBelow_le (by nlinarith))
        (le_doubledAbove (by nlinarith))
        (by rw [cos_angle_folded lt]; exact doubled_ne (mul_pos_of_neg_of_neg cosNeg uNeg) ne) inner
      rw [cos_angle_folded lt, doubled_lt_doubled_iff_of_neg cosNeg uNeg] at folded
      rw [Bool.not_eq_true', ← Bool.not_eq_true, folded, not_lt, ne.le_iff_lt]
    · cases answer
      have uPos : 0 < u := by
        have : (0 : ℝ) < lo := by exact_mod_cast loPos
        linarith
      rw [cos_angle_half pos (show 2 * r = q by omega)]
      simpa using uPos
    · cases answer
      rw [cos_angle_half pos (show 2 * r = q by omega)]
      simpa using nonpos_of_hi hiNonpos

/-! ## The exact comparison -/

theorem doubledNum_div {n d : Int} {x : ℝ} (pos : 0 < d) (h : Real.cos x = n / d) :
    Real.cos (2 * x) = (doubledNum n d : Int) / (d * d : Int) := by
  have : (d : ℝ) ≠ 0 := by exact_mod_cast pos.ne'
  rw [Real.cos_two_mul, h, doubledNum]
  push_cast
  field_simp

theorem half_mem : Real.pi / 2 ∈ Set.Icc 0 Real.pi := ⟨by positivity, by linarith [Real.pi_pos]⟩

/-- Where the angle `x` of the rational cosine n/d stands to pi/2. -/
theorem num_pos_iff {n d : Int} {x : ℝ} (pos : 0 < d) (mem : x ∈ Set.Icc 0 Real.pi) (h : Real.cos x = n / d) :
    0 < n ↔ x < Real.pi / 2 := by
  have posR : (0 : ℝ) < d := by exact_mod_cast pos
  rw [← Real.strictAntiOn_cos.lt_iff_gt half_mem mem, Real.cos_pi_div_two, h, lt_div_iff₀ posR, zero_mul, Int.cast_pos]

theorem num_nonneg_iff {n d : Int} {x : ℝ} (pos : 0 < d) (mem : x ∈ Set.Icc 0 Real.pi) (h : Real.cos x = n / d) :
    0 ≤ n ↔ x ≤ Real.pi / 2 := by
  have posR : (0 : ℝ) < d := by exact_mod_cast pos
  rw [← Real.strictAntiOn_cos.le_iff_ge half_mem mem, Real.cos_pi_div_two, h, le_div_iff₀ posR, zero_mul,
    Int.cast_nonneg_iff]

/-- The exact comparison of two angles that so many doublings drive further apart than pi. Each doubling of two angles on the
same side of pi/2 doubles their distance, and both stay in [0, pi]. -/
theorem cosBelowExact_iff {fuel r q : Nat} {n d : Int} {x : ℝ} (pos : 0 < r) (lt : r < q) (dPos : 0 < d)
    (mem : x ∈ Set.Icc 0 Real.pi) (cosine : Real.cos x = n / d) (far : Real.pi < 2 ^ fuel * |angle r q - x|) :
    cosBelowExact fuel r q n d = true ↔ x < angle r q := by
  induction fuel generalizing r n d x with
  | zero =>
    have near : |angle r q - x| ≤ Real.pi := abs_sub_le_of_nonneg_of_le (angle_nonneg r q) (angle_le_pi lt.le) mem.1 mem.2
    linarith
  | succ fuel ih =>
    have numPos := num_pos_iff dPos mem cosine
    have numNonneg := num_nonneg_iff dPos mem cosine
    have doubled := doubledNum_div dPos cosine
    obtain ⟨xNonneg, xLe⟩ := mem
    have ne : x ≠ angle r q := by
      rintro rfl
      rw [sub_self, abs_zero, mul_zero] at far
      linarith [Real.pi_pos]
    rw [pow_succ, mul_assoc] at far
    rw [cosBelowExact]
    split_ifs with acute nNonpos obtuse nNonneg
    · have := angle_lt_half acute
      have := numPos.not.mp (not_lt.mpr nNonpos)
      simp only [false_iff, not_lt]
      linarith
    · have xAcute := numPos.mp (not_le.mp nNonpos)
      have apart : 2 * |angle r q - x| = |angle (2 * r) q - 2 * x| := by
        rw [angle_double, ← mul_sub, abs_mul, abs_two]
      rw [apart] at far
      rw [ih (by omega) acute (mul_pos dPos dPos) ⟨by linarith, by linarith⟩ doubled far, angle_double]
      exact mul_lt_mul_iff_right₀ two_pos
    · simpa using (numNonneg.mp nNonneg).trans_lt (half_lt_angle lt obtuse)
    · have xObtuse := numNonneg.not.mp nNonneg
      have apart : 2 * |angle r q - x| = |angle (2 * q - 2 * r) q - (2 * Real.pi - 2 * x)| := by
        rw [angle_folded lt, sub_sub_sub_cancel_left, ← mul_sub, abs_mul, abs_two, abs_sub_comm]
      rw [apart] at far
      have folded := ih (by omega) (by omega) (mul_pos dPos dPos) ⟨by linarith, by linarith⟩
        (by rw [Real.cos_two_pi_sub]; exact doubled) far
      rw [angle_folded lt, sub_lt_sub_iff_left, mul_lt_mul_iff_right₀ two_pos] at folded
      rw [Bool.not_eq_true', ← Bool.not_eq_true, folded, not_lt, ne.le_iff_lt]
    · rw [decide_eq_true_iff, numPos, angle_half pos (by omega)]

/-! ## How far apart two different angles are -/

open Polynomial in
/-- A rational value of the Chebyshev polynomial T_q at n/d that differs from an integer differs by at least d^(-q). -/
theorem one_le_pow_mul_abs_cos_sub {q : Nat} {n d : Int} {x : ℝ} (dPos : 0 < d) (cosine : Real.cos x = n / d) (k : Int)
    (ne : Real.cos (q * x) ≠ k) : 1 ≤ (d : ℝ) ^ q * |Real.cos (q * x) - k| := by
  have value : eval ((n : ℝ) / d) ((Chebyshev.T ℤ q - C k).map (algebraMap ℤ ℝ)) = Real.cos (q * x) - k := by
    rw [Polynomial.map_sub, Chebyshev.map_T, map_C, eval_sub, eval_C, ← cosine, Chebyshev.T_real_cos]
    simp
  have degree : (Chebyshev.T ℤ q - C k).natDegree = q := by
    rw [natDegree_sub_C, Chebyshev.natDegree_T, Int.natAbs_natCast]
  have bound := one_le_pow_mul_abs_eval_div dPos (value.trans_ne (sub_ne_zero.mpr ne))
  rwa [value, degree] at bound

theorem mul_angle {r q : Nat} (pos : 0 < q) : q * angle r q = r * Real.pi := by
  have qR : (q : ℝ) ≠ 0 := by exact_mod_cast pos.ne'
  simp only [angle]
  field_simp

theorem abs_mul_angle_sub (r q : Nat) (x : ℝ) : |q * angle r q - q * x| = q * |angle r q - x| := by
  rw [← mul_sub, abs_mul, Nat.abs_cast]

/-- Two different multiples of pi/q are at least pi/q apart. -/
theorem multiples_apart {r q : Nat} {k : Int} {x : ℝ} (pos : 0 < q) (multiple : k * Real.pi = q * x) (ne : x ≠ angle r q) :
    1 ≤ q * |angle r q - x| := by
  have qR : (q : ℝ) ≠ 0 := by exact_mod_cast pos.ne'
  have gap : q * |angle r q - x| = |(r - k : Int)| * Real.pi := by
    rw [← abs_mul_angle_sub, mul_angle pos, ← multiple, ← sub_mul, abs_mul, abs_of_pos Real.pi_pos]
    push_cast
    rfl
  have different : (r - k : Int) ≠ 0 := by
    intro zero
    have : |angle r q - x| = 0 := by simpa [zero, qR] using gap
    exact ne (sub_eq_zero.mp (abs_eq_zero.mp this)).symm
  have one : (1 : ℝ) ≤ |(r - k : Int)| := by exact_mod_cast Int.one_le_abs different
  nlinarith [Real.two_le_pi]

/-- An angle of rational cosine n/d that is not pi*r/q keeps a distance from it: T_q takes a value at n/d that is not (-1)^r,
and T_q of a cosine changes by at most q times the angle; or it takes that value, and both angles are multiples of pi/q. -/
theorem angles_apart {r q : Nat} {n d : Int} {x : ℝ} (pos : 0 < q) (dPos : 0 < d) (cosine : Real.cos x = n / d)
    (ne : x ≠ angle r q) : 1 ≤ q * (d : ℝ) ^ q * |angle r q - x| := by
  have sign : Real.cos (q * angle r q) = ((-1) ^ r : Int) := by
    rw [mul_angle pos, Real.cos_nat_mul_pi]
    push_cast
    rfl
  by_cases same : Real.cos (q * x) = ((-1) ^ r : Int)
  · obtain ⟨k, multiple⟩ := Real.abs_cos_eq_one_iff.mp (show |Real.cos (q * x)| = 1 by simp [same])
    have dOne : (1 : ℝ) ≤ d := by exact_mod_cast dPos
    calc (1 : ℝ) ≤ (d : ℝ) ^ q * (q * |angle r q - x|) :=
          one_le_mul_of_one_le_of_one_le (one_le_pow₀ dOne) (multiples_apart pos multiple ne)
      _ = q * (d : ℝ) ^ q * |angle r q - x| := by ring
  · have dPosR : (0 : ℝ) < d := by exact_mod_cast dPos
    have lipschitz : |Real.cos (q * x) - ((-1) ^ r : Int)| ≤ q * |angle r q - x| := by
      rw [← sign, abs_sub_comm, ← abs_mul_angle_sub]
      exact Real.abs_cos_sub_cos_le _ _
    calc (1 : ℝ) ≤ (d : ℝ) ^ q * |Real.cos (q * x) - ((-1) ^ r : Int)| := one_le_pow_mul_abs_cos_sub dPos cosine _ same
      _ ≤ (d : ℝ) ^ q * (q * |angle r q - x|) := by gcongr
      _ = q * (d : ℝ) ^ q * |angle r q - x| := by ring

/-- The doublings that the exact comparison may take drive such angles further apart than pi, for the sizes of R163. -/
theorem exactFuel_suffices {r q : Nat} {n d : Int} {x : ℝ} (lt : r < q) (qLe : q ≤ 2 ^ 36) (dPos : 0 < d)
    (dLe : d ≤ 2 ^ 15) (cosine : Real.cos x = n / d) (ne : x ≠ angle r q) : Real.pi < 2 ^ exactFuel * |angle r q - x| := by
  have apart := angles_apart (by omega) dPos cosine ne
  have gap : 0 < |angle r q - x| := abs_pos.mpr (sub_ne_zero.mpr ne.symm)
  have qLeR : (q : ℝ) ≤ 2 ^ 36 := by exact_mod_cast qLe
  have dLeR : (d : ℝ) ≤ 2 ^ 15 := by exact_mod_cast dLe
  have dPosR : (0 : ℝ) < d := by exact_mod_cast dPos
  have enough : 2 + (36 + 15 * q) ≤ exactFuel := by
    simp only [exactFuel]
    omega
  have size : q * (d : ℝ) ^ q ≤ 2 ^ (36 + 15 * q) :=
    calc q * (d : ℝ) ^ q ≤ 2 ^ 36 * (2 ^ 15) ^ q := by gcongr
      _ = 2 ^ (36 + 15 * q) := by rw [pow_add, pow_mul]
  calc Real.pi < 2 ^ 2 * 1 := by linarith [Real.pi_lt_four]
    _ ≤ 2 ^ 2 * (q * (d : ℝ) ^ q * |angle r q - x|) := by gcongr
    _ ≤ 2 ^ 2 * (2 ^ (36 + 15 * q) * |angle r q - x|) := by gcongr
    _ = 2 ^ (2 + (36 + 15 * q)) * |angle r q - x| := by rw [pow_add _ 2, mul_assoc]
    _ ≤ 2 ^ exactFuel * |angle r q - x| := by gcongr; norm_num

/-! ## The comparison with a rational number -/

theorem cosBelow_iff {r q : Nat} {n d : Int} (pos : 0 < r) (lt : r < q) (qLe : q ≤ 2 ^ 36) (dPos : 0 < d) (dLe : d ≤ 2 ^ 15)
    (lower : -1 ≤ (n : ℝ) / d) (upper : (n : ℝ) / d ≤ 1) (ne : Real.cos (angle r q) ≠ n / d) :
    cosBelow r q n d = true ↔ Real.cos (angle r q) < n / d := by
  have posR : (0 : ℝ) < d := by exact_mod_cast dPos
  have scaled : (n : ℝ) / d * 2 ^ 128 = (n * enclosureOne : Int) / d := by
    rw [← cast_enclosureOne]
    push_cast
    ring
  unfold cosBelow
  split
  · next b answer =>
    refine cosBelowEnclosed_sound pos lt ?_ ?_ ne answer
    · rw [scaled, le_div_iff₀ posR]
      exact_mod_cast Int.ediv_mul_le _ dPos.ne'
    · rw [scaled, div_le_iff₀ posR]
      exact_mod_cast (Int.lt_ediv_add_one_mul_self _ dPos).le
  · have cosine := Real.cos_arccos lower upper
    have mem : Real.arccos (n / d) ∈ Set.Icc 0 Real.pi := ⟨Real.arccos_nonneg _, Real.arccos_le_pi _⟩
    have apart : Real.arccos (n / d) ≠ angle r q := fun same => ne (by rw [← same, cosine])
    rw [cosBelowExact_iff pos lt dPos mem cosine (exactFuel_suffices lt qLe dPos dLe cosine apart),
      ← Real.strictAntiOn_cos.lt_iff_gt ⟨angle_nonneg r q, angle_le_pi lt.le⟩ mem, cosine]

/-! ## A sine of the first quarter, rounded -/

theorem cos_angle_eq_sin_half (r q : Nat) : Real.cos (angle r q) = 1 - 2 * Real.sin (angle r q / 2) ^ 2 := by
  have double : angle r q = 2 * (angle r q / 2) := by ring
  rw [double, Real.cos_two_mul, Real.cos_sq', mul_div_cancel_left₀ _ two_ne_zero]
  ring

theorem sin_half_angle_pos {r q : Nat} (pos : 0 < r) (lt : r < q) : 0 < Real.sin (angle r q / 2) := by
  have := (angle_lt_angle_iff (r := 0) (pos.trans lt)).mpr pos
  refine Real.sin_pos_of_pos_of_lt_pi (by linarith [angle_nonneg 0 q]) ?_
  linarith [angle_le_pi lt.le, Real.pi_pos]

/-- The rational number that `sineAbove` compares with, for the half-integer m - 1/2. -/
theorem sineAbove_ratio {A m : Nat} (pos : 0 < A) (one : 1 ≤ m) :
    (((2 * (A * A : Nat) - ((2 * m - 1) * (2 * m - 1) : Nat) : Int) : ℝ) / (2 * (A * A : Nat) : Int)) =
      1 - 2 * ((m - 1 / 2) / A) ^ 2 := by
  have posR : (0 : ℝ) < A := by exact_mod_cast pos
  have odd : ((2 * m - 1 : Nat) : ℝ) = 2 * (m - 1 / 2) := by
    rw [Nat.cast_sub (by omega)]
    push_cast
    ring
  simp only [Int.cast_sub, Int.cast_mul, Int.cast_natCast, Nat.cast_mul, odd, Int.cast_ofNat]
  field_simp

/-- The sine of r/q of a quarter turn, against (m - 1/2)/A: the cosine of twice the angle, against 1 - 2*((m - 1/2)/A)^2. -/
theorem sineAbove_iff {A r q m : Nat} (pos : 0 < r) (lt : r < q) (qLe : q ≤ 2 ^ 36) (one : 1 ≤ m) (le : m ≤ A)
    (small : A ≤ 127) (ne : A * Real.sin (angle r q / 2) ≠ m - 1 / 2) :
    sineAbove A r q m = true ↔ (m : ℝ) - 1 / 2 < A * Real.sin (angle r q / 2) := by
  have APos : (0 : ℝ) < A := by exact_mod_cast (by omega : 0 < A)
  have leR : (m : ℝ) ≤ A := by exact_mod_cast le
  have oneR : (1 : ℝ) ≤ m := by exact_mod_cast one
  have ratio := sineAbove_ratio (show 0 < A by omega) one
  have sinPos := sin_half_angle_pos pos lt
  have vPos : 0 < ((m : ℝ) - 1 / 2) / A := div_pos (by linarith) APos
  have vLe : ((m : ℝ) - 1 / 2) / A ≤ 1 := (div_le_one APos).mpr (by linarith)
  have vNe : Real.sin (angle r q / 2) ≠ ((m : ℝ) - 1 / 2) / A := by
    rwa [Ne, eq_div_iff APos.ne', mul_comm]
  rw [mul_comm, ← div_lt_iff₀ APos, sineAbove, cosBelow_iff pos lt qLe, ratio, cos_angle_eq_sin_half,
    sub_lt_sub_iff_left, mul_lt_mul_iff_right₀ two_pos, sq_lt_sq₀ vPos.le sinPos.le]
  · have : 0 < A * A := Nat.mul_pos (by omega) (by omega)
    omega
  · have : A * A ≤ 127 * 127 := Nat.mul_le_mul small small
    omega
  · rw [ratio]
    nlinarith
  · rw [ratio]
    nlinarith
  · rw [ratio, cos_angle_eq_sin_half]
    intro same
    have := (pow_left_inj₀ sinPos.le vPos.le two_ne_zero).mp (by linarith)
    exact vNe this

/-- R164, by Niven's theorem: A times a sine of the first quarter is no half-integer, but at a third of the quarter. -/
theorem mul_sin_ne_half_integer {A r q m : Nat} (pos : 0 < r) (lt : r < q) (APos : 0 < A) (noTie : 3 * r ≠ q) :
    A * Real.sin (angle r q / 2) ≠ m - 1 / 2 := by
  intro half
  have AR : (A : ℝ) ≠ 0 := by exact_mod_cast APos.ne'
  have value : Real.sin (angle r q / 2) = (m - 1 / 2) / A := by
    rw [eq_div_iff AR, mul_comm, half]
  have sinPos := sin_half_angle_pos pos lt
  have below : angle r q / 2 < Real.pi / 2 := by
    have := (angle_lt_angle_iff (pos.trans lt)).mpr lt
    linarith [angle_le_pi (le_refl q)]
  have nonneg := angle_nonneg r q
  have rational : ∃ ρ : ℚ, angle r q / 2 = ρ * Real.pi := ⟨r / (2 * q), by push_cast; ring⟩
  have niven := niven_sin rational ⟨(m - 1 / 2) / A, by rw [value]; push_cast; rfl⟩
  simp only [Set.mem_insert_iff, Set.mem_singleton_iff] at niven
  rcases niven with negOne | negHalf | zero | half | one
  · linarith
  · linarith
  · linarith
  · have third : angle r q / 2 = Real.pi / 6 :=
      Real.injOn_sin ⟨by linarith, below.le⟩ ⟨by linarith [Real.pi_pos], by linarith [Real.pi_pos]⟩
        (by rw [half, Real.sin_pi_div_six])
    have qR : (q : ℝ) ≠ 0 := by exact_mod_cast (pos.trans lt).ne'
    refine noTie ?_
    have : (3 * r : ℝ) = q := by
      simp only [angle] at third
      field_simp at third
      linarith
    exact_mod_cast this
  · have := Real.sin_lt_sin_of_lt_of_le_pi_div_two (by linarith) le_rfl below
    rw [Real.sin_pi_div_two] at this
    linarith

/-- Each of the values may be one more than all after it together, so that a greedy choice reaches every sum. -/
def Covers : List Nat → Prop
  | [] => True
  | b :: bs => 1 ≤ b ∧ b ≤ bs.sum + 1 ∧ Covers bs

/-- The search keeps `x` within half a unit of the interval it has left. -/
theorem roundUpTo_spec {A r q : Nat} {x : ℝ} (le : x ≤ A)
    (above : ∀ m, 1 ≤ m → m ≤ A → (sineAbove A r q m = true ↔ (m : ℝ) - 1 / 2 < x) ∧ x ≠ m - 1 / 2)
    (bs : List Nat) (covers : Covers bs) (m : Nat) (lower : (m : ℝ) - 1 / 2 < x) (upper : x < m + bs.sum + 1 / 2) :
    |x - roundUpTo A r q bs m| < 1 / 2 := by
  induction bs generalizing m with
  | nil =>
    rw [roundUpTo, abs_lt]
    rw [List.sum_nil, Nat.cast_zero, add_zero] at upper
    constructor <;> linarith
  | cons b bs ih =>
    obtain ⟨one, room, covers⟩ := covers
    have roomR : (b : ℝ) ≤ bs.sum + 1 := by exact_mod_cast room
    have sum : ((b :: bs).sum : ℝ) = b + bs.sum := by simp
    rw [roundUpTo]
    split_ifs with taken
    · simp only [Bool.and_eq_true, decide_eq_true_eq] at taken
      obtain ⟨fits, isAbove⟩ := taken
      refine ih covers (m + b) (((above (m + b) (by omega) fits).1).mp isAbove) ?_
      rw [Nat.cast_add]
      linarith
    · refine ih covers m lower ?_
      by_cases fits : m + b ≤ A
      · obtain ⟨iff, ne⟩ := above (m + b) (by omega) fits
        have notAbove : ¬ sineAbove A r q (m + b) = true := by simpa [fits] using taken
        have := lt_of_le_of_ne (not_lt.mp (iff.not.mp notAbove)) ne
        rw [Nat.cast_add] at this
        linarith
      · have : (A : ℝ) + 1 ≤ m + b := by exact_mod_cast (by omega : A + 1 ≤ m + b)
        linarith

/-! ## A sine of any angle, rounded -/

theorem roundsTo_int (n : Int) : RoundsTo n n := by
  simp [RoundsTo]

theorem roundsTo_of_abs_lt {x : ℝ} {n : Int} (near : |x - n| < 1 / 2) : RoundsTo x n :=
  ⟨near.le, fun tie => absurd tie near.ne⟩

theorem roundsTo_neg {x : ℝ} {n : Int} (h : RoundsTo x n) : RoundsTo (-x) (-n) := by
  have same : |-x - (-n : Int)| = |x - n| := by
    rw [← abs_neg]
    push_cast
    ring_nf
  exact ⟨same.trans_le h.1, fun tie => (h.2 (same.symm.trans tie)).neg⟩

/-- Rounding a number between -A and A stays between -A and A. -/
theorem abs_le_of_roundsTo {x : ℝ} {n : Int} {A : Nat} (h : RoundsTo x n) (le : |x| ≤ A) : |n| ≤ A := by
  have near := abs_le.mp h.1
  have bound := abs_le.mp le
  have upper : (n : ℝ) < (A + 1 : Int) := by push_cast; linarith
  have lower : ((-(A + 1) : Int) : ℝ) < n := by push_cast; linarith
  have := Int.cast_lt.mp upper
  have := Int.cast_lt.mp lower
  rw [abs_le]
  omega

theorem sineFirstQuarter_roundsTo {A r q : Nat} (pos : 0 < r) (lt : r < q) (qLe : q ≤ 2 ^ 36) (small : A ≤ 127) :
    RoundsTo (A * Real.sin (angle r q / 2)) (sineFirstQuarter A r q) := by
  unfold sineFirstQuarter
  split_ifs with tie
  · have rR : (r : ℝ) ≠ 0 := by exact_mod_cast pos.ne'
    have sixth : angle r q / 2 = Real.pi / 6 := by
      simp only [angle, ← tie, Nat.cast_mul, Nat.cast_ofNat]
      field_simp
      norm_num
    rw [sixth, Real.sin_pi_div_six, mul_one_div]
    exact roundsTo_rne A two_pos
  · have sinPos := sin_half_angle_pos pos lt
    have le : A * Real.sin (angle r q / 2) ≤ A := mul_le_of_le_one_right (Nat.cast_nonneg A) (Real.sin_le_one _)
    have nonneg : 0 ≤ A * Real.sin (angle r q / 2) := by positivity
    have smallR : (A : ℝ) ≤ 127 := by exact_mod_cast small
    refine roundsTo_of_abs_lt ?_
    rw [Int.cast_natCast]
    refine roundUpTo_spec le (fun m one fits => ?_) _ (by simp [Covers]) 0 ?_ ?_
    · have ne := mul_sin_ne_half_integer (A := A) (m := m) pos lt (by omega) tie
      exact ⟨sineAbove_iff pos lt qLe one fits small ne, ne⟩
    · push_cast
      linarith
    · norm_num
      linarith

/-- The angle of p/q of a turn: 4*p/q whole quarters, and the part of the next quarter. -/
theorem sin_turn (p : Nat) {q : Nat} (pos : 0 < q) :
    Real.sin (2 * Real.pi * p / q) = Real.sin (angle (4 * p % q) q / 2 + (4 * p / q % 4 : Nat) * (Real.pi / 2)) := by
  have qR : (q : ℝ) ≠ 0 := by exact_mod_cast pos.ne'
  have quarters : (4 * p : ℝ) = q * (4 * (4 * p / q / 4 : Nat) + (4 * p / q % 4 : Nat)) + (4 * p % q : Nat) := by
    exact_mod_cast (show 4 * p = q * (4 * (4 * p / q / 4) + 4 * p / q % 4) + 4 * p % q by
      rw [Nat.div_add_mod, Nat.div_add_mod])
  rw [← Real.sin_add_nat_mul_two_pi (angle (4 * p % q) q / 2 + _) (4 * p / q / 4)]
  congr 1
  have turn : 2 * Real.pi * p / q = Real.pi / 2 * (4 * p) / q := by ring
  rw [turn, quarters]
  simp only [angle]
  field_simp
  ring

theorem cos_half_angle {r q : Nat} (lt : r < q) : Real.cos (angle r q / 2) = Real.sin (angle (q - r) q / 2) := by
  have qR : (q : ℝ) ≠ 0 := by exact_mod_cast (by omega : q ≠ 0)
  rw [← Real.sin_pi_div_two_sub]
  simp only [angle, Nat.cast_sub lt.le]
  congr 1
  field_simp

theorem sineOfTurn_roundsTo (p : Nat) {A q : Nat} (pos : 0 < q) (qLe : q ≤ 2 ^ 36) (small : A ≤ 127) :
    RoundsTo (A * Real.sin (2 * Real.pi * p / q)) (sineOfTurn A p q) := by
  have lt := Nat.mod_lt (4 * p) pos
  have rising : RoundsTo (A * Real.sin (angle (4 * p % q) q / 2))
      (if 4 * p % q = 0 then 0 else sineFirstQuarter A (4 * p % q) q) := by
    split_ifs with zero
    · simpa [zero] using roundsTo_int 0
    · exact sineFirstQuarter_roundsTo (Nat.pos_of_ne_zero zero) lt qLe small
  have falling : RoundsTo (A * Real.cos (angle (4 * p % q) q / 2))
      (if 4 * p % q = 0 then (A : Int) else sineFirstQuarter A (q - 4 * p % q) q) := by
    split_ifs with zero
    · simpa [zero] using roundsTo_int A
    · rw [cos_half_angle lt]
      exact sineFirstQuarter_roundsTo (by omega) (by omega) qLe small
  rw [sin_turn p pos]
  unfold sineOfTurn
  dsimp only
  have quarters : 4 * p / q % 4 = 0 ∨ 4 * p / q % 4 = 1 ∨ 4 * p / q % 4 = 2 ∨ 4 * p / q % 4 = 3 := by omega
  rcases quarters with quarter | quarter | quarter | quarter <;> rw [quarter]
  · simpa using rising
  · simpa [Real.sin_add_pi_div_two] using falling
  · have turned : ((2 : Nat) : ℝ) * (Real.pi / 2) = Real.pi := by push_cast; ring
    rw [turned, Real.sin_add_pi, mul_neg]
    exact roundsTo_neg rising
  · have turned : ((3 : Nat) : ℝ) * (Real.pi / 2) = Real.pi / 2 + Real.pi := by push_cast; ring
    rw [turned, ← add_assoc, Real.sin_add_pi, Real.sin_add_pi_div_two, mul_neg]
    exact roundsTo_neg falling

theorem cosineOfTurn_roundsTo (p : Nat) {A q : Nat} (pos : 0 < q) (qLe : 4 * q ≤ 2 ^ 36) (small : A ≤ 127) :
    RoundsTo (A * Real.cos (2 * Real.pi * p / q)) (cosineOfTurn A p q) := by
  have qR : (q : ℝ) ≠ 0 := by exact_mod_cast pos.ne'
  have quarterOn : 2 * Real.pi * (4 * p + q : Nat) / (4 * q : Nat) = 2 * Real.pi * p / q + Real.pi / 2 := by
    push_cast
    field_simp
    ring
  have rounded := sineOfTurn_roundsTo (4 * p + q) (A := A) (show 0 < 4 * q by omega) qLe small
  rwa [quarterOn, Real.sin_add_pi_div_two] at rounded

/-- R163: the angle of sample k, 2*pi*FC*k/FS + pi/2, as the part of a turn that the model computes with. -/
theorem sample_angle (fc k : Nat) {fs : Nat} (pos : 0 < fs) :
    2 * Real.pi * (4 * (fc * k) + Config.PHASE_QUARTERS * fs : Nat) / (4 * fs : Nat) =
      2 * Real.pi * fc * k / fs + Real.pi / 2 := by
  have fsR : (fs : ℝ) ≠ 0 := by exact_mod_cast pos.ne'
  simp only [Config.PHASE_QUARTERS]
  push_cast
  field_simp
  ring

/-- Settles O24: the samples are the roundings of A times cosine and sine of the angle of `sample_angle`, and the other forms
are these a quarter turn back. -/
theorem carrierSampleIsExact : Obligations.CarrierSampleIsExact := by
  intro fs fc A k pos bound small
  have turn : 0 < 4 * fs := by omega
  have I := cosineOfTurn_roundsTo (4 * (fc * k) + Config.PHASE_QUARTERS * fs) turn (by omega) small
  have Q := sineOfTurn_roundsTo (4 * (fc * k) + Config.PHASE_QUARTERS * fs) turn (by omega) small
  rw [sample_angle fc k pos] at I Q
  have amplitude (x : ℝ) (le : |x| ≤ 1) : |A * x| ≤ A := by
    rw [abs_mul, Nat.abs_cast]
    exact mul_le_of_le_one_right (Nat.cast_nonneg A) le
  refine ⟨I, Q, ?_, ?_, abs_le_of_roundsTo I (amplitude _ (Real.abs_cos_le_one _)),
    abs_le_of_roundsTo Q (amplitude _ (Real.abs_sin_le_one _))⟩
  · rwa [Real.cos_add_pi_div_two, mul_neg] at I
  · rwa [Real.sin_add_pi_div_two] at Q

end Sys2Proof.Proofs.CarrierSamples
end

/-! PROOF. The transmit commands (41_modulator.md R166 to R171): what ENCODE and GENERATE leave where their checks pass, the
tiling of the carrier table, and the chain of the two. -/
section

namespace Sys2Proof.Proofs.Transmit

open Sys2Proof.Machine Sys2Proof.Safety Sys2Proof.Proofs.CommandFrame Sys2Proof.Proofs.CommandOutputs

/-! ## Reads and writes of windows -/

theorem readBytes_of_holds {s : State} {w : Window} {bs : List Byte} {n : Nat} (count : bs.length = n)
    (holds : HoldsBytes s w bs) : readBytes s w 0 n = .ok bs := by
  rw [readBytes_eq_ok_iff]
  exact ⟨count, fun j lt => by rw [Nat.zero_add, holds j (by omega)]⟩

theorem withRead_ok {α : Type} (x : α) (k : α → StageResult) : withRead (.ok x) k = k x := rfl

theorem holdsBytes_writeBytes (s : State) (w : Window) (bs : List Byte) : HoldsBytes (s.writeBytes w bs) w bs := by
  intro j lt
  rw [State.windowByte, byteAt_writeBytes, if_pos ⟨by omega, by omega⟩, Nat.add_sub_cancel_left]

/-- A completion after one write of a byte window and new registers. -/
theorem after_completeOk_writeBytes (s : State) (w : Window) (bs : List Byte) (x : Regs) (f : StatusFlags) :
    After s (((s.writeBytes w bs).withRegs x).completeOk f) (okRegs x f) [(w, bs)] [] [] where
  seq := rfl
  regs := rfl
  byteAt := byteAt_writeBytes s w bs
  symAt _ := rfl
  bitsAt _ := rfl
  inbox := rfl
  responses := rfl
  served := rfl
  params := rfl

theorem windowByte_of_after {s t : State} {regs : Regs} {w : Window} {bs : List Byte} {sym bits : List Bool} {j : Nat}
    (h : After s t regs [(w, bs)] sym bits) (lt : j < bs.length) : t.windowByte w j = bs[j]? := by
  rw [State.windowByte, h.byteAt, storedOr, if_pos ⟨by omega, by omega⟩, Nat.add_sub_cancel_left]

/-! ## ENCODE (R166) -/

/-- The state of ENCODE's outputs: the packet in PKT and its length. -/
abbrev encoded (s : State) (pkt : List Byte) : State :=
  (s.writeBytes .pkt pkt).withRegs { s.regs with pktLen := BitVec.ofNat 32 pkt.length }

theorem packetOf_eq_flatMap_substitute (s : State) (msg : List Byte) : packetOf s msg = msg.flatMap (substitute s) := by
  refine congrArg (List.flatMap · msg) (funext fun c => ?_)
  unfold substitute
  dsimp only
  split_ifs
  · simp [EncEntry.codeBits, wordBits, packetBit]
  · rfl

theorem sum_substituteLen (s : State) (msg : List Byte) : (msg.map (substituteLen s)).sum = (packetOf s msg).length := by
  simp only [packetOf_eq_flatMap_substitute, List.length_flatMap, length_substitute]

theorem badEncEntry_eq_none {s : State} (legal : EncTableLegal s) : badEncEntry s = none := by
  rw [badEncEntry, List.find?_eq_none]
  intro c mem bad
  simp only [Bool.and_eq_true, decide_eq_true_eq] at bad
  exact absurd (legal c (List.mem_range.mp mem) bad.1) (not_le.mpr bad.2)

theorem stageEncode_of_legal {s : State} {msg : List Byte} (legal : EncTableLegal s)
    (count : msg.length = s.regs.msgLen.toNat) (short : msg.length ≤ s.params.msgDepth) (holds : HoldsBytes s .msg msg)
    (room : (packetOf s msg).length ≤ s.params.pktDepth) :
    stageEncode s = .done (encoded s (packetOf s msg)) noFlags := by
  have fits : ¬ s.params.msgDepth < zext s.regs.msgLen := by
    rw [zext]
    omega
  have read : readBytes s .msg 0 (zext s.regs.msgLen) = .ok msg := readBytes_of_holds count holds
  rw [stageEncode, if_neg fits, badEncEntry_eq_none legal]
  dsimp only
  rw [read, withRead_ok, sum_substituteLen, if_neg (not_lt.mpr room), ← packetOf_eq_flatMap_substitute]
  rfl

/-! ## The waveform (R168) -/

/-- The bytes of carrier samples, I before Q. -/
abbrev sampleBytes (table : List (Byte × Byte)) : List Byte := table.flatMap fun z => [z.1, z.2]

theorem segment_sampleBytes (table : List (Byte × Byte)) (N L P : Nat) (c : Byte) :
    Machine.segment (sampleBytes table) N L P c = waveOf table N L P [c] := by
  rw [waveOf, List.flatMap_singleton]
  unfold Machine.segment packetSymbol
  split_ifs <;> rfl

theorem hasMark_iff (pkt : List Byte) : hasMark pkt = true ↔ 0x31#8 ∈ pkt := by
  have mark (c : Byte) : packetSymbol c = .mark ↔ c = 0x31#8 := by
    unfold packetSymbol
    split_ifs <;> simp [*]
  simp [hasMark, mark]

theorem hasMark_and_iff (pkt : List Byte) (p : Prop) [Decidable p] :
    (hasMark pkt && decide p) = true ↔ 0x31#8 ∈ pkt ∧ p := by
  simp [hasMark_iff]

theorem waveOf_cons (table : List (Byte × Byte)) (N L P : Nat) (c : Byte) (cs : List Byte) :
    waveOf table N L P (c :: cs) = waveOf table N L P [c] ++ waveOf table N L P cs := by
  simp [waveOf]

theorem waveOf_append (table : List (Byte × Byte)) (N L P : Nat) (xs ys : List Byte) :
    waveOf table N L P (xs ++ ys) = waveOf table N L P xs ++ waveOf table N L P ys := by
  simp [waveOf]

theorem waveOf_eq_flatMap_segment (table : List (Byte × Byte)) (N L P : Nat) (pkt : List Byte) :
    waveOf table N L P pkt = pkt.flatMap (Machine.segment (sampleBytes table) N L P) := by
  induction pkt with
  | nil => rfl
  | cons c cs ih => rw [waveOf_cons, ih, List.flatMap_cons, segment_sampleBytes]

/-- The table that `carrierFor` gives is used only by '1' segments that are not empty. -/
theorem segment_congr_table {t u : List Byte} {N L P : Nat} {c : Byte} (same : c = 0x31#8 → L ≠ 0 → t = u) :
    Machine.segment t N L P c = Machine.segment u N L P c := by
  unfold Machine.segment packetSymbol
  split_ifs with mark
  · rcases eq_or_ne L 0 with rfl | used
    · simp
    · rw [same mark used]
  all_goals rfl

theorem sum_segLen (L P : Nat) (pkt : List Byte) : (pkt.map (segLen L P)).sum = packetSamples L P pkt := by
  refine congrArg List.sum (List.map_congr_left fun c _ => ?_)
  unfold segLen packetSymbol
  split_ifs <;> simp_all

theorem length_sampleBytes (table : List (Byte × Byte)) : (sampleBytes table).length = 2 * table.length := by
  simp [sampleBytes, List.length_flatMap, mul_comm]

theorem length_waveOf {table : List (Byte × Byte)} {N L P : Nat} {pkt : List Byte} (tiles : L / N * table.length = L) :
    (waveOf table N L P pkt).length = 2 * packetSamples L P pkt := by
  rw [waveOf_eq_flatMap_segment, ← sum_segLen]
  refine length_waveform fun _ => ?_
  rw [length_sampleBytes, mul_left_comm, tiles]

/-! ## The unknown symbols (R170) -/

theorem unknownsFrom_cons (b : Nat) (c : Byte) (cs : List Byte) :
    unknownsFrom b (c :: cs) =
      if packetSymbol c = .unknown then (b, c) :: unknownsFrom (b + 1) cs else unknownsFrom (b + 1) cs := by
  rw [unknownsFrom]
  cases packetSymbol c <;> rfl

theorem packetSymbol_eq_unknown_iff (c : Byte) :
    packetSymbol c = .unknown ↔ c ≠ 0x31#8 ∧ c ≠ 0x30#8 ∧ c ≠ 0x70#8 ∧ c ≠ 0x20#8 := by
  unfold packetSymbol
  split_ifs <;> simp [*]

theorem unknownsFrom_eq_filter (b : Nat) (pkt : List Byte) :
    unknownsFrom b pkt =
      ((pkt.zipIdx b).filter fun x => x.1 ≠ 0x31#8 ∧ x.1 ≠ 0x30#8 ∧ x.1 ≠ 0x70#8 ∧ x.1 ≠ 0x20#8).map
        Prod.swap := by
  induction pkt generalizing b with
  | nil => rfl
  | cons c cs ih =>
    rw [unknownsFrom_cons, List.zipIdx_cons, List.filter_cons, ih]
    simp only [packetSymbol_eq_unknown_iff, decide_eq_true_eq]
    split_ifs <;> rfl

theorem unknownsFrom_zero (pkt : List Byte) : unknownsFrom 0 pkt = (unknownsOf pkt).map Prod.swap :=
  unknownsFrom_eq_filter 0 pkt

theorem firstUnknown_map_swap (unk : List (Byte × Nat)) :
    firstUnknown (unk.map Prod.swap) =
      ((unk.head?.map fun x => BitVec.ofNat 32 x.2).getD 0xFFFFFFFF#32, (unk.head?.map fun x => x.1).getD 0) := by
  cases unk <;> rfl

/-! ## The carrier table (10_state.md R65) -/

theorem isSome_get_of_unlisted {α : Type} {unl : Nat → Option α} {a : Nat} (m : Sparse α) (h : (unl a).isSome) :
    (Sparse.get unl m a).isSome := by
  unfold Sparse.get Sparse.headAt
  split
  · exact h
  · split_ifs
    · rfl
    · exact h

/-- The reserved half of a CLUT word always has a value (20_memory.md R87). -/
theorem isSome_clut_reserved (s : State) {j : Nat} (inside : j < 0x1000000) (reserved : 2 ≤ j % 4) :
    (s.windowByte .clut j).isSome := by
  refine isSome_get_of_unlisted s.mem ?_
  have base : Window.clut.base = 0x1000000 := rfl
  unfold Memory.unlisted
  rw [if_neg (by omega), if_neg (by omega), if_pos (by omega)]
  rfl

theorem iqBytes_eq_sampleBytes (table : List (Byte × Byte)) (bytes : List Byte) (count : bytes.length = 4 * table.length)
    (samples : ∀ k, k < table.length →
      bytes[4 * k]? = (table[k]?).map Prod.fst ∧ bytes[4 * k + 1]? = (table[k]?).map Prod.snd) :
    iqBytes bytes = sampleBytes table := by
  induction table generalizing bytes with
  | nil =>
    rw [List.length_eq_zero_iff.mp count]
    rfl
  | cons z zs ih =>
    match bytes, count with
    | i :: q :: x :: y :: rest, count =>
      obtain ⟨first, second⟩ := samples 0 (by simp)
      have later := ih rest (by simp at count; omega) fun k lt => by
        simpa [Nat.mul_succ] using samples (k + 1) (by simpa using lt)
      simp only [Nat.mul_zero, List.getElem?_cons_zero, Option.map_some, Option.some.injEq] at first
      simp only [Nat.mul_zero, Nat.zero_add, List.getElem?_cons_succ, List.getElem?_cons_zero, Option.map_some,
        Option.some.injEq] at second
      rw [iqBytes, later, first, second]
      rfl

theorem readCarrier_of_holds {s : State} {table : List (Byte × Byte)} {N : Nat} (count : table.length = N)
    (fits : N ≤ s.params.clutDepth) (holds : HoldsCarrier s table) : readCarrier s N = .ok (sampleBytes table) := by
  have depth := s.params.clut_legal
  unfold readCarrier
  cases read : readBytes s .clut 0 (4 * N) with
  | ok bytes =>
    obtain ⟨length, values⟩ := (readBytes_eq_ok_iff ..).mp read
    refine congrArg Except.ok (iqBytes_eq_sampleBytes table bytes (by omega) fun k lt => ?_)
    rw [← values _ (by omega), ← values _ (by omega), Nat.zero_add, Nat.zero_add]
    exact holds k lt
  | error f =>
    obtain ⟨j, -, -, lt, unspecified⟩ := readBytes_eq_error _ _ _ _ _ read
    have specified : (s.windowByte .clut j).isSome := by
      by_cases reserved : 2 ≤ j % 4
      · exact isSome_clut_reserved s (by omega) reserved
      · have entry : j / 4 < table.length := by omega
        obtain ⟨first, second⟩ := holds (j / 4) entry
        rw [List.getElem?_eq_getElem entry] at first second
        rcases (show j = 4 * (j / 4) ∨ j = 4 * (j / 4) + 1 by omega) with rail | rail <;> rw [rail]
        · rw [first]
          rfl
        · rw [second]
          rfl
    simp [unspecified] at specified

/-! ## GENERATE (R167) -/

/-- The state of GENERATE's outputs: the waveform in TXB, its length, and the report of the unknown symbols. -/
abbrev generated (s : State) (wave pkt : List Byte) : State :=
  (s.writeBytes .txb wave).withRegs (generateRegs s.regs wave pkt)

theorem generateWrites_eq (s : State) {pkt bytes : List Byte} {table : List (Byte × Byte)} {N L : Nat} (P : Nat)
    (carrier : 0x31#8 ∈ pkt → L ≠ 0 → bytes = sampleBytes table) :
    generateWrites s pkt bytes N L P = .done (generated s (waveOf table N L P pkt) pkt) (generateFlags pkt) := by
  have wave : pkt.flatMap (Machine.segment bytes N L P) = waveOf table N L P pkt := by
    rw [waveOf_eq_flatMap_segment]
    exact List.flatMap_congr fun c mem => segment_congr_table fun mark => carrier (mark ▸ mem)
  unfold generateWrites
  dsimp only
  rw [wave, unknownsFrom_zero, firstUnknown_map_swap, List.length_map]
  rfl

theorem carrierFor_of_ready {s : State} {table : List (Byte × Byte)} {pkt : List Byte} {N L : Nat}
    (fits : N ≤ s.params.clutDepth) (carrier : 0x31#8 ∈ pkt → L ≠ 0 → table.length = N ∧ HoldsCarrier s table) :
    ∃ bytes, carrierFor s pkt N L = .ok bytes ∧ (0x31#8 ∈ pkt → L ≠ 0 → bytes = sampleBytes table) := by
  unfold carrierFor
  split_ifs with used
  · obtain ⟨mark, long⟩ := (hasMark_and_iff ..).mp used
    obtain ⟨count, holds⟩ := carrier mark long
    exact ⟨_, readCarrier_of_holds count fits holds, fun _ _ => rfl⟩
  · exact ⟨[], rfl, fun mark long => absurd ((hasMark_and_iff ..).mpr ⟨mark, long⟩) used⟩

theorem stageGenerate_of_ready {s : State} {pkt : List Byte} {table : List (Byte × Byte)}
    (count : pkt.length = s.regs.pktLen.toNat) (short : pkt.length ≤ s.params.pktDepth) (holds : HoldsBytes s .pkt pkt)
    (ready : GenerateReady s table pkt) :
    stageGenerate s =
      .done (generated s (waveOf table s.regs.clutLen.toNat s.regs.txSymLen.toNat s.regs.pauseLen.toNat pkt) pkt)
        (generateFlags pkt) := by
  obtain ⟨fits, tiles, carrier, room⟩ := ready
  obtain ⟨bytes, tableRead, same⟩ :=
    carrierFor_of_ready (N := zext s.regs.clutLen) (L := zext s.regs.txSymLen) fits carrier
  have read : readBytes s .pkt 0 (zext s.regs.pktLen) = .ok pkt := readBytes_of_holds count holds
  have long : ¬ s.params.pktDepth < zext s.regs.pktLen := by
    rw [zext]
    omega
  have wide : ¬ s.params.clutDepth < zext s.regs.clutLen := not_lt.mpr fits
  have noTable : ¬ (0x31#8 ∈ pkt ∧ zext s.regs.clutLen = 0) := fun ⟨mark, empty⟩ => (tiles mark).1 empty
  have ragged : ¬ (0x31#8 ∈ pkt ∧ zext s.regs.txSymLen % zext s.regs.clutLen ≠ 0) := fun ⟨mark, rest⟩ =>
    rest (tiles mark).2
  have full : ¬ s.params.txbDepth < 2 * packetSamples (zext s.regs.txSymLen) (zext s.regs.pauseLen) pkt := not_lt.mpr room
  unfold stageGenerate
  dsimp only
  rw [if_neg long, if_neg wide, read, withRead_ok, if_neg ((hasMark_and_iff ..).not.mpr noTable),
    if_neg ((hasMark_and_iff ..).not.mpr ragged), sum_segLen, if_neg full, tableRead, withRead_ok]
  exact generateWrites_eq s _ same

theorem exec_generate_of_ready {s : State} {pkt : List Byte} {table : List (Byte × Byte)}
    (count : pkt.length = s.regs.pktLen.toNat) (short : pkt.length ≤ s.params.pktDepth) (holds : HoldsBytes s .pkt pkt)
    (ready : GenerateReady s table pkt) :
    ∃ t, exec .generate s = .next t ∧
      After s t
        (okRegs
          (generateRegs s.regs (waveOf table s.regs.clutLen.toNat s.regs.txSymLen.toNat s.regs.pauseLen.toNat pkt) pkt)
          (generateFlags pkt))
        [(.txb, waveOf table s.regs.clutLen.toNat s.regs.txSymLen.toNat s.regs.pauseLen.toNat pkt)] [] [] := by
  refine ⟨_, ?_, after_completeOk_writeBytes s .txb _ _ _⟩
  rw [exec_eq_finish_stageOf, stageOf, stageGenerate_of_ready count short holds ready]
  rfl

/-! ## Tiling (R169) -/

theorem getElem?_sampleBytes (table : List (Byte × Byte)) (k : Nat) :
    (sampleBytes table)[2 * k]? = (table[k]?).map Prod.fst ∧ (sampleBytes table)[2 * k + 1]? = (table[k]?).map Prod.snd := by
  induction table generalizing k with
  | nil => exact ⟨rfl, rfl⟩
  | cons z zs ih =>
    cases k with
    | zero => exact ⟨rfl, rfl⟩
    | succ k => exact ih k

/-- The i-th element of round r of a list repeated m times. -/
theorem getElem?_flatten_replicate {α : Type} (xs : List α) {m r i : Nat} (round : r < m) (inside : i < xs.length) :
    (List.replicate m xs).flatten[r * xs.length + i]? = xs[i]? := by
  induction m generalizing r with
  | zero => omega
  | succ m ih =>
    rw [List.replicate_succ, List.flatten_cons]
    cases r with
    | zero => rw [Nat.zero_mul, Nat.zero_add, List.getElem?_append_left inside]
    | succ r =>
      rw [List.getElem?_append_right (by rw [Nat.succ_mul]; omega), ← ih (r := r) (by omega)]
      congr 1
      rw [Nat.succ_mul]
      omega

/-- The segment of byte b of a packet stands in the waveform behind those of the bytes before it. -/
theorem getElem?_waveOf {table : List (Byte × Byte)} {N L P : Nat} {pkt : List Byte} {b i : Nat} {c : Byte}
    (tiles : L / N * table.length = L) (at_b : pkt[b]? = some c) (inside : i < (waveOf table N L P [c]).length) :
    (waveOf table N L P pkt)[2 * packetSamples L P (pkt.take b) + i]? = (waveOf table N L P [c])[i]? := by
  obtain ⟨lt, rfl⟩ := List.getElem?_eq_some_iff.mp at_b
  have split : waveOf table N L P pkt =
      waveOf table N L P (pkt.take b) ++ (waveOf table N L P [pkt[b]] ++ waveOf table N L P (pkt.drop (b + 1))) := by
    rw [← waveOf_cons, ← waveOf_append, ← List.drop_eq_getElem_cons, List.take_append_drop]
  rw [← length_waveOf tiles, split, List.getElem?_append_right (by omega), Nat.add_sub_cancel_left,
    List.getElem?_append_left inside]

theorem waveOf_mark (table : List (Byte × Byte)) (N L P : Nat) :
    waveOf table N L P [0x31#8] = (List.replicate (L / N) (sampleBytes table)).flatten := by
  simp [waveOf]

/-- Byte i of the r-th copy of the table in the segment of the '1' at index b. -/
theorem getElem?_waveOf_mark {table : List (Byte × Byte)} {N L P : Nat} {pkt : List Byte} {b r i : Nat}
    (tiles : L / N * table.length = L) (at_b : pkt[b]? = some 0x31#8) (round : r < L / N) (inside : i < 2 * table.length) :
    (waveOf table N L P pkt)[2 * packetSamples L P (pkt.take b) + (r * (2 * table.length) + i)]? = (sampleBytes table)[i]? := by
  rw [← length_sampleBytes] at inside
  have tile := getElem?_flatten_replicate (sampleBytes table) round inside
  rw [← waveOf_mark table N L P] at tile
  have within : r * (sampleBytes table).length + i < (waveOf table N L P [0x31#8]).length := by
    rw [List.getElem?_eq_getElem inside] at tile
    exact (List.getElem?_eq_some_iff.mp tile).1
  rw [← length_sampleBytes, getElem?_waveOf tiles at_b within, tile]

/-- Settles O30: byte 2(rN + k) of the segment of a '1' is byte 2k of the table, which GENERATE read from CLUT[k]. -/
theorem tilingRepeatsTable : Obligations.TilingRepeatsTable := by
  intro s pkt table b count short holds ready at_b triple
  obtain ⟨t, run, after⟩ := exec_generate_of_ready count short holds ready
  refine ⟨t, run, fun r k round lt => ?_⟩
  obtain ⟨-, -, carrier, -⟩ := ready
  obtain ⟨entries, held⟩ := carrier (List.mem_of_getElem? at_b) (by omega)
  obtain ⟨heldI, heldQ⟩ := held k (by omega)
  obtain ⟨tableI, tableQ⟩ := getElem?_sampleBytes table k
  have rounds : s.regs.txSymLen.toNat / s.regs.clutLen.toNat = 3 := by
    rw [triple, Nat.mul_div_cancel _ (by omega)]
  have emitted {i : Nat} (inside : i < 2 * table.length) :
      t.windowByte .txb
        (2 * packetSamples s.regs.txSymLen.toNat s.regs.pauseLen.toNat (pkt.take b) + (r * (2 * table.length) + i)) =
          (sampleBytes table)[i]? := by
    have byte := getElem?_waveOf_mark (P := s.regs.pauseLen.toNat) (by rw [rounds, entries, triple]) at_b
      (round.trans_eq rounds.symm) inside
    rw [← length_sampleBytes] at inside
    rw [windowByte_of_after after, byte]
    rw [List.getElem?_eq_getElem inside] at byte
    exact (List.getElem?_eq_some_iff.mp byte).1
  have place : 2 * (r * s.regs.clutLen.toNat + k) = r * (2 * table.length) + 2 * k := by
    rw [entries]
    ring
  rw [place, heldI, heldQ, ← tableI, ← tableQ, Nat.add_assoc, Nat.add_assoc]
  exact ⟨emitted (by omega), emitted (by omega)⟩

/-! ## TX_CHAIN (R171) -/

theorem exec_txChain_of_encode_error {s t : State} (run : exec .encode s = .next t) (error : t.regs.errCode ≠ 0) :
    exec .txChain s = .next t := by
  rw [exec_eq_finish_stageOf, finish_eq_next_iff] at run
  rcases run with ⟨u, f, -, rfl⟩ | ⟨u, c, i, eq, rfl⟩
  · exact absurd rfl error
  · change finish ((stageEncode s).thenStage _) = _
    rw [show stageEncode s = .fail u c i from eq]
    rfl

theorem exec_txChain_of_encoded {s u : State} {f : StatusFlags} (eq : stageEncode s = .done u f) :
    exec .txChain s = exec .generate u := by
  change finish ((stageEncode s).thenStage _) = _
  rw [eq]
  rfl

/-- What a completion on ENCODE's outputs stores beside PKT, counted from the state before ENCODE. -/
theorem after_of_after_encoded {s t : State} {pkt : List Byte} {regs : Regs} {bytes : List (Window × List Byte)}
    (apart : ∀ a old, Window.pkt.base ≤ a → a < Window.pkt.base + pkt.length → storedOr bytes a old = old)
    (h : After (encoded s pkt) t regs bytes [] []) : After s t regs ((.pkt, pkt) :: bytes) [] [] where
  seq := h.seq
  regs := h.regs
  byteAt a := by
    rw [h.byteAt, withRegs_byteAt, byteAt_writeBytes, storedOr]
    split_ifs with inside
    · exact apart a _ inside.1 inside.2
    · rfl
  symAt := h.symAt
  bitsAt := h.bitsAt
  inbox := h.inbox
  responses := h.responses
  served := h.served
  params := h.params

/-- The write of PKT leaves the carrier table, so GENERATE needs no more of the state that ENCODE left. -/
theorem generateReady_encoded {s : State} {table : List (Byte × Byte)} {pkt : List Byte}
    (room : pkt.length ≤ s.params.pktDepth) (ready : GenerateReady s table pkt) :
    GenerateReady (encoded s pkt) table pkt := by
  obtain ⟨fits, tiles, carrier, samples⟩ := ready
  refine ⟨fits, tiles, fun mark long => ?_, samples⟩
  obtain ⟨count, holds⟩ := carrier mark long
  have kept {j : Nat} (inside : j < s.params.clutDepth * 4) :
      (encoded s pkt).windowByte .clut j = s.windowByte .clut j :=
    windowByte_writeBytes_of_outside (w := .pkt) room inside (.inl (by decide))
  refine ⟨count, fun k lt => ?_⟩
  rw [kept (by omega), kept (by omega)]
  exact holds k lt

/-- Settles O31: an error of ENCODE ends the chain; otherwise GENERATE runs on the state of `stageEncode_of_legal`, and PKT and
TXB do not overlap. -/
theorem txChainRunsBothStages : Obligations.TxChainRunsBothStages := by
  refine ⟨fun s code info nonzero ⟨t, run, after⟩ => ?_, fun s msg legal count short holds room => ?_⟩
  · have error : t.regs.errCode ≠ 0 := by
      rw [after.regs]
      exact nonzero
    exact ⟨t, exec_txChain_of_encode_error run error, after⟩
  · have chain := exec_txChain_of_encoded (stageEncode_of_legal legal count short holds room)
    have depth := s.params.pkt_legal
    refine ⟨fun s1 code info outputs nonzero ⟨t, run, after⟩ => ?_, fun table ready => ?_⟩
    · subst outputs
      exact ⟨t, chain.trans run, after_of_after_encoded (fun _ _ _ _ => rfl) after⟩
    · have length : (packetOf s msg).length = (encoded s (packetOf s msg)).regs.pktLen.toNat :=
        (natWord_toNat (by omega)).symm
      obtain ⟨t, run, after⟩ := exec_generate_of_ready length room (holdsBytes_writeBytes s .pkt _)
        (generateReady_encoded room ready)
      refine ⟨t, chain.trans run, after_of_after_encoded (fun a old _ below => ?_) after⟩
      have bases : Window.pkt.base + 2 ^ 24 = Window.txb.base := rfl
      rw [storedOr, if_neg (by omega), storedOr]

end Sys2Proof.Proofs.Transmit
end

/-! PROOF. The receive front end (42_demodulator.md R200 to R217): the means and the signal of PREPROCESS, the magnitude, the
envelope filter and the thresholds of DETECT, and what both commands leave. -/
section

namespace Sys2Proof.Proofs.Demodulator

open Sys2Proof.Machine Sys2Proof.Safety Sys2Proof.Proofs.Scope Sys2Proof.Proofs.CommandOutputs
  Sys2Proof.Proofs.CommandWords Sys2Proof.Proofs.Control Sys2Proof.Proofs.Transmit

/-! ## The magnitude (R213) -/

theorem magnitude_nonneg (z : Int × Int) : 0 ≤ magnitude z := Int.natCast_nonneg _

theorem magnitude_spec (z : Int × Int) :
    magnitude z * magnitude z ≤ z.1 * z.1 + z.2 * z.2 ∧
      z.1 * z.1 + z.2 * z.2 < (magnitude z + 1) * (magnitude z + 1) := by
  have square_nonneg : 0 ≤ z.1 * z.1 + z.2 * z.2 := add_nonneg (mul_self_nonneg _) (mul_self_nonneg _)
  obtain ⟨lower, upper⟩ := isqrt_spec (z.1 * z.1 + z.2 * z.2).toNat
  rw [← Int.toNat_of_nonneg square_nonneg]
  unfold magnitude
  exact ⟨by exact_mod_cast lower, by exact_mod_cast upper⟩

/-- An integer whose square is at most `n` is not above the floor root `k` of `n`. -/
theorem le_of_mul_self_le_of_lt {m k n : Int} (k_nonneg : 0 ≤ k) (lower : m * m ≤ n) (upper : n < (k + 1) * (k + 1)) :
    m ≤ k :=
  Int.lt_add_one_iff.mp (lt_of_mul_self_lt_mul_self₀ (by omega) (lower.trans_lt upper))

theorem magnitude_eq_iff (z : Int × Int) (m : Int) :
    magnitude z = m ↔ 0 ≤ m ∧ m * m ≤ z.1 * z.1 + z.2 * z.2 ∧ z.1 * z.1 + z.2 * z.2 < (m + 1) * (m + 1) := by
  have root_nonneg := magnitude_nonneg z
  obtain ⟨lower, upper⟩ := magnitude_spec z
  constructor
  · rintro rfl
    exact ⟨root_nonneg, lower, upper⟩
  · rintro ⟨nonneg, below, above⟩
    exact le_antisymm (le_of_mul_self_le_of_lt nonneg lower above) (le_of_mul_self_le_of_lt root_nonneg below upper)

theorem mul_self_le_of_abs_le {a b : Int} (h : |a| ≤ b) : a * a ≤ b * b := by
  rw [← abs_mul_abs_self a]
  exact mul_self_le_mul_self (abs_nonneg a) h

/-- Settles O36: the sum of the squares is at most 2 * 65280^2, which is below 92320^2. -/
theorem magnitudeIsFloorRoot : Obligations.MagnitudeIsFloorRoot := by
  refine ⟨magnitude_eq_iff, fun z re im => ?_⟩
  have reSquare := mul_self_le_of_abs_le re
  have imSquare := mul_self_le_of_abs_le im
  exact le_of_mul_self_le_of_lt (by omega) (magnitude_spec z).1 (by omega)

/-! ## The filter (R211) -/

/-- One output of the recursion, from the input `x`, the input `xp` and the output `yp` before it. -/
abbrev filterStep (b0 b1 a1 x xp yp : Int) : Int := sat32 (rne (b0 * x + b1 * xp - a1 * yp) 65536)

theorem getD_filterPass (b0 b1 a1 xp yp : Int) {xs : List Int} {n : Nat} (inside : n < xs.length) :
    (filterPass b0 b1 a1 xp yp xs).getD n 0 =
      filterStep b0 b1 a1 (xs.getD n 0) (if n = 0 then xp else xs.getD (n - 1) 0)
        (if n = 0 then yp else (filterPass b0 b1 a1 xp yp xs).getD (n - 1) 0) := by
  induction xs generalizing xp yp n with
  | nil => simp at inside
  | cons x xs ih =>
    rcases n with _ | n
    · rfl
    · rw [filterPass, List.getD_cons_succ, ih _ _ (by simpa using inside)]
      rcases n with _ | n <;> rfl

/-- The edge value stands for the input and for the output before the first sample. -/
theorem getD_filterFromEdge (b0 b1 a1 : Int) {xs : List Int} {n : Nat} (inside : n < xs.length) :
    (filterFromEdge b0 b1 a1 xs).getD n 0 =
      filterStep b0 b1 a1 (xs.getD n 0) (xs.getD (n - 1) 0)
        (if n = 0 then xs.getD 0 0 else (filterFromEdge b0 b1 a1 xs).getD (n - 1) 0) := by
  cases xs with
  | nil => simp at inside
  | cons x xs =>
    rw [filterFromEdge, getD_filterPass _ _ _ _ _ inside]
    rcases n with _ | n <;> rfl

theorem getD_reverse (xs : List Int) {n : Nat} (inside : n < xs.length) :
    xs.reverse.getD n 0 = xs.getD (xs.length - 1 - n) 0 := by
  simp only [List.getD_eq_getElem?_getD, List.getElem?_reverse inside]

/-- The backward pass. -/
abbrev filterBackward (b0 b1 a1 : Int) (ys : List Int) : List Int := (filterFromEdge b0 b1 a1 ys.reverse).reverse

/-- Sample n of the backward pass is sample N - 1 - n of a pass over the reversed list. -/
theorem getD_filterBackward (b0 b1 a1 : Int) {ys : List Int} {n : Nat} (inside : n < ys.length) :
    (filterBackward b0 b1 a1 ys).getD n 0 =
      filterStep b0 b1 a1 (ys.getD n 0) (ys.getD (min (n + 1) (ys.length - 1)) 0)
        (if n + 1 < ys.length then (filterBackward b0 b1 a1 ys).getD (n + 1) 0 else ys.getD (ys.length - 1) 0) := by
  have count : (filterFromEdge b0 b1 a1 ys.reverse).length = ys.length := by
    rw [length_filterFromEdge, List.length_reverse]
  have input {m k : Nat} (mirrored : ys.length - 1 - m = k) (lt : m < ys.length) :
      ys.reverse.getD m 0 = ys.getD k 0 := mirrored ▸ getD_reverse ys lt
  rw [getD_reverse _ (by omega), count, getD_filterFromEdge _ _ _ (by rw [List.length_reverse]; omega),
    input (k := n) (by omega) (by omega), input (k := min (n + 1) (ys.length - 1)) (by omega) (by omega)]
  congr 1
  by_cases last : n + 1 < ys.length
  · rw [if_neg (by omega), if_pos last, getD_reverse _ (by omega), count, Nat.sub_add_eq]
  · rw [if_pos (by omega), if_neg last, input (k := ys.length - 1) (by omega) (by omega)]

/-- Settles O35: `ys` is the forward pass. -/
theorem envelopeIsTheFilter : Obligations.EnvelopeIsTheFilter := by
  intro r sig _
  have count : (filterFromEdge r.filtB0.toInt r.filtB1.toInt r.filtA1.toInt (sig.map magnitude)).length = sig.length := by
    rw [length_filterFromEdge, List.length_map]
  refine ⟨_, count, length_envelope r sig, fun n lt => getD_filterFromEdge _ _ _ (by simpa using lt), fun n lt => ?_⟩
  rw [← count] at lt ⊢
  exact getD_filterBackward _ _ _ lt

/-! ## The rails (R200) -/

theorem pairUp_eq_map_range : ∀ bytes : List Byte,
    pairUp bytes = (List.range (bytes.length / 2)).map fun n => (bytes.getD (2 * n) 0, bytes.getD (2 * n + 1) 0)
  | [] | [_] => by simp [pairUp]
  | a :: b :: rest => by
    have half : (a :: b :: rest).length / 2 = rest.length / 2 + 1 := Nat.add_div_right _ two_pos
    rw [pairUp, pairUp_eq_map_range rest, half, List.range_succ_eq_map, List.map_cons, List.map_map]
    rfl

theorem railI_eq_map_pairUp (bytes : List Byte) : railI bytes = (pairUp bytes).map fun b => b.1.toInt := by
  rw [pairUp_eq_map_range, List.map_map]
  rfl

theorem railQ_eq_map_pairUp (bytes : List Byte) : railQ bytes = (pairUp bytes).map fun b => b.2.toInt := by
  rw [pairUp_eq_map_range, List.map_map]
  rfl

theorem signalOf_eq_map_pairUp (bytes : List Byte) :
    signalOf bytes =
      (pairUp bytes).map fun b => (256 * b.1.toInt - meanOf (railI bytes), 256 * b.2.toInt - meanOf (railQ bytes)) := by
  unfold signalOf
  conv_lhs => enter [2]; rw [railI_eq_map_pairUp]
  conv_lhs => enter [3]; rw [railQ_eq_map_pairUp]
  rw [List.zipWith_map, List.zipWith_self]

/-! ## The ranges (R203) -/

theorem toInt_byte_range (b : Byte) : -128 ≤ b.toInt ∧ b.toInt ≤ 127 :=
  ⟨BitVec.le_toInt b, Int.lt_add_one_iff.mp (BitVec.toInt_lt (x := b))⟩

/-- The values of a rail are those of bytes. -/
abbrev ByteValued (rail : List Int) : Prop := ∀ x ∈ rail, -128 ≤ x ∧ x ≤ 127

theorem byteValued_map {α : Type} (f : α → Byte) (xs : List α) : ByteValued (xs.map fun a => (f a).toInt) :=
  List.forall_mem_map.mpr fun a _ => toInt_byte_range (f a)

theorem byteValued_railI (bytes : List Byte) : ByteValued (railI bytes) := by
  rw [railI_eq_map_pairUp]
  exact byteValued_map _ _

theorem byteValued_railQ (bytes : List Byte) : ByteValued (railQ bytes) := by
  rw [railQ_eq_map_pairUp]
  exact byteValued_map _ _

theorem abs_two_mul_sub_rne_le (a : Int) {b : Int} (hb : 0 < b) : |2 * (a - b * rne a b)| ≤ b :=
  ((roundsTo_div_iff hb _).mp (roundsTo_rne a hb)).1

/-- The offset that the rounding of the mean leaves on a rail. -/
theorem abs_offset_le {rail : List Int} (nonempty : 0 < rail.length) :
    2 * |256 * rail.sum - rail.length * meanOf rail| ≤ rail.length := by
  have near := abs_two_mul_sub_rne_le (256 * rail.sum) (b := rail.length) (by omega)
  rwa [abs_mul, abs_two] at near

/-- The exact mean lies between the end points, and rounding moves it by at most a half: no integer outside is as near. -/
theorem meanOf_range {rail : List Int} (nonempty : 0 < rail.length) (range : ByteValued rail) :
    -32768 ≤ meanOf rail ∧ meanOf rail ≤ 32512 := by
  have sum_lower := List.card_nsmul_le_sum rail (-128) fun x mem => (range x mem).1
  have sum_upper := List.sum_le_card_nsmul rail 127 fun x mem => (range x mem).2
  rw [nsmul_eq_mul] at sum_lower sum_upper
  have count_pos : (0 : Int) < rail.length := by omega
  have near : |2 * (256 * rail.sum - rail.length * meanOf rail)| ≤ rail.length := abs_two_mul_sub_rne_le _ count_pos
  obtain ⟨offset_lower, offset_upper⟩ := abs_le.mp near
  constructor
  · by_contra below
    have scaled := mul_le_mul_of_nonneg_left (show meanOf rail ≤ -32769 by omega) count_pos.le
    omega
  · by_contra above
    have scaled := mul_le_mul_of_nonneg_left (show 32513 ≤ meanOf rail by omega) count_pos.le
    omega

theorem sum_map_mul_sub {α : Type} (f : α → Int) (m : Int) (xs : List α) :
    (xs.map fun a => 256 * f a - m).sum = 256 * (xs.map f).sum - xs.length * m := by
  induction xs with
  | nil => simp
  | cons a xs ih =>
    rw [List.map_cons, List.sum_cons, ih, List.map_cons, List.sum_cons, List.length_cons]
    push_cast
    ring

/-- Settles O33, from the range and the offset of the mean of any rail of bytes. -/
theorem preprocessRanges : Obligations.PreprocessRanges := by
  intro bytes long
  have lengthI : 0 < (railI bytes).length := by
    rw [railI, List.length_map, List.length_range]
    omega
  have lengthQ : 0 < (railQ bytes).length := by
    rw [railQ, List.length_map, List.length_range]
    omega
  obtain ⟨meanI_lower, meanI_upper⟩ := meanOf_range lengthI (byteValued_railI bytes)
  obtain ⟨meanQ_lower, meanQ_upper⟩ := meanOf_range lengthQ (byteValued_railQ bytes)
  have scaled {rail : List Int} (range : ByteValued rail) (x : Int) (mem : x ∈ rail) :
      -32768 ≤ 256 * x ∧ 256 * x ≤ 32512 := by
    have := range x mem
    omega
  refine ⟨?_, fun z mem => ?_, ?_⟩
  · rintro rail (rfl | rfl)
    · exact ⟨scaled (byteValued_railI bytes), meanI_lower, meanI_upper, abs_offset_le lengthI⟩
    · exact ⟨scaled (byteValued_railQ bytes), meanQ_lower, meanQ_upper, abs_offset_le lengthQ⟩
  · rw [signalOf_eq_map_pairUp] at mem
    obtain ⟨b, -, rfl⟩ := List.mem_map.mp mem
    have sampleI := toInt_byte_range b.1
    have sampleQ := toInt_byte_range b.2
    dsimp only
    omega
  · rw [signalOf_eq_map_pairUp, List.map_map]
    refine (sum_map_mul_sub (fun b : Byte × Byte => b.1.toInt) _ _).trans ?_
    rw [← railI_eq_map_pairUp, railI, List.length_map, List.length_range, length_pairUp]

/-! ## Completions of a single command -/

theorem failsWith_of_stage {i : Instr} {s : State} {code : ErrCode} {info : Word} (fails : stageOf i s = .fail s code info) :
    FailsWith i s code.value info :=
  ⟨_, by rw [exec_eq_finish_stageOf, fails, finish], after_completeErr s code info⟩

theorem exec_of_stage {i : Instr} {s t : State} {f : StatusFlags} (done : stageOf i s = .done t f) :
    exec i s = .next (t.completeOk f) := by
  rw [exec_eq_finish_stageOf, done, finish]

theorem after_completeOk_withRegs (s : State) (x : Regs) (f : StatusFlags) :
    After s ((s.withRegs x).completeOk f) (okRegs x f) [] [] [] where
  seq := rfl
  regs := rfl
  byteAt _ := rfl
  symAt _ := rfl
  bitsAt _ := rfl
  inbox := rfl
  responses := rfl
  served := rfl
  params := rfl

/-- A completion after one write of a byte window, one of SYM, and new registers. -/
theorem after_completeOk_writeSym (s : State) (w : Window) (bs : List Byte) (sym : List Bool) (x : Regs) (f : StatusFlags) :
    After s ((((s.writeBytes w bs).writeSym sym).withRegs x).completeOk f) (okRegs x f) [(w, bs)] sym [] where
  seq := rfl
  regs := rfl
  byteAt := byteAt_writeBytes s w bs
  symAt := symAt_writeSym (s.writeBytes w bs) sym
  bitsAt _ := rfl
  inbox := rfl
  responses := rfl
  served := rfl
  params := rfl

/-- A store of no bytes is no store. -/
theorem after_of_empty_store {s t : State} {regs : Regs} {w : Window} {sym bits : List Bool}
    (h : After s t regs [] sym bits) : After s t regs [(w, [])] sym bits where
  seq := h.seq
  regs := h.regs
  byteAt a := by
    have outside : ¬ (w.base ≤ a ∧ a < w.base + ([] : List Byte).length) := by
      rw [List.length_nil]
      omega
    simp only [h.byteAt, storedOr, if_neg outside]
  symAt := h.symAt
  bitsAt := h.bitsAt
  inbox := h.inbox
  responses := h.responses
  served := h.served
  params := h.params

/-! ## PREPROCESS (R200, R201) -/

theorem stagePreprocess_of_large {s : State} (large : s.params.rxbDepth < zext s.regs.rxLen) :
    stagePreprocess s = .fail s .param (paramInfo .rxLen) := by
  rw [stagePreprocess, if_pos large]

theorem stagePreprocess_of_odd {s : State} (fits : ¬ s.params.rxbDepth < zext s.regs.rxLen)
    (odd : zext s.regs.rxLen % 2 = 1) : stagePreprocess s = .fail s .odd s.regs.rxLen := by
  rw [stagePreprocess, if_neg fits, if_pos odd]

theorem stagePreprocess_of_empty {s : State} (empty : s.regs.rxLen = 0) :
    stagePreprocess s = .done (s.withRegs { s.regs with sigLen := 0, meanI := 0, meanQ := 0 }) noFlags := by
  have none_received : zext s.regs.rxLen = 0 := by rw [empty]; rfl
  rw [stagePreprocess, none_received]
  rfl

theorem iqSamples_fst (bytes : List Byte) : (iqSamples bytes).map Prod.fst = railI bytes := by
  rw [railI_eq_map_pairUp, iqSamples, List.map_map]
  rfl

theorem iqSamples_snd (bytes : List Byte) : (iqSamples bytes).map Prod.snd = railQ bytes := by
  rw [railQ_eq_map_pairUp, iqSamples, List.map_map]
  rfl

/-- The words PREPROCESS stores are those of the signal. -/
theorem bytesOfWords_iqSamples (bytes : List Byte) :
    bytesOfWords ((iqSamples bytes).flatMap fun x =>
      [enc32 (256 * x.1 - meanOf (railI bytes)), enc32 (256 * x.2 - meanOf (railQ bytes))]) =
    signalBytes (signalOf bytes) := by
  rw [signalBytes, signalOf_eq_map_pairUp, iqSamples, List.flatMap_map, List.flatMap_map]
  rfl

theorem stagePreprocess_of_holds {s : State} {bytes : List Byte} (count : bytes.length = s.regs.rxLen.toNat)
    (short : bytes.length ≤ s.params.rxbDepth) (even : bytes.length % 2 = 0) (nonempty : bytes ≠ [])
    (holds : HoldsBytes s .rxb bytes) :
    stagePreprocess s =
      .done
        ((s.writeBytes .sig (signalBytes (signalOf bytes))).withRegs
          { s.regs with
            sigLen := BitVec.ofNat 32 (bytes.length / 2)
            meanI := BitVec.ofInt 32 (meanOf (railI bytes))
            meanQ := BitVec.ofInt 32 (meanOf (railQ bytes)) })
        noFlags := by
  have length_pos := List.length_pos_of_ne_nil nonempty
  have length : zext s.regs.rxLen = bytes.length := count.symm
  rw [stagePreprocess, length, if_neg (by omega), if_neg (by omega), if_neg (by omega),
    readBytes_of_holds rfl holds, withRead_ok]
  simp only [iqSamples_fst, iqSamples_snd]
  rw [← bytesOfWords_iqSamples]
  rfl

theorem preprocess_of_empty {s : State} (empty : s.regs.rxLen = 0) :
    ∃ t, exec .preprocess s = .next t ∧
      After s t (okRegs { s.regs with sigLen := 0, meanI := 0, meanQ := 0 } noFlags) [] [] [] :=
  ⟨_, exec_of_stage (i := .preprocess) (stagePreprocess_of_empty empty), after_completeOk_withRegs s _ _⟩

/-- Settles O32: each clause is one path of the stage; an empty buffer has the empty signal and the means 0. -/
theorem preprocessRemovesMean : Obligations.PreprocessRemovesMean := by
  refine ⟨fun s bytes count short even holds => ?_, fun s => preprocess_of_empty, fun s large => ?_, fun s fits odd => ?_⟩
  · by_cases empty : bytes = []
    · subst empty
      obtain ⟨t, run, after⟩ := preprocess_of_empty (BitVec.eq_of_toNat_eq count.symm)
      exact ⟨t, run, after_of_empty_store after⟩
    · exact ⟨_, exec_of_stage (i := .preprocess) (stagePreprocess_of_holds count short even empty holds),
        after_completeOk_writeBytes s .sig _ _ _⟩
  · exact failsWith_of_stage (i := .preprocess) (stagePreprocess_of_large large)
  · exact failsWith_of_stage (i := .preprocess) (stagePreprocess_of_odd (not_lt.mpr fits) odd)

/-! ## The signal in SIG (10_state.md R68) -/

theorem bytesWord_byteOf (w : Word) : bytesWord (byteOf w 0) (byteOf w 1) (byteOf w 2) (byteOf w 3) = w := by
  unfold bytesWord byteOf
  refine BitVec.eq_of_getLsbD_eq fun i lt => ?_
  simp only [BitVec.getLsbD_append, BitVec.getLsbD_extractLsb']
  split_ifs
  all_goals
    rw [decide_eq_true (by omega), Bool.true_and]
    congr 1
    omega

theorem wordsOfBytes_bytesOfWords (ws : List Word) : wordsOfBytes (bytesOfWords ws) = ws := by
  induction ws with
  | nil => rfl
  | cons w ws ih => exact congrArg₂ List.cons (bytesWord_byteOf w) ih

theorem pairUp_flatMap {α β : Type} (f g : α → β) (xs : List α) :
    pairUp (xs.flatMap fun x => [f x, g x]) = xs.map fun x => (f x, g x) := by
  induction xs with
  | nil => rfl
  | cons x xs ih => exact congrArg (List.cons _) ih

/-- The numbers that a 32-bit word can be. -/
abbrev WordValued (sig : List (Int × Int)) : Prop :=
  ∀ z ∈ sig, -2147483648 ≤ z.1 ∧ z.1 ≤ 2147483647 ∧ -2147483648 ≤ z.2 ∧ z.2 ≤ 2147483647

theorem toInt_ofInt_word {x : Int} (lower : -2147483648 ≤ x) (upper : x ≤ 2147483647) : (BitVec.ofInt 32 x).toInt = x := by
  rw [BitVec.toInt_ofInt]
  exact Int.bmod_eq_of_le (by omega) (by omega)

theorem sigSamples_signalBytes {sig : List (Int × Int)} (range : WordValued sig) :
    sigSamples (signalBytes sig) = sig := by
  rw [sigSamples, signalBytes, wordsOfBytes_bytesOfWords, pairUp_flatMap, List.map_map]
  refine (List.map_congr_left fun z mem => ?_).trans (List.map_id sig)
  obtain ⟨reLower, reUpper, imLower, imUpper⟩ := range z mem
  exact Prod.ext (toInt_ofInt_word reLower reUpper) (toInt_ofInt_word imLower imUpper)

theorem length_signalBytes (sig : List (Int × Int)) : (signalBytes sig).length = 8 * sig.length := by
  rw [signalBytes, length_bytesOfWords, length_iqWords]
  omega

/-! ## Order statistics (R214) -/

theorem mergeRising_perm (fuel : Nat) (xs ys : List Int) : (mergeRising fuel xs ys).Perm (xs ++ ys) := by
  induction fuel generalizing xs ys with
  | zero => exact .refl _
  | succ fuel ih =>
    cases xs with
    | nil => exact .refl _
    | cons x xs =>
      cases ys with
      | nil => exact .of_eq (List.append_nil _).symm
      | cons y ys =>
        rw [mergeRising]
        split_ifs
        · exact (ih xs (y :: ys)).cons x
        · exact ((ih (x :: xs) ys).cons y).trans List.perm_middle.symm

theorem mergeRising_pairwise {fuel : Nat} {xs ys : List Int} (enough : xs.length + ys.length ≤ fuel)
    (hx : xs.Pairwise (· ≤ ·)) (hy : ys.Pairwise (· ≤ ·)) : (mergeRising fuel xs ys).Pairwise (· ≤ ·) := by
  induction fuel generalizing xs ys with
  | zero =>
    obtain rfl : xs = [] := List.length_eq_zero_iff.mp (by omega)
    exact hy
  | succ fuel ih =>
    cases xs with
    | nil => exact hy
    | cons x xs =>
      cases ys with
      | nil => exact hx
      | cons y ys =>
        obtain ⟨least_x, rest_x⟩ := List.pairwise_cons.mp hx
        obtain ⟨least_y, rest_y⟩ := List.pairwise_cons.mp hy
        rw [List.length_cons, List.length_cons] at enough
        rw [mergeRising]
        split_ifs with first
        · refine List.pairwise_cons.mpr ⟨fun z mem => ?_, ih (by rw [List.length_cons]; omega) rest_x hy⟩
          rcases List.mem_append.mp ((mergeRising_perm ..).mem_iff.mp mem) with left | right
          · exact least_x z left
          · rcases List.mem_cons.mp right with rfl | later
            · exact first
            · exact first.trans (least_y z later)
        · have before := (not_le.mp first).le
          refine List.pairwise_cons.mpr ⟨fun z mem => ?_, ih (by rw [List.length_cons]; omega) hx rest_y⟩
          rcases List.mem_append.mp ((mergeRising_perm ..).mem_iff.mp mem) with left | right
          · rcases List.mem_cons.mp left with rfl | later
            · exact before
            · exact before.trans (least_x z later)
          · exact least_y z right

theorem sortWith_perm (fuel : Nat) (xs : List Int) : (sortWith fuel xs).Perm xs := by
  induction fuel generalizing xs with
  | zero => exact .refl _
  | succ fuel ih =>
    rw [sortWith]
    split_ifs
    · exact .refl _
    · refine (mergeRising_perm ..).trans (((ih _).append (ih _)).trans ?_)
      rw [List.take_append_drop]

theorem sortWith_pairwise {fuel : Nat} {xs : List Int} (enough : xs.length ≤ fuel) :
    (sortWith fuel xs).Pairwise (· ≤ ·) := by
  induction fuel generalizing xs with
  | zero =>
    obtain rfl : xs = [] := List.length_eq_zero_iff.mp (by omega)
    exact .nil
  | succ fuel ih =>
    rw [sortWith]
    split_ifs with single
    · match xs, single with
      | [], _ => exact .nil
      | [x], _ => exact List.pairwise_singleton _ x
    · refine mergeRising_pairwise ?_ (ih ?_) (ih ?_)
      · rw [(sortWith_perm ..).length_eq, (sortWith_perm ..).length_eq, List.length_take, List.length_drop]
        omega
      · rw [List.length_take]
        omega
      · rw [List.length_drop]
        omega

/-- Every rising permutation of a list is the sorted list. -/
theorem sortAscending_eq {xs sorted : List Int} (perm : sorted.Perm xs) (rising : sorted.Pairwise (· ≤ ·)) :
    sortAscending xs = sorted :=
  ((sortWith_perm _ xs).trans perm.symm).eq_of_pairwise (fun _ _ _ _ => le_antisymm) (sortWith_pairwise le_rfl) rising

theorem percentile_of_percentiles {w : List Int} {lo hi : Int} (h : Percentiles w lo hi) :
    percentile Config.LO_NUM (sortAscending w) = lo ∧ percentile Config.HI_NUM (sortAscending w) = hi := by
  obtain ⟨sorted, perm, rising, low, high⟩ := h
  rw [sortAscending_eq perm rising]
  simp only [percentile, Config.LO_NUM, Config.HI_NUM, Config.PCT_DEN, perm.length_eq, Nat.one_mul,
    List.getD_eq_getElem?_getD, low, high, Option.getD_some, and_self]

/-! ## DETECT (R210) -/

theorem stageDetect_of_large {s : State} (large : s.params.sigDepth < zext s.regs.sigLen) :
    stageDetect s = .fail s .param (paramInfo .sigLen) := by
  rw [stageDetect, if_pos large]

theorem stageDetect_of_empty {s : State} (empty : s.regs.sigLen = 0) :
    stageDetect s = .done (s.withRegs { s.regs with thresh := 0, lo := 0, hi := 0, symLen := 0 }) flagInsuf := by
  have no_samples : zext s.regs.sigLen = 0 := by rw [empty]; rfl
  rw [stageDetect, no_samples]
  rfl

/-- The state in which DETECT has stored the envelope `w`. -/
abbrev envelopeStored (s : State) (w : List Int) : State := s.writeBytes .env (bytesOfWords (w.map (BitVec.ofInt 32)))

theorem stageDetect_of_holds {s : State} {sig : List (Int × Int)} {lo hi : Int} (count : sig.length = s.regs.sigLen.toNat)
    (nonempty : 1 ≤ sig.length) (short : sig.length ≤ s.params.sigDepth) (range : WordValued sig)
    (holds : HoldsBytes s .sig (signalBytes sig)) (order : Percentiles (envelope s.regs sig) lo hi) :
    stageDetect s =
      if hi - lo < s.regs.threshMin.toNat then
        .done ((envelopeStored s (envelope s.regs sig)).withRegs { detectRegs s.regs lo hi with symLen := 0 }) flagInsuf
      else
        .done
          (((envelopeStored s (envelope s.regs sig)).writeSym
              ((envelope s.regs sig).map fun w => decide (hi - lo < 2 * |w|))).withRegs
            { detectRegs s.regs lo hi with symLen := BitVec.ofNat 32 sig.length })
          noFlags := by
  have length : zext s.regs.sigLen = sig.length := count.symm
  obtain ⟨low, high⟩ := percentile_of_percentiles order
  rw [stageDetect, length, if_neg (by omega), if_neg (by omega), readBytes_of_holds (length_signalBytes sig) holds,
    withRead_ok, sigSamples_signalBytes range]
  dsimp only
  rw [low, high]
  rfl

/-- Settles O34: the two error-free ends of DETECT on a non-empty signal are the two sides of the test against THRESH_MIN. -/
theorem detectThresholds : Obligations.DetectThresholds := by
  refine ⟨fun s large => failsWith_of_stage (i := .detect) (stageDetect_of_large large), fun s empty => ?_,
    fun s sig lo hi count nonempty short range holds order => ?_⟩
  · exact ⟨_, exec_of_stage (i := .detect) (stageDetect_of_empty empty), after_completeOk_withRegs s _ _⟩
  · have stage := stageDetect_of_holds count nonempty short range holds order
    refine ⟨fun below => ?_, fun reached => ?_⟩
    · rw [if_pos below] at stage
      exact ⟨_, exec_of_stage (i := .detect) stage, after_completeOk_writeBytes s .env _ _ _⟩
    · rw [if_neg (not_lt.mpr reached)] at stage
      exact ⟨_, exec_of_stage (i := .detect) stage, after_completeOk_writeSym s .env _ _ _ _⟩

end Sys2Proof.Proofs.Demodulator
end

/-! PROOF. Bit recovery (43_slicer_sync_decoder.md R240 to R243): the maximal runs of a bit string, how many bits a run gives,
and what SLICE leaves. -/
section

namespace Sys2Proof.Proofs.Slicer

open Sys2Proof.Machine Sys2Proof.Safety Sys2Proof.Proofs.Scope Sys2Proof.Proofs.CommandFrame
  Sys2Proof.Proofs.CommandOutputs Sys2Proof.Proofs.Transmit Sys2Proof.Proofs.Demodulator

/-! ## Maximal runs (R240) -/

/-- The value of the first run, if there is one, is not `v`. -/
abbrev StartsApart (v : Bool) (rs : List (Bool × Nat)) : Prop := ∀ run ∈ rs.head?, v ≠ run.1

theorem runs_cons_of_apart {v : Bool} {bits : List Bool} (apart : StartsApart v (runs bits)) :
    runs (v :: bits) = (v, 1) :: runs bits := by
  rw [runs]
  split
  · next empty => rw [empty]
  · next w n rest tail =>
    rw [tail] at apart ⊢
    exact if_neg (apart (w, n) rfl).symm

theorem runs_cons_of_same {v : Bool} {n : Nat} {bits : List Bool} {rest : List (Bool × Nat)}
    (tail : runs bits = (v, n) :: rest) : runs (v :: bits) = (v, n + 1) :: rest := by
  rw [runs, tail]
  exact if_pos rfl

/-- One more bit starts a run of its own, or lengthens the first run. -/
theorem runs_cons_cases (v : Bool) (bits : List Bool) :
    (StartsApart v (runs bits) ∧ runs (v :: bits) = (v, 1) :: runs bits) ∨
      ∃ n rest, runs bits = (v, n) :: rest ∧ runs (v :: bits) = (v, n + 1) :: rest := by
  by_cases apart : StartsApart v (runs bits)
  · exact .inl ⟨apart, runs_cons_of_apart apart⟩
  · match tail : runs bits with
    | [] => simp [tail, StartsApart] at apart
    | (w, n) :: rest =>
      have same : v = w := by simpa [tail, StartsApart] using apart
      subst same
      exact .inr ⟨n, rest, rfl, runs_cons_of_same tail⟩

theorem maximalRuns_cons_iff (v : Bool) (n : Nat) (rs : List (Bool × Nat)) :
    MaximalRuns ((v, n) :: rs) ↔ 1 ≤ n ∧ StartsApart v rs ∧ MaximalRuns rs := by
  simp only [MaximalRuns, List.forall_mem_cons, List.isChain_cons]
  tauto

theorem maximalRuns_runs (bits : List Bool) : MaximalRuns (runs bits) := by
  induction bits with
  | nil => exact ⟨by simp [runs], .nil⟩
  | cons v bits ih =>
    rcases runs_cons_cases v bits with ⟨apart, own⟩ | ⟨n, rest, tail, longer⟩
    · rw [own, maximalRuns_cons_iff]
      exact ⟨le_rfl, apart, ih⟩
    · rw [tail, maximalRuns_cons_iff] at ih
      rw [longer, maximalRuns_cons_iff]
      exact ⟨by omega, ih.2⟩

theorem runsExpand_cons (v : Bool) (n : Nat) (rs : List (Bool × Nat)) :
    runsExpand ((v, n) :: rs) = List.replicate n v ++ runsExpand rs := rfl

theorem runsExpand_runs (bits : List Bool) : runsExpand (runs bits) = bits := by
  induction bits with
  | nil => rfl
  | cons v bits ih =>
    rcases runs_cons_cases v bits with ⟨-, own⟩ | ⟨n, rest, tail, longer⟩
    · rw [own, runsExpand_cons, ih]
      rfl
    · rw [tail, runsExpand_cons] at ih
      rw [longer, runsExpand_cons, List.replicate_succ, List.cons_append, ih]

theorem runs_replicate_append {v : Bool} {bits : List Bool} (apart : StartsApart v (runs bits)) (n : Nat) :
    runs (List.replicate (n + 1) v ++ bits) = (v, n + 1) :: runs bits := by
  induction n with
  | zero => exact runs_cons_of_apart apart
  | succ n ih => exact runs_cons_of_same ih

/-- A bit string has no other maximal runs. -/
theorem runs_runsExpand {rs : List (Bool × Nat)} (maximal : MaximalRuns rs) : runs (runsExpand rs) = rs := by
  induction rs with
  | nil => rfl
  | cons run rs ih =>
    obtain ⟨v, n⟩ := run
    obtain ⟨pos, apart, rest⟩ := (maximalRuns_cons_iff v n rs).mp maximal
    obtain ⟨m, rfl⟩ := Nat.exists_eq_add_of_le' pos
    rw [← ih rest] at apart
    rw [runsExpand_cons, runs_replicate_append apart, ih rest]

theorem recoverBits_runsExpand {rs : List (Bool × Nat)} (maximal : MaximalRuns rs) (L : Nat) :
    recoverBits L (runsExpand rs) = runsEmit L rs := by
  rw [recoverBits, runs_runsExpand maximal]
  rfl

/-! ## How many bits a run gives (R241, R242) -/

theorem runBits_of_kept {L r : Nat} (kept : L ≤ r) (v : Bool) : runBits L (v, r) = List.replicate (rne r L).toNat v :=
  if_pos kept

theorem runBits_of_discarded {L r : Nat} (short : r < L) (v : Bool) : runBits L (v, r) = [] :=
  if_neg (not_le.mpr short)

/-- Rounding goes down to the floor or up by one. -/
theorem ediv_le_rne (a b : Int) : a / b ≤ rne a b := by
  unfold rne
  dsimp only
  split_ifs <;> omega

theorem one_le_toNat_rne {L r : Nat} (pos : 1 ≤ L) (kept : L ≤ r) : 1 ≤ (rne r L).toNat := by
  have quotient : (1 : Int) ≤ r / L := by exact_mod_cast (Nat.one_le_div_iff pos).mpr kept
  have := ediv_le_rne r L
  omega

theorem rne_mul_right (a b : Int) {c : Int} (hb : 0 < b) (hc : 0 < c) : rne (a * c) (b * c) = rne a b := by
  have scaled := roundsTo_rne (a * c) (mul_pos hb hc)
  have nonzero : (c : ℝ) ≠ 0 := by exact_mod_cast hc.ne'
  push_cast at scaled
  rw [mul_div_mul_right _ _ nonzero] at scaled
  exact roundsTo_unique scaled (roundsTo_rne a hb)

/-- A run of a/b times L samples gives as many bits as a samples give at b samples per symbol. -/
theorem runBits_mul {L a b : Nat} (pos : 1 ≤ L) (hb : 0 < b) (v : Bool) : runBits (b * L) (v, a * L) = runBits b (v, a) := by
  have rounded : rne ((a * L : Nat) : Int) ((b * L : Nat) : Int) = rne a b := by
    push_cast
    exact rne_mul_right a b (by omega) (by omega)
  have kept_iff : b * L ≤ a * L ↔ b ≤ a := Nat.mul_le_mul_right_iff pos
  simp only [runBits, rounded, kept_iff]

/-- Settles O39: the multiples of L and of 2L are the rounded quotients 3/1, 3/2, 5/2 and 7/2. -/
theorem runLengthQuantization : Obligations.RunLengthQuantization := by
  refine ⟨fun L r v pos kept => ⟨runBits_of_kept kept v, one_le_toNat_rne pos kept⟩, fun L v pos => ?_,
    fun L r v short => runBits_of_discarded short v, fun L v pos => runBits_of_discarded (by omega) v⟩
  have whole : runBits L (v, 3 * L) = runBits 1 (v, 3) := by
    have scaled := runBits_mul (a := 3) pos one_pos v
    rwa [one_mul] at scaled
  have quotients : ∀ v : Bool, runBits 1 (v, 3) = [v, v, v] ∧ runBits 2 (v, 3) = [v, v] ∧ runBits 2 (v, 5) = [v, v] ∧
      runBits 2 (v, 7) = [v, v, v, v] := by decide
  rw [whole, runBits_mul pos two_pos, runBits_mul pos two_pos, runBits_mul pos two_pos]
  exact quotients v

/-! ## SLICE (R240) -/

theorem readSym_of_holds {s : State} {sym : List Bool} (holds : HoldsSym s sym) : readSym s sym.length = .ok sym :=
  (readBits_eq_ok_iff ..).mpr ⟨rfl, holds⟩

theorem stageSlice_of_large {s : State} (large : s.params.sigDepth < zext s.regs.symLen) :
    stageSlice s = .fail s .param (paramInfo .symLen) := if_pos large

theorem stageSlice_of_zero {s : State} (fits : zext s.regs.symLen ≤ s.params.sigDepth) (zero : s.regs.rxSymLen = 0) :
    stageSlice s = .fail s .param (paramInfo .rxSymLen) := by
  rw [stageSlice, if_neg (not_lt.mpr fits), if_pos (by rw [zero]; rfl)]

theorem zext_ne_zero {n : Nat} {x : BitVec n} (nonzero : x ≠ 0) : zext x ≠ 0 :=
  fun zero => nonzero (BitVec.eq_of_toNat_eq zero)

/-- The state of SLICE's outputs: the recovered bits in BITS and their number. -/
abbrev sliced (s : State) (bits : List Bool) : State :=
  (s.writeBitString bits).withRegs { s.regs with bitsLen := BitVec.ofNat 32 bits.length }

theorem stageSlice_of_holds {s : State} {sym : List Bool} (count : sym.length = s.regs.symLen.toNat)
    (short : sym.length ≤ s.params.sigDepth) (nonzero : s.regs.rxSymLen ≠ 0) (holds : HoldsSym s sym) :
    stageSlice s = .done (sliced s (recoverBits s.regs.rxSymLen.toNat sym)) noFlags := by
  have length : zext s.regs.symLen = sym.length := count.symm
  rw [stageSlice, length, if_neg (not_lt.mpr short), if_neg (zext_ne_zero nonzero), readSym_of_holds holds, withRead_ok]
  rfl

/-- A completion after one write of BITS and new registers. -/
theorem after_completeOk_writeBitString (s : State) (bits : List Bool) (x : Regs) (f : StatusFlags) :
    After s (((s.writeBitString bits).withRegs x).completeOk f) (okRegs x f) [] [] bits where
  seq := rfl
  regs := rfl
  byteAt _ := rfl
  symAt _ := rfl
  bitsAt := bitsAt_writeBitString s bits
  inbox := rfl
  responses := rfl
  served := rfl
  params := rfl

/-- Settles O38: `runs` finds the maximal runs, and no others exist, so SLICE emits those of any given maximal runs. -/
theorem sliceRecoversBits : Obligations.SliceRecoversBits := by
  refine ⟨fun sym => ⟨runs sym, maximalRuns_runs sym, (runsExpand_runs sym).symm⟩,
    fun s rs maximal count short nonzero holds => ?_, fun s large => ?_, fun s fits zero => ?_⟩
  · have stage := stageSlice_of_holds count short nonzero holds
    rw [recoverBits_runsExpand maximal] at stage
    exact ⟨_, exec_of_stage (i := .slice) stage, after_completeOk_writeBitString s _ _ _⟩
  · exact failsWith_of_stage (i := .slice) (stageSlice_of_large large)
  · exact failsWith_of_stage (i := .slice) (stageSlice_of_zero fits zero)

/-! ## No overflow (R243) -/

theorem stageSlice_bitsLen_le (s : State) :
    Leaves (fun t => t.regs.bitsLen.toNat ≤ t.regs.symLen.toNat ∧ t.regs.symLen.toNat ≤ s.params.sigDepth)
      (fun _ => True) (stageSlice s) := by
  unfold stageSlice
  split_ifs with large zero
  · trivial
  · trivial
  · refine .withRead fun sym read => ⟨?_, not_lt.mp large⟩
    have count : sym.length = s.regs.symLen.toNat := ((readBits_eq_ok_iff ..).mp read).1
    calc (natWord (recoverBits (zext s.regs.rxSymLen) sym).length).toNat
        ≤ (recoverBits (zext s.regs.rxSymLen) sym).length := Nat.mod_le _ _
      _ ≤ sym.length := length_recoverBits_le (Nat.pos_of_ne_zero zero) sym
      _ = s.regs.symLen.toNat := count

theorem errCode_value_ne_zero (code : ErrCode) : code.value ≠ 0 := by cases code <;> decide

/-- A completion without error leaves what the stage leaves, but for the completion registers. -/
theorem completeOk_of_errCode_zero {i : Instr} {s t : State} {ok err : State → Prop} (leaves : Leaves ok err (stageOf i s))
    (run : exec i s = .next t) (clean : t.regs.errCode = 0) : ∃ u f, ok u ∧ t = u.completeOk f := by
  rw [exec_eq_finish_stageOf, finish_eq_next_iff] at run
  rcases run with ⟨u, f, stage, rfl⟩ | ⟨u, code, info, -, rfl⟩
  · rw [stage] at leaves
    exact ⟨u, f, leaves, rfl⟩
  · exact absurd clean (errCode_value_ne_zero code)

theorem length_kept_le_length_runsEmit {L : Nat} (pos : 1 ≤ L) (rs : List (Bool × Nat)) :
    (rs.filter fun x => decide (L ≤ x.2)).length ≤ (runsEmit L rs).length := by
  induction rs with
  | nil => exact le_rfl
  | cons run rs ih =>
    have emit : runsEmit L (run :: rs) = runBits L run ++ runsEmit L rs := rfl
    rw [emit, List.length_append]
    by_cases kept : L ≤ run.2
    · have bits : 1 ≤ (runBits L run).length := by
        rw [runBits_of_kept kept, List.length_replicate]
        exact one_le_toNat_rne pos kept
      rw [List.filter_cons_of_pos (by simpa using kept), List.length_cons]
      omega
    · rw [List.filter_cons_of_neg (by simpa using kept)]
      omega

/-- Settles O40: the rounding never exceeds the run, so the recovered bits are at most the symbols. -/
theorem sliceNeverOverflows : Obligations.SliceNeverOverflows := by
  refine ⟨fun r L => rne_le_self, fun s t run clean => ?_, fun L rs pos => length_kept_le_length_runsEmit pos rs⟩
  obtain ⟨u, f, bounds, rfl⟩ := completeOk_of_errCode_zero (i := .slice) (stageSlice_bitsLen_le s) run clean
  exact bounds

end Sys2Proof.Proofs.Slicer
end

/-! PROOF. The greedy decoder (43_slicer_sync_decoder.md R262 to R267): the key selected at a position, the token list as the
literal loop computes it, and the writes of a decode. -/
section

namespace Sys2Proof.Proofs.GreedyDecoder

open Sys2Proof.Machine Sys2Proof.Safety Sys2Proof.Proofs.CommandFrame Sys2Proof.Proofs.CommandOutputs

/-! ## Keys (R262, R263) -/

@[simp] theorem length_keyBits (x : DecEntry) : x.keyBits.length = x.klen := by
  simp [DecEntry.keyBits, wordBits]

theorem keyMatches_iff (bits : List Bool) (x : DecEntry) :
    keyMatches bits x = true ↔ x.present = true ∧ x.keyBits <+: bits := by
  rw [keyMatches, Bool.and_eq_true, List.isPrefixOf_iff_prefix]

/-- R263's reason: of two prefixes of the same bits the greater is the longer. -/
theorem lexLess_of_prefixes {a b bits : List Bool} (ha : a <+: bits) (hb : b <+: bits) :
    lexLess a b = decide (a.length < b.length) := by
  induction bits generalizing a b with
  | nil =>
    rw [List.prefix_nil.mp ha, List.prefix_nil.mp hb]
    rfl
  | cons c bits ih =>
    rcases List.prefix_cons_iff.mp ha with rfl | ⟨a, rfl, restA⟩ <;>
      rcases List.prefix_cons_iff.mp hb with rfl | ⟨b, rfl, restB⟩
    · rfl
    · simp [lexLess]
    · simp [lexLess]
    · simp [lexLess, ih restA restB]

theorem betterKey_of_matches {bits : List Bool} {x y : DecEntry} (hx : keyMatches bits x = true)
    (hy : keyMatches bits y = true) : betterKey (some x) y = if x.klen < y.klen then some y else some x := by
  rw [keyMatches_iff] at hx hy
  simp [betterKey, lexLess_of_prefixes hx.2 hy.2]

/-- One more entry at the end of the table competes with the entry selected so far. -/
theorem matchAt_concat (table : List DecEntry) (y : DecEntry) (bits : List Bool) :
    matchAt (table ++ [y]) bits =
      if keyMatches bits y then betterKey (matchAt table bits) y else matchAt table bits := by
  unfold matchAt
  rw [List.filter_append, List.foldl_append, List.filter_singleton]
  split_ifs with hy <;> simp [hy]

/-- `x` is the lowest entry among those with the longest matching key. -/
def FirstLongest (table : List DecEntry) (bits : List Bool) (x : DecEntry) : Prop :=
  ∃ e : Nat, table[e]? = some x ∧ keyMatches bits x = true ∧
    ∀ (d : Nat) (y : DecEntry), table[d]? = some y → keyMatches bits y = true → y.klen ≤ x.klen ∧ (d < e → y.klen < x.klen)

theorem FirstLongest.matched {table : List DecEntry} {bits : List Bool} {x : DecEntry} (h : FirstLongest table bits x) :
    keyMatches bits x = true := by
  obtain ⟨e, -, hx, -⟩ := h
  exact hx

theorem getElem?_concat_cases {α : Type} {xs : List α} {x y : α} {d : Nat} (h : (xs ++ [y])[d]? = some x) :
    xs[d]? = some x ∨ d = xs.length ∧ x = y := by
  rw [List.getElem?_append] at h
  split_ifs at h with inside
  · exact .inl h
  · obtain ⟨lt, rfl⟩ := List.getElem?_eq_some_iff.mp h
    simp only [List.length_singleton] at lt
    exact .inr ⟨by omega, by simp⟩

/-- An entry that does not match, or whose key is not longer, changes nothing at the end of the table. -/
theorem FirstLongest.concat_kept {table : List DecEntry} {bits : List Bool} {x y : DecEntry}
    (h : FirstLongest table bits x) (loses : keyMatches bits y = true → y.klen ≤ x.klen) :
    FirstLongest (table ++ [y]) bits x := by
  obtain ⟨e, at_e, hx, best⟩ := h
  have inside := (List.getElem?_eq_some_iff.mp at_e).1
  refine ⟨e, by rw [List.getElem?_append_left inside, at_e], hx, fun d z at_d hz => ?_⟩
  rcases getElem?_concat_cases at_d with old | ⟨rfl, rfl⟩
  · exact best d z old hz
  · exact ⟨loses hz, fun before => absurd before (by omega)⟩

/-- An entry that matches with a longer key than every entry before it wins at the end of the table. -/
theorem firstLongest_concat_new {table : List DecEntry} {bits : List Bool} {y : DecEntry} (hy : keyMatches bits y = true)
    (wins : ∀ z ∈ table, keyMatches bits z = true → z.klen < y.klen) : FirstLongest (table ++ [y]) bits y := by
  refine ⟨table.length, by simp, hy, fun d z at_d hz => ?_⟩
  rcases getElem?_concat_cases at_d with old | ⟨rfl, rfl⟩
  · have shorter := wins z (List.mem_of_getElem? old) hz
    exact ⟨shorter.le, fun _ => shorter⟩
  · exact ⟨le_rfl, fun before => absurd before (by omega)⟩

/-- What `matchAt` answers: nothing where no entry matches, else the lowest entry with the longest matching key. -/
theorem matchAt_spec (table : List DecEntry) (bits : List Bool) :
    (matchAt table bits = none ∧ ∀ y ∈ table, keyMatches bits y = false) ∨
      ∃ x, matchAt table bits = some x ∧ FirstLongest table bits x := by
  induction table using List.reverseRecOn with
  | nil => exact .inl ⟨rfl, by simp⟩
  | append_singleton table y ih =>
    rw [matchAt_concat]
    rcases ih with ⟨none_yet, no_match⟩ | ⟨x, selected, longest⟩
    · by_cases hy : keyMatches bits y = true
      · refine .inr ⟨y, by rw [if_pos hy, none_yet]; rfl, firstLongest_concat_new hy fun z mem hz => ?_⟩
        rw [no_match z mem] at hz
        cases hz
      · refine .inl ⟨by rw [if_neg hy, none_yet], fun z mem => ?_⟩
        rcases List.mem_append.mp mem with old | new
        · exact no_match z old
        · rw [List.mem_singleton.mp new]
          exact Bool.eq_false_iff.mpr hy
    · rw [selected]
      by_cases hy : keyMatches bits y = true
      · rw [if_pos hy, betterKey_of_matches longest.matched hy]
        by_cases longer : x.klen < y.klen
        · refine .inr ⟨y, if_pos longer, firstLongest_concat_new hy fun z mem hz => ?_⟩
          obtain ⟨e, -, -, best⟩ := longest
          obtain ⟨d, at_d⟩ := List.mem_iff_getElem?.mp mem
          exact (best d z at_d hz).1.trans_lt longer
        · exact .inr ⟨x, if_neg longer, longest.concat_kept fun _ => not_lt.mp longer⟩
      · exact .inr ⟨x, if_neg hy, longest.concat_kept fun matching => absurd matching hy⟩

theorem matchAt_eq_none_iff (table : List DecEntry) (bits : List Bool) :
    matchAt table bits = none ↔ ∀ y ∈ table, keyMatches bits y = false := by
  rcases matchAt_spec table bits with ⟨none_found, no_match⟩ | ⟨x, selected, longest⟩
  · simp only [none_found, true_iff]
    exact no_match
  · obtain ⟨e, at_e, hx, -⟩ := longest
    simp only [selected, reduceCtorEq, false_iff]
    intro no_match
    rw [no_match x (List.mem_of_getElem? at_e)] at hx
    cases hx

theorem firstLongest_of_matchAt {table : List DecEntry} {bits : List Bool} {x : DecEntry}
    (h : matchAt table bits = some x) : FirstLongest table bits x := by
  rcases matchAt_spec table bits with ⟨none_found, -⟩ | ⟨y, selected, longest⟩
  · rw [none_found] at h
    cases h
  · rw [selected] at h
    cases h
    exact longest

theorem mem_of_matchAt {table : List DecEntry} {bits : List Bool} {x : DecEntry} (h : matchAt table bits = some x) :
    x ∈ table ∧ x.present = true ∧ x.keyBits <+: bits := by
  obtain ⟨e, at_e, hx, -⟩ := firstLongest_of_matchAt h
  exact ⟨List.mem_of_getElem? at_e, (keyMatches_iff bits x).mp hx⟩

/-- Settles O43: among prefixes of the same bits greater means longer, and only a longer key displaces an earlier entry. -/
theorem longestMatchSelected : Obligations.LongestMatchSelected := by
  refine fun table bits => ⟨?_, fun x selected => ?_⟩
  · simp only [matchAt_eq_none_iff, Bool.eq_false_iff, ne_eq, keyMatches_iff, not_and]
  · obtain ⟨e, at_e, hx, best⟩ := firstLongest_of_matchAt selected
    obtain ⟨present, isPrefix⟩ := (keyMatches_iff bits x).mp hx
    refine ⟨e, at_e, present, isPrefix, length_keyBits x, fun d y at_d presentY prefixY => ?_⟩
    obtain ⟨notLonger, earlier⟩ := best d y at_d ((keyMatches_iff bits y).mpr ⟨presentY, prefixY⟩)
    refine ⟨?_, notLonger, fun before same => ?_⟩
    · rw [lexLess_of_prefixes isPrefix prefixY, length_keyBits, length_keyBits, decide_eq_false (by omega)]
    · have sameLength := congrArg List.length same
      rw [length_keyBits, length_keyBits] at sameLength
      exact absurd (earlier before) (by omega)

/-! ## The token list (R264, R265) -/

@[simp] theorem greedyTokens_nil (table : List DecEntry) (tok : List Byte) (skip : Nat) :
    greedyTokens table tok skip [] = [] := by
  rw [greedyTokens]

/-- The bits of a matched key are passed over. -/
theorem greedyTokens_skip (table : List DecEntry) (tok : List Byte) (skip : Nat) (bits : List Bool) :
    greedyTokens table tok skip bits = greedyTokens table tok 0 (bits.drop skip) := by
  induction skip generalizing bits with
  | zero => rfl
  | succ skip ih =>
    cases bits with
    | nil => simp
    | cons b bits => rw [greedyTokens, ih, List.drop_succ_cons]

theorem greedyTokens_of_match {table : List DecEntry} {bits : List Bool} {x : DecEntry} (tok : List Byte)
    (nonempty : bits ≠ []) (pos : 1 ≤ x.klen) (selected : matchAt table bits = some x) :
    greedyTokens table tok 0 bits = greedyTokens table (tok ++ x.valBytes) 0 (bits.drop x.klen) := by
  obtain ⟨b, bits, rfl⟩ := List.exists_cons_of_ne_nil nonempty
  obtain ⟨n, length⟩ := Nat.exists_eq_add_of_le' pos
  rw [greedyTokens, selected, length, List.drop_succ_cons]
  dsimp only
  rw [length, Nat.add_sub_cancel, greedyTokens_skip]

/-- A bit that no key matches closes the token in progress, if it has bytes. -/
theorem greedyTokens_of_noMatch {table : List DecEntry} {b : Bool} {bits : List Bool} (tok : List Byte)
    (noMatch : matchAt table (b :: bits) = none) :
    greedyTokens table tok 0 (b :: bits) =
      if tok = [] then greedyTokens table [] 0 bits else tok :: greedyTokens table [] 0 bits := by
  rw [greedyTokens, noMatch]
  cases tok <;> rfl

/-! ## The loop of R264 -/

/-- The data and ends of a loop that has found `tokens` more. -/
def appendTokens (data : List Byte) (ends : List Nat) (tokens : List (List Byte)) : List Byte × List Nat :=
  (data ++ tokens.flatten, ends ++ tokenEnds data.length tokens)

theorem appendTokens_nil (data : List Byte) (ends : List Nat) : appendTokens data ends [] = (data, ends) := by
  simp [appendTokens, tokenEnds]

theorem appendTokens_cons (data : List Byte) (ends : List Nat) (t : List Byte) (ts : List (List Byte)) :
    appendTokens data ends (t :: ts) = appendTokens (data ++ t) (ends ++ [(data ++ t).length]) ts := by
  simp [appendTokens, tokenEnds]

/-- The loop from any round on: what it still finds is the token list of the bits from its position on. -/
theorem greedyLoop_eq_appendTokens {table : List DecEntry} {bits : List Bool}
    (keys : ∀ x ∈ table, x.present = true → 1 ≤ x.klen) (fuel i : Nat) (tok data : List Byte) (ends : List Nat)
    (enough : bits.length ≤ i + fuel) :
    greedyLoop table bits fuel i tok data ends = appendTokens data ends (greedyTokens table tok 0 (bits.drop i)) := by
  induction fuel generalizing i tok data ends with
  | zero => rw [greedyLoop, List.drop_of_length_le (by omega), greedyTokens_nil, appendTokens_nil]
  | succ fuel ih =>
    rw [greedyLoop]
    by_cases inside : i < bits.length
    · rw [if_pos inside]
      cases selected : matchAt table (bits.drop i) with
      | some x =>
        obtain ⟨mem, present, -⟩ := mem_of_matchAt selected
        have pos := keys x mem present
        have nonempty : bits.drop i ≠ [] := by simpa using inside
        rw [greedyTokens_of_match tok nonempty pos selected, List.drop_drop]
        exact ih _ _ _ _ (by omega)
      | none =>
        rw [List.drop_eq_getElem_cons inside] at selected ⊢
        rw [greedyTokens_of_noMatch tok selected]
        dsimp only
        by_cases empty : tok = []
        · subst empty
          exact ih _ _ _ _ (by omega)
        · rw [if_pos (List.length_pos_of_ne_nil empty), if_neg empty, appendTokens_cons]
          exact ih _ _ _ _ (by omega)
    · rw [if_neg inside, List.drop_of_length_le (not_lt.mp inside), greedyTokens_nil, appendTokens_nil]

/-- The end of a token is the number of bytes up to it. -/
theorem tokenEnds_eq_map (start : Nat) (tokens : List (List Byte)) :
    tokenEnds start tokens =
      (List.range tokens.length).map fun n => start + (tokens.take (n + 1)).flatten.length := by
  induction tokens generalizing start with
  | nil => rfl
  | cons t ts ih =>
    rw [tokenEnds, ih, List.length_cons, List.range_succ_eq_map, List.map_cons, List.map_map]
    simp [Function.comp_def, add_assoc]

/-- Settles O44: the loop, from its first round on. -/
theorem greedyLoopRefinement : Obligations.GreedyLoopRefinement := by
  intro table bits i0 fuel keys _ enough
  rw [greedyLoop_eq_appendTokens keys _ _ _ _ _ (by omega), appendTokens, tokenEnds_eq_map]
  simp only [List.length_nil, List.nil_append, Nat.zero_add]

/-! ## The writes of a decode (R260, R267) -/

theorem natWord_tokenEnds (tokens : List (List Byte)) : (tokenEnds 0 tokens).map natWord = endOffsets tokens := by
  rw [tokenEnds_eq_map, List.map_map]
  simp only [Nat.zero_add]
  rfl

/-- The state of a decode's outputs: the tokens in TOKD and TOKE and the registers `x` with their lengths. -/
abbrev tokensStored (s : State) (tokens : List (List Byte)) (x : Regs) : State :=
  ((s.writeBytes .tokd tokens.flatten).writeBytes .toke (bytesOfWords (endOffsets tokens))).withRegs (tokenRegs x tokens)

theorem tokenWrites_of_fit {s : State} {tokens : List (List Byte)} (fit : TokensFit s.params tokens) (x : Regs)
    (f : StatusFlags) : tokenWrites s tokens x f = .done (tokensStored s tokens x) f := by
  obtain ⟨dataFit, endsFit⟩ := fit
  rw [tokenWrites, if_neg (not_lt.mpr dataFit), if_neg (not_lt.mpr endsFit), natWord_tokenEnds]
  rfl

theorem tokenWrites_of_data_large {s : State} {tokens : List (List Byte)}
    (large : s.params.tokdDepth < tokens.flatten.length) (x : Regs) (f : StatusFlags) :
    tokenWrites s tokens x f = .fail s .overflow (overflowInfo .tokd) := if_pos large

theorem tokenWrites_of_ends_large {s : State} {tokens : List (List Byte)}
    (fits : tokens.flatten.length ≤ s.params.tokdDepth) (large : s.params.tokeDepth < tokens.length) (x : Regs)
    (f : StatusFlags) : tokenWrites s tokens x f = .fail s .overflow (overflowInfo .toke) := by
  rw [tokenWrites, if_neg (not_lt.mpr fits), if_pos large]

/-- Writes of two memories, each inside its memory, do not touch: the order in which they are listed does not matter. -/
theorem byteAt_writeBytes_twice {s : State} {v w : Window} {bs cs : List Byte} (other : v ≠ w)
    (fitV : bs.length ≤ v.size s.params) (fitW : cs.length ≤ w.size s.params) (a : Nat) :
    ((s.writeBytes v bs).writeBytes w cs).byteAt a = storedOr [(v, bs), (w, cs)] a (s.byteAt a) := by
  have roomV := fitV.trans (size_le_room s.params v)
  have roomW := fitW.trans (size_le_room s.params w)
  have apart := roomsApart other
  unfold RoomsApart at apart
  simp only [byteAt_writeBytes, storedOr]
  split_ifs
  · omega
  all_goals rfl

theorem after_completeOk_tokensStored {s : State} {tokens : List (List Byte)} (fit : TokensFit s.params tokens) (x : Regs)
    (f : StatusFlags) :
    After s ((tokensStored s tokens x).completeOk f) (okRegs (tokenRegs x tokens) f) (tokenStores tokens) [] [] where
  seq := rfl
  regs := rfl
  byteAt := by
    obtain ⟨dataFit, endsFit⟩ := fit
    refine byteAt_writeBytes_twice (by decide) dataFit ?_
    rw [length_bytesOfWords, endOffsets, List.length_map, List.length_range, Window.size]
    omega
  symAt _ := rfl
  bitsAt _ := rfl
  inbox := rfl
  responses := rfl
  served := rfl
  params := rfl

end Sys2Proof.Proofs.GreedyDecoder
end

/-! PROOF. SYNC and DECODE (43_slicer_sync_decoder.md R250 to R261): the validation of the decode table, the search for the
pattern, and what both commands leave. -/
section

namespace Sys2Proof.Proofs.Synchronizer

open Sys2Proof.Machine Sys2Proof.Safety Sys2Proof.Proofs.Transmit Sys2Proof.Proofs.CommandOutputs
  Sys2Proof.Proofs.Demodulator Sys2Proof.Proofs.Slicer Sys2Proof.Proofs.GreedyDecoder

/-! ## The decode table (R261) -/

/-- The fields of an entry are legal. -/
abbrev FieldsLegal (x : DecEntry) : Prop := 1 ≤ x.klen ∧ x.klen ≤ 32 ∧ x.vlen ≤ 4

theorem decEntryError_eq_none_iff (x : DecEntry) : decEntryError x = none ↔ (x.present = true → FieldsLegal x) := by
  unfold decEntryError FieldsLegal Config.MAX_KEY_BITS Config.MAX_VALUE_BYTES
  split_ifs with absent empty long value
  · have notPresent : x.present = false := by simpa using absent
    simp [notPresent]
  all_goals
    have present : x.present = true := by simpa using absent
    simp only [present, true_imp_iff, false_iff, true_iff]
    omega

theorem decEntryError_of_empty {x : DecEntry} (present : x.present = true) (empty : x.klen = 0) :
    decEntryError x = some 2 := by
  simp [decEntryError, present, empty]

theorem decEntryError_of_long {x : DecEntry} (present : x.present = true) (long : 32 < x.klen) :
    decEntryError x = some 1 := by
  have nonempty : x.klen ≠ 0 := by omega
  simp [decEntryError, Config.MAX_KEY_BITS, present, nonempty, long]

theorem decEntryError_of_value {x : DecEntry} (present : x.present = true) (nonempty : 1 ≤ x.klen) (short : x.klen ≤ 32)
    (value : 4 < x.vlen) : decEntryError x = some 3 := by
  have notEmpty : x.klen ≠ 0 := by omega
  simp [decEntryError, Config.MAX_KEY_BITS, Config.MAX_VALUE_BYTES, present, notEmpty, not_lt.mpr short, value]

theorem badDecEntryFrom_eq_none {xs : List DecEntry} (start : Nat) (legal : ∀ x ∈ xs, decEntryError x = none) :
    badDecEntryFrom start xs = none := by
  induction xs generalizing start with
  | nil => rfl
  | cons x xs ih =>
    obtain ⟨first, rest⟩ := List.forall_mem_cons.mp legal
    rw [badDecEntryFrom, first]
    exact ih _ rest

theorem badDecEntryFrom_eq_some {xs : List DecEntry} {x : DecEntry} {e reason : Nat} (start : Nat)
    (at_e : xs[e]? = some x) (bad : decEntryError x = some reason)
    (before : ∀ (d : Nat) (y : DecEntry), d < e → xs[d]? = some y → decEntryError y = none) :
    badDecEntryFrom start xs = some (start + e, reason) := by
  induction xs generalizing start e with
  | nil => simp at at_e
  | cons y xs ih =>
    cases e with
    | zero =>
      obtain rfl : y = x := by simpa using at_e
      rw [badDecEntryFrom, bad]
      rfl
    | succ e =>
      have shifted := ih (start + 1) (by simpa using at_e) fun d z lt at_d =>
        before (d + 1) z (by omega) (by simpa using at_d)
      rw [badDecEntryFrom, before 0 y (by omega) rfl]
      dsimp only
      rw [shifted, Nat.add_right_comm, Nat.add_assoc]

theorem getElem?_decTable {s : State} {e : Nat} (lt : e < s.params.decEntries) :
    (decTable s)[e]? = some (decEntry s e) := by
  simp [decTable, lt]

theorem mem_decTable_iff {s : State} {x : DecEntry} : x ∈ decTable s ↔ ∃ e < s.params.decEntries, decEntry s e = x := by
  simp [decTable]

theorem badDecEntry_of_legal {s : State} (legal : DecTableLegal s) : badDecEntryFrom 0 (decTable s) = none := by
  refine badDecEntryFrom_eq_none 0 fun x mem => ?_
  obtain ⟨e, lt, rfl⟩ := mem_decTable_iff.mp mem
  exact (decEntryError_eq_none_iff _).mpr (legal e lt)

theorem badDecEntry_of_first {s : State} {e reason : Nat} (lt : e < s.params.decEntries)
    (bad : decEntryError (decEntry s e) = some reason)
    (before : ∀ d, d < e → (decEntry s d).present = true → FieldsLegal (decEntry s d)) :
    badDecEntryFrom 0 (decTable s) = some (e, reason) := by
  rw [badDecEntryFrom_eq_some 0 (getElem?_decTable lt) bad, Nat.zero_add]
  intro d y lower at_d
  rw [getElem?_decTable (lower.trans lt), Option.some_inj] at at_d
  exact (decEntryError_eq_none_iff y).mpr (at_d ▸ before d lower)

/-! ## The search (R251) -/

theorem firstOccurrence_of_first {p bits : List Bool} {j : Nat} (first : FirstOccurrence p bits j) (start : Nat) :
    firstOccurrence p start bits = some (start + j) := by
  obtain ⟨occurs, earliest⟩ := first
  induction bits generalizing j start with
  | nil =>
    have empty : p = [] := by simpa [List.isPrefixOf_iff_prefix] using occurs
    have at_zero : j = 0 := by
      by_contra later
      simpa [empty] using earliest 0 (by omega)
    simp [firstOccurrence, empty, at_zero]
  | cons b bits ih =>
    cases j with
    | zero => exact if_pos occurs
    | succ j =>
      have not_here : p.isPrefixOf (b :: bits) = false := earliest 0 (by omega)
      rw [firstOccurrence, not_here, if_neg Bool.false_ne_true,
        ih (start + 1) occurs fun i lower => earliest (i + 1) (by omega), Nat.add_right_comm, Nat.add_assoc]

theorem firstOccurrence_of_nowhere {p bits : List Bool} (nowhere : ∀ j, p.isPrefixOf (bits.drop j) = false) (start : Nat) :
    firstOccurrence p start bits = none := by
  induction bits generalizing start with
  | nil =>
    have nonempty : p ≠ [] := by
      rintro rfl
      simpa using nowhere 0
    simpa [firstOccurrence] using nonempty
  | cons b bits ih =>
    have not_here : p.isPrefixOf (b :: bits) = false := nowhere 0
    rw [firstOccurrence, not_here, if_neg Bool.false_ne_true]
    exact ih (fun j => nowhere (j + 1)) (start + 1)

/-! ## The two commands (R250, R260) -/

/-- What SYNC and DECODE have in common after their length checks: the table is validated, then BITS is read. -/
def validated (s : State) (k : List Bool → StageResult) : StageResult :=
  match badDecEntryFrom 0 (decTable s) with
  | some (e, reason) => .fail s .dict (dictInfo dictTableDec e reason)
  | none => withRead (readBitString s (zext s.regs.bitsLen)) k

/-- What SYNC does with the bits. -/
def syncBits (s : State) (bits : List Bool) : StageResult :=
  match firstOccurrence (syncPattern s.regs) 0 bits with
  | none => .done (s.withRegs { s.regs with syncIdx := 0xFFFFFFFF#32, tokCount := 0, tokdLen := 0 }) flagPremiss
  | some j =>
    tokenWrites s (greedyTokens (decTable s) [] 0 (bits.drop j)) { s.regs with syncIdx := BitVec.ofNat 32 j } flagSynced

/-- What DECODE does with the bits. -/
def decodeBits (s : State) (bits : List Bool) : StageResult :=
  tokenWrites s (greedyTokens (decTable s) [] 0 (bits.drop s.regs.decStart.toNat)) s.regs noFlags

theorem stageSync_eq_validated {s : State} (fits : s.regs.bitsLen.toNat ≤ s.params.bitsDepth)
    (pattern : s.regs.syncLen.toNat ≤ 64) : stageSync s = validated s (syncBits s) := by
  have bitsFit : ¬ s.params.bitsDepth < zext s.regs.bitsLen := not_lt.mpr fits
  have patternFits : ¬ Config.MAX_SYNC_BITS < zext s.regs.syncLen := not_lt.mpr pattern
  rw [stageSync, if_neg bitsFit, if_neg patternFits]
  rfl

theorem stageDecode_eq_validated {s : State} (fits : s.regs.bitsLen.toNat ≤ s.params.bitsDepth)
    (start : s.regs.decStart.toNat ≤ s.regs.bitsLen.toNat) : stageDecode s = validated s (decodeBits s) := by
  have bitsFit : ¬ s.params.bitsDepth < zext s.regs.bitsLen := not_lt.mpr fits
  have startFits : ¬ zext s.regs.bitsLen < zext s.regs.decStart := not_lt.mpr start
  rw [stageDecode, if_neg bitsFit, if_neg startFits]
  rfl

theorem validated_of_bad {s : State} {e reason : Nat} (k : List Bool → StageResult)
    (bad : badDecEntryFrom 0 (decTable s) = some (e, reason)) :
    validated s k = .fail s .dict (dictInfo dictTableDec e reason) := by
  rw [validated, bad]

theorem validated_of_legal {s : State} (k : List Bool → StageResult) (legal : DecTableLegal s) :
    validated s k = withRead (readBitString s s.regs.bitsLen.toNat) k := by
  rw [validated, badDecEntry_of_legal legal]
  rfl

theorem readBitString_of_holds {s : State} {bits : List Bool} (holds : HoldsBits s bits) :
    readBitString s bits.length = .ok bits :=
  (readBits_eq_ok_iff ..).mpr ⟨rfl, holds⟩

theorem validated_of_holds {s : State} {bits : List Bool} (k : List Bool → StageResult) (legal : DecTableLegal s)
    (count : bits.length = s.regs.bitsLen.toNat) (holds : HoldsBits s bits) : validated s k = k bits := by
  rw [validated_of_legal k legal, ← count, readBitString_of_holds holds, withRead_ok]

theorem syncBits_of_first {s : State} {bits : List Bool} {j : Nat}
    (first : FirstOccurrence (syncPattern s.regs) bits j) :
    syncBits s bits =
      tokenWrites s (greedyTokens (decTable s) [] 0 (bits.drop j)) { s.regs with syncIdx := BitVec.ofNat 32 j }
        flagSynced := by
  rw [syncBits, firstOccurrence_of_first first, Nat.zero_add]

theorem syncBits_of_nowhere {s : State} {bits : List Bool}
    (nowhere : ∀ j, (syncPattern s.regs).isPrefixOf (bits.drop j) = false) :
    syncBits s bits =
      .done (s.withRegs { s.regs with syncIdx := 0xFFFFFFFF#32, tokCount := 0, tokdLen := 0 }) flagPremiss := by
  rw [syncBits, firstOccurrence_of_nowhere nowhere]

/-- Settles O45: the search finds the first occurrence, or that there is none; the rest is the write of the tokens. -/
theorem syncFindsFirstOccurrence : Obligations.SyncFindsFirstOccurrence := by
  intro s bits count short pattern legal holds
  have stage : stageSync s = syncBits s bits :=
    (stageSync_eq_validated (count ▸ short) pattern).trans (validated_of_holds _ legal count holds)
  refine ⟨fun j first fit => ?_, fun nowhere => ?_⟩
  · rw [syncBits_of_first first, tokenWrites_of_fit fit] at stage
    exact ⟨_, exec_of_stage (i := .sync) stage, after_completeOk_tokensStored fit _ _⟩
  · rw [syncBits_of_nowhere nowhere] at stage
    exact ⟨_, exec_of_stage (i := .sync) stage, after_completeOk_withRegs s _ _⟩

theorem stageDecode_of_holds {s : State} {bits : List Bool} (count : bits.length = s.regs.bitsLen.toNat)
    (short : bits.length ≤ s.params.bitsDepth) (start : s.regs.decStart.toNat ≤ bits.length) (legal : DecTableLegal s)
    (holds : HoldsBits s bits) : stageDecode s = decodeBits s bits :=
  (stageDecode_eq_validated (count ▸ short) (count ▸ start)).trans (validated_of_holds _ legal count holds)

/-- DECODE of tokens that fit (R260). -/
theorem decode_of_fit {s : State} {bits : List Bool} (count : bits.length = s.regs.bitsLen.toNat)
    (short : bits.length ≤ s.params.bitsDepth) (start : s.regs.decStart.toNat ≤ bits.length) (legal : DecTableLegal s)
    (holds : HoldsBits s bits)
    (fit : TokensFit s.params (greedyTokens (decTable s) [] 0 (bits.drop s.regs.decStart.toNat))) :
    ∃ t, exec .decode s = .next t ∧
      After s t
        (okRegs (tokenRegs s.regs (greedyTokens (decTable s) [] 0 (bits.drop s.regs.decStart.toNat))) noFlags)
        (tokenStores (greedyTokens (decTable s) [] 0 (bits.drop s.regs.decStart.toNat))) [] [] := by
  have stage := stageDecode_of_holds count short start legal holds
  rw [decodeBits, tokenWrites_of_fit fit] at stage
  exact ⟨_, exec_of_stage (i := .decode) stage, after_completeOk_tokensStored fit _ _⟩

/-! ## The errors (R261, R267) -/

/-- The stage does not fail with DICT. -/
def RaisesNoDict (x : StageResult) : Prop := ∀ u info, x ≠ .fail u .dict info

theorem tokenWrites_raisesNoDict (s : State) (tokens : List (List Byte)) (x : Regs) (f : StatusFlags) :
    RaisesNoDict (tokenWrites s tokens x f) := by
  intro u info
  unfold tokenWrites
  dsimp only
  split_ifs <;> simp

theorem syncBits_raisesNoDict (s : State) (bits : List Bool) : RaisesNoDict (syncBits s bits) := by
  unfold syncBits
  split
  · exact fun _ _ => StageResult.noConfusion
  · exact tokenWrites_raisesNoDict s _ _ _

theorem validated_raisesNoDict {s : State} {k : List Bool → StageResult} (legal : DecTableLegal s)
    (after_read : ∀ bits, RaisesNoDict (k bits)) : RaisesNoDict (validated s k) := by
  rw [validated_of_legal k legal]
  rcases withRead_cases (readBitString s s.regs.bitsLen.toNat) k with ⟨bits, -, read⟩ | ⟨f, -, stopped⟩
  · rw [read]
    exact after_read bits
  · rw [stopped]
    exact fun _ _ => StageResult.noConfusion

/-- The length checks of SYNC or of DECODE pass (40_control.md R146). -/
abbrev LengthsPass (i : Instr) (s : State) : Prop :=
  i = .sync ∧ s.regs.bitsLen.toNat ≤ s.params.bitsDepth ∧ s.regs.syncLen.toNat ≤ 64 ∨
    i = .decode ∧ s.regs.bitsLen.toNat ≤ s.params.bitsDepth ∧ s.regs.decStart.toNat ≤ s.regs.bitsLen.toNat

/-- Past its length checks either command validates the table, and nothing else in it raises DICT. -/
theorem stageOf_eq_validated {i : Instr} {s : State} (pass : LengthsPass i s) :
    ∃ k, stageOf i s = validated s k ∧ ∀ bits, RaisesNoDict (k bits) := by
  rcases pass with ⟨rfl, fits, pattern⟩ | ⟨rfl, fits, start⟩
  · exact ⟨_, stageSync_eq_validated fits pattern, syncBits_raisesNoDict s⟩
  · exact ⟨_, stageDecode_eq_validated fits start, fun _ => tokenWrites_raisesNoDict s _ _ _⟩

theorem dictInfo_dec {e reason : Nat} (lt : e < 65536) :
    dictInfo dictTableDec e reason = BitVec.ofNat 32 (16777216 * reason + 65536 + e) := by
  rw [dictInfo, Nat.mod_eq_of_lt lt, natWord, dictTableDec]
  congr 1
  omega

theorem failsWith_dict {i : Instr} {s : State} {e reason : Nat} (pass : LengthsPass i s) (lt : e < s.params.decEntries)
    (before : ∀ d, d < e → (decEntry s d).present = true → FieldsLegal (decEntry s d))
    (bad : decEntryError (decEntry s e) = some reason) :
    FailsWith i s 7 (BitVec.ofNat 32 (16777216 * reason + 65536 + e)) := by
  obtain ⟨k, stage, -⟩ := stageOf_eq_validated pass
  have entries := s.params.dec_legal
  rw [validated_of_bad k (badDecEntry_of_first lt bad before), dictInfo_dec (by omega)] at stage
  exact failsWith_of_stage stage

theorem errCode_value_eq_seven {code : ErrCode} (h : code.value = 7) : code = .dict := by
  cases code
  case dict => rfl
  all_goals exact absurd h (by decide)

/-- A completion with ERRCODE 7 is the failure of a stage with DICT. -/
theorem errCode_ne_seven {i : Instr} {s t : State} (noDict : RaisesNoDict (stageOf i s)) (run : exec i s = .next t) :
    t.regs.errCode ≠ 7 := by
  rw [exec_eq_finish_stageOf, finish_eq_next_iff] at run
  rcases run with ⟨u, f, -, rfl⟩ | ⟨u, code, info, stage, rfl⟩
  · exact fun seven => absurd (show (0 : BitVec 4) = 7 from seven) (by decide)
  · intro seven
    rw [errCode_value_eq_seven seven] at stage
    exact noDict u info stage

/-- Settles O47: the validation stands before the read, finds the first illegal entry, and is the one source of DICT. -/
theorem decodeTableValidation : Obligations.DecodeTableValidation := by
  refine fun i s pass => ⟨fun e lt present before => ⟨fun empty => ?_, fun long => ?_, fun nonempty short value => ?_⟩,
    fun legal t run => ?_⟩
  · exact failsWith_dict pass lt before (decEntryError_of_empty present empty)
  · exact failsWith_dict pass lt before (decEntryError_of_long present long)
  · exact failsWith_dict pass lt before (decEntryError_of_value present nonempty short value)
  · obtain ⟨k, stage, after_read⟩ := stageOf_eq_validated pass
    have noDict := validated_raisesNoDict legal after_read
    rw [← stage] at noDict
    exact errCode_ne_seven noDict run

/-- Settles O48: both commands end in the same writes of the tokens, which check the capacities. -/
theorem tokenOverflow : Obligations.TokenOverflow := by
  intro s bits i j count short legal holds command
  have stage : ∃ x f, stageOf i s = tokenWrites s (greedyTokens (decTable s) [] 0 (bits.drop j)) x f := by
    rcases command with ⟨rfl, pattern, first⟩ | ⟨rfl, rfl, start⟩
    · exact ⟨_, _, (stageSync_eq_validated (count ▸ short) pattern).trans
        ((validated_of_holds _ legal count holds).trans (syncBits_of_first first))⟩
    · exact ⟨_, _, stageDecode_of_holds count short start legal holds⟩
  obtain ⟨x, f, stage⟩ := stage
  exact ⟨fun large => failsWith_of_stage (stage.trans (tokenWrites_of_data_large large x f)),
    fun fits large => failsWith_of_stage (stage.trans (tokenWrites_of_ends_large fits large x f))⟩

end Sys2Proof.Proofs.Synchronizer
end

/-! PROOF. Encoding then decoding (43_slicer_sync_decoder.md R266): with inverse dictionaries each codeword is decoded to its
symbol, and the terminator closes the token. -/
section

namespace Sys2Proof.Proofs.RoundTrip

open Sys2Proof.Machine Sys2Proof.Safety Sys2Proof.Proofs.Transmit Sys2Proof.Proofs.GreedyDecoder
  Sys2Proof.Proofs.Synchronizer

/-! ## The packet of ENCODE (R166) -/

theorem packetOf_eq_map_messageBits {s : State} {msg : List Byte}
    (coded : ∀ c ∈ msg, (encEntry s c.toNat).present = true) : packetOf s msg = (messageBits s msg).map packetBit := by
  rw [packetOf_eq_flatMap_substitute, messageBits, List.map_flatMap]
  exact List.flatMap_congr fun c mem => if_pos (coded c mem)

/-! ## Inverse dictionaries -/

theorem length_codeBits (x : EncEntry) : x.codeBits.length = x.clen := by
  simp [EncEntry.codeBits, wordBits]

theorem length_valBytes (x : DecEntry) : x.valBytes.length = x.vlen := by
  simp [DecEntry.valBytes]

theorem decTableLegal_of_inverse {s : State} (inverse : InverseTables s) : DecTableLegal s := by
  intro e lt present
  obtain ⟨c, small, coded, key, val⟩ := inverse.onlyMapped e lt present
  have keyLength := congrArg List.length key
  have valLength := congrArg List.length val
  rw [length_keyBits, length_codeBits] at keyLength
  rw [length_valBytes, List.length_singleton] at valLength
  rw [keyLength, valLength]
  exact ⟨(inverse.lengths c small coded).1, (inverse.lengths c small coded).2, by omega⟩

/-- Codewords that begin the same bits are those of one symbol. -/
theorem eq_of_codeBits_prefix {s : State} (inverse : InverseTables s) {c d : Nat} {bits : List Bool} (hc : c < 256)
    (hd : d < 256) (codedC : (encEntry s c).present = true) (codedD : (encEntry s d).present = true)
    (prefixC : (encEntry s c).codeBits <+: bits) (prefixD : (encEntry s d).codeBits <+: bits) : c = d := by
  by_contra other
  rcases List.prefix_or_prefix_of_prefix prefixC prefixD with within | within
  · have apart := inverse.prefixFree c d hc hd other codedC codedD
    rw [List.isPrefixOf_iff_prefix.mpr within] at apart
    cases apart
  · have apart := inverse.prefixFree d c hd hc (Ne.symm other) codedD codedC
    rw [List.isPrefixOf_iff_prefix.mpr within] at apart
    cases apart

/-- At a codeword the entry selected is the one that maps it to its symbol. -/
theorem matchAt_codeword {s : State} (inverse : InverseTables s) {c : Byte} (coded : (encEntry s c.toNat).present = true)
    (rest : List Bool) :
    ∃ x, matchAt (decTable s) ((encEntry s c.toNat).codeBits ++ rest) = some x ∧
      x.klen = (encEntry s c.toNat).codeBits.length ∧ x.valBytes = [c] := by
  have isPrefix : (encEntry s c.toNat).codeBits <+: (encEntry s c.toNat).codeBits ++ rest := List.prefix_append ..
  cases selected : matchAt (decTable s) ((encEntry s c.toNat).codeBits ++ rest) with
  | none =>
    obtain ⟨e, lt, present, key, -⟩ := inverse.mapped c.toNat c.isLt coded
    have noMatch := (matchAt_eq_none_iff _ _).mp selected _ (mem_decTable_iff.mpr ⟨e, lt, rfl⟩)
    rw [(keyMatches_iff _ _).mpr ⟨present, key ▸ isPrefix⟩] at noMatch
    cases noMatch
  | some x =>
    obtain ⟨mem, present, keyPrefix⟩ := mem_of_matchAt selected
    obtain ⟨e, lt, rfl⟩ := mem_decTable_iff.mp mem
    obtain ⟨d, small, codedD, key, val⟩ := inverse.onlyMapped e lt present
    obtain rfl := eq_of_codeBits_prefix inverse c.isLt small coded codedD isPrefix (key ▸ keyPrefix)
    exact ⟨_, rfl, by rw [← key, length_keyBits], by rw [val, BitVec.ofNat_toNat, BitVec.setWidth_eq]⟩

/-- The bits of a message add the message to the token in progress. -/
theorem greedyTokens_messageBits {s : State} (inverse : InverseTables s) {msg : List Byte}
    (coded : ∀ c ∈ msg, (encEntry s c.toNat).present = true) (tok : List Byte) (rest : List Bool) :
    greedyTokens (decTable s) tok 0 (messageBits s msg ++ rest) = greedyTokens (decTable s) (tok ++ msg) 0 rest := by
  induction msg generalizing tok with
  | nil => simp [messageBits]
  | cons c msg ih =>
    obtain ⟨codedC, codedRest⟩ := List.forall_mem_cons.mp coded
    obtain ⟨x, selected, keyLength, val⟩ := matchAt_codeword inverse codedC (messageBits s msg ++ rest)
    have pos : 1 ≤ x.klen := by
      rw [keyLength, length_codeBits]
      exact (inverse.lengths c.toNat c.isLt codedC).1
    have nonempty : (encEntry s c.toNat).codeBits ++ (messageBits s msg ++ rest) ≠ [] := by
      refine List.append_ne_nil_of_left_ne_nil (List.ne_nil_of_length_pos ?_) _
      omega
    have cut : messageBits s (c :: msg) ++ rest = (encEntry s c.toNat).codeBits ++ (messageBits s msg ++ rest) := by
      simp [messageBits]
    rw [cut, greedyTokens_of_match tok nonempty pos selected, keyLength, List.drop_left, val, ih codedRest]
    simp

/-! ## The terminator -/

/-- No key is the terminator bit alone. -/
abbrev Unkeyed (s : State) (terminator : Bool) : Prop :=
  ∀ e, e < s.params.decEntries → (decEntry s e).present = true → (decEntry s e).keyBits ≠ [terminator]

theorem matchAt_terminator {s : State} {terminator : Bool} (legal : DecTableLegal s) (unkeyed : Unkeyed s terminator) :
    matchAt (decTable s) [terminator] = none := by
  refine (matchAt_eq_none_iff _ _).mpr fun y mem => Bool.eq_false_iff.mpr fun matching => ?_
  obtain ⟨e, lt, rfl⟩ := mem_decTable_iff.mp mem
  obtain ⟨present, keyPrefix⟩ := (keyMatches_iff _ _).mp matching
  refine unkeyed e lt present (keyPrefix.eq_of_length_le ?_)
  rw [length_keyBits, List.length_singleton]
  exact (legal e lt present).1

/-- With the terminator the message is the one token. -/
theorem greedyTokens_terminated {s : State} {msg : List Byte} {terminator : Bool} (inverse : InverseTables s)
    (unkeyed : Unkeyed s terminator) (nonempty : msg ≠ []) (coded : ∀ c ∈ msg, (encEntry s c.toNat).present = true) :
    greedyTokens (decTable s) [] 0 (messageBits s msg ++ [terminator]) = [msg] := by
  have noMatch := matchAt_terminator (decTableLegal_of_inverse inverse) unkeyed
  rw [greedyTokens_messageBits inverse coded, List.nil_append, greedyTokens_of_noMatch msg noMatch, if_neg nonempty,
    greedyTokens_nil]

/-- Without it the token stays open and is dropped (R265). -/
theorem greedyTokens_unterminated {s : State} {msg : List Byte} (inverse : InverseTables s)
    (coded : ∀ c ∈ msg, (encEntry s c.toNat).present = true) :
    greedyTokens (decTable s) [] 0 (messageBits s msg) = [] := by
  have open_end := greedyTokens_messageBits inverse coded [] []
  rwa [List.append_nil, greedyTokens_nil] at open_end

/-- DECODE from the first bit on, of bits whose tokens are known. -/
theorem decode_from_zero {s : State} {bits : List Bool} {tokens : List (List Byte)}
    (count : s.regs.bitsLen.toNat = bits.length) (short : s.regs.bitsLen.toNat ≤ s.params.bitsDepth)
    (start : s.regs.decStart = 0) (legal : DecTableLegal s) (holds : HoldsBits s bits)
    (decoded : greedyTokens (decTable s) [] 0 bits = tokens) (fit : TokensFit s.params tokens) :
    ∃ t, exec .decode s = .next t ∧ After s t (okRegs (tokenRegs s.regs tokens) noFlags) (tokenStores tokens) [] [] := by
  have from_start : bits.drop s.regs.decStart.toNat = bits := by
    rw [start]
    rfl
  have complete := decode_of_fit count.symm (count ▸ short) (by rw [start]; exact Nat.zero_le _) legal holds
  rw [from_start, decoded] at complete
  exact complete fit

/-- Settles O49, from the token lists with and without the terminator. -/
theorem encodeDecodeRoundTrip : Obligations.EncodeDecodeRoundTrip := by
  intro s msg terminator inverse unkeyed nonempty coded
  have legal := decTableLegal_of_inverse inverse
  have ends := s.params.toke_legal
  refine ⟨packetOf_eq_map_messageBits coded, fun short start room holds count => ?_, fun short start holds count => ?_⟩
  · have fit : TokensFit s.params [msg] := ⟨by simpa using room, ends.1⟩
    exact decode_from_zero (by rw [count, List.length_append, List.length_singleton]) short start legal holds
      (greedyTokens_terminated inverse unkeyed nonempty coded) fit
  · have fit : TokensFit s.params [] := ⟨Nat.zero_le _, Nat.zero_le _⟩
    exact decode_from_zero count short start legal holds (greedyTokens_unterminated inverse coded) fit

end Sys2Proof.Proofs.RoundTrip
end

/-! PROOF. The interrupt line (60_exceptions.md R310): the OR of the flags and enables that STATUS and IRQ_EN show, and the bus
accesses that leave it alone. -/
section

namespace Sys2Proof.Proofs.Interrupts

open Sys2Proof.Machine Sys2Proof.Safety Sys2Proof.Proofs.AddressMap Sys2Proof.Proofs.BusAccess
  Sys2Proof.Proofs.ReservedBits

/-! ## The flags that the two registers show -/

theorem getLsbD_status (s : State) {j : Nat} (lt : j < 6) :
    (s.readReg .status).getLsbD (j + 1) = (flagBits s.regs.status).getD j false := by
  rw [readReg_status, getLsbD_bitsWord _ (by omega), List.getD_cons_succ]

theorem getLsbD_irqEn (s : State) {j : Nat} (lt : j < 6) :
    (s.readReg .irqEn).getLsbD (j + 1) = (flagBits s.regs.irqEn).getD j false := by
  rw [State.readReg, toWord_eq_bitsWord, getLsbD_bitsWord _ (by omega), List.getD_cons_succ]

theorem anyEnabled_iff (f en : StatusFlags) :
    f.anyEnabled en = true ↔ ∃ j < 6, (flagBits f).getD j false = true ∧ (flagBits en).getD j false = true := by
  simp only [StatusFlags.anyEnabled, Bool.or_eq_true, Bool.and_eq_true]
  constructor
  · rintro (((((done | err) | insuf) | premiss) | unksym) | synced)
    · exact ⟨0, by decide, done⟩
    · exact ⟨1, by decide, err⟩
    · exact ⟨2, by decide, insuf⟩
    · exact ⟨3, by decide, premiss⟩
    · exact ⟨4, by decide, unksym⟩
    · exact ⟨5, by decide, synced⟩
  · rintro ⟨j, lt, set, enabled⟩
    interval_cases j <;> simp_all [flagBits]

theorem irq_iff (s : State) :
    s.irq = true ↔
      ∃ b, 1 ≤ b ∧ b ≤ 6 ∧ (s.readReg .status).getLsbD b = true ∧ (s.readReg .irqEn).getLsbD b = true := by
  rw [State.irq, anyEnabled_iff]
  constructor
  · rintro ⟨j, lt, set, enabled⟩
    exact ⟨j + 1, by omega, by omega, (getLsbD_status s lt).trans set, (getLsbD_irqEn s lt).trans enabled⟩
  · rintro ⟨b, lo, hi, set, enabled⟩
    obtain ⟨j, rfl⟩ := Nat.exists_eq_add_of_le' lo
    have lt : j < 6 := by omega
    exact ⟨j, lt, (getLsbD_status s lt).symm.trans set, (getLsbD_irqEn s lt).symm.trans enabled⟩

theorem irq_congr_readReg {s t : State} (status : s.readReg .status = t.readReg .status)
    (irqEn : s.readReg .irqEn = t.readReg .irqEn) : s.irq = t.irq := by
  rw [Bool.eq_iff_iff, irq_iff, irq_iff, status, irqEn]

theorem irq_of_irqEn_zero {s : State} (masked : s.readReg .irqEn = 0) : s.irq = false := by
  rw [← Bool.not_eq_true, irq_iff, masked]
  rintro ⟨b, -, -, -, enabled⟩
  simp at enabled

/-! ## Bus accesses -/

/-- All that a write can do to the state (20_memory.md R85, R88, R90). -/
theorem busWrite_cases (s : State) (a v : Word) (strb : Strobe) :
    (busWrite s a v strb).1 = s ∨
      (∃ r : Reg, a = BitVec.ofNat 32 r.offset ∧ (busWrite s a v strb).1 = writeRegister s r v) ∨
        ∃ w k, (busWrite s a v strb).1 = s.writeWindowWord w k v := by
  by_cases partialStrobes : strb ≠ 0b1111#4
  · exact .inl (by rw [busWrite_partial s a v partialStrobes])
  by_cases unserved : Unserved s.params a
  · exact .inl (by rw [busWrite_unserved v strb unserved])
  obtain rfl := not_not.mp partialStrobes
  obtain ⟨aligned, mapped⟩ : a.toNat % 4 = 0 ∧ Mapped s.params a.toNat := by simpa [Unserved] using unserved
  rcases mapped_cases aligned mapped with ⟨r, rfl⟩ | ⟨w, k, inside, rfl⟩
  · rw [busWrite_register]
    split_ifs
    · exact .inl rfl
    · exact .inr (.inl ⟨r, rfl, rfl⟩)
  · rw [busWrite_word v inside]
    split_ifs
    · exact .inl rfl
    · exact .inr (.inr ⟨w, k, rfl⟩)

theorem irq_writeWindowWord (s : State) (w : Window) (k : Nat) (v : Word) : (s.writeWindowWord w k v).irq = s.irq := by
  cases w <;> rfl

theorem irq_writeRegister (s : State) {r : Reg} (v : Word) (other : r ∉ [.ctrl, .cmd, .status, .irqEn]) :
    (writeRegister s r v).irq = s.irq := by
  cases r
  case ctrl | cmd | status | irqEn => simp at other
  all_goals rfl

theorem irq_busWrite (s : State) {a : Word} (v : Word) (strb : Strobe)
    (other : a.toNat ∉ [0x008, 0x00C, 0x010, 0x014]) : (busWrite s a v strb).1.irq = s.irq := by
  rcases busWrite_cases s a v strb with noEffect | ⟨r, rfl, register⟩ | ⟨w, k, word⟩
  · rw [noEffect]
  · rw [register]
    rw [toNat_offset] at other
    exact irq_writeRegister s v fun mem => other (List.mem_map_of_mem (f := Reg.offset) mem)
  · rw [word, irq_writeWindowWord]

/-- Settles O14, from the flags as bits of the two registers and the cases of a bus write; an issue and a reset clear every
flag, and a read changes no register. -/
theorem interruptLine : Obligations.InterruptLine :=
  ⟨irq_iff, fun _ _ => irq_congr_readReg, fun _ => irq_of_irqEn_zero, Control.irq_issue, fun _ => ⟨rfl, rfl⟩,
    fun s _ v strb other => irq_busWrite s v strb other, fun _ _ => rfl⟩

end Sys2Proof.Proofs.Interrupts
end

/-! PROOF. The flags of a completion (60_exceptions.md R306, R312): a command that completes without error raises at most one
flag besides DONE, and a rejected one raises none. -/
section

namespace Sys2Proof.Proofs.CompletionFlags

open Sys2Proof.Machine Sys2Proof.Safety Sys2Proof.Proofs.CommandFrame Sys2Proof.Proofs.CommandOutputs
  Sys2Proof.Proofs.ReservedBits Sys2Proof.Proofs.Interrupts

/-! ## The flags that each stage raises -/

/-- The flags a command can raise where it completes without error (60_exceptions.md R306, 43_slicer_sync_decoder.md R250). -/
def raisable : Instr → List StatusFlags
  | .generate | .txChain => [noFlags, { noFlags with unksym := true }]
  | .detect => [noFlags, { noFlags with insuf := true }]
  | .sync => [{ noFlags with premiss := true }, { noFlags with synced := true }]
  | .rxChain => [{ noFlags with insuf := true }, { noFlags with premiss := true }, { noFlags with synced := true }]
  | .nop | .genCarrier | .encode | .preprocess | .slice | .decode => [noFlags]

/-- A stage that completes raises one of the flags `F`. -/
def Raises (F : List StatusFlags) : StageResult → Prop
  | .done _ f => f ∈ F
  | .fail _ _ _ => True
  | .stop _ => True

theorem Raises.withRead {α : Type} {F : List StatusFlags} {x : Except Fault α} {k : α → StageResult}
    (h : ∀ a, Raises F (k a)) : Raises F (withRead x k) := by
  cases x with
  | ok a => exact h a
  | error f => trivial

theorem Raises.thenStage {F G : List StatusFlags} {x : StageResult} {k : State → StatusFlags → StageResult}
    (h : Raises F x) (hk : ∀ t, ∀ f ∈ F, Raises G (k t f)) : Raises G (x.thenStage k) := by
  cases x with
  | done t f => exact hk t f h
  | fail t c i => trivial
  | stop f => trivial

theorem stageGenCarrier_raises (s : State) : Raises (raisable .genCarrier) (stageGenCarrier s) := by
  unfold stageGenCarrier
  dsimp only
  split_ifs
  · trivial
  · trivial
  · trivial
  · exact List.mem_singleton_self _

theorem stageEncode_raises (s : State) : Raises (raisable .encode) (stageEncode s) := by
  unfold stageEncode
  split_ifs
  · trivial
  · split
    · trivial
    · refine .withRead fun msg => ?_
      split_ifs
      · trivial
      · exact List.mem_singleton_self _

theorem generateWrites_raises (s : State) (pkt table : List Byte) (N L P : Nat) :
    Raises (raisable .generate) (generateWrites s pkt table N L P) := by
  have flag : ∀ b, { noFlags with unksym := b } ∈ raisable .generate := by decide
  exact flag _

theorem stageGenerate_raises (s : State) : Raises (raisable .generate) (stageGenerate s) := by
  unfold stageGenerate
  dsimp only
  split_ifs
  · trivial
  · trivial
  · refine .withRead fun pkt => ?_
    split_ifs
    · trivial
    · trivial
    · trivial
    · exact .withRead fun table => generateWrites_raises s pkt table _ _ _

theorem stageTxChain_raises (s : State) : Raises (raisable .txChain) (stageTxChain s) :=
  (stageEncode_raises s).thenStage fun t _ _ => stageGenerate_raises t

theorem stagePreprocess_raises (s : State) : Raises (raisable .preprocess) (stagePreprocess s) := by
  unfold stagePreprocess
  dsimp only
  split_ifs
  · trivial
  · trivial
  · exact List.mem_singleton_self _
  · exact .withRead fun bytes => List.mem_singleton_self _

theorem stageDetect_raises (s : State) : Raises (raisable .detect) (stageDetect s) := by
  have insuf : { noFlags with insuf := true } ∈ raisable .detect := by decide
  unfold stageDetect
  dsimp only
  split_ifs
  · trivial
  · exact insuf
  · refine .withRead fun bytes => ?_
    split_ifs
    · exact insuf
    · exact List.mem_cons_self

theorem stageSlice_raises (s : State) : Raises (raisable .slice) (stageSlice s) := by
  unfold stageSlice
  split_ifs
  · trivial
  · trivial
  · exact .withRead fun sym => List.mem_singleton_self _

theorem tokenWrites_raises {F : List StatusFlags} (s : State) (tokens : List (List Byte)) (x : Regs) {f : StatusFlags}
    (mem : f ∈ F) : Raises F (tokenWrites s tokens x f) := by
  unfold tokenWrites
  dsimp only
  split_ifs
  · trivial
  · trivial
  · exact mem

theorem stageSync_raises (s : State) : Raises (raisable .sync) (stageSync s) := by
  unfold stageSync
  dsimp only
  split_ifs
  · trivial
  · trivial
  · split
    · trivial
    · refine .withRead fun bits => ?_
      split
      · exact List.mem_cons_self
      · exact tokenWrites_raises s _ _ (by decide)

theorem stageDecode_raises (s : State) : Raises (raisable .decode) (stageDecode s) := by
  unfold stageDecode
  dsimp only
  split_ifs
  · trivial
  · trivial
  · split
    · trivial
    · exact .withRead fun bits => tokenWrites_raises s _ _ (List.mem_singleton_self _)

/-- INSUF ends the chain (43_slicer_sync_decoder.md R270), so it never meets a flag of SYNC. -/
theorem stageRxChain_raises (s : State) : Raises (raisable .rxChain) (stageRxChain s) := by
  have detected : ∀ f1 ∈ raisable .preprocess, ∀ f2 ∈ raisable .detect, f2.insuf = true →
      f1.union f2 ∈ raisable .rxChain := by decide
  have synced : ∀ f1 ∈ raisable .preprocess, ∀ f2 ∈ raisable .detect, ¬ f2.insuf = true → ∀ f3 ∈ raisable .slice,
      ∀ f4 ∈ raisable .sync, ((f1.union f2).union f3).union f4 ∈ raisable .rxChain := by decide
  refine (stagePreprocess_raises s).thenStage fun s1 f1 h1 => ?_
  refine (stageDetect_raises s1).thenStage fun s2 f2 h2 => ?_
  split_ifs with insuf
  · exact detected f1 h1 f2 h2 insuf
  · refine (stageSlice_raises s2).thenStage fun s3 f3 h3 => ?_
    exact (stageSync_raises s3).thenStage fun s4 f4 h4 => synced f1 h1 f2 h2 insuf f3 h3 f4 h4

theorem stageOf_raises (i : Instr) (s : State) : Raises (raisable i) (stageOf i s) := by
  cases i with
  | nop => exact List.mem_singleton_self _
  | genCarrier => exact stageGenCarrier_raises s
  | encode => exact stageEncode_raises s
  | generate => exact stageGenerate_raises s
  | txChain => exact stageTxChain_raises s
  | preprocess => exact stagePreprocess_raises s
  | detect => exact stageDetect_raises s
  | slice => exact stageSlice_raises s
  | sync => exact stageSync_raises s
  | decode => exact stageDecode_raises s
  | rxChain => exact stageRxChain_raises s

/-! ## The flags after a completion -/

theorem eq_of_flagBits {f g : StatusFlags} (bits : ∀ j < 6, (flagBits f).getD j false = (flagBits g).getD j false) :
    f = g := by
  cases f
  cases g
  rw [StatusFlags.mk.injEq]
  exact ⟨bits 0 (by decide), bits 1 (by decide), bits 2 (by decide), bits 3 (by decide), bits 4 (by decide),
    bits 5 (by decide)⟩

theorem flags_eq_of_readReg_status {s t : State} (same : t.readReg .status = s.readReg .status) :
    t.regs.status = s.regs.status :=
  eq_of_flagBits fun j lt => by rw [← getLsbD_status t lt, ← getLsbD_status s lt, same]

/-- Before its completion step a command leaves STATUS alone, whether it fails or not. -/
theorem stageOf_keeps_flags (i : Instr) (s : State) :
    Leaves (fun u => u.regs.status = s.regs.status) (fun u => u.regs.status = s.regs.status) (stageOf i s) := by
  have notWritten : Reg.status ∉ registersWritten i := by cases i <;> decide
  exact (stageOf_framed i s).imp (fun _ frame => flags_eq_of_readReg_status (frame.regs _ notWritten))
    fun _ frame => flags_eq_of_readReg_status (frame.regs _ notWritten)

theorem completeOk_status (s : State) (f : StatusFlags) :
    (s.completeOk f).regs.status = { s.regs.status.union f with done := true } := rfl

theorem completeErr_status (s : State) (code : ErrCode) (info : Word) :
    (s.completeErr code info).regs.status = { s.regs.status with err := true, done := true } := rfl

/-- What STATUS can hold after a command issued with the flags clear (40_control.md R143, 60_exceptions.md R303). -/
theorem exec_flags {i : Instr} {s t : State} (clear : s.regs.status = noFlags) (run : exec i s = .next t) :
    (∃ f ∈ raisable i, t.regs.status = { f with done := true }) ∨
      t.regs.status = { noFlags with done := true, err := true } := by
  have kept := stageOf_keeps_flags i s
  have raised := stageOf_raises i s
  rw [clear] at kept
  rw [exec_eq_finish_stageOf, finish_eq_next_iff] at run
  rcases run with ⟨u, f, stage, rfl⟩ | ⟨u, code, info, stage, rfl⟩
  · rw [stage] at kept raised
    refine .inl ⟨f, raised, ?_⟩
    rw [completeOk_status, show u.regs.status = noFlags from kept]
    rfl
  · rw [stage] at kept
    exact .inr (by rw [completeErr_status, show u.regs.status = noFlags from kept])

theorem raisable_excludes (i : Instr) :
    ∀ f ∈ raisable i, f.err = false ∧ ¬ (f.premiss = true ∧ f.synced = true) := by
  cases i <;> decide

/-- The combinations of flags that R312 allows. -/
def FlagsCompatible (f : StatusFlags) : Prop :=
  f.done = true ∧ (f.err = true → f = { noFlags with done := true, err := true }) ∧
    ¬ (f.premiss = true ∧ f.synced = true)

theorem flagsCompatible_error : FlagsCompatible { noFlags with done := true, err := true } := by
  simp [FlagsCompatible, noFlags]

/-- Settles O53: a completed command has raised only its own flags, a rejected one none, and an illegal word is rejected. -/
theorem flagsExclusion : Obligations.FlagsExclusion := by
  intro s t clear run
  change FlagsCompatible t.regs.status
  rcases runCommand_cases s with ⟨i, -, command⟩ | ⟨_, -, illegal⟩
  · rcases exec_flags clear (command.symm.trans run) with ⟨f, raised, flags⟩ | flags <;> rw [flags]
    · obtain ⟨noErr, apart⟩ := raisable_excludes i f raised
      exact ⟨rfl, fun err => absurd (noErr.symm.trans err) Bool.false_ne_true, apart⟩
    · exact flagsCompatible_error
  · obtain rfl : s.completeErr .illegal s.regs.cmd = t := Host.Outcome.next.inj (illegal.symm.trans run)
    rw [completeErr_status, clear]
    exact flagsCompatible_error

end Sys2Proof.Proofs.CompletionFlags
end

/-! PROOF. The two resets (70_reset_and_hazards.md R340, R342): what an element reads as where nothing is listed for it, the
erasure of the windows of an aborted command, and the states that the resets leave. -/
section

namespace Sys2Proof.Proofs.Resets

open Sys2Proof.Machine Sys2Proof.Safety Sys2Proof.Proofs.CommandFrame Sys2Proof.Proofs.BusAccess
  Sys2Proof.Proofs.CommandWords Sys2Proof.Proofs.Control

/-! ## Unlisted elements (R340, R343) -/

/-- A reset can leave the element without a value: it is not of a table (R340) nor of the reserved half of a CLUT word, which
always reads 0 (10_state.md R65). -/
structure Erasable (w : Window) (k : Nat) : Prop where
  notEnc : w ≠ .enc
  notDec : w ≠ .dec
  notReserved : ¬ (w = .clut ∧ 2 ≤ k % 4)

theorem unlisted_of_table {P : Params} {w : Window} {k : Nat} (table : w = .enc ∨ w = .dec) (inside : k < w.size P) :
    Memory.unlisted (w.base + k) = some 0 := by
  have insideRoom := inside.trans_le (size_le_room P w)
  unfold Memory.unlisted
  rcases table with rfl | rfl
  · have base : Window.enc.base = 0x1000 := rfl
    rw [room] at insideRoom
    rw [if_pos (by omega)]
  · have base : Window.dec.base = 0x2000 := rfl
    rw [room] at insideRoom
    rw [if_neg (by omega), if_pos (by omega)]

theorem base_of_not_table {w : Window} : w ≠ .enc → w ≠ .dec → w = .clut ∨ 0x02000000 ≤ w.base := by
  cases w <;> decide

theorem unlisted_of_erasable {w : Window} {k : Nat} (erasable : Erasable w k) : Memory.unlisted (w.base + k) = none := by
  obtain ⟨notEnc, notDec, notReserved⟩ := erasable
  unfold Memory.unlisted
  rcases base_of_not_table notEnc notDec with rfl | high
  · have base : Window.clut.base = 0x01000000 := rfl
    have sample : ¬ 2 ≤ k % 4 := by simpa using notReserved
    rw [if_neg (by omega), if_neg (by omega), if_neg (by omega)]
  · rw [if_neg (by omega), if_neg (by omega), if_neg (by omega)]

theorem windowByte_of_nothing_listed {s : State} (empty : s.mem = []) (w : Window) (k : Nat) :
    s.windowByte w k = Memory.unlisted (w.base + k) := by
  rw [State.windowByte, State.byteAt, empty, get_nil]

/-! ## Erasing one window -/

theorem eraseWindow_of_bytes (s : State) {w : Window} (kind : w.isBits = false) :
    s.eraseWindow w = s.withMem (Sparse.eraseRange s.mem w.base (w.size s.params)) := by
  cases w
  case sym | bits => cases kind
  all_goals rfl

theorem byteAt_eraseWindow (s : State) {w : Window} (kind : w.isBits = false) (a : Nat) :
    (s.eraseWindow w).byteAt a =
      if w.base ≤ a ∧ a < w.base + w.size s.params then Memory.unlisted a else s.byteAt a := by
  rw [eraseWindow_of_bytes s kind]
  exact get_eraseRange ..

theorem byteAt_eraseWindow_of_bits (s : State) {w : Window} (kind : w.isBits = true) (a : Nat) :
    (s.eraseWindow w).byteAt a = s.byteAt a := by
  cases w
  case sym | bits => rfl
  all_goals cases kind

theorem windowByte_eraseWindow_self {s : State} {w : Window} {k : Nat} (kind : w.isBits = false)
    (inside : k < w.size s.params) (erasable : Erasable w k) : (s.eraseWindow w).windowByte w k = none := by
  rw [State.windowByte, byteAt_eraseWindow s kind, if_pos (by omega), unlisted_of_erasable erasable]

theorem windowByte_eraseWindow_of_ne {s : State} {v w : Window} {k : Nat} (inside : k < v.size s.params) (other : v ≠ w) :
    (s.eraseWindow w).windowByte v k = s.windowByte v k := by
  unfold State.windowByte
  cases kind : w.isBits with
  | true => exact byteAt_eraseWindow_of_bits s kind _
  | false =>
    have insideRoom := inside.trans_le (size_le_room s.params v)
    have otherRoom := size_le_room s.params w
    have apart := roomsApart other
    unfold RoomsApart at apart
    rw [byteAt_eraseWindow s kind, if_neg (by omega)]

theorem symAt_eraseWindow_of_ne (s : State) {w : Window} (other : .sym ≠ w) (i : Nat) :
    (s.eraseWindow w).symAt i = s.symAt i := by
  cases w
  case sym => exact absurd rfl other
  all_goals rfl

theorem bitsAt_eraseWindow_of_ne (s : State) {w : Window} (other : .bits ≠ w) (i : Nat) :
    (s.eraseWindow w).bitsAt i = s.bitsAt i := by
  cases w
  case bits => exact absurd rfl other
  all_goals rfl

theorem sameElement_eraseWindow {s : State} {v w : Window} {k : Nat} (inside : k < elements s.params v) (other : v ≠ w) :
    SameElement s (s.eraseWindow w) v k := by
  cases v
  case sym => exact symAt_eraseWindow_of_ne s other k
  case bits => exact bitsAt_eraseWindow_of_ne s other k
  all_goals exact windowByte_eraseWindow_of_ne inside other

theorem unspecified_eraseWindow {s : State} {w : Window} {k : Nat} (inside : k < elements s.params w)
    (erasable : Erasable w k) : Unspecified (s.eraseWindow w) w k := by
  cases w
  case sym | bits => rfl
  case enc => exact absurd rfl erasable.notEnc
  case dec => exact absurd rfl erasable.notDec
  all_goals exact windowByte_eraseWindow_self rfl inside erasable

/-! ## Erasing windows in turn -/

theorem unspecified_of_sameElement {s t : State} {w : Window} {k : Nat} (same : SameElement s t w k)
    (unspecified : Unspecified s w k) : Unspecified t w k := by
  cases w <;> exact Eq.trans same unspecified

/-- What erasing a window keeps, erasing windows in turn keeps. -/
theorem eraseWindows_keeps {β : Type} {f : State → β} (kept : ∀ u w, f (u.eraseWindow w) = f u) (s : State)
    (ws : List Window) : f (ws.foldl State.eraseWindow s) = f s := by
  induction ws generalizing s with
  | nil => rfl
  | cons w ws ih => exact (ih _).trans (kept s w)

theorem sameElement_eraseWindows {s : State} {ws : List Window} {v : Window} {k : Nat} (inside : k < elements s.params v)
    (kept : v ∉ ws) : SameElement s (ws.foldl State.eraseWindow s) v k := by
  induction ws generalizing s with
  | nil => exact sameElement_refl s v k
  | cons w ws ih =>
    obtain ⟨other, later⟩ : v ≠ w ∧ v ∉ ws := by simpa using kept
    have insideNext : k < elements (s.eraseWindow w).params v := by rwa [eraseWindow_params]
    exact sameElement_trans (sameElement_eraseWindow inside other) (ih insideNext later)

/-- The last erasure of the window leaves its elements without value, and those after it leave them alone. -/
theorem unspecified_eraseWindows {s : State} {ws : List Window} {v : Window} {k : Nat} (inside : k < elements s.params v)
    (erasable : Erasable v k) (erased : v ∈ ws) : Unspecified (ws.foldl State.eraseWindow s) v k := by
  induction ws generalizing s with
  | nil => cases erased
  | cons w ws ih =>
    have insideNext : k < elements (s.eraseWindow w).params v := by rwa [eraseWindow_params]
    by_cases later : v ∈ ws
    · exact ih insideNext later
    · obtain rfl : v = w := (List.mem_cons.mp erased).resolve_right later
      have keptLater : SameElement (s.eraseWindow v) (ws.foldl State.eraseWindow (s.eraseWindow v)) v k :=
        sameElement_eraseWindows insideNext later
      exact unspecified_of_sameElement keptLater (unspecified_eraseWindow inside erasable)

/-! ## The soft reset (R342) -/

theorem abortedWindows_of_idle {s : State} (idle : s.seq = .idle) : s.abortedWindows = [] := by
  rw [State.abortedWindows, idle]

theorem abortedWindows_of_illegal {s : State} (illegal : ∀ i, s.regs.cmd ≠ encode i) : s.abortedWindows = [] := by
  cases seq : s.seq with
  | idle => exact abortedWindows_of_idle seq
  | busy =>
    rw [State.abortedWindows, seq]
    cases decoded : decodeWord s.regs.cmd with
    | ok i => exact absurd ((decodeWord_eq_ok_iff _ i).mp decoded) (illegal i)
    | error _ => rfl

theorem abortedWindows_of_command {s : State} {i : Instr} (busy : s.seq = .busy) (command : s.regs.cmd = encode i) :
    s.abortedWindows = windowsWritten i := by
  rw [State.abortedWindows, busy, (decodeWord_eq_ok_iff _ i).mpr command]

theorem softReset_inbox (s : State) : s.softReset.inbox = s.inbox :=
  eraseWindows_keeps (f := State.inbox) (fun _ w => by cases w <;> rfl) s _

theorem softReset_responses (s : State) : s.softReset.responses = s.responses :=
  eraseWindows_keeps (f := State.responses) (fun _ w => by cases w <;> rfl) s _

theorem softReset_served (s : State) : s.softReset.served = s.served :=
  eraseWindows_keeps (f := State.served) (fun _ w => by cases w <;> rfl) s _

/-- The memories of a soft reset are those that the erasure left. -/
theorem sameElement_erased_softReset (s : State) (w : Window) (k : Nat) :
    SameElement (s.abortedWindows.foldl State.eraseWindow s) s.softReset w k := by
  cases w <;> rfl

theorem sameElement_softReset {s : State} {w : Window} {k : Nat} (inside : k < elements s.params w)
    (kept : w ∉ s.abortedWindows) : SameElement s s.softReset w k :=
  sameElement_trans (sameElement_eraseWindows inside kept) (sameElement_erased_softReset s w k)

theorem unspecified_softReset {s : State} {w : Window} {k : Nat} (inside : k < elements s.params w)
    (erasable : Erasable w k) (aborted : w ∈ s.abortedWindows) : Unspecified s.softReset w k :=
  unspecified_of_sameElement (sameElement_erased_softReset s w k) (unspecified_eraseWindows inside erasable aborted)

theorem table_not_written (i : Instr) : .enc ∉ windowsWritten i ∧ .dec ∉ windowsWritten i := by
  cases i <;> decide

theorem erasable_of_written {i : Instr} {w : Window} {k : Nat} (written : w ∈ windowsWritten i)
    (notReserved : ¬ (w = .clut ∧ 2 ≤ k % 4)) : Erasable w k where
  notEnc := fun enc => (table_not_written i).1 (enc ▸ written)
  notDec := fun dec => (table_not_written i).2 (dec ▸ written)
  notReserved := notReserved

/-- Settles O18: the write of CTRL is the soft reset, which erases the windows of the aborted command and no others; in IDLE and
under an illegal word there are none. -/
theorem softReset : Obligations.SoftReset := by
  refine ⟨fun s v clear => ?_, fun s v set => ⟨s.softReset, ?_, rfl, rfl, ?_, rfl, rfl, softReset_inbox s,
    softReset_responses s, softReset_served s, softReset_params s, fun idle w k inside => ?_,
    fun _ illegal w k inside => ?_, fun i busy command w k inside => ?_⟩⟩
  · exact (busWrite_ctrl_busy v).trans (by rw [clear]; rfl)
  · exact (busWrite_ctrl_busy v).trans (by rw [set]; rfl)
  · rw [readReg_status_of_idle rfl]
    rfl
  · exact sameElement_softReset inside (by simp [abortedWindows_of_idle idle])
  · exact sameElement_softReset inside (by simp [abortedWindows_of_illegal illegal])
  · have aborted := abortedWindows_of_command busy command
    exact ⟨fun kept => sameElement_softReset inside (aborted ▸ kept), fun written notReserved =>
      unspecified_softReset inside (erasable_of_written written notReserved) (aborted ▸ written)⟩

/-! ## The hardware reset (R340) -/

theorem unspecified_of_nothing_listed {s : State} (bytes : s.mem = []) (sym : s.symMem = []) (bits : s.bitsMem = [])
    {w : Window} {k : Nat} (erasable : Erasable w k) : Unspecified s w k := by
  have byte := (windowByte_of_nothing_listed bytes w k).trans (unlisted_of_erasable erasable)
  cases w
  case sym => exact congrArg (Sparse.get Memory.unlistedBit · k) sym
  case bits => exact congrArg (Sparse.get Memory.unlistedBit · k) bits
  all_goals exact byte

theorem windowByte_table_of_nothing_listed {s : State} (empty : s.mem = []) {w : Window} {k : Nat}
    (table : w = .enc ∨ w = .dec) (inside : k < w.size s.params) : s.windowByte w k = some 0 :=
  (windowByte_of_nothing_listed empty w k).trans (unlisted_of_table table inside)

theorem elements_table (P : Params) {w : Window} (table : w = .enc ∨ w = .dec) : elements P w = w.size P := by
  rcases table with rfl | rfl <;> rfl

/-- Settles O19: after a hardware reset nothing is listed in any memory. -/
theorem hardReset : Obligations.HardReset := by
  refine fun s => ⟨s.hardReset, rfl, rfl, rfl, rfl, rfl, rfl, fun w k table inside => ?_,
    fun w k notEnc notDec _ notReserved => ?_⟩
  · rw [elements_table _ table] at inside
    exact windowByte_table_of_nothing_listed rfl table inside
  · exact unspecified_of_nothing_listed rfl rfl rfl ⟨notEnc, notDec, notReserved⟩

end Sys2Proof.Proofs.Resets
end

/-! PROOF. The commands on the reset state (70_reset_and_hazards.md R344): both tables hold zeros, so their entries are absent,
and every length is 0. -/
section

namespace Sys2Proof.Proofs.ResetCommands

open Sys2Proof.Machine Sys2Proof.Safety Sys2Proof.Proofs.CommandOutputs Sys2Proof.Proofs.CommandWords
  Sys2Proof.Proofs.Control Sys2Proof.Proofs.Transmit Sys2Proof.Proofs.Demodulator Sys2Proof.Proofs.Slicer
  Sys2Proof.Proofs.Synchronizer Sys2Proof.Proofs.Resets

/-! ## The tables after a reset -/

theorem tableWordAt_of_nothing_listed {s : State} (empty : s.mem = []) {w : Window} {index : Nat}
    (table : w = .enc ∨ w = .dec) (inside : 4 * index + 4 ≤ w.size s.params) : tableWordAt s w index = 0 := by
  have zero {j : Nat} (lt : j < 4) : s.windowByte w (4 * index + j) = some 0 :=
    windowByte_table_of_nothing_listed empty table (by omega)
  rcases table with rfl | rfl
  all_goals
    simp only [tableWordAt, windowWord, zero (show 0 < 4 by decide), zero (show 1 < 4 by decide),
      zero (show 2 < 4 by decide), zero (show 3 < 4 by decide)]
    rfl

theorem encTableLegal_of_nothing_listed {s : State} (empty : s.mem = []) : EncTableLegal s := by
  intro c lt present
  have info : (encEntry s c).info = 0 := tableWordAt_of_nothing_listed empty (.inl rfl) (by
    rw [Window.size, Config.ENC_ENTRIES]
    omega)
  simp [EncEntry.present, info] at present

theorem decTableLegal_of_nothing_listed {s : State} (empty : s.mem = []) : DecTableLegal s := by
  intro e lt present
  have info : (decEntry s e).info = 0 := tableWordAt_of_nothing_listed empty (.inr rfl) (by
    rw [Window.size]
    omega)
  simp [DecEntry.present, info] at present

/-! ## The completion of a command issued on the reset state -/

/-- The state in which a command has just been issued on the reset state. -/
abbrev issued (P : Params) (i : Instr) : State := (State.resetOf P).issue (encode i)

/-- The registers a command finds on the reset state. -/
abbrev issuedRegs (i : Instr) : Regs := { Regs.reset with cmd := encode i }

/-- The command written to CMD on the reset state completes in the next step, and every register then reads as `x` has it. -/
def CompletesOnReset (P : Params) (i : Instr) (x : Regs) : Prop :=
  ∃ t, step (busWrite (State.resetOf P) 0x0000000C#32 (encode i) 0b1111#4).1 = .next t ∧
    ∀ r, t.readReg r = ((State.resetOf P).withRegs x).readReg r

theorem readReg_congr {s t : State} (params : t.params = s.params) (seq : t.seq = s.seq) (regs : t.regs = s.regs)
    (r : Reg) : t.readReg r = s.readReg r := by
  cases r
  case status => simp only [State.readReg, State.statusWord, State.busy, seq, regs]
  all_goals simp only [State.readReg, params, regs]

theorem completesOnReset_of_after {P : Params} {i : Instr} {x : Regs} {bytes : List (Window × List Byte)}
    {sym bits : List Bool} (run : ∃ t, exec i (issued P i) = .next t ∧ After (issued P i) t x bytes sym bits) :
    CompletesOnReset P i x := by
  obtain ⟨t, run, after⟩ := run
  refine ⟨t, ?_, readReg_congr after.params after.seq after.regs⟩
  rw [busWrite_cmd_idle rfl]
  exact (step_issue_of_command i rfl).trans run

/-! ## Control and transmit -/

theorem nop_on_reset (P : Params) : CompletesOnReset P .nop (okRegs (issuedRegs .nop) noFlags) :=
  completesOnReset_of_after ⟨_, exec_nop _, after_completeOk _ _⟩

theorem stageGenCarrier_of_no_carrier {s : State} (zero : s.regs.fc = 0) : stageGenCarrier s = .fail s .carrier 1 := by
  have noCarrier : zext s.regs.fc = 0 := by rw [zero]; rfl
  rw [stageGenCarrier, if_pos noCarrier]

theorem genCarrier_on_reset (P : Params) : CompletesOnReset P .genCarrier (errRegs (issuedRegs .genCarrier) 3 1) := by
  have stage := stageGenCarrier_of_no_carrier (s := issued P .genCarrier) rfl
  exact completesOnReset_of_after (failsWith_of_stage (i := .genCarrier) (s := issued P .genCarrier) stage)

theorem holds_nothing (s : State) (w : Window) : HoldsBytes s w [] := fun _ lt => absurd lt (Nat.not_lt_zero _)

theorem encode_on_reset (P : Params) : CompletesOnReset P .encode (okRegs (issuedRegs .encode) noFlags) := by
  have stage := stageEncode_of_legal (s := issued P .encode) (msg := []) (encTableLegal_of_nothing_listed rfl) rfl
    (Nat.zero_le _) (holds_nothing _ _) (Nat.zero_le _)
  exact completesOnReset_of_after ⟨_, exec_of_stage (i := .encode) stage, after_completeOk_writeBytes _ _ _ _ _⟩

/-- An empty packet needs no carrier table and emits no sample. -/
theorem generateReady_of_empty {s : State} (noTable : s.regs.clutLen = 0) : GenerateReady s [] [] := by
  have fits : s.regs.clutLen.toNat ≤ s.params.clutDepth := by
    rw [noTable]
    exact Nat.zero_le _
  exact ⟨fits, nofun, nofun, Nat.zero_le _⟩

theorem generate_on_reset (P : Params) :
    CompletesOnReset P .generate (okRegs { issuedRegs .generate with unkPos := 0xFFFFFFFF#32 } noFlags) :=
  completesOnReset_of_after
    (exec_generate_of_ready (s := issued P .generate) rfl (Nat.zero_le _) (holds_nothing _ _) (generateReady_of_empty rfl))

theorem txChain_on_reset (P : Params) :
    CompletesOnReset P .txChain (okRegs { issuedRegs .txChain with unkPos := 0xFFFFFFFF#32 } noFlags) := by
  obtain ⟨-, chain⟩ := txChainRunsBothStages
  obtain ⟨-, generates⟩ := chain (issued P .txChain) [] (encTableLegal_of_nothing_listed rfl) rfl (Nat.zero_le _)
    (holds_nothing _ _) (Nat.zero_le _)
  exact completesOnReset_of_after (generates [] (generateReady_of_empty rfl))

/-! ## Receive -/

theorem preprocess_on_reset (P : Params) : CompletesOnReset P .preprocess (okRegs (issuedRegs .preprocess) noFlags) :=
  completesOnReset_of_after (preprocess_of_empty (s := issued P .preprocess) rfl)

theorem detect_on_reset (P : Params) : CompletesOnReset P .detect (okRegs (issuedRegs .detect) flagInsuf) := by
  obtain ⟨-, ofEmpty, -⟩ := detectThresholds
  exact completesOnReset_of_after (ofEmpty (issued P .detect) rfl)

theorem slice_on_reset (P : Params) : CompletesOnReset P .slice (errRegs (issuedRegs .slice) 2 0x230) :=
  completesOnReset_of_after
    (failsWith_of_stage (i := .slice) (stageSlice_of_zero (s := issued P .slice) (Nat.zero_le _) rfl))

theorem holds_no_bits (s : State) : HoldsBits s [] := fun _ lt => absurd lt (Nat.not_lt_zero _)

theorem tokensFit_nil (P : Params) : TokensFit P [] := ⟨Nat.zero_le _, Nat.zero_le _⟩

/-- The empty pattern is found at index 0 (43_slicer_sync_decoder.md R251). -/
theorem firstOccurrence_empty (bits : List Bool) : FirstOccurrence [] bits 0 := ⟨rfl, nofun⟩

theorem sync_on_reset (P : Params) : CompletesOnReset P .sync (okRegs (issuedRegs .sync) flagSynced) := by
  obtain ⟨found, -⟩ := syncFindsFirstOccurrence (issued P .sync) [] rfl (Nat.zero_le _) (Nat.zero_le _)
    (decTableLegal_of_nothing_listed rfl) (holds_no_bits _)
  exact completesOnReset_of_after (found 0 (firstOccurrence_empty []) (tokensFit_nil P))

theorem decode_on_reset (P : Params) : CompletesOnReset P .decode (okRegs (issuedRegs .decode) noFlags) :=
  completesOnReset_of_after
    (decode_of_fit (s := issued P .decode) (bits := []) rfl (Nat.zero_le _) (Nat.zero_le _)
      (decTableLegal_of_nothing_listed rfl) (holds_no_bits _) (tokensFit_nil P))

/-- An empty buffer gives an empty signal, and INSUF ends the chain (43_slicer_sync_decoder.md R270). -/
theorem stageRxChain_of_empty {s : State} (empty : s.regs.rxLen = 0) :
    stageRxChain s =
      .done
        (s.withRegs { s.regs with sigLen := 0, meanI := 0, meanQ := 0, thresh := 0, lo := 0, hi := 0, symLen := 0 })
        flagInsuf := by
  rw [stageRxChain, stagePreprocess_of_empty empty, StageResult.thenStage, stageDetect_of_empty rfl]
  rfl

theorem rxChain_on_reset (P : Params) : CompletesOnReset P .rxChain (okRegs (issuedRegs .rxChain) flagInsuf) :=
  completesOnReset_of_after
    ⟨_, exec_of_stage (i := .rxChain) (stageRxChain_of_empty (s := issued P .rxChain) rfl), after_completeOk_withRegs _ _ _⟩

/-! ## The table of R344 -/

/-- A row of the table is what the registers of the completion read. -/
theorem CompletesOnReset.row {P : Params} {i : Instr} {x : Regs} {Row : State → Prop} (completes : CompletesOnReset P i x)
    (read : ∀ t, (∀ r, t.readReg r = ((State.resetOf P).withRegs x).readReg r) → Row t) :
    ∃ t, step (busWrite (State.resetOf P) 0x0000000C#32 (encode i) 0b1111#4).1 = .next t ∧ Row t := by
  obtain ⟨t, run, reads⟩ := completes
  exact ⟨t, run, read t reads⟩

/-- Settles O20: each row is read from the registers of the command's completion. -/
theorem resetStateCommands : Obligations.ResetStateCommands := fun P =>
  ⟨(nop_on_reset P).row fun _ reads => reads _,
    (genCarrier_on_reset P).row fun _ reads => ⟨reads _, reads _, reads _⟩,
    (encode_on_reset P).row fun _ reads => ⟨reads _, reads _⟩,
    (generate_on_reset P).row fun _ reads => ⟨reads _, reads _, reads _, reads _⟩,
    (txChain_on_reset P).row fun _ reads => ⟨reads _, reads _, reads _, reads _, reads _⟩,
    (preprocess_on_reset P).row fun _ reads => ⟨reads _, reads _⟩,
    (detect_on_reset P).row fun _ reads => ⟨reads _, reads _, reads _, reads _, reads _⟩,
    (slice_on_reset P).row fun _ reads => ⟨reads _, reads _, reads _⟩,
    (sync_on_reset P).row fun _ reads => ⟨reads _, reads _, reads _⟩,
    (decode_on_reset P).row fun _ reads => ⟨reads _, reads _, reads _⟩,
    (rxChain_on_reset P).row fun _ reads => ⟨reads _, reads _, reads _⟩⟩

end Sys2Proof.Proofs.ResetCommands
end

/-! PROOF. Sparse memories in canonical form (log 4): what a memory reads as determines its list, so a range written with what it
already holds is no change; and the keys that a write or an erasure can leave. -/
section

namespace Sys2Proof.Proofs.CanonicalMemory

open Sys2Proof.Machine Sys2Proof.Safety

section Lists

variable {α : Type} {unl : Nat → Option α}

/-! ## Keys -/

theorem mem_of_mem_below {a : Nat} {m : Sparse α} {e : Nat × α} (h : e ∈ Sparse.below a m) : e ∈ m :=
  (List.takeWhile_prefix _).mem h

theorem mem_of_mem_seek {a : Nat} {m : Sparse α} {e : Nat × α} (h : e ∈ Sparse.seek a m) : e ∈ m :=
  (List.dropWhile_suffix _).mem h

theorem mem_of_mem_eraseRange {m : Sparse α} {a n : Nat} {e : Nat × α} (h : e ∈ Sparse.eraseRange m a n) : e ∈ m :=
  (List.mem_append.mp h).elim mem_of_mem_below mem_of_mem_seek

/-! ## Lists that read the same -/

theorem get_cons_self (e : Nat × α) (m : Sparse α) : Sparse.get unl (e :: m) e.1 = some e.2 := by
  rw [get_cons, if_neg (lt_irrefl _), if_pos rfl]

/-- A key that one list holds is not before the first key of a list that reads the same. -/
theorem first_key_le {e f : Nat × α} {m n : Sparse α} (listed : unl e.1 ≠ some e.2)
    (same : ∀ b, Sparse.get unl (e :: m) b = Sparse.get unl (f :: n) b) : f.1 ≤ e.1 := by
  by_contra before
  have unread : Sparse.get unl (f :: n) e.1 = unl e.1 := get_of_headFrom unl (le_refl f.1) (not_le.mp before)
  rw [← same, get_cons_self] at unread
  exact listed unread.symm

theorem not_nil_of_get {e : Nat × α} {m : Sparse α} (listed : unl e.1 ≠ some e.2) :
    ¬ ∀ b, Sparse.get unl (e :: m) b = Sparse.get unl [] b := by
  intro same
  have unread := same e.1
  rw [get_cons_self, get_nil] at unread
  exact listed unread.symm

variable [DecidableEq α]

/-! ## Writes -/

theorem key_of_mem_entries {a : Nat} {vs : List α} {e : Nat × α} (h : e ∈ Sparse.entries unl a vs) :
    a ≤ e.1 ∧ e.1 < a + vs.length := by
  obtain ⟨⟨v, k⟩, listed, kept⟩ := List.mem_filterMap.mp h
  have place := List.mem_zipIdx listed
  split_ifs at kept
  cases kept
  dsimp only
  omega

/-- What is listed after the write of a range was listed before it, or is listed in the range. -/
theorem mem_setRange {m : Sparse α} {a : Nat} {vs : List α} {e : Nat × α} (h : e ∈ Sparse.setRange unl m a vs) :
    e ∈ m ∨ a ≤ e.1 ∧ e.1 < a + vs.length := by
  rcases List.mem_append.mp h with low | rest
  · exact .inl (mem_of_mem_below low)
  · rcases List.mem_append.mp rest with new | high
    · exact .inr (key_of_mem_entries new)
    · exact .inl (mem_of_mem_seek high)

/-! ## Equal reads, equal lists -/

theorem headFrom_of_wfFrom {a : Nat} {m : Sparse α} (wf : Sparse.wfFrom unl a m = true) : HeadFrom a m := by
  cases m with
  | nil => trivial
  | cons e m => exact ((wfFrom_cons ..).mp wf).1

/-- Canonical lists that read the same are the same. -/
theorem eq_of_get_eq {a : Nat} {m n : Sparse α} (wfM : Sparse.wfFrom unl a m = true) (wfN : Sparse.wfFrom unl a n = true)
    (same : ∀ b, Sparse.get unl m b = Sparse.get unl n b) : m = n := by
  induction m generalizing a n with
  | nil =>
    cases n with
    | nil => rfl
    | cons f n =>
      obtain ⟨-, listed, -⟩ := (wfFrom_cons ..).mp wfN
      exact absurd (fun b => (same b).symm) (not_nil_of_get listed)
  | cons e m ih =>
    obtain ⟨-, listedE, restM⟩ := (wfFrom_cons ..).mp wfM
    cases n with
    | nil => exact absurd same (not_nil_of_get listedE)
    | cons f n =>
      obtain ⟨-, listedF, restN⟩ := (wfFrom_cons ..).mp wfN
      have key : e.1 = f.1 := le_antisymm (first_key_le listedF fun b => (same b).symm) (first_key_le listedE same)
      have value : some e.2 = some f.2 := by
        rw [← get_cons_self (unl := unl) e m, same, key, get_cons_self]
      have first : e = f := Prod.ext key (Option.some_inj.mp value)
      subst first
      refine congrArg (e :: ·) (ih restM restN fun b => ?_)
      by_cases after : e.1 < b
      · have read := same b
        rwa [get_cons, get_cons, if_pos after, if_pos after] at read
      · rw [get_of_headFrom unl (headFrom_of_wfFrom restM) (by omega),
          get_of_headFrom unl (headFrom_of_wfFrom restN) (by omega)]

/-- Writing what a range already holds changes nothing. -/
theorem setRange_eq_self {m : Sparse α} {a : Nat} {vs : List α} (wf : Sparse.wfFrom unl 0 m = true)
    (held : ∀ j, j < vs.length → Sparse.get unl m (a + j) = vs[j]?) : Sparse.setRange unl m a vs = m := by
  refine eq_of_get_eq (wfFrom_setRange unl m a vs wf) wf fun b => ?_
  rw [get_setRange]
  split_ifs with inside
  · rw [← held (b - a) (by omega), Nat.add_sub_cancel' inside.1]
  · rfl

end Lists

/-! ## Windows -/

theorem holdsSym_writeSym (s : State) (sym : List Bool) : HoldsSym (s.writeSym sym) sym := by
  intro i lt
  rw [symAt_writeSym, if_pos lt]

theorem holdsBits_writeBitString (s : State) (bits : List Bool) : HoldsBits (s.writeBitString bits) bits := by
  intro i lt
  rw [bitsAt_writeBitString, if_pos lt]

theorem writeBytes_eq_self {s : State} {w : Window} {bs : List Byte} (wf : s.memWf = true) (held : HoldsBytes s w bs) :
    s.writeBytes w bs = s :=
  congrArg s.withMem (setRange_eq_self ((memWf_iff s).mp wf).1 held)

theorem writeSym_eq_self {s : State} {sym : List Bool} (wf : s.memWf = true) (held : HoldsSym s sym) : s.writeSym sym = s :=
  congrArg s.withSym (setRange_eq_self ((memWf_iff s).mp wf).2.1 fun j lt => by
    rw [Nat.zero_add]
    exact held j lt)

theorem writeBitString_eq_self {s : State} {bits : List Bool} (wf : s.memWf = true) (held : HoldsBits s bits) :
    s.writeBitString bits = s :=
  congrArg s.withBits (setRange_eq_self ((memWf_iff s).mp wf).2.2 fun j lt => by
    rw [Nat.zero_add]
    exact held j lt)

end Sys2Proof.Proofs.CanonicalMemory
end

/-! PROOF. The part of the invariant that is about memory (20_memory.md R87, log 4), and that every update of a memory keeps it. -/
section

namespace Sys2Proof.Proofs.MemoryInvariant

open Sys2Proof.Machine Sys2Proof.Safety Sys2Proof.Proofs.CommandFrame Sys2Proof.Proofs.Demodulator
  Sys2Proof.Proofs.Resets Sys2Proof.Proofs.CanonicalMemory

/-! ## The bytes of a word (R89) -/

theorem getLsbD_byteOf (w : Word) (j : Nat) {i : Nat} (lt : i < 8) : (byteOf w j).getLsbD i = w.getLsbD (8 * j + i) := by
  rw [byteOf, BitVec.getLsbD_extractLsb', decide_eq_true lt, Bool.true_and]

theorem byteOf_bytesWord (f : Nat → Byte) {j : Nat} (lt : j < 4) :
    byteOf (bytesWord (f 0) (f 1) (f 2) (f 3)) j = f j := by
  refine BitVec.eq_of_getLsbD_eq fun i hi => ?_
  rw [getLsbD_byteOf _ _ hi, bytesWord]
  have place {k m : Nat} (byte : j = k) (bit : m = i) : (f k).getLsbD m = (f j).getLsbD i := by rw [byte, bit]
  simp only [BitVec.getLsbD_append]
  split_ifs <;> exact place (by omega) (by omega)

theorem word_ext_bytes {x y : Word} (same : ∀ j < 4, byteOf x j = byteOf y j) : x = y := by
  rw [← bytesWord_byteOf x, ← bytesWord_byteOf y, same 0 (by decide), same 1 (by decide), same 2 (by decide),
    same 3 (by decide)]

theorem byteOf_and (x y : Word) (j : Nat) : byteOf (x &&& y) j = byteOf x j &&& byteOf y j := by
  refine BitVec.eq_of_getLsbD_eq fun i hi => ?_
  simp only [BitVec.getLsbD_and, getLsbD_byteOf _ _ hi]

theorem byteOf_not (x : Word) {j : Nat} (lt : j < 4) : byteOf (~~~x) j = ~~~(byteOf x j) := by
  refine BitVec.eq_of_getLsbD_eq fun i hi => ?_
  rw [BitVec.getLsbD_not, getLsbD_byteOf _ _ hi, getLsbD_byteOf _ _ hi, BitVec.getLsbD_not, decide_eq_true hi,
    decide_eq_true (show 8 * j + i < 32 by omega)]

theorem getElem?_wordBytes (v : Word) {j : Nat} (lt : j < 4) : (wordBytes v)[j]? = some (byteOf v j) := by
  interval_cases j <;> rfl

/-- Byte j of a word of a byte memory, free where it is unspecified (20_memory.md R84). -/
theorem byteOf_windowWord (s : State) {w : Window} (kind : w.isBits = false) (index : Nat) (free : Word) {j : Nat}
    (lt : j < 4) : byteOf (windowWord s w index free) j = (s.windowByte w (4 * index + j)).getD (byteOf free j) := by
  cases w
  case sym | bits => cases kind
  all_goals exact byteOf_bytesWord (fun j => (s.windowByte _ (4 * index + j)).getD (byteOf free j)) lt

/-! ## Reserved bits, byte by byte -/

/-- The byte has 0 in the reserved bits of element k of a byte memory (20_memory.md R87). -/
def ClearByte (w : Window) (k : Nat) (b : Byte) : Prop := b &&& ~~~(byteOf (w.definedBits (k / 4)) (k % 4)) = 0

/-- Every byte that has a value has 0 in its reserved bits. -/
def ReservedClear (s : State) : Prop :=
  ∀ (w : Window) (k : Nat) (b : Byte), w.isBits = false → k < w.size s.params → s.windowByte w k = some b → ClearByte w k b

theorem size_aligned (P : Params) {w : Window} (kind : w.isBits = false) : w.size P % 4 = 0 := by
  have := P.msg_legal
  have := P.pkt_legal
  have := P.txb_legal
  have := P.rxb_legal
  have := P.tokd_legal
  cases w
  case sym | bits => cases kind
  case enc => simp [Window.size, Config.ENC_ENTRIES]
  all_goals
    simp only [Window.size, Params.sigDepth]
    omega

theorem byteOf_definedBits_of_unlisted {w : Window} {k : Nat} (kind : w.isBits = false) {P : Params} (inside : k < w.size P)
    (unlisted : Memory.unlisted (w.base + k) = none) : byteOf (w.definedBits (k / 4)) (k % 4) = 0xFF#8 := by
  have notTable : ¬ (w = .enc ∨ w = .dec) := fun table => by
    rw [unlisted_of_table table inside] at unlisted
    cases unlisted
  have four : k % 4 < 4 := Nat.mod_lt _ (by decide)
  have full : ∀ j < 4, byteOf 0xFFFFFFFF#32 j = 0xFF#8 := by decide
  cases w
  case enc | dec => simp at notTable
  case sym | bits => cases kind
  case clut =>
    have low : ∀ j < 2, byteOf 0x0000FFFF#32 j = 0xFF#8 := by decide
    refine low _ (not_le.mp fun high => ?_)
    have base : Window.clut.base = 0x1000000 := rfl
    have := inside.trans_le (size_le_room P .clut)
    simp only [room] at this
    unfold Memory.unlisted at unlisted
    rw [if_neg (by omega), if_neg (by omega), if_pos (by omega)] at unlisted
    cases unlisted
  all_goals exact full _ four

theorem unlisted_of_windowByte_none {s : State} {w : Window} {k : Nat} (unspecified : s.windowByte w k = none) :
    Memory.unlisted (w.base + k) = none := by
  by_contra listed
  have some_value := Transmit.isSome_get_of_unlisted (unl := Memory.unlisted) s.mem (Option.isSome_iff_ne_none.mpr listed)
  rw [show Sparse.get Memory.unlisted s.mem (w.base + k) = none from unspecified] at some_value
  cases some_value

/-- The words of the byte memories have 0 in their reserved bits exactly where every byte with a value has. -/
theorem reserved_iff (s : State) :
    (∀ (w : Window) (index : Nat) (free : Word), w.isBits = false → 4 * index < w.size s.params →
      windowWord s w index free &&& ~~~(w.definedBits index) = 0) ↔ ReservedClear s := by
  constructor
  · intro words w k b kind inside value
    have four : k % 4 < 4 := Nat.mod_lt _ (by decide)
    have word := congrArg (byteOf · (k % 4)) (words w (k / 4) 0 kind (by omega))
    rw [byteOf_and, byteOf_not _ four, byteOf_windowWord s kind _ _ four, Nat.div_add_mod, value] at word
    exact word.trans (by interval_cases k % 4 <;> rfl)
  · intro clear w index free kind inside
    refine word_ext_bytes fun j lt => ?_
    have aligned := size_aligned s.params kind
    have within : 4 * index + j < w.size s.params := by omega
    have quotient : (4 * index + j) / 4 = index := by omega
    have remainder : (4 * index + j) % 4 = j := by omega
    rw [byteOf_and, byteOf_not _ lt, byteOf_windowWord s kind _ _ lt]
    cases value : s.windowByte w (4 * index + j) with
    | some b =>
      have byte := clear w _ b kind within value
      rw [ClearByte, quotient, remainder] at byte
      exact byte.trans (by interval_cases j <;> rfl)
    | none =>
      have full := byteOf_definedBits_of_unlisted kind within (unlisted_of_windowByte_none value)
      rw [quotient, remainder] at full
      rw [full]
      exact BitVec.and_zero.trans (by interval_cases j <;> rfl)

/-! ## Updates of one memory -/

/-- Bytes stored in a byte memory from byte `off` on. -/
def storeBytes (s : State) (w : Window) (off : Nat) (bs : List Byte) : State :=
  s.withMem (Sparse.setRange Memory.unlisted s.mem (w.base + off) bs)

/-- Bits stored in SYM from bit `off` on. -/
def storeSym (s : State) (off : Nat) (bs : List Bool) : State :=
  s.withSym (Sparse.setRange Memory.unlistedBit s.symMem off bs)

/-- Bits stored in BITS from bit `off` on. -/
def storeBits (s : State) (off : Nat) (bs : List Bool) : State :=
  s.withBits (Sparse.setRange Memory.unlistedBit s.bitsMem off bs)

theorem writeBytes_eq_storeBytes (s : State) (w : Window) (bs : List Byte) : s.writeBytes w bs = storeBytes s w 0 bs := rfl

theorem writeSym_eq_storeSym (s : State) (bs : List Bool) : s.writeSym bs = storeSym s 0 bs := rfl

theorem writeBitString_eq_storeBits (s : State) (bs : List Bool) : s.writeBitString bs = storeBits s 0 bs := rfl

theorem writeWindowWord_of_bytes (s : State) {w : Window} (kind : w.isBits = false) (k : Nat) (v : Word) :
    s.writeWindowWord w k v = storeBytes s w (4 * k) (wordBytes (v &&& w.definedBits k)) := by
  cases w
  case sym | bits => cases kind
  all_goals rfl

theorem byteAt_storeBytes (s : State) (w : Window) (off : Nat) (bs : List Byte) (a : Nat) :
    (storeBytes s w off bs).byteAt a =
      if w.base + off ≤ a ∧ a < w.base + off + bs.length then bs[a - (w.base + off)]? else s.byteAt a :=
  get_setRange ..

theorem windowByte_storeBytes_self (s : State) (w : Window) (off : Nat) (bs : List Byte) (k : Nat) :
    (storeBytes s w off bs).windowByte w k =
      if off ≤ k ∧ k < off + bs.length then bs[k - off]? else s.windowByte w k := by
  rw [State.windowByte, byteAt_storeBytes]
  split_ifs with inside within within
  · congr 1
    omega
  · omega
  · omega
  · rfl

theorem windowByte_storeBytes_of_ne {s : State} {v w : Window} {off : Nat} {bs : List Byte} {k : Nat} (other : v ≠ w)
    (fits : off + bs.length ≤ w.size s.params) (inside : k < v.size s.params) :
    (storeBytes s w off bs).windowByte v k = s.windowByte v k := by
  have fitsRoom := fits.trans (size_le_room s.params w)
  have insideRoom := inside.trans_le (size_le_room s.params v)
  have apart := roomsApart other
  unfold RoomsApart at apart
  rw [State.windowByte, byteAt_storeBytes, if_neg (by omega)]
  rfl

/-! ## The invariant of the memories -/

/-- What `Inv` says of the memories, the reserved bits byte by byte. -/
structure MemoryInv (s : State) : Prop where
  canonical : s.memWf = true
  bytesMapped : ∀ e ∈ s.mem, ∃ w : Window, w.isBits = false ∧ w.contains s.params e.1 = true
  symMapped : ∀ e ∈ s.symMem, e.1 < s.params.sigDepth
  bitsMapped : ∀ e ∈ s.bitsMem, e.1 < s.params.bitsDepth
  clear : ReservedClear s

/-- ERRCODE is a code, and it and the flags are clear while a command runs. -/
structure ControlInv (s : State) : Prop where
  errCode : s.regs.errCode.toNat ≤ 7
  busyClean : s.seq = .busy → s.regs.status = noFlags ∧ s.regs.errCode = 0 ∧ s.regs.errInfo = 0

theorem inv_iff (s : State) : Inv s ↔ MemoryInv s ∧ ControlInv s := by
  constructor
  · intro ⟨canonical, bytesMapped, symMapped, bitsMapped, reserved, errCode, busyClean⟩
    exact ⟨⟨canonical, bytesMapped, symMapped, bitsMapped, (reserved_iff s).mp reserved⟩, errCode, busyClean⟩
  · intro ⟨⟨canonical, bytesMapped, symMapped, bitsMapped, clear⟩, errCode, busyClean⟩
    exact ⟨canonical, bytesMapped, symMapped, bitsMapped, (reserved_iff s).mpr clear, errCode, busyClean⟩

/-- The invariant of the memories speaks of the memories and the parameters only. -/
theorem MemoryInv.congr {s t : State} (h : MemoryInv s) (params : t.params = s.params) (mem : t.mem = s.mem)
    (sym : t.symMem = s.symMem) (bits : t.bitsMem = s.bitsMem) : MemoryInv t := by
  obtain ⟨canonical, bytesMapped, symMapped, bitsMapped, clear⟩ := h
  refine ⟨?_, ?_, ?_, ?_, ?_⟩
  · rwa [State.memWf, mem, sym, bits]
  · rwa [mem, params]
  · rwa [sym, params]
  · rwa [bits, params]
  · simpa only [ReservedClear, State.windowByte, State.byteAt, mem, params] using clear

theorem MemoryInv.withRegs {s : State} (h : MemoryInv s) (x : Regs) : MemoryInv (s.withRegs x) := h.congr rfl rfl rfl rfl

theorem MemoryInv.withSeq {s : State} (h : MemoryInv s) (x : Seq) : MemoryInv (s.withSeq x) := h.congr rfl rfl rfl rfl

theorem memWf_storeBytes {s : State} (wf : s.memWf = true) (w : Window) (off : Nat) (bs : List Byte) :
    (storeBytes s w off bs).memWf = true := by
  rw [memWf_iff] at wf ⊢
  exact ⟨wfFrom_setRange _ _ _ _ wf.1, wf.2⟩

theorem memWf_storeSym {s : State} (wf : s.memWf = true) (off : Nat) (bs : List Bool) : (storeSym s off bs).memWf = true := by
  rw [memWf_iff] at wf ⊢
  exact ⟨wf.1, wfFrom_setRange _ _ _ _ wf.2.1, wf.2.2⟩

theorem memWf_storeBits {s : State} (wf : s.memWf = true) (off : Nat) (bs : List Bool) : (storeBits s off bs).memWf = true := by
  rw [memWf_iff] at wf ⊢
  exact ⟨wf.1, wf.2.1, wfFrom_setRange _ _ _ _ wf.2.2⟩

/-- The bytes, stored from byte `off` on, have 0 in their reserved bits. -/
def ClearBytes (w : Window) (off : Nat) (bs : List Byte) : Prop := ∀ j b, bs[j]? = some b → ClearByte w (off + j) b

theorem MemoryInv.storeBytes {s : State} (h : MemoryInv s) {w : Window} {off : Nat} {bs : List Byte}
    (kind : w.isBits = false) (fits : off + bs.length ≤ w.size s.params) (clear : ClearBytes w off bs) :
    MemoryInv (storeBytes s w off bs) where
  canonical := memWf_storeBytes h.canonical w off bs
  bytesMapped e mem := by
    rcases mem_setRange mem with old | ⟨from_start, before_end⟩
    · exact h.bytesMapped e old
    · refine ⟨w, kind, (AddressMap.contains_iff s.params w e.1).mpr ?_⟩
      omega
  symMapped := h.symMapped
  bitsMapped := h.bitsMapped
  clear v k b vKind inside value := by
    rcases eq_or_ne v w with rfl | other
    · rw [windowByte_storeBytes_self] at value
      split_ifs at value with within
      · have byte := clear (k - off) b value
        rwa [Nat.add_sub_cancel' within.1] at byte
      · exact h.clear v k b vKind inside value
    · rw [windowByte_storeBytes_of_ne other fits inside] at value
      exact h.clear v k b vKind inside value

theorem MemoryInv.storeSym {s : State} (h : MemoryInv s) {off : Nat} {bs : List Bool}
    (fits : off + bs.length ≤ s.params.sigDepth) : MemoryInv (storeSym s off bs) where
  canonical := memWf_storeSym h.canonical off bs
  bytesMapped := h.bytesMapped
  symMapped e mem := (mem_setRange mem).elim (h.symMapped e) fun ⟨_, before_end⟩ => before_end.trans_le fits
  bitsMapped := h.bitsMapped
  clear := h.clear

theorem MemoryInv.storeBits {s : State} (h : MemoryInv s) {off : Nat} {bs : List Bool}
    (fits : off + bs.length ≤ s.params.bitsDepth) : MemoryInv (storeBits s off bs) where
  canonical := memWf_storeBits h.canonical off bs
  bytesMapped := h.bytesMapped
  symMapped := h.symMapped
  bitsMapped e mem := (mem_setRange mem).elim (h.bitsMapped e) fun ⟨_, before_end⟩ => before_end.trans_le fits
  clear := h.clear

/-! ## Words that the host writes (R85) -/

theorem clearBytes_wordBytes (w : Window) (k : Nat) (v : Word) :
    ClearBytes w (4 * k) (wordBytes (v &&& w.definedBits k)) := by
  intro j b value
  have lt : j < 4 := (List.getElem?_eq_some_iff.mp value).1
  rw [getElem?_wordBytes _ lt] at value
  cases value
  have quotient : (4 * k + j) / 4 = k := by omega
  have remainder : (4 * k + j) % 4 = j := by omega
  rw [ClearByte, quotient, remainder, byteOf_and, BitVec.and_assoc, BitVec.and_not_self]
  exact BitVec.and_zero

@[simp] theorem length_wordBits (n : Nat) (v : Word) : (wordBits n v).length = n := by simp [wordBits]

/-- The bits of a word of SYM or BITS lie within the memory, whose depth is a multiple of 32 (00_scope.md R5). -/
theorem wordBits_fit {P : Params} {k : Nat} (inside : 4 * k < P.sigDepth / 8) : 32 * k + 32 ≤ P.sigDepth := by
  have depth := P.rxb_legal
  unfold Params.sigDepth at *
  omega

theorem MemoryInv.writeWindowWord {s : State} (h : MemoryInv s) {w : Window} {k : Nat} (v : Word)
    (inside : 4 * k < w.size s.params) : MemoryInv (s.writeWindowWord w k v) := by
  cases kind : w.isBits with
  | false =>
    have aligned := size_aligned s.params kind
    rw [writeWindowWord_of_bytes s kind]
    exact h.storeBytes kind (by simp only [wordBytes, List.length_cons, List.length_nil]; omega) (clearBytes_wordBytes w k v)
  | true =>
    cases w
    case sym => exact h.storeSym (by rw [length_wordBits]; exact wordBits_fit inside)
    case bits => exact h.storeBits (by rw [length_wordBits]; exact wordBits_fit inside)
    all_goals cases kind

/-! ## Erasure and resets (70_reset_and_hazards.md R340, R342) -/

theorem clearByte_zero (w : Window) (k : Nat) : ClearByte w k 0 := BitVec.zero_and

theorem clearByte_of_unlisted {w : Window} {a k : Nat} {b : Byte} (value : Memory.unlisted a = some b) :
    ClearByte w k b := by
  have zero : b = 0 := by
    unfold Memory.unlisted at value
    split_ifs at value <;> exact (Option.some_inj.mp value).symm
  rw [zero]
  exact clearByte_zero w k

theorem MemoryInv.eraseWindow {s : State} (h : MemoryInv s) (w : Window) : MemoryInv (s.eraseWindow w) := by
  cases kind : w.isBits with
  | false =>
    have canonical := memWf_eraseWindow s w h.canonical
    have bytes (a : Nat) := byteAt_eraseWindow s kind a
    rw [eraseWindow_of_bytes s kind] at canonical bytes ⊢
    refine ⟨canonical, fun e mem => h.bytesMapped e (mem_of_mem_eraseRange mem), h.symMapped, h.bitsMapped,
      fun v k b vKind inside value => ?_⟩
    rw [State.windowByte, bytes] at value
    split_ifs at value
    · exact clearByte_of_unlisted value
    · exact h.clear v k b vKind inside value
  | true =>
    have canonical := memWf_eraseWindow s w h.canonical
    cases w
    case sym => exact ⟨canonical, h.bytesMapped, nofun, h.bitsMapped, h.clear⟩
    case bits => exact ⟨canonical, h.bytesMapped, h.symMapped, nofun, h.clear⟩
    all_goals cases kind

theorem MemoryInv.eraseWindows {s : State} (h : MemoryInv s) (ws : List Window) :
    MemoryInv (ws.foldl State.eraseWindow s) := by
  induction ws generalizing s with
  | nil => exact h
  | cons w ws ih => exact ih (h.eraseWindow w)

theorem MemoryInv.softReset {s : State} (h : MemoryInv s) : MemoryInv s.softReset :=
  ((h.eraseWindows s.abortedWindows).withRegs Regs.reset).withSeq .idle

theorem memoryInv_of_nothing_listed {s : State} (bytes : s.mem = []) (sym : s.symMem = []) (bits : s.bitsMem = []) :
    MemoryInv s where
  canonical := by
    rw [State.memWf, bytes, sym, bits]
    rfl
  bytesMapped := by
    rw [bytes]
    nofun
  symMapped := by
    rw [sym]
    nofun
  bitsMapped := by
    rw [bits]
    nofun
  clear w k b _ _ value := by
    rw [windowByte_of_nothing_listed bytes] at value
    exact clearByte_of_unlisted value

/-! ## After reset -/

theorem controlInv_of_reset {s : State} (idle : s.seq = .idle) (regs : s.regs = Regs.reset) : ControlInv s where
  errCode := by
    rw [regs]
    decide
  busyClean busy := by
    rw [idle] at busy
    cases busy

theorem inv_resetOf (P : Params) : Inv (State.resetOf P) :=
  (inv_iff _).mpr ⟨memoryInv_of_nothing_listed rfl rfl rfl, controlInv_of_reset rfl rfl⟩

/-- Settles O17: nothing is listed in any memory after reset, and an unlisted byte has no reserved bit set. -/
theorem invAtReset : Obligations.InvAtReset := ⟨inv_resetOf, inv_resetOf Config.hardware⟩

end Sys2Proof.Proofs.MemoryInvariant
end

/-! PROOF. How a command writes: every stage replaces registers and stores elements inside windows, and touches nothing else of the
state; so it keeps the bus port, the parameters and the invariant of the memories. -/
section

namespace Sys2Proof.Proofs.CommandStores

open Sys2Proof.Machine Sys2Proof.Safety Sys2Proof.Proofs.CommandFrame Sys2Proof.Proofs.CommandOutputs
  Sys2Proof.Proofs.MemoryInvariant

/-! ## Stores -/

/-- `t` is `s` after registers were replaced and elements stored inside windows, with reserved bits 0. -/
inductive Stored (s : State) : State → Prop where
  | refl : Stored s s
  | regs {t : State} (h : Stored s t) (x : Regs) : Stored s (t.withRegs x)
  | bytes {t : State} (h : Stored s t) {w : Window} {bs : List Byte} (kind : w.isBits = false)
      (fits : bs.length ≤ w.size s.params) (clear : ClearBytes w 0 bs) : Stored s (t.writeBytes w bs)
  | sym {t : State} (h : Stored s t) {bs : List Bool} (fits : bs.length ≤ s.params.sigDepth) : Stored s (t.writeSym bs)
  | bits {t : State} (h : Stored s t) {bs : List Bool} (fits : bs.length ≤ s.params.bitsDepth) :
      Stored s (t.writeBitString bs)

/-- SEQ, the bus port and the parameters are the same. -/
structure SamePort (s t : State) : Prop where
  seq : t.seq = s.seq
  inbox : t.inbox = s.inbox
  responses : t.responses = s.responses
  served : t.served = s.served
  params : t.params = s.params

theorem Stored.samePort {s t : State} (h : Stored s t) : SamePort s t := by
  induction h with
  | refl => exact ⟨rfl, rfl, rfl, rfl, rfl⟩
  | regs _ _ ih => exact ⟨ih.seq, ih.inbox, ih.responses, ih.served, ih.params⟩
  | bytes _ _ _ _ ih => exact ⟨ih.seq, ih.inbox, ih.responses, ih.served, ih.params⟩
  | sym _ _ ih => exact ⟨ih.seq, ih.inbox, ih.responses, ih.served, ih.params⟩
  | bits _ _ ih => exact ⟨ih.seq, ih.inbox, ih.responses, ih.served, ih.params⟩

theorem Stored.memWf {s t : State} (h : Stored s t) (wf : s.memWf = true) : t.memWf = true := by
  induction h with
  | refl => exact wf
  | regs _ _ ih => exact ih
  | bytes _ _ _ _ ih => exact memWf_writeBytes _ _ _ ih
  | sym _ _ ih => exact memWf_writeSym _ _ ih
  | bits _ _ ih => exact memWf_writeBitString _ _ ih

theorem Stored.memoryInv {s t : State} (h : Stored s t) (inv : MemoryInv s) : MemoryInv t := by
  induction h with
  | refl => exact inv
  | regs _ x ih => exact ih.withRegs x
  | bytes before kind fits clear ih =>
    rw [← before.samePort.params, ← Nat.zero_add (List.length _)] at fits
    rw [writeBytes_eq_storeBytes]
    exact ih.storeBytes kind fits clear
  | sym before fits ih =>
    rw [← before.samePort.params, ← Nat.zero_add (List.length _)] at fits
    rw [writeSym_eq_storeSym]
    exact ih.storeSym fits
  | bits before fits ih =>
    rw [← before.samePort.params, ← Nat.zero_add (List.length _)] at fits
    rw [writeBitString_eq_storeBits]
    exact ih.storeBits fits

theorem Stored.trans {s t u : State} (h₁ : Stored s t) (h₂ : Stored t u) : Stored s u := by
  have params := h₁.samePort.params
  induction h₂ with
  | refl => exact h₁
  | regs _ x ih => exact ih.regs x
  | bytes _ kind fits clear ih => exact ih.bytes kind (params ▸ fits) clear
  | sym _ fits ih => exact ih.sym (params ▸ fits)
  | bits _ fits ih => exact ih.bits (params ▸ fits)

/-! ## Windows without reserved bits, and CLUT (10_state.md R65) -/

/-- The windows whose words have no reserved bits. -/
abbrev FullWords (w : Window) : Prop := w ≠ .enc ∧ w ≠ .dec ∧ w ≠ .clut

theorem clearBytes_of_fullWords {w : Window} (full : FullWords w) (off : Nat) (bs : List Byte) : ClearBytes w off bs := by
  intro j b _
  have allOnes : w.definedBits ((off + j) / 4) = 0xFFFFFFFF#32 := by
    obtain ⟨notEnc, notDec, notClut⟩ := full
    cases w
    case enc => exact absurd rfl notEnc
    case dec => exact absurd rfl notDec
    case clut => exact absurd rfl notClut
    all_goals rfl
  have noReserved : ∀ i < 4, ~~~(byteOf 0xFFFFFFFF#32 i) = 0 := by decide
  rw [ClearByte, allOnes, noReserved _ (Nat.mod_lt _ (by decide))]
  exact BitVec.and_zero

theorem Stored.fullBytes {s t : State} (h : Stored s t) {w : Window} {bs : List Byte} (full : FullWords w)
    (kind : w.isBits = false) (fits : bs.length ≤ w.size s.params) : Stored s (t.writeBytes w bs) :=
  h.bytes kind fits (clearBytes_of_fullWords full 0 bs)

theorem getElem?_carrierTable (n : Nat) (f : Nat → Int × Int) {j : Nat} (lt : j < 4 * n) :
    ((List.range n).flatMap fun k => clutBytes (f k))[j]? = (clutBytes (f (j / 4)))[j % 4]? := by
  induction n with
  | zero => omega
  | succ n ih =>
    rw [List.range_succ, List.flatMap_append, List.flatMap_singleton]
    by_cases early : j < 4 * n
    · rw [List.getElem?_append_left (by rwa [length_carrierTable]), ih early]
    · rw [List.getElem?_append_right (by rw [length_carrierTable]; omega), length_carrierTable,
        show j / 4 = n by omega, show j - 4 * n = j % 4 by omega]

theorem clearBytes_carrierTable (n : Nat) (f : Nat → Int × Int) :
    ClearBytes .clut 0 ((List.range n).flatMap fun k => clutBytes (f k)) := by
  intro j b value
  have lt : j < 4 * n := by
    have inside := (List.getElem?_eq_some_iff.mp value).1
    rwa [length_carrierTable] at inside
  rw [getElem?_carrierTable n f lt] at value
  rw [Nat.zero_add]
  by_cases reserved : 2 ≤ j % 4
  · have zero : b = 0 := by
      rcases (show j % 4 = 2 ∨ j % 4 = 3 by omega) with place | place <;> rw [place] at value <;>
        exact (Option.some_inj.mp value).symm
    rw [zero]
    exact clearByte_zero .clut j
  · have noReserved : ∀ i < 2, ~~~(byteOf 0x0000FFFF#32 i) = 0 := by decide
    rw [ClearByte, Window.definedBits, noReserved _ (not_le.mp reserved)]
    exact BitVec.and_zero

/-! ## The stages -/

/-- Whether it completes or fails, the stage has only stored elements inside windows. -/
abbrev StoresOnly (s : State) : StageResult → Prop := Leaves (Stored s) (Stored s)

theorem stageGenCarrier_stores (s : State) : StoresOnly s (stageGenCarrier s) := by
  unfold stageGenCarrier
  dsimp only
  split_ifs with noCarrier empty large
  · exact .refl
  · exact .refl
  · exact .refl
  · refine (Stored.refl.bytes rfl ?_ (clearBytes_carrierTable _ _)).regs _
    rw [length_carrierTable, Window.size]
    omega

theorem stageEncode_stores (s : State) : StoresOnly s (stageEncode s) := by
  unfold stageEncode
  split_ifs with long
  · exact .refl
  · split
    · exact .refl
    · refine .withRead fun msg _ => ?_
      split_ifs with overflow
      · exact .refl
      · have count : (msg.flatMap (substitute s)).length = (msg.map (substituteLen s)).sum := by
          simp only [List.length_flatMap, length_substitute]
        exact (Stored.refl.fullBytes (by decide) rfl (by rw [count]; exact not_lt.mp overflow)).regs _

theorem stageGenerate_stores (s : State) : StoresOnly s (stageGenerate s) := by
  unfold stageGenerate
  dsimp only
  split_ifs
  · exact .refl
  · exact .refl
  · refine .withRead fun pkt _ => ?_
    split_ifs with noTable ragged overflow
    · exact .refl
    · exact .refl
    · exact .refl
    · refine .withRead fun table carrier => (Stored.refl.fullBytes (by decide) rfl ?_).regs _
      rw [length_waveform fun mark => length_carrierFor carrier mark (by simpa [mark] using ragged)]
      exact not_lt.mp overflow

theorem stagePreprocess_stores (s : State) : StoresOnly s (stagePreprocess s) := by
  unfold stagePreprocess
  dsimp only
  split_ifs with large odd empty
  · exact .refl
  · exact .refl
  · exact Stored.refl.regs _
  · refine .withRead fun bytes read => (Stored.refl.fullBytes (by decide) rfl ?_).regs _
    have count := ((readBytes_eq_ok_iff ..).mp read).1
    rw [length_bytesOfWords, length_iqWords, iqSamples, List.length_map, length_pairUp, count]
    simp only [Window.size, Params.sigDepth]
    omega

theorem length_envelope_sigSamples (r : Regs) {bytes : List Byte} {N : Nat} (count : bytes.length = 8 * N) :
    (envelope r (sigSamples bytes)).length = N := by
  simp only [length_envelope, sigSamples, List.length_map, length_pairUp, length_wordsOfBytes, count]
  omega

theorem stageDetect_stores (s : State) : StoresOnly s (stageDetect s) := by
  unfold stageDetect
  dsimp only
  split_ifs with large empty
  · exact .refl
  · exact Stored.refl.regs _
  · refine .withRead fun bytes read => ?_
    have count := ((readBytes_eq_ok_iff ..).mp read).1
    have samples := length_envelope_sigSamples s.regs count
    have stored : Stored s (s.writeBytes .env (bytesOfWords ((envelope s.regs (sigSamples bytes)).map enc32))) :=
      Stored.refl.fullBytes (by decide) rfl (by rw [length_bytesOfWords, List.length_map, samples, Window.size]; omega)
    split_ifs
    · exact stored.regs _
    · exact (stored.sym (by rw [List.length_map, samples]; exact not_lt.mp large)).regs _

theorem stageSlice_stores (s : State) : StoresOnly s (stageSlice s) := by
  unfold stageSlice
  split_ifs with large zero
  · exact .refl
  · exact .refl
  · refine .withRead fun sym read => (Stored.refl.bits ?_).regs _
    have count := ((readBits_eq_ok_iff ..).mp read).1
    exact (length_recoverBits_le (Nat.pos_of_ne_zero zero) sym).trans (count ▸ not_lt.mp large)

theorem tokenWrites_stores (s : State) (tokens : List (List Byte)) (x : Regs) (f : StatusFlags) :
    StoresOnly s (tokenWrites s tokens x f) := by
  unfold tokenWrites
  dsimp only
  split_ifs with dataLong endsLong
  · exact .refl
  · exact .refl
  · have data : Stored s (s.writeBytes .tokd tokens.flatten) :=
      Stored.refl.fullBytes (by decide) rfl (not_lt.mp dataLong)
    refine (data.fullBytes (by decide) rfl ?_).regs _
    rw [length_bytesOfWords, List.length_map, length_tokenEnds, Window.size]
    omega

theorem stageSync_stores (s : State) : StoresOnly s (stageSync s) := by
  unfold stageSync
  dsimp only
  split_ifs
  · exact .refl
  · exact .refl
  · split
    · exact .refl
    · refine .withRead fun bits _ => ?_
      split
      · exact Stored.refl.regs _
      · exact tokenWrites_stores s _ _ _

theorem stageDecode_stores (s : State) : StoresOnly s (stageDecode s) := by
  unfold stageDecode
  dsimp only
  split_ifs
  · exact .refl
  · exact .refl
  · split
    · exact .refl
    · exact .withRead fun bits _ => tokenWrites_stores s _ _ _

/-- One more stage on the state that the stages before it left. -/
theorem StoresOnly.thenStage {s : State} {x : StageResult} {k : State → StatusFlags → StageResult} (h : StoresOnly s x)
    (hk : ∀ t f, StoresOnly t (k t f)) : StoresOnly s (x.thenStage k) :=
  Leaves.thenStage h fun t f before => (hk t f).imp (fun _ => before.trans) fun _ => before.trans

theorem stageTxChain_stores (s : State) : StoresOnly s (stageTxChain s) :=
  (stageEncode_stores s).thenStage fun t _ => stageGenerate_stores t

theorem stageRxChain_stores (s : State) : StoresOnly s (stageRxChain s) := by
  refine StoresOnly.thenStage (stagePreprocess_stores s) fun s1 f1 =>
    StoresOnly.thenStage (stageDetect_stores s1) fun s2 f2 => ?_
  split_ifs
  · exact .refl
  · exact StoresOnly.thenStage (stageSlice_stores s2) fun s3 f3 => StoresOnly.thenStage (stageSync_stores s3) fun s4 f4 => .refl

theorem stageOf_stores (i : Instr) (s : State) : StoresOnly s (stageOf i s) := by
  cases i with
  | nop => exact .refl
  | genCarrier => exact stageGenCarrier_stores s
  | encode => exact stageEncode_stores s
  | generate => exact stageGenerate_stores s
  | txChain => exact stageTxChain_stores s
  | preprocess => exact stagePreprocess_stores s
  | detect => exact stageDetect_stores s
  | slice => exact stageSlice_stores s
  | sync => exact stageSync_stores s
  | decode => exact stageDecode_stores s
  | rxChain => exact stageRxChain_stores s

end Sys2Proof.Proofs.CommandStores
end

/-! PROOF. What every completion leaves (40_control.md R143, 60_exceptions.md R303), and the invariant under every step. -/
section

namespace Sys2Proof.Proofs.StepInvariant

open Sys2Proof.Machine Sys2Proof.Safety Sys2Proof.Proofs.CommandFrame Sys2Proof.Proofs.CommandOutputs
  Sys2Proof.Proofs.AddressMap Sys2Proof.Proofs.BusAccess Sys2Proof.Proofs.Interrupts Sys2Proof.Proofs.CompletionFlags
  Sys2Proof.Proofs.Slicer Sys2Proof.Proofs.MemoryInvariant Sys2Proof.Proofs.CommandStores

/-! ## Completions -/

theorem irqEn_eq_of_readReg {s t : State} (same : t.readReg .irqEn = s.readReg .irqEn) : t.regs.irqEn = s.regs.irqEn :=
  eq_of_flagBits fun j lt => by rw [← getLsbD_irqEn t lt, ← getLsbD_irqEn s lt, same]

/-- `u` is the state of a command before its completion: its outputs are stored, and CMD and IRQ_EN are as at its issue. -/
structure BeforeCompletion (s u : State) : Prop where
  stored : Stored s u
  cmd : u.regs.cmd = s.regs.cmd
  irqEn : u.regs.irqEn = s.regs.irqEn

theorem stageOf_beforeCompletion (i : Instr) (s : State) :
    Leaves (BeforeCompletion s) (BeforeCompletion s) (stageOf i s) := by
  have notWritten : Reg.cmd ∉ registersWritten i ∧ Reg.irqEn ∉ registersWritten i := by cases i <;> decide
  have ofFrame {u : State} (stored : Stored s u) (frame : Frame (registersWritten i) (windowsWritten i) s u) :
      BeforeCompletion s u :=
    ⟨stored, frame.regs .cmd notWritten.1, irqEn_eq_of_readReg (frame.regs .irqEn notWritten.2)⟩
  have stores := stageOf_stores i s
  have framed := stageOf_framed i s
  cases stage : stageOf i s with
  | done u f =>
    rw [stage] at stores framed
    exact ofFrame stores framed
  | fail u c info =>
    rw [stage] at stores framed
    exact ofFrame stores framed
  | stop f => trivial

/-- A completion step is the success or the error completion of a state in which the outputs are stored. -/
theorem exec_completion {i : Instr} {s t : State} (run : exec i s = .next t) :
    ∃ u, BeforeCompletion s u ∧ ((∃ f, t = u.completeOk f) ∨ ∃ c info, t = u.completeErr c info) := by
  have before := stageOf_beforeCompletion i s
  rw [exec_eq_finish_stageOf, finish_eq_next_iff] at run
  rcases run with ⟨u, f, stage, rfl⟩ | ⟨u, c, info, stage, rfl⟩ <;> rw [stage] at before
  · exact ⟨u, before, .inl ⟨f, rfl⟩⟩
  · exact ⟨u, before, .inr ⟨c, info, rfl⟩⟩

theorem runCommand_completion {s t : State} (run : runCommand s = .next t) :
    ∃ u, BeforeCompletion s u ∧ ((∃ f, t = u.completeOk f) ∨ ∃ c info, t = u.completeErr c info) := by
  rcases runCommand_cases s with ⟨i, -, command⟩ | ⟨_, -, illegal⟩
  · exact exec_completion (command.symm.trans run)
  · exact ⟨s, ⟨.refl, rfl, rfl⟩, .inr ⟨.illegal, s.regs.cmd, Host.Outcome.next.inj (run.symm.trans illegal)⟩⟩

/-- Settles O52: both completions set DONE and IDLE, and only the error completion leaves an ERRCODE. -/
theorem completionLeavesIdle : Obligations.CompletionLeavesIdle := by
  intro s t run
  obtain ⟨u, before, ⟨f, rfl⟩ | ⟨c, info, rfl⟩⟩ := runCommand_completion run <;>
    have port := before.stored.samePort
  · exact ⟨rfl, rfl, before.cmd, before.irqEn, port.inbox, port.responses, port.served, port.params, fun _ => rfl,
      fun error => absurd rfl error⟩
  · exact ⟨rfl, rfl, before.cmd, before.irqEn, port.inbox, port.responses, port.served, port.params,
      fun clean => absurd clean (errCode_value_ne_zero c), fun _ => rfl⟩

theorem errCode_value_le_seven (c : ErrCode) : c.value.toNat ≤ 7 := by cases c <;> decide

theorem runCommand_keeps_inv {s t : State} (inv : Inv s) (run : runCommand s = .next t) : Inv t := by
  rw [inv_iff] at inv ⊢
  obtain ⟨u, before, completed⟩ := runCommand_completion run
  have memory := before.stored.memoryInv inv.1
  rcases completed with ⟨f, rfl⟩ | ⟨c, info, rfl⟩
  · exact ⟨memory.congr rfl rfl rfl rfl, Nat.zero_le 7, nofun⟩
  · exact ⟨memory.congr rfl rfl rfl rfl, errCode_value_le_seven c, nofun⟩

/-! ## Host actions -/

/-- What a served write does: while SEQ is BUSY only CTRL is written (20_memory.md R90), and only words inside windows are. -/
theorem busWrite_served (s : State) (a v : Word) (strb : Strobe) :
    (busWrite s a v strb).1 = s ∨
      (∃ r : Reg, (s.seq = .busy → r = .ctrl) ∧ (busWrite s a v strb).1 = writeRegister s r v) ∨
        ∃ w k, 4 * k < w.size s.params ∧ (busWrite s a v strb).1 = s.writeWindowWord w k v := by
  by_cases partialStrobes : strb ≠ 0b1111#4
  · exact .inl (by rw [busWrite_partial s a v partialStrobes])
  by_cases unserved : Unserved s.params a
  · exact .inl (by rw [busWrite_unserved v strb unserved])
  obtain rfl := not_not.mp partialStrobes
  obtain ⟨aligned, mapped⟩ : a.toNat % 4 = 0 ∧ Mapped s.params a.toNat := by simpa [Unserved] using unserved
  rcases mapped_cases aligned mapped with ⟨r, rfl⟩ | ⟨w, k, inside, rfl⟩
  · rw [busWrite_register]
    split_ifs with rejected
    · exact .inl rfl
    · exact .inr (.inl ⟨r, fun busy => by simpa [busy_of_busy busy] using rejected, rfl⟩)
  · rw [busWrite_word v inside]
    split_ifs
    · exact .inl rfl
    · exact .inr (.inr ⟨w, k, inside, rfl⟩)

theorem writeRegister_of_plain {r : Reg} (notCtrl : r ≠ .ctrl) (notCmd : r ≠ .cmd) (s : State) (v : Word) :
    writeRegister s r v = s.withRegs (s.regs.write r v) := by
  cases r
  case ctrl => exact absurd rfl notCtrl
  case cmd => exact absurd rfl notCmd
  all_goals rfl

theorem errCode_write (x : Regs) (r : Reg) (v : Word) : (x.write r v).errCode = x.errCode := by
  cases r <;> rfl

theorem writeRegister_keeps_inv {s : State} (inv : Inv s) {r : Reg} (served : s.seq = .busy → r = .ctrl) (v : Word) :
    Inv (writeRegister s r v) := by
  have both := (inv_iff s).mp inv
  by_cases ctrl : r = .ctrl
  · subst ctrl
    rw [writeRegister]
    split_ifs
    · exact (inv_iff _).mpr ⟨both.1.softReset, controlInv_of_reset rfl rfl⟩
    · exact inv
  by_cases cmd : r = .cmd
  · subst cmd
    exact (inv_iff _).mpr ⟨both.1.congr rfl rfl rfl rfl, Nat.zero_le 7, fun _ => ⟨rfl, rfl, rfl⟩⟩
  · rw [writeRegister_of_plain ctrl cmd, inv_iff]
    refine ⟨both.1.withRegs _, ?_, fun busy => absurd (served busy) ctrl⟩
    rw [withRegs_regs, errCode_write]
    exact both.2.errCode

theorem writeWindowWord_keeps_control (s : State) (w : Window) (k : Nat) (v : Word) :
    (s.writeWindowWord w k v).seq = s.seq ∧ (s.writeWindowWord w k v).regs = s.regs := by
  cases w <;> exact ⟨rfl, rfl⟩

theorem busWrite_keeps_inv {s : State} (inv : Inv s) (a v : Word) (strb : Strobe) : Inv (busWrite s a v strb).1 := by
  rcases busWrite_served s a v strb with noEffect | ⟨r, served, register⟩ | ⟨w, k, inside, word⟩
  · rwa [noEffect]
  · rw [register]
    exact writeRegister_keeps_inv inv served v
  · rw [inv_iff] at inv
    obtain ⟨seq, regs⟩ := writeWindowWord_keeps_control s w k v
    rw [word, inv_iff]
    exact ⟨inv.1.writeWindowWord v inside, by rw [regs]; exact inv.2.errCode, by rw [seq, regs]; exact inv.2.busyClean⟩

/-- The invariant does not speak of the bus port. -/
theorem inv_of_same_block {s t : State} (inv : Inv s) (params : t.params = s.params) (seq : t.seq = s.seq)
    (regs : t.regs = s.regs) (mem : t.mem = s.mem) (sym : t.symMem = s.symMem) (bits : t.bitsMem = s.bitsMem) : Inv t := by
  rw [inv_iff] at inv ⊢
  exact ⟨inv.1.congr params mem sym bits, by rw [regs]; exact inv.2.errCode, by rw [seq, regs]; exact inv.2.busyClean⟩

theorem performAction_keeps_inv {s : State} (inv : Inv s) (x : HostAction) : Inv (performAction s x) := by
  cases x with
  | read addr => exact inv_of_same_block inv rfl rfl rfl rfl rfl rfl
  | write addr v strb => exact inv_of_same_block (busWrite_keeps_inv inv addr v strb) rfl rfl rfl rfl rfl rfl
  | wait => exact inv_of_same_block inv rfl rfl rfl rfl rfl rfl
  | hardReset => exact (inv_iff _).mpr ⟨memoryInv_of_nothing_listed rfl rfl rfl, controlInv_of_reset rfl rfl⟩

theorem serve_keeps_inv {s : State} (inv : Inv s) (x : HostAction) (rest : List HostAction) : Inv (serve s x rest) :=
  inv_of_same_block (performAction_keeps_inv inv x) rfl rfl rfl rfl rfl rfl

/-! ## The parameters -/

theorem writeRegister_params (s : State) (r : Reg) (v : Word) : (writeRegister s r v).params = s.params := by
  cases r
  case ctrl =>
    rw [writeRegister]
    split_ifs
    · exact softReset_params s
    · rfl
  all_goals rfl

theorem busWrite_params (s : State) (a v : Word) (strb : Strobe) : (busWrite s a v strb).1.params = s.params := by
  rcases busWrite_served s a v strb with noEffect | ⟨r, -, register⟩ | ⟨w, k, -, word⟩
  · rw [noEffect]
  · rw [register, writeRegister_params]
  · rw [word, writeWindowWord_params]

theorem serve_params (s : State) (x : HostAction) (rest : List HostAction) : (serve s x rest).params = s.params := by
  cases x with
  | read | wait | hardReset => rfl
  | write addr v strb => exact busWrite_params s addr v strb

theorem runCommand_params {s t : State} (run : runCommand s = .next t) : t.params = s.params := by
  obtain ⟨u, before, ⟨f, rfl⟩ | ⟨c, info, rfl⟩⟩ := runCommand_completion run <;> exact before.stored.samePort.params

/-- Settles O56: a step is nothing, a host action or a completion; each keeps the memories within their windows and SEQ, the
flags and ERRCODE as the invariant has them. -/
theorem stepKeepsInv : Obligations.StepKeepsInv := by
  refine ⟨fun s t inv run => ?_, fun s t run => ?_⟩ <;>
    rcases step_cases s with ⟨-, quiet⟩ | ⟨x, rest, -, action⟩ | ⟨-, completion⟩
  · obtain rfl := Host.Outcome.next.inj (quiet.symm.trans run)
    exact inv
  · obtain rfl := Host.Outcome.next.inj (action.symm.trans run)
    exact serve_keeps_inv inv x rest
  · exact runCommand_keeps_inv inv (completion.symm.trans run)
  · obtain rfl := Host.Outcome.next.inj (quiet.symm.trans run)
    rfl
  · obtain rfl := Host.Outcome.next.inj (action.symm.trans run)
    exact serve_params s x rest
  · exact runCommand_params (completion.symm.trans run)

end Sys2Proof.Proofs.StepInvariant
end

/-! PROOF. Where a command stops (70_reset_and_hazards.md R343, R350): only on an element below a length it uses, in a window that
the host fills; an element that an earlier stage of a chain has written is specified. So a command whose operands are specified
completes, and no command hangs (R355, R357). -/
section

namespace Sys2Proof.Proofs.Faults

open Sys2Proof.Machine Sys2Proof.Safety Sys2Proof.Proofs.CommandFrame Sys2Proof.Proofs.CommandOutputs
  Sys2Proof.Proofs.CommandWords Sys2Proof.Proofs.Transmit Sys2Proof.Proofs.Demodulator Sys2Proof.Proofs.Slicer
  Sys2Proof.Proofs.CanonicalMemory Sys2Proof.Proofs.CommandStores Sys2Proof.Proofs.StepInvariant

/-! ## Operands that are missing -/

/-- The windows whose elements the host, and no earlier stage, has to specify for a command. -/
def hostWindows : Instr → List Window
  | .nop | .genCarrier => []
  | .encode => [.msg]
  | .generate => [.pkt, .clut]
  | .txChain => [.msg, .clut]
  | .preprocess | .rxChain => [.rxb]
  | .detect => [.sig]
  | .slice => [.sym]
  | .sync | .decode => [.bits]

/-- How many elements of a window a stage reads, by its length register (30_encoding.md R114). -/
def readLength (r : Regs) : Window → Nat
  | .clut => 4 * r.clutLen.toNat
  | .msg => r.msgLen.toNat
  | .pkt => r.pktLen.toNat
  | .rxb => r.rxLen.toNat
  | .sig => 8 * r.sigLen.toNat
  | .sym => r.symLen.toNat
  | .bits => r.bitsLen.toNat
  | .enc | .dec | .txb | .env | .tokd | .toke => 0

/-- The fault names an unspecified element of one of the windows `W`, below the length in use and within the depth. -/
def Missing (s : State) (W : List Window) (f : Fault) : Prop :=
  ∃ w ∈ W, ∃ k, f = .unspecifiedElement w k ∧ k < readLength s.regs w ∧ k < elements s.params w ∧ Unspecified s w k

theorem Missing.mono {s : State} {V W : List Window} {f : Fault} (h : Missing s V f) (sub : V ⊆ W) : Missing s W f := by
  obtain ⟨w, mem, rest⟩ := h
  exact ⟨w, sub mem, rest⟩

theorem unspecified_iff_windowByte {s : State} {w : Window} (kind : w.isBits = false) (k : Nat) :
    Unspecified s w k ↔ s.windowByte w k = none := by
  cases w
  case sym | bits => cases kind
  all_goals exact Iff.rfl

theorem missing_of_readBytes {s : State} {W : List Window} {w : Window} {n : Nat} {f : Fault} (kind : w.isBits = false)
    (mem : w ∈ W) (count : n ≤ readLength s.regs w) (fits : n ≤ w.size s.params) (read : readBytes s w 0 n = .error f) :
    Missing s W f := by
  obtain ⟨k, rfl, -, lt, unspecified⟩ := readBytes_eq_error _ _ _ _ _ read
  refine ⟨w, mem, k, rfl, by omega, ?_, (unspecified_iff_windowByte kind k).mpr unspecified⟩
  rw [elements, kind]
  exact (lt.trans_eq (Nat.zero_add n)).trans_le fits

/-- The bits of SYM and of BITS fill whole bytes of the bus (00_scope.md R5). -/
theorem eight_mul_sigDepth_div (P : Params) : 8 * (P.sigDepth / 8) = P.sigDepth := by
  have depth := P.rxb_legal
  unfold Params.sigDepth
  omega

theorem missing_of_readSym {s : State} {f : Fault} (fits : s.regs.symLen.toNat ≤ s.params.sigDepth)
    (read : readSym s s.regs.symLen.toNat = .error f) : Missing s [.sym] f := by
  obtain ⟨k, rfl, lt, unspecified⟩ := readBits_eq_error _ _ _ _ read
  refine ⟨.sym, List.mem_singleton_self _, k, rfl, lt, ?_, unspecified⟩
  exact (lt.trans_le fits).trans_eq (eight_mul_sigDepth_div s.params).symm

theorem missing_of_readBitString {s : State} {f : Fault} (fits : s.regs.bitsLen.toNat ≤ s.params.bitsDepth)
    (read : readBitString s s.regs.bitsLen.toNat = .error f) : Missing s [.bits] f := by
  obtain ⟨k, rfl, lt, unspecified⟩ := readBits_eq_error _ _ _ _ read
  refine ⟨.bits, List.mem_singleton_self _, k, rfl, lt, ?_, unspecified⟩
  exact (lt.trans_le fits).trans_eq (eight_mul_sigDepth_div s.params).symm

/-! ## Where each stage stops -/

/-- If the stage stops, it does so with a fault of `P`. -/
def StopsWith (P : Fault → Prop) : StageResult → Prop
  | .done _ _ => True
  | .fail _ _ _ => True
  | .stop f => P f

theorem StopsWith.imp {P Q : Fault → Prop} {x : StageResult} (h : StopsWith P x) (sub : ∀ f, P f → Q f) : StopsWith Q x := by
  cases x with
  | done t f => trivial
  | fail t c i => trivial
  | stop f => exact sub f h

theorem StopsWith.withRead {α : Type} {P : Fault → Prop} {x : Except Fault α} {k : α → StageResult}
    (missing : ∀ f, x = .error f → P f) (h : ∀ a, StopsWith P (k a)) : StopsWith P (withRead x k) := by
  cases x with
  | ok a => exact h a
  | error f => exact missing f rfl

theorem StopsWith.thenStage {P : Fault → Prop} {ok err : State → Prop} {x : StageResult}
    {k : State → StatusFlags → StageResult} (h : StopsWith P x) (leaves : Leaves ok err x)
    (hk : ∀ t f, ok t → StopsWith P (k t f)) : StopsWith P (x.thenStage k) := by
  cases x with
  | done t f => exact hk t f leaves
  | fail t c i => trivial
  | stop f => exact h

/-- If the stage stops, the host has left an operand of the command unspecified. -/
abbrev StopsOnMissing (i : Instr) (s : State) : StageResult → Prop := StopsWith (Missing s (hostWindows i))

theorem stageGenCarrier_stops (s : State) : StopsOnMissing .genCarrier s (stageGenCarrier s) := by
  unfold stageGenCarrier
  dsimp only
  split_ifs <;> trivial

theorem stageEncode_stops (s : State) : StopsOnMissing .encode s (stageEncode s) := by
  unfold stageEncode
  split_ifs with long
  · trivial
  · split
    · trivial
    · refine .withRead (fun f => missing_of_readBytes rfl (by decide) le_rfl (not_lt.mp long)) fun msg => ?_
      split_ifs <;> trivial

theorem readCarrier_eq_error {s : State} {N : Nat} {f : Fault} (read : readCarrier s N = .error f) :
    readBytes s .clut 0 (4 * N) = .error f := by
  unfold readCarrier at read
  split at read
  · cases read
  · cases read
    assumption

theorem missing_of_carrierFor {s : State} {pkt : List Byte} {L : Nat} {f : Fault}
    (fits : s.regs.clutLen.toNat ≤ s.params.clutDepth)
    (read : carrierFor s pkt s.regs.clutLen.toNat L = .error f) : Missing s (hostWindows .generate) f := by
  unfold carrierFor at read
  split_ifs at read
  refine missing_of_readBytes (n := 4 * s.regs.clutLen.toNat) rfl (by decide) le_rfl ?_ (readCarrier_eq_error read)
  rw [Window.size]
  omega

theorem stageGenerate_stops (s : State) : StopsOnMissing .generate s (stageGenerate s) := by
  unfold stageGenerate
  dsimp only
  split_ifs with long wide
  · trivial
  · trivial
  · refine .withRead (fun f => missing_of_readBytes rfl (by decide) le_rfl (not_lt.mp long)) fun pkt => ?_
    split_ifs
    · trivial
    · trivial
    · trivial
    · exact .withRead (fun f => missing_of_carrierFor (not_lt.mp wide)) fun table => trivial

theorem stagePreprocess_stops (s : State) : StopsOnMissing .preprocess s (stagePreprocess s) := by
  unfold stagePreprocess
  dsimp only
  split_ifs with large
  · trivial
  · trivial
  · trivial
  · exact .withRead (fun f => missing_of_readBytes rfl (by decide) le_rfl (not_lt.mp large)) fun bytes => trivial

theorem stageDetect_stops (s : State) : StopsOnMissing .detect s (stageDetect s) := by
  unfold stageDetect
  dsimp only
  split_ifs with large
  · trivial
  · trivial
  · refine .withRead (fun f => missing_of_readBytes rfl (by decide) le_rfl ?_) fun bytes => ?_
    · rw [Window.size]
      omega
    · split_ifs <;> trivial

theorem stageSlice_stops (s : State) : StopsOnMissing .slice s (stageSlice s) := by
  unfold stageSlice
  split_ifs with large
  · trivial
  · trivial
  · exact .withRead (fun f => missing_of_readSym (not_lt.mp large)) fun sym => trivial

theorem tokenWrites_stops (P : Fault → Prop) (s : State) (tokens : List (List Byte)) (x : Regs) (f : StatusFlags) :
    StopsWith P (tokenWrites s tokens x f) := by
  unfold tokenWrites
  dsimp only
  split_ifs <;> trivial

theorem stageSync_stops (s : State) : StopsOnMissing .sync s (stageSync s) := by
  unfold stageSync
  dsimp only
  split_ifs with large
  · trivial
  · trivial
  · split
    · trivial
    · refine .withRead (fun f => missing_of_readBitString (not_lt.mp large)) fun bits => ?_
      split
      · trivial
      · exact tokenWrites_stops _ s _ _ _

theorem stageDecode_stops (s : State) : StopsOnMissing .decode s (stageDecode s) := by
  unfold stageDecode
  dsimp only
  split_ifs with large
  · trivial
  · trivial
  · split
    · trivial
    · exact .withRead (fun f => missing_of_readBitString (not_lt.mp large)) fun bits => tokenWrites_stops _ s _ _ _

/-! ## What a stage hands on to the next one -/

/-- The elements of a window below its length in use are specified. -/
def Filled (w : Window) (s : State) : Prop := ∀ k, k < readLength s.regs w → ¬ Unspecified s w k

theorem Missing.not_filled {s : State} {V W : List Window} {f : Fault} (h : Missing s V f)
    (filled : ∀ w ∈ V, w ∈ W ∨ Filled w s) : Missing s W f := by
  obtain ⟨w, mem, k, name, lt, inside, unspecified⟩ := h
  rcases filled w mem with still | filled
  · exact ⟨w, still, k, name, lt, inside, unspecified⟩
  · exact absurd unspecified (filled k lt)

theorem filled_of_holdsBytes {s : State} {w : Window} {bs : List Byte} (kind : w.isBits = false) (holds : HoldsBytes s w bs)
    (count : readLength s.regs w ≤ bs.length) : Filled w s := by
  intro k lt unspecified
  have inside := lt.trans_le count
  rw [unspecified_iff_windowByte kind, holds k inside, List.getElem?_eq_getElem inside] at unspecified
  cases unspecified

theorem filled_of_holdsSym {s : State} {sym : List Bool} (holds : HoldsSym s sym) (count : s.regs.symLen.toNat ≤ sym.length) :
    Filled .sym s := by
  intro k lt unspecified
  have inside := lt.trans_le count
  rw [Unspecified, holds k inside, List.getElem?_eq_getElem inside] at unspecified
  cases unspecified

theorem filled_of_holdsBits {s : State} {bits : List Bool} (holds : HoldsBits s bits)
    (count : s.regs.bitsLen.toNat ≤ bits.length) : Filled .bits s := by
  intro k lt unspecified
  have inside := lt.trans_le count
  rw [Unspecified, holds k inside, List.getElem?_eq_getElem inside] at unspecified
  cases unspecified

/-- If the stage completes, it has filled the window up to the length it leaves. -/
abbrev Fills (w : Window) : StageResult → Prop := Leaves (Filled w) fun _ => True

theorem toNat_natWord_le (n : Nat) : (natWord n).toNat ≤ n := Nat.mod_le _ _

theorem stageEncode_fills (s : State) : Fills .pkt (stageEncode s) := by
  unfold stageEncode
  split_ifs
  · trivial
  · split
    · trivial
    · refine .withRead fun msg _ => ?_
      split_ifs
      · trivial
      · exact filled_of_holdsBytes rfl (holdsBytes_writeBytes s .pkt _) (toNat_natWord_le _)

theorem filled_of_nothing_read {s : State} {w : Window} (zero : readLength s.regs w = 0) : Filled w s := by
  intro k lt
  omega

theorem stagePreprocess_fills (s : State) : Fills .sig (stagePreprocess s) := by
  unfold stagePreprocess
  dsimp only
  split_ifs
  · trivial
  · trivial
  · exact filled_of_nothing_read rfl
  · refine .withRead fun bytes read => filled_of_holdsBytes rfl (holdsBytes_writeBytes s .sig _) ?_
    have count := ((readBytes_eq_ok_iff ..).mp read).1
    have samples := toNat_natWord_le (zext s.regs.rxLen / 2)
    rw [length_bytesOfWords, length_iqWords, iqSamples, List.length_map, length_pairUp, count]
    simp only [readLength, withRegs_regs]
    omega

theorem stageDetect_fills (s : State) : Fills .sym (stageDetect s) := by
  unfold stageDetect
  dsimp only
  split_ifs
  · trivial
  · exact filled_of_nothing_read rfl
  · refine .withRead fun bytes read => ?_
    split_ifs
    · exact filled_of_nothing_read rfl
    · refine filled_of_holdsSym (holdsSym_writeSym _ _) ?_
      rw [List.length_map, length_envelope_sigSamples s.regs ((readBytes_eq_ok_iff ..).mp read).1]
      exact toNat_natWord_le _

theorem stageSlice_fills (s : State) : Fills .bits (stageSlice s) := by
  unfold stageSlice
  split_ifs
  · trivial
  · trivial
  · exact .withRead fun sym _ => filled_of_holdsBits (holdsBits_writeBitString _ _) (toNat_natWord_le _)

/-! ## The chains -/

theorem Leaves.and {ok ok' err err' : State → Prop} {x : StageResult} (h : Leaves ok err x) (h' : Leaves ok' err' x) :
    Leaves (fun t => ok t ∧ ok' t) (fun t => err t ∧ err' t) x := by
  cases x with
  | done t f => exact ⟨h, h'⟩
  | fail t c i => exact ⟨h, h'⟩
  | stop f => trivial

theorem unspecified_of_frame {R : List Reg} {W : List Window} {s t : State} {w : Window} {k : Nat} (frame : Frame R W s t)
    (kept : w ∉ W) (inside : k < elements s.params w) (unspecified : Unspecified t w k) : Unspecified s w k := by
  have same := frame.elems w k inside (.inl kept)
  cases w <;> exact Eq.trans (Eq.symm same) unspecified

/-- ENCODE leaves the carrier table and its length alone. -/
theorem Missing.before_encode {s t : State} {f : Fault} (frame : Frame (registersWritten .encode) (windowsWritten .encode) s t)
    (h : Missing t [.clut] f) : Missing s [.clut] f := by
  obtain ⟨w, mem, k, name, lt, inside, unspecified⟩ := h
  obtain rfl := List.mem_singleton.mp mem
  have length : t.regs.clutLen = s.regs.clutLen := frame.regs .clutLen (by decide)
  rw [frame.params] at inside
  simp only [readLength, length] at lt
  exact ⟨.clut, mem, k, name, lt, inside, unspecified_of_frame frame (by decide) inside unspecified⟩

theorem stageTxChain_stops (s : State) : StopsOnMissing .txChain s (stageTxChain s) := by
  refine ((stageEncode_stops s).imp fun f missing => missing.mono (by decide)).thenStage
    (Leaves.and (stageEncode_writes s) (stageEncode_fills s)) fun t _ ⟨frame, filled⟩ =>
      (stageGenerate_stops t).imp fun f missing => ?_
  have carrier : Missing t [.clut] f := missing.not_filled fun w mem => by
    rcases List.mem_cons.mp mem with rfl | table
    · exact .inr filled
    · exact .inl table
  exact (carrier.before_encode frame).mono (by decide)

/-- A stage whose one operand the stage before has filled does not stop. -/
theorem StopsWith.of_filled {i : Instr} {w : Window} {P : Fault → Prop} {s : State} {x : StageResult}
    (h : StopsOnMissing i s x) (windows : hostWindows i = [w]) (filled : Filled w s) : StopsWith P x :=
  h.imp fun f missing => by
    have none_left : Missing s [] f := missing.not_filled fun v mem => by
      rw [windows, List.mem_singleton] at mem
      exact .inr (mem ▸ filled)
    obtain ⟨w, mem, -⟩ := none_left
    cases mem

theorem stageRxChain_stops (s : State) : StopsOnMissing .rxChain s (stageRxChain s) := by
  refine StopsWith.thenStage (stagePreprocess_stops s) (stagePreprocess_fills s) fun s1 f1 sig => ?_
  refine StopsWith.thenStage ((stageDetect_stops s1).of_filled rfl sig) (stageDetect_fills s1) fun s2 f2 sym => ?_
  split_ifs
  · trivial
  · refine StopsWith.thenStage ((stageSlice_stops s2).of_filled rfl sym) (stageSlice_fills s2) fun s3 f3 bits => ?_
    have complete : Leaves (fun _ => True) (fun _ => True) (stageSync s3) := by cases stageSync s3 <;> trivial
    exact StopsWith.thenStage ((stageSync_stops s3).of_filled rfl bits) complete fun s4 f4 _ => trivial

theorem stageOf_stops (i : Instr) (s : State) : StopsOnMissing i s (stageOf i s) := by
  cases i with
  | nop => trivial
  | genCarrier => exact stageGenCarrier_stops s
  | encode => exact stageEncode_stops s
  | generate => exact stageGenerate_stops s
  | txChain => exact stageTxChain_stops s
  | preprocess => exact stagePreprocess_stops s
  | detect => exact stageDetect_stops s
  | slice => exact stageSlice_stops s
  | sync => exact stageSync_stops s
  | decode => exact stageDecode_stops s
  | rxChain => exact stageRxChain_stops s

/-! ## Every command and every step -/

theorem exec_fault {i : Instr} {s : State} {f : Fault} (run : exec i s = .fault f) : Missing s (hostWindows i) f := by
  have stops := stageOf_stops i s
  rw [exec_eq_finish_stageOf, finish_eq_fault_iff] at run
  rwa [run] at stops

theorem exec_ne_refused (i : Instr) (s : State) (r : Refusal) : exec i s ≠ .refused r := by
  rw [exec_eq_finish_stageOf]
  exact finish_ne_refused _ r

theorem runCommand_fault {s : State} {f : Fault} (run : runCommand s = .fault f) :
    ∃ i, decodeWord s.regs.cmd = .ok i ∧ exec i s = .fault f := by
  rcases runCommand_cases s with ⟨i, decoded, command⟩ | ⟨_, -, illegal⟩
  · exact ⟨i, decoded, command.symm.trans run⟩
  · cases illegal.symm.trans run

theorem runCommand_ne_refused (s : State) (r : Refusal) : runCommand s ≠ .refused r := by
  rcases runCommand_cases s with ⟨i, -, command⟩ | ⟨_, -, illegal⟩
  · rw [command]
    exact exec_ne_refused i s r
  · rw [illegal]
    nofun

/-- Settles O57: the windows the host fills are among those the command reads, and only a completion stops. -/
theorem faultsOnlyOnUnspecified : Obligations.FaultsOnlyOnUnspecified := by
  refine ⟨fun i s f run => ?_, fun s f run => ?_, fun s r => ?_⟩
  · obtain ⟨w, mem, k, name, -, inside, unspecified⟩ := exec_fault run
    have reads : hostWindows i ⊆ windowsRead i := by cases i <;> decide
    exact ⟨w, k, name, reads mem, inside, unspecified⟩
  · rcases step_cases s with ⟨-, quiet⟩ | ⟨x, rest, -, action⟩ | ⟨-, completion⟩
    · cases quiet.symm.trans run
    · cases action.symm.trans run
    · exact runCommand_fault (completion.symm.trans run)
  · rcases step_cases s with ⟨-, quiet⟩ | ⟨x, rest, -, action⟩ | ⟨-, completion⟩
    · rw [quiet]
      nofun
    · rw [action]
      nofun
    · rw [completion]
      exact runCommand_ne_refused s r

theorem filled_of_bytes {s : State} {w : Window} (kind : w.isBits = false)
    (values : ∀ k, k < readLength s.regs w → (s.windowByte w k).isSome) : Filled w s := by
  intro k lt
  rw [unspecified_iff_windowByte kind]
  exact Option.isSome_iff_ne_none.mp (values k lt)

/-- The host's duty (R350) is to fill the windows that no earlier stage fills. -/
theorem filled_of_operandsSpecified {i : Instr} {s : State} (specified : OperandsSpecified i s) :
    ∀ w ∈ hostWindows i, Filled w s := by
  cases i with
  | nop | genCarrier => exact fun w mem => absurd mem List.not_mem_nil
  | encode | preprocess | detect | rxChain => exact List.forall_mem_singleton.mpr (filled_of_bytes rfl specified)
  | generate | txChain =>
    exact List.forall_mem_cons.mpr
      ⟨filled_of_bytes rfl specified.1, List.forall_mem_singleton.mpr (filled_of_bytes rfl specified.2)⟩
  | slice | sync | decode =>
    exact List.forall_mem_singleton.mpr fun k lt => Option.isSome_iff_ne_none.mp (specified k lt)

/-- Settles O58: a command stops on a missing operand alone. -/
theorem specifiedOperandsComplete : Obligations.SpecifiedOperandsComplete := by
  intro i s specified
  cases run : exec i s with
  | next t => exact ⟨t, rfl⟩
  | fault f =>
    have filled := filled_of_operandsSpecified specified
    obtain ⟨w, mem, k, -, lt, -, unspecified⟩ := exec_fault run
    exact absurd unspecified (filled w mem k lt)
  | refused r => exact absurd run (exec_ne_refused i s r)

/-! ## Commands end -/

/-- From `s` the block gets within `n` steps to IDLE or to a step that stops. -/
def EndsWithin (n : Nat) (s : State) : Prop :=
  ∃ k t, k ≤ n ∧ StepsTo k s t ∧ (t.seq = .idle ∨ ∃ w i, step t = .fault (.unspecifiedElement w i))

theorem endsWithin_of_idle {s : State} (n : Nat) (idle : s.seq = .idle) : EndsWithin n s :=
  ⟨0, s, Nat.zero_le n, rfl, .inl idle⟩

theorem endsWithin_of_step {n : Nat} {s u : State} (run : step s = .next u) (h : EndsWithin n u) : EndsWithin (n + 1) s := by
  obtain ⟨k, t, le, steps, done⟩ := h
  exact ⟨k + 1, t, Nat.succ_le_succ le, ⟨u, run, steps⟩, done⟩

/-- A completion step leaves IDLE, or stops. -/
theorem endsWithin_of_completion {s : State} (n : Nat) (completion : step s = runCommand s) : EndsWithin (n + 1) s := by
  cases run : runCommand s with
  | next t => exact endsWithin_of_step (completion.trans run) (endsWithin_of_idle n (completionLeavesIdle s t run).1)
  | fault f =>
    obtain ⟨w, i⟩ := f
    exact ⟨0, s, Nat.zero_le _, rfl, .inr ⟨w, i, completion.trans run⟩⟩
  | refused r => exact absurd run (runCommand_ne_refused s r)

theorem endsWithin_of_busy {s : State} {waiting : List HostAction} (inbox : s.inbox = waiting) (busy : s.seq = .busy) :
    EndsWithin (waiting.length + 1) s := by
  induction waiting generalizing s with
  | nil =>
    rcases step_cases s with ⟨quiet, -⟩ | ⟨x, rest, next, -⟩ | ⟨-, completion⟩
    · cases busy.symm.trans (nextEvent_eq_quiet s quiet).1
    · cases inbox.symm.trans (nextEvent_eq_action s x rest next)
    · exact endsWithin_of_completion _ completion
  | cons y waiting ih =>
    rcases step_cases s with ⟨quiet, -⟩ | ⟨x, rest, next, action⟩ | ⟨-, completion⟩
    · cases busy.symm.trans (nextEvent_eq_quiet s quiet).1
    · cases inbox.symm.trans (nextEvent_eq_action s x rest next)
      cases seq : (serve s y waiting).seq with
      | idle => exact endsWithin_of_step action (endsWithin_of_idle _ seq)
      | busy => exact endsWithin_of_step action (ih rfl seq)
    · exact endsWithin_of_completion _ completion

/-- Settles O59, by induction on the host actions that wait: each step serves one of them or is the completion. -/
theorem everyCommandEnds : Obligations.EveryCommandEnds := fun _ busy => endsWithin_of_busy rfl busy

end Sys2Proof.Proofs.Faults
end

/-! PROOF. The length checks of every stage (40_control.md R146), in their order. -/
section

namespace Sys2Proof.Proofs.LengthChecks

open Sys2Proof.Machine Sys2Proof.Safety Sys2Proof.Proofs.CommandOutputs Sys2Proof.Proofs.Demodulator
  Sys2Proof.Proofs.Slicer Sys2Proof.Proofs.Faults

theorem stageEncode_of_large {s : State} (large : s.params.msgDepth < zext s.regs.msgLen) :
    stageEncode s = .fail s .param (paramInfo .msgLen) := if_pos large

theorem stageGenerate_of_large {s : State} (large : s.params.pktDepth < zext s.regs.pktLen) :
    stageGenerate s = .fail s .param (paramInfo .pktLen) := if_pos large

theorem stageGenerate_of_wide {s : State} (fits : zext s.regs.pktLen ≤ s.params.pktDepth)
    (wide : s.params.clutDepth < zext s.regs.clutLen) : stageGenerate s = .fail s .param (paramInfo .clutLen) := by
  rw [stageGenerate, if_neg (not_lt.mpr fits), if_pos wide]

theorem stageSync_of_large {s : State} (large : s.params.bitsDepth < zext s.regs.bitsLen) :
    stageSync s = .fail s .param (paramInfo .bitsLen) := if_pos large

theorem stageSync_of_long {s : State} (fits : zext s.regs.bitsLen ≤ s.params.bitsDepth) (long : 64 < zext s.regs.syncLen) :
    stageSync s = .fail s .param (paramInfo .syncLen) := by
  rw [stageSync, if_neg (not_lt.mpr fits), Config.MAX_SYNC_BITS, if_pos long]

theorem stageDecode_of_large {s : State} (large : s.params.bitsDepth < zext s.regs.bitsLen) :
    stageDecode s = .fail s .param (paramInfo .bitsLen) := if_pos large

theorem stageDecode_of_late {s : State} (fits : zext s.regs.bitsLen ≤ s.params.bitsDepth)
    (late : zext s.regs.bitsLen < zext s.regs.decStart) : stageDecode s = .fail s .param (paramInfo .decStart) := by
  rw [stageDecode, if_neg (not_lt.mpr fits), if_pos late]

theorem fault_within_depth {i : Instr} {s : State} {w : Window} {k : Nat}
    (run : exec i s = .fault (.unspecifiedElement w k)) : k < elements s.params w := by
  obtain ⟨v, -, j, name, -, inside, -⟩ := exec_fault run
  cases name
  exact inside

/-- Settles O37: each clause is one failing path of a stage, and a fault names an element within the depth. -/
theorem lengthChecks : Obligations.LengthChecks :=
  ⟨fun _ large => failsWith_of_stage (i := .encode) (stageEncode_of_large large),
    fun _ large => failsWith_of_stage (i := .generate) (stageGenerate_of_large large),
    fun _ fits wide => failsWith_of_stage (i := .generate) (stageGenerate_of_wide fits wide),
    fun _ large => failsWith_of_stage (i := .preprocess) (stagePreprocess_of_large large),
    fun _ large => failsWith_of_stage (i := .detect) (stageDetect_of_large large),
    fun _ large => failsWith_of_stage (i := .slice) (stageSlice_of_large large),
    fun _ fits zero => failsWith_of_stage (i := .slice) (stageSlice_of_zero fits zero),
    fun _ large => failsWith_of_stage (i := .sync) (stageSync_of_large large),
    fun _ fits long => failsWith_of_stage (i := .sync) (stageSync_of_long fits long),
    fun _ large => failsWith_of_stage (i := .decode) (stageDecode_of_large large),
    fun _ fits late => failsWith_of_stage (i := .decode) (stageDecode_of_late fits late),
    fun _ _ _ _ => fault_within_depth⟩

end Sys2Proof.Proofs.LengthChecks
end

/-! PROOF. A command issued again (40_control.md section 1, 10_state.md section 7): what a stage computes depends on its operands
alone, its outputs are not among them, and storing again what a canonical memory holds changes nothing. -/
section

namespace Sys2Proof.Proofs.Reissue

open Sys2Proof.Machine Sys2Proof.Safety Sys2Proof.Proofs.CommandFrame Sys2Proof.Proofs.CommandOutputs
  Sys2Proof.Proofs.Transmit Sys2Proof.Proofs.CompletionFlags Sys2Proof.Proofs.CanonicalMemory
  Sys2Proof.Proofs.MemoryInvariant Sys2Proof.Proofs.CommandStores Sys2Proof.Proofs.StepInvariant

/-! ## Agreement of two states -/

/-- The registers `R` and the windows `W` read the same in both states. -/
structure Agree (R : List Reg) (W : List Window) (s t : State) : Prop where
  params : t.params = s.params
  regs : ∀ r ∈ R, t.readReg r = s.readReg r
  elems : ∀ w ∈ W, ∀ k, k < elements s.params w → SameElement s t w k

theorem Agree.refl (R : List Reg) (W : List Window) (s : State) : Agree R W s s :=
  ⟨rfl, fun _ _ => rfl, fun w _ k _ => sameElement_refl s w k⟩

/-- What a transition does not write, it leaves as it was. -/
theorem agree_of_frame {R R' : List Reg} {W W' : List Window} {s t : State} (frame : Frame R W s t)
    (regs : ∀ r ∈ R', r ∉ R) (windows : ∀ w ∈ W', w ∉ W) : Agree R' W' s t :=
  ⟨frame.params, fun r mem => frame.regs r (regs r mem), fun w mem k inside => frame.elems w k inside (.inl (windows w mem))⟩

theorem Agree.trans {R : List Reg} {W : List Window} {s t u : State} (h₁ : Agree R W s t) (h₂ : Agree R W t u) :
    Agree R W s u :=
  ⟨h₂.params.trans h₁.params, fun r mem => (h₂.regs r mem).trans (h₁.regs r mem),
    fun w mem k inside => sameElement_trans (h₁.elems w mem k inside) (h₂.elems w mem k (by rwa [h₁.params]))⟩

theorem Agree.windowByte {R : List Reg} {W : List Window} {s t : State} (h : Agree R W s t) {w : Window} (mem : w ∈ W)
    (kind : w.isBits = false) {k : Nat} (inside : k < w.size s.params) : t.windowByte w k = s.windowByte w k := by
  have same := h.elems w mem k (by rwa [elements, kind])
  cases w
  case sym | bits => cases kind
  all_goals exact same

/-- A register of n bits that reads the same is the same. -/
theorem eq_of_setWidth_eq {n : Nat} {x y : BitVec n} (narrow : n ≤ 32) (same : x.setWidth 32 = y.setWidth 32) : x = y := by
  have numbers := congrArg BitVec.toNat same
  have wide : 2 ^ n ≤ 2 ^ 32 := Nat.pow_le_pow_right two_pos narrow
  rw [BitVec.toNat_setWidth, BitVec.toNat_setWidth, Nat.mod_eq_of_lt (x.isLt.trans_le wide),
    Nat.mod_eq_of_lt (y.isLt.trans_le wide)] at numbers
  exact BitVec.eq_of_toNat_eq numbers

theorem eq_of_signExtend_eq {x y : BitVec 18} (same : x.signExtend 32 = y.signExtend 32) : x = y := by
  have numbers := congrArg BitVec.toInt same
  rw [BitVec.toInt_signExtend_of_le (by decide), BitVec.toInt_signExtend_of_le (by decide)] at numbers
  exact BitVec.eq_of_toInt_eq numbers

/-! ## Operands that agree -/

theorem readBytes_congr {R : List Reg} {W : List Window} {s t : State} (h : Agree R W s t) {w : Window} (mem : w ∈ W)
    (kind : w.isBits = false) {n : Nat} (fits : n ≤ w.size s.params) : readBytes t w 0 n = readBytes s w 0 n := by
  rw [readBytes, readBytes, getRange_eq_map, getRange_eq_map]
  exact congrArg (readAll w 0) (List.map_congr_left fun k lt =>
    h.windowByte mem kind ((List.mem_range.mp lt).trans_le fits))

theorem readSym_congr {R : List Reg} {W : List Window} {s t : State} (h : Agree R W s t) (mem : .sym ∈ W) {n : Nat}
    (fits : n ≤ s.params.sigDepth) : readSym t n = readSym s n := by
  rw [readSym, readSym, readBits, readBits, getRange_eq_map, getRange_eq_map]
  refine congrArg (readAll .sym 0) (List.map_congr_left fun k lt => ?_)
  rw [Nat.zero_add]
  exact h.elems .sym mem k
    (((List.mem_range.mp lt).trans_le fits).trans_eq (Faults.eight_mul_sigDepth_div s.params).symm)

theorem readBitString_congr {R : List Reg} {W : List Window} {s t : State} (h : Agree R W s t) (mem : .bits ∈ W) {n : Nat}
    (fits : n ≤ s.params.bitsDepth) : readBitString t n = readBitString s n := by
  rw [readBitString, readBitString, readBits, readBits, getRange_eq_map, getRange_eq_map]
  refine congrArg (readAll .bits 0) (List.map_congr_left fun k lt => ?_)
  rw [Nat.zero_add]
  exact h.elems .bits mem k
    (((List.mem_range.mp lt).trans_le fits).trans_eq (Faults.eight_mul_sigDepth_div s.params).symm)

theorem tableWordAt_congr {R : List Reg} {W : List Window} {s t : State} (h : Agree R W s t) {w : Window} (mem : w ∈ W)
    (kind : w.isBits = false) {index : Nat} (inside : 4 * index < w.size s.params) :
    tableWordAt t w index = tableWordAt s w index := by
  have aligned := size_aligned s.params kind
  refine word_ext_bytes fun j lt => ?_
  rw [tableWordAt, tableWordAt, byteOf_windowWord t kind _ _ lt, byteOf_windowWord s kind _ _ lt,
    h.windowByte mem kind (by omega)]

theorem encEntry_congr {R : List Reg} {W : List Window} {s t : State} (h : Agree R W s t) (mem : .enc ∈ W) {c : Nat}
    (lt : c < 256) : encEntry t c = encEntry s c := by
  have table {index : Nat} (inside : 4 * index < 2048) : tableWordAt t .enc index = tableWordAt s .enc index :=
    tableWordAt_congr h mem rfl inside
  rw [encEntry, encEntry, table (by omega), table (by omega)]

theorem decEntry_congr {R : List Reg} {W : List Window} {s t : State} (h : Agree R W s t) (mem : .dec ∈ W) {e : Nat}
    (lt : e < s.params.decEntries) : decEntry t e = decEntry s e := by
  have table {index : Nat} (inside : 4 * index < s.params.decEntries * 16) :
      tableWordAt t .dec index = tableWordAt s .dec index := tableWordAt_congr h mem rfl inside
  rw [decEntry, decEntry, table (by omega), table (by omega), table (by omega)]

theorem decTable_congr {R : List Reg} {W : List Window} {s t : State} (h : Agree R W s t) (mem : .dec ∈ W) :
    decTable t = decTable s := by
  rw [decTable, decTable, h.params]
  exact List.map_congr_left fun e lt => decEntry_congr h mem (List.mem_range.mp lt)

theorem badEncEntry_congr {R : List Reg} {W : List Window} {s t : State} (h : Agree R W s t) (mem : .enc ∈ W) :
    badEncEntry t = badEncEntry s :=
  List.find?_congr fun c lt => by rw [encEntry_congr h mem (List.mem_range.mp lt)]

theorem substitute_congr {R : List Reg} {W : List Window} {s t : State} (h : Agree R W s t) (mem : .enc ∈ W) :
    substitute t = substitute s :=
  funext fun c => by rw [substitute, substitute, encEntry_congr h mem c.isLt]

theorem substituteLen_congr {R : List Reg} {W : List Window} {s t : State} (h : Agree R W s t) (mem : .enc ∈ W) :
    substituteLen t = substituteLen s :=
  funext fun c => by rw [substituteLen, substituteLen, encEntry_congr h mem c.isLt]

theorem carrierFor_congr {R : List Reg} {W : List Window} {s t : State} (h : Agree R W s t) (mem : .clut ∈ W)
    (pkt : List Byte) {N : Nat} (L : Nat) (fits : N ≤ s.params.clutDepth) : carrierFor t pkt N L = carrierFor s pkt N L := by
  rw [carrierFor, carrierFor, readCarrier, readCarrier,
    readBytes_congr h mem rfl (show 4 * N ≤ Window.clut.size s.params by rw [Window.size]; omega)]

/-! ## Outputs that are held already -/

/-- The bytes that a stage stored at the start of a window are still there in a state that agrees on the window. -/
theorem holdsBytes_of_agree {R : List Reg} {W : List Window} {t u : State} (h : Agree R W t u) {w : Window} {bs : List Byte}
    (mem : w ∈ W) (kind : w.isBits = false) (fits : bs.length ≤ w.size t.params) (holds : HoldsBytes t w bs) :
    HoldsBytes u w bs :=
  fun j lt => (h.windowByte mem kind (lt.trans_le fits)).trans (holds j lt)

theorem holdsSym_of_agree {R : List Reg} {W : List Window} {t u : State} (h : Agree R W t u) {sym : List Bool}
    (mem : .sym ∈ W) (fits : sym.length ≤ t.params.sigDepth) (holds : HoldsSym t sym) : HoldsSym u sym :=
  fun i lt => (h.elems .sym mem i ((lt.trans_le fits).trans_eq (Faults.eight_mul_sigDepth_div t.params).symm)).trans
    (holds i lt)

theorem holdsBits_of_agree {R : List Reg} {W : List Window} {t u : State} (h : Agree R W t u) {bits : List Bool}
    (mem : .bits ∈ W) (fits : bits.length ≤ t.params.bitsDepth) (holds : HoldsBits t bits) : HoldsBits u bits :=
  fun i lt => (h.elems .bits mem i ((lt.trans_le fits).trans_eq (Faults.eight_mul_sigDepth_div t.params).symm)).trans
    (holds i lt)

/-! ## Registers that are held already -/

theorem carrierRegs_eq_self {u : State} {fs fc n : Word} {amp : BitVec 7} (hfs : u.regs.fs = fs) (hfc : u.regs.fc = fc)
    (hamp : u.regs.amp = amp) (clutLen : u.regs.clutLen = n) :
    u.withRegs { u.regs with fs := fs, fc := fc, amp := amp, clutLen := n } = u := by
  subst hfs hfc hamp clutLen
  rfl

theorem packetRegs_eq_self {u : State} {m n : Word} (msgLen : u.regs.msgLen = m) (pktLen : u.regs.pktLen = n) :
    u.withRegs { u.regs with msgLen := m, pktLen := n } = u := by
  subst msgLen pktLen
  rfl

theorem waveRegs_eq_self {u : State} {n count pos : Word} {val : Byte} (txLen : u.regs.txLen = n)
    (unkCount : u.regs.unkCount = count) (unkPos : u.regs.unkPos = pos) (unkVal : u.regs.unkVal = val) :
    u.withRegs { u.regs with txLen := n, unkCount := count, unkPos := pos, unkVal := val } = u := by
  subst txLen unkCount unkPos unkVal
  rfl

theorem signalRegs_eq_self {W : List Window} {t u : State} {n : Word} (rxLen : u.regs.rxLen = n)
    (outputs : Agree (registersWritten .preprocess) W t u) :
    u.withRegs
      { u.regs with rxLen := n, sigLen := t.regs.sigLen, meanI := t.regs.meanI, meanQ := t.regs.meanQ } = u := by
  have sigLen : u.regs.sigLen = t.regs.sigLen := outputs.regs .sigLen (by decide)
  have meanI : u.regs.meanI = t.regs.meanI := outputs.regs .meanI (by decide)
  have meanQ : u.regs.meanQ = t.regs.meanQ := outputs.regs .meanQ (by decide)
  rw [← sigLen, ← meanI, ← meanQ, ← rxLen]
  rfl

theorem detectRegs_eq_self {W : List Window} {t u : State} {n least : Word} (sigLen : u.regs.sigLen = n)
    (threshMin : u.regs.threshMin = least) (outputs : Agree (registersWritten .detect) W t u) :
    u.withRegs
      { u.regs with
        sigLen := n
        threshMin := least
        thresh := t.regs.thresh
        lo := t.regs.lo
        hi := t.regs.hi
        symLen := t.regs.symLen } = u := by
  have thresh : u.regs.thresh = t.regs.thresh := outputs.regs .thresh (by decide)
  have low : u.regs.lo = t.regs.lo := outputs.regs .lo (by decide)
  have high : u.regs.hi = t.regs.hi := outputs.regs .hi (by decide)
  have symLen : u.regs.symLen = t.regs.symLen := outputs.regs .symLen (by decide)
  rw [← thresh, ← low, ← high, ← symLen, ← sigLen, ← threshMin]
  rfl

theorem bitsRegs_eq_self {u : State} {m L n : Word} (symLen : u.regs.symLen = m) (rxSymLen : u.regs.rxSymLen = L)
    (bitsLen : u.regs.bitsLen = n) : u.withRegs { u.regs with symLen := m, rxSymLen := L, bitsLen := n } = u := by
  subst symLen rxSymLen bitsLen
  rfl

theorem syncRegs_eq_self {u : State} {m p j d n : Word} (bitsLen : u.regs.bitsLen = m) (syncLen : u.regs.syncLen = p)
    (syncIdx : u.regs.syncIdx = j) (tokdLen : u.regs.tokdLen = d) (tokCount : u.regs.tokCount = n) :
    u.withRegs { u.regs with bitsLen := m, syncLen := p, syncIdx := j, tokdLen := d, tokCount := n } = u := by
  subst bitsLen syncLen syncIdx tokdLen tokCount
  rfl

theorem tokenRegs_eq_self {u : State} {d n : Word} (tokdLen : u.regs.tokdLen = d) (tokCount : u.regs.tokCount = n) :
    u.withRegs { u.regs with tokdLen := d, tokCount := n } = u := by
  subst tokdLen tokCount
  rfl

/-! ## The stages, run again -/

/-- The registers that a stage reads (30_encoding.md R114). -/
def regsRead : Instr → List Reg
  | .nop => []
  | .genCarrier => [.fs, .fc, .amp]
  | .encode => [.msgLen]
  | .generate => [.pktLen, .clutLen, .txSymLen, .pauseLen]
  | .txChain => [.msgLen, .clutLen, .txSymLen, .pauseLen]
  | .preprocess => [.rxLen]
  | .detect => [.sigLen, .filtB0, .filtB1, .filtA1, .threshMin]
  | .slice => [.symLen, .rxSymLen]
  | .sync => [.bitsLen, .syncLen, .syncPat0, .syncPat1]
  | .decode => [.bitsLen, .decStart]
  | .rxChain => [.rxLen, .filtB0, .filtB1, .filtA1, .threshMin, .rxSymLen, .syncLen, .syncPat0, .syncPat1]

/-- Where the stage of `i` completes in `t` on `s`, it completes on `u` with nothing new: `u` has the operands of `s` and
the outputs of `t`. -/
def RunsAgain (i : Instr) (s : State) : Prop :=
  ∀ t u f, stageOf i s = .done t f → Agree (regsRead i) (windowsRead i) s u →
    Agree (registersWritten i) (windowsWritten i) t u → u.memWf = true → stageOf i u = .done u f

theorem stageGenCarrier_again (s : State) : RunsAgain .genCarrier s := by
  intro t u f done operands outputs wf
  have fs : u.regs.fs = s.regs.fs := operands.regs .fs (by decide)
  have fc : u.regs.fc = s.regs.fc := operands.regs .fc (by decide)
  have amp : u.regs.amp = s.regs.amp := eq_of_setWidth_eq (by decide) (operands.regs .amp (by decide))
  revert done
  simp only [stageOf, stageGenCarrier, fs, fc, amp, operands.params]
  split_ifs with noCarrier empty large
  · nofun
  · nofun
  · nofun
  · intro done
    cases done
    have length : u.regs.clutLen = natWord _ := outputs.regs .clutLen (by decide)
    have held := holdsBytes_of_agree outputs (w := .clut) (by decide) rfl
      (by rw [length_carrierTable, Window.size, withRegs_params, writeBytes_params]; omega) (holdsBytes_writeBytes s .clut _)
    rw [writeBytes_eq_self wf held]
    exact congrArg (StageResult.done · _) (carrierRegs_eq_self fs fc amp length)

theorem stageEncode_again (s : State) : RunsAgain .encode s := by
  intro t u f done operands outputs wf
  have enc : .enc ∈ windowsRead .encode := by decide
  have msgLen : u.regs.msgLen = s.regs.msgLen := operands.regs .msgLen (by decide)
  revert done
  simp only [stageOf, stageEncode, msgLen, operands.params, badEncEntry_congr operands enc, substitute_congr operands enc,
    substituteLen_congr operands enc]
  split_ifs with long
  · nofun
  cases bad : badEncEntry s with
  | some c => nofun
  | none =>
    dsimp only
    rw [readBytes_congr operands (w := .msg) (by decide) rfl (not_lt.mp long)]
    cases read : readBytes s .msg 0 (zext s.regs.msgLen) with
    | error f => nofun
    | ok msg =>
      rw [withRead_ok, withRead_ok]
      split_ifs with overflow
      · nofun
      · intro done
        cases done
        have count : (msg.flatMap (substitute s)).length = (msg.map (substituteLen s)).sum := by
          simp only [List.length_flatMap, length_substitute]
        have length : u.regs.pktLen = natWord _ := outputs.regs .pktLen (by decide)
        have held := holdsBytes_of_agree outputs (w := .pkt) (by decide) rfl (by rw [count]; exact not_lt.mp overflow)
          (holdsBytes_writeBytes s .pkt _)
        rw [writeBytes_eq_self wf held]
        exact congrArg (StageResult.done · _) (packetRegs_eq_self msgLen length)

theorem stageGenerate_again (s : State) : RunsAgain .generate s := by
  intro t u f done operands outputs wf
  have pktLen : u.regs.pktLen = s.regs.pktLen := operands.regs .pktLen (by decide)
  have clutLen : u.regs.clutLen = s.regs.clutLen := operands.regs .clutLen (by decide)
  have txSymLen : u.regs.txSymLen = s.regs.txSymLen := operands.regs .txSymLen (by decide)
  have pauseLen : u.regs.pauseLen = s.regs.pauseLen := operands.regs .pauseLen (by decide)
  revert done
  simp only [stageOf, stageGenerate, pktLen, clutLen, txSymLen, pauseLen, operands.params]
  split_ifs with long wide
  · nofun
  · nofun
  rw [readBytes_congr operands (w := .pkt) (by decide) rfl (not_lt.mp long)]
  cases read : readBytes s .pkt 0 (zext s.regs.pktLen) with
  | error f => nofun
  | ok pkt =>
    rw [withRead_ok, withRead_ok]
    split_ifs with noTable ragged overflow
    · nofun
    · nofun
    · nofun
    rw [carrierFor_congr operands (by decide) pkt _ (not_lt.mp wide)]
    cases carrier : carrierFor s pkt (zext s.regs.clutLen) (zext s.regs.txSymLen) with
    | error f => nofun
    | ok table =>
      rw [withRead_ok, withRead_ok]
      intro done
      cases done
      have txLen : u.regs.txLen = natWord _ := outputs.regs .txLen (by decide)
      have unkCount : u.regs.unkCount = natWord _ := outputs.regs .unkCount (by decide)
      have unkPos : u.regs.unkPos = (firstUnknown _).1 := outputs.regs .unkPos (by decide)
      have unkVal : u.regs.unkVal = (firstUnknown _).2 := eq_of_setWidth_eq (by decide) (outputs.regs .unkVal (by decide))
      have fits : (pkt.flatMap (Machine.segment table (zext s.regs.clutLen) (zext s.regs.txSymLen)
          (zext s.regs.pauseLen))).length ≤ Window.txb.size s.params := by
        rw [length_waveform fun mark => length_carrierFor carrier mark (by simpa [mark] using ragged)]
        exact not_lt.mp overflow
      have held := holdsBytes_of_agree outputs (w := .txb) (by decide) rfl fits (holdsBytes_writeBytes s .txb _)
      rw [generateWrites, writeBytes_eq_self wf held]
      exact congrArg (StageResult.done · _) (waveRegs_eq_self txLen unkCount unkPos unkVal)

theorem stagePreprocess_again (s : State) : RunsAgain .preprocess s := by
  intro t u f done operands outputs wf
  have rxLen : u.regs.rxLen = s.regs.rxLen := operands.regs .rxLen (by decide)
  revert done
  simp only [stageOf, stagePreprocess, operands.params]
  rw [rxLen]
  split_ifs with large odd empty
  · nofun
  · nofun
  · intro done
    cases done
    exact congrArg (StageResult.done · _) (signalRegs_eq_self rxLen outputs)
  rw [readBytes_congr operands (w := .rxb) (by decide) rfl (not_lt.mp large)]
  cases read : readBytes s .rxb 0 (zext s.regs.rxLen) with
  | error f => nofun
  | ok bytes =>
    rw [withRead_ok, withRead_ok]
    intro done
    cases done
    have count := ((readBytes_eq_ok_iff ..).mp read).1
    have held := holdsBytes_of_agree outputs (w := .sig) (by decide) rfl
      (by
        rw [length_bytesOfWords, length_iqWords, iqSamples, List.length_map, length_pairUp, count]
        simp only [Window.size, Params.sigDepth, withRegs_params, writeBytes_params]
        omega)
      (holdsBytes_writeBytes s .sig _)
    rw [writeBytes_eq_self wf held]
    exact congrArg (StageResult.done · _) (signalRegs_eq_self rxLen outputs)

theorem stageDetect_again (s : State) : RunsAgain .detect s := by
  intro t u f done operands outputs wf
  have sigLen : u.regs.sigLen = s.regs.sigLen := operands.regs .sigLen (by decide)
  have threshMin : u.regs.threshMin = s.regs.threshMin := operands.regs .threshMin (by decide)
  have filter : envelope u.regs = envelope s.regs := by
    have b0 : u.regs.filtB0 = s.regs.filtB0 := eq_of_signExtend_eq (operands.regs .filtB0 (by decide))
    have b1 : u.regs.filtB1 = s.regs.filtB1 := eq_of_signExtend_eq (operands.regs .filtB1 (by decide))
    have a1 : u.regs.filtA1 = s.regs.filtA1 := eq_of_signExtend_eq (operands.regs .filtA1 (by decide))
    funext sig
    rw [envelope, envelope, b0, b1, a1]
  revert done
  simp only [stageOf, stageDetect, operands.params]
  rw [filter, sigLen, threshMin]
  split_ifs with large empty
  · nofun
  · intro done
    cases done
    exact congrArg (StageResult.done · _) (detectRegs_eq_self sigLen threshMin outputs)
  rw [readBytes_congr operands (w := .sig) (by decide) rfl (by rw [Window.size]; omega)]
  cases read : readBytes s .sig 0 (8 * zext s.regs.sigLen) with
  | error f => nofun
  | ok bytes =>
    rw [withRead_ok, withRead_ok]
    have samples := length_envelope_sigSamples s.regs ((readBytes_eq_ok_iff ..).mp read).1
    have room : (bytesOfWords ((envelope s.regs (sigSamples bytes)).map enc32)).length ≤ Window.env.size s.params := by
      rw [length_bytesOfWords, List.length_map, samples, Window.size]
      omega
    have stored := holdsBytes_writeBytes s .env (bytesOfWords ((envelope s.regs (sigSamples bytes)).map enc32))
    split_ifs
    · intro done
      cases done
      have held := holdsBytes_of_agree outputs (w := .env) (by decide) rfl room stored
      rw [writeBytes_eq_self wf held]
      exact congrArg (StageResult.done · _) (detectRegs_eq_self sigLen threshMin outputs)
    · intro done
      cases done
      have held := holdsBytes_of_agree outputs (w := .env) (by decide) rfl room stored
      have symbols := holdsSym_of_agree outputs (by decide)
        (by rw [List.length_map, samples]; exact not_lt.mp large) (holdsSym_writeSym _ _)
      rw [writeBytes_eq_self wf held, writeSym_eq_self wf symbols]
      exact congrArg (StageResult.done · _) (detectRegs_eq_self sigLen threshMin outputs)

theorem stageSlice_again (s : State) : RunsAgain .slice s := by
  intro t u f done operands outputs wf
  have symLen : u.regs.symLen = s.regs.symLen := operands.regs .symLen (by decide)
  have rxSymLen : u.regs.rxSymLen = s.regs.rxSymLen := operands.regs .rxSymLen (by decide)
  revert done
  simp only [stageOf, stageSlice, operands.params]
  rw [symLen, rxSymLen]
  split_ifs with large zero
  · nofun
  · nofun
  rw [readSym_congr operands (by decide) (not_lt.mp large)]
  cases read : readSym s (zext s.regs.symLen) with
  | error f => nofun
  | ok sym =>
    rw [withRead_ok, withRead_ok]
    intro done
    cases done
    have length : u.regs.bitsLen = natWord _ := outputs.regs .bitsLen (by decide)
    have count := ((readBits_eq_ok_iff ..).mp read).1
    have fits := (length_recoverBits_le (Nat.pos_of_ne_zero zero) sym).trans (count ▸ not_lt.mp large)
    have held := holdsBits_of_agree outputs (by decide) fits (holdsBits_writeBitString s _)
    rw [writeBitString_eq_self wf held]
    exact congrArg (StageResult.done · _) (bitsRegs_eq_self symLen rxSymLen length)

theorem holdsBytes_tokd_writeBytes_toke {s : State} {data ends : List Byte} (dataFits : data.length ≤ s.params.tokdDepth)
    (endsFit : ends.length ≤ Window.toke.size s.params) :
    HoldsBytes ((s.writeBytes .tokd data).writeBytes .toke ends) .tokd data := fun j lt =>
  (windowByte_writeBytes_of_outside (s := s.writeBytes .tokd data) (v := .tokd) endsFit (lt.trans_le dataFits)
    (.inl (by decide))).trans (holdsBytes_writeBytes s .tokd data j lt)

theorem syncIdx_of_tokenWrites {s t : State} {tokens : List (List Byte)} {x : Regs} {f g : StatusFlags}
    (done : tokenWrites s tokens x f = .done t g) : t.regs.syncIdx = x.syncIdx := by
  revert done
  unfold tokenWrites
  dsimp only
  split_ifs
  · nofun
  · nofun
  · intro done
    cases done
    rfl

/-- A decode whose tokens `u` holds already; `y` are the registers of the command run again, which differ from those of `u`
in TOKD_LEN and TOK_COUNT only. -/
theorem tokenWrites_again {R : List Reg} {s t u : State} {tokens : List (List Byte)} {x y : Regs} {f g : StatusFlags}
    (done : tokenWrites s tokens x f = .done t g) (params : u.params = s.params) (outputs : Agree R [.tokd, .toke] t u)
    (dataReg : .tokdLen ∈ R) (countReg : .tokCount ∈ R) (wf : u.memWf = true)
    (kept : ∀ d n, u.regs.tokdLen = d → u.regs.tokCount = n → u.withRegs { y with tokdLen := d, tokCount := n } = u) :
    tokenWrites u tokens y f = .done u g := by
  revert done
  simp only [tokenWrites, params]
  split_ifs with dataLong endsLong
  · nofun
  · nofun
  intro done
  cases done
  have endsFit : (bytesOfWords ((tokenEnds 0 tokens).map natWord)).length ≤ Window.toke.size s.params := by
    rw [length_bytesOfWords, List.length_map, length_tokenEnds, Window.size]
    omega
  have data := holdsBytes_of_agree outputs (w := .tokd) (by decide) rfl (not_lt.mp dataLong)
    (holdsBytes_tokd_writeBytes_toke (not_lt.mp dataLong) endsFit)
  have ends := holdsBytes_of_agree outputs (w := .toke) (by decide) rfl endsFit
    (holdsBytes_writeBytes (s.writeBytes .tokd tokens.flatten) .toke _)
  rw [writeBytes_eq_self wf data, writeBytes_eq_self wf ends]
  exact congrArg (StageResult.done · _) (kept _ _ (outputs.regs .tokdLen dataReg) (outputs.regs .tokCount countReg))

theorem syncPattern_congr {x y : Regs} (length : y.syncLen = x.syncLen) (low : y.syncPat0 = x.syncPat0)
    (high : y.syncPat1 = x.syncPat1) : syncPattern y = syncPattern x := by
  rw [syncPattern, syncPattern, length, low, high]

theorem stageSync_again (s : State) : RunsAgain .sync s := by
  intro t u f done operands outputs wf
  have bitsLen : u.regs.bitsLen = s.regs.bitsLen := operands.regs .bitsLen (by decide)
  have syncLen : u.regs.syncLen = s.regs.syncLen := operands.regs .syncLen (by decide)
  have pattern := syncPattern_congr syncLen (operands.regs .syncPat0 (by decide)) (operands.regs .syncPat1 (by decide))
  revert done
  simp only [stageOf, stageSync, operands.params, decTable_congr operands (show Window.dec ∈ windowsRead .sync by decide)]
  rw [pattern, bitsLen, syncLen]
  split_ifs with large long
  · nofun
  · nofun
  cases badDecEntryFrom 0 (decTable s) with
  | some bad => nofun
  | none =>
    dsimp only
    rw [readBitString_congr operands (by decide) (not_lt.mp large)]
    cases readBitString s (zext s.regs.bitsLen) with
    | error f => nofun
    | ok bits =>
      rw [withRead_ok, withRead_ok]
      cases firstOccurrence (syncPattern s.regs) 0 bits with
      | none =>
        intro done
        cases done
        exact congrArg (StageResult.done · _) (syncRegs_eq_self bitsLen syncLen (outputs.regs .syncIdx (by decide))
          (outputs.regs .tokdLen (by decide)) (outputs.regs .tokCount (by decide)))
      | some j =>
        intro done
        have syncIdx : u.regs.syncIdx = natWord j :=
          (outputs.regs .syncIdx (by decide)).trans (syncIdx_of_tokenWrites done)
        exact tokenWrites_again done operands.params outputs (by decide) (by decide) wf fun d n data count =>
          syncRegs_eq_self bitsLen syncLen syncIdx data count

theorem stageDecode_again (s : State) : RunsAgain .decode s := by
  intro t u f done operands outputs wf
  have bitsLen : u.regs.bitsLen = s.regs.bitsLen := operands.regs .bitsLen (by decide)
  have decStart : u.regs.decStart = s.regs.decStart := operands.regs .decStart (by decide)
  revert done
  simp only [stageOf, stageDecode, operands.params,
    decTable_congr operands (show Window.dec ∈ windowsRead .decode by decide)]
  rw [bitsLen, decStart]
  split_ifs with large late
  · nofun
  · nofun
  cases badDecEntryFrom 0 (decTable s) with
  | some bad => nofun
  | none =>
    dsimp only
    rw [readBitString_congr operands (by decide) (not_lt.mp large)]
    cases readBitString s (zext s.regs.bitsLen) with
    | error f => nofun
    | ok bits =>
      rw [withRead_ok, withRead_ok]
      intro done
      exact tokenWrites_again done operands.params outputs (by decide) (by decide) wf fun d n data count =>
        tokenRegs_eq_self data count

theorem stageOf_runsAgain {i : Instr} (noTx : i ≠ .txChain) (noRx : i ≠ .rxChain) (s : State) : RunsAgain i s := by
  cases i with
  | nop =>
    intro t u f done operands outputs wf
    cases done
    rfl
  | genCarrier => exact stageGenCarrier_again s
  | encode => exact stageEncode_again s
  | generate => exact stageGenerate_again s
  | preprocess => exact stagePreprocess_again s
  | detect => exact stageDetect_again s
  | slice => exact stageSlice_again s
  | sync => exact stageSync_again s
  | decode => exact stageDecode_again s
  | txChain => exact absurd rfl noTx
  | rxChain => exact absurd rfl noRx

/-! ## Commands, run again -/

/-- A command but a chain writes nothing that it reads (10_state.md R76, 30_encoding.md R114). -/
theorem regsRead_not_written {i : Instr} (noTx : i ≠ .txChain) (noRx : i ≠ .rxChain) :
    (∀ r ∈ regsRead i, r ∉ registersWritten i) ∧ ∀ w ∈ windowsRead i, w ∉ windowsWritten i := by
  cases i
  case txChain => exact absurd rfl noTx
  case rxChain => exact absurd rfl noRx
  all_goals decide

/-- A transition that writes `R` and `W` leaves alone what the command `i` reads and writes. -/
abbrev LeavesAlone (i : Instr) (R : List Reg) (W : List Window) : Prop :=
  (∀ r ∈ regsRead i ++ registersWritten i, r ∉ R) ∧ ∀ w ∈ windowsRead i ++ windowsWritten i, w ∉ W

/-- A stage that completed in `t`, run again on a later state that differs from `t` in none of its operands and outputs,
changes nothing. -/
theorem stage_again_of_frame {i : Instr} (noTx : i ≠ .txChain) (noRx : i ≠ .rxChain) {R : List Reg} {W : List Window}
    {s t u : State} {f : StatusFlags} (done : stageOf i s = .done t f) (later : Frame R W t u) (alone : LeavesAlone i R W)
    (wf : u.memWf = true) : stageOf i u = .done u f := by
  have own := stageOf_writes noTx noRx s
  rw [done] at own
  obtain ⟨regs, windows⟩ := regsRead_not_written noTx noRx
  refine stageOf_runsAgain noTx noRx s t u f done ?_ ?_ wf
  · exact (agree_of_frame own regs windows).trans (agree_of_frame later
      (fun r mem => alone.1 r (List.mem_append_left _ mem)) fun w mem => alone.2 w (List.mem_append_left _ mem))
  · exact agree_of_frame later (fun r mem => alone.1 r (List.mem_append_right _ mem))
      fun w mem => alone.2 w (List.mem_append_right _ mem)

/-- Run on the state that it left, the part of a command yields the same again. -/
structure Repeats (run : State → StageResult) (s : State) : Prop where
  done : ∀ u f, run s = .done u f → run u = .done u f
  fail : ∀ u c info, run s = .fail u c info → run u = .fail u c info

theorem stage_repeats {i : Instr} (noTx : i ≠ .txChain) (noRx : i ≠ .rxChain) {s : State} (wf : s.memWf = true) :
    Repeats (stageOf i) s where
  done u f done := by
    have stores := stageOf_stores i s
    rw [done] at stores
    exact stage_again_of_frame noTx noRx done (Frame.refl u) ⟨fun _ _ => List.not_mem_nil, fun _ _ => List.not_mem_nil⟩
      (stores.memWf wf)
  fail u c info failed := by
    have writes := stageOf_writes noTx noRx s
    rw [failed] at writes
    obtain rfl : u = s := writes
    exact failed

/-- From `t` to `u` only `R` and `W` were written, and the memories were kept in form. -/
abbrev Later (R : List Reg) (W : List Window) (t u : State) : Prop := Frame R W t u ∧ Stored t u

abbrev LeavesLater (R : List Reg) (W : List Window) (t : State) : StageResult → Prop := Leaves (Later R W t) (Later R W t)

theorem stage_leavesLater {i : Instr} (noTx : i ≠ .txChain) (noRx : i ≠ .rxChain) (t : State) :
    LeavesLater (registersWritten i) (windowsWritten i) t (stageOf i t) :=
  Faults.Leaves.and (WritesOnly.first (stageOf_writes noTx noRx t)) (stageOf_stores i t)

/-- A stage and the rest of the chain, which writes `R` and `W`. -/
theorem LeavesLater.thenStage {i : Instr} (noTx : i ≠ .txChain) (noRx : i ≠ .rxChain) {R R' : List Reg}
    {W W' : List Window} {t : State} {k : State → StatusFlags → StageResult} (rest : ∀ u f, LeavesLater R W u (k u f))
    (kept : ∀ w ∈ windowsWritten i, ∀ r ∈ lengthReg w, r ∉ R) (hR : registersWritten i ++ R ⊆ R')
    (hW : windowsWritten i ++ W ⊆ W') : LeavesLater R' W' t ((stageOf i t).thenStage k) := by
  have first := stage_leavesLater noTx noRx t
  cases stage : stageOf i t with
  | done u f =>
    rw [stage] at first
    have both (v : State) (after : Later R W u v) : Later R' W' t v :=
      ⟨(first.1.trans after.1 kept).mono hR hW, first.2.trans after.2⟩
    exact (rest u f).imp both both
  | fail u c info =>
    rw [stage] at first
    exact ⟨first.1.mono (List.append_subset.mp hR).1 (List.append_subset.mp hW).1, first.2⟩
  | stop f => trivial

/-- A stage and the rest of a chain, which leaves the stage's operands and outputs alone. -/
theorem Repeats.thenStage {i : Instr} (noTx : i ≠ .txChain) (noRx : i ≠ .rxChain) {R : List Reg} {W : List Window}
    {s : State} {k : State → StatusFlags → StageResult} (wf : s.memWf = true) (alone : LeavesAlone i R W)
    (later : ∀ t f, LeavesLater R W t (k t f)) (rest : ∀ t f, t.memWf = true → Repeats (fun u => k u f) t) :
    Repeats (fun u => (stageOf i u).thenStage k) s := by
  have first := stage_repeats noTx noRx wf
  have stores := stageOf_stores i s
  cases stage : stageOf i s with
  | done t f =>
    rw [stage] at stores
    have wfMid := stores.memWf wf
    have again {u : State} (after : Later R W t u) : stageOf i u = .done u f :=
      stage_again_of_frame noTx noRx stage after.1 alone (after.2.memWf wfMid)
    refine ⟨fun u g done => ?_, fun u c info failed => ?_⟩
    · have continued : k t f = .done u g := by rwa [stage] at done
      have after := later t f
      rw [continued] at after
      rw [again after]
      exact (rest t f wfMid).done u g continued
    · have continued : k t f = .fail u c info := by rwa [stage] at failed
      have after := later t f
      rw [continued] at after
      rw [again after]
      exact (rest t f wfMid).fail u c info continued
  | fail t c info =>
    refine ⟨fun u g done => ?_, fun u c' info' failed => ?_⟩
    · rw [stage] at done
      cases done
    · rw [stage] at failed
      cases failed
      rw [first.fail t c info stage]
      rfl
  | stop f =>
    refine ⟨fun u g done => ?_, fun u c' info' failed => ?_⟩
    · rw [stage] at done
      cases done
    · rw [stage] at failed
      cases failed

theorem stageTxChain_repeats {s : State} (wf : s.memWf = true) : Repeats stageTxChain s :=
  Repeats.thenStage (i := .encode) (by decide) (by decide) wf (by decide)
    (fun t _ => stage_leavesLater (i := .generate) (by decide) (by decide) t)
    fun _ _ wfMid => stage_repeats (i := .generate) (by decide) (by decide) wfMid

/-! ### RX_CHAIN from each of its stages on -/

/-- SYNC, the last stage of RX_CHAIN, after stages that raised `f`. -/
def chainFromSync (f : StatusFlags) (s : State) : StageResult :=
  (stageSync s).thenStage fun t g => .done t (f.union g)

/-- RX_CHAIN from SLICE on. -/
def chainFromSlice (f : StatusFlags) (s : State) : StageResult :=
  (stageSlice s).thenStage fun t g => chainFromSync (f.union g) t

/-- RX_CHAIN from DETECT on. -/
def chainFromDetect (f : StatusFlags) (s : State) : StageResult :=
  (stageDetect s).thenStage fun t g => if g.insuf then .done t (f.union g) else chainFromSlice (f.union g) t

theorem stageRxChain_eq (s : State) : stageRxChain s = (stagePreprocess s).thenStage fun t f => chainFromDetect f t := rfl

theorem done_leavesLater (R : List Reg) (W : List Window) (t : State) (f : StatusFlags) : LeavesLater R W t (.done t f) :=
  ⟨(Frame.refl t).mono (List.nil_subset _) (List.nil_subset _), .refl⟩

theorem done_repeats (f : StatusFlags) (t : State) : Repeats (fun u => .done u f) t :=
  ⟨fun _ _ done => by rw [(StageResult.done.inj done).2], fun _ _ _ failed => StageResult.noConfusion failed⟩

theorem chainFromSync_leavesLater (f : StatusFlags) (s : State) :
    LeavesLater (registersWritten .sync) (windowsWritten .sync) s (chainFromSync f s) :=
  LeavesLater.thenStage (i := .sync) (R := []) (W := []) (by decide) (by decide) (fun t _ => done_leavesLater [] [] t _)
    (by decide) (by decide) (by decide)

/-- What RX_CHAIN writes from SLICE on. -/
abbrev sliceOnRegs : List Reg := registersWritten .slice ++ registersWritten .sync

abbrev sliceOnWindows : List Window := windowsWritten .slice ++ windowsWritten .sync

theorem chainFromSlice_leavesLater (f : StatusFlags) (s : State) :
    LeavesLater sliceOnRegs sliceOnWindows s (chainFromSlice f s) :=
  LeavesLater.thenStage (i := .slice) (by decide) (by decide) (fun t g => chainFromSync_leavesLater (f.union g) t)
    (by decide) (by decide) (by decide)

theorem afterDetect_leavesLater (f g : StatusFlags) (s : State) :
    LeavesLater sliceOnRegs sliceOnWindows s (if g.insuf then .done s (f.union g) else chainFromSlice (f.union g) s) := by
  split_ifs
  · exact done_leavesLater _ _ s _
  · exact chainFromSlice_leavesLater _ s

theorem chainFromDetect_leavesLater (f : StatusFlags) (s : State) :
    LeavesLater (registersWritten .detect ++ sliceOnRegs) (windowsWritten .detect ++ sliceOnWindows) s
      (chainFromDetect f s) :=
  LeavesLater.thenStage (i := .detect) (by decide) (by decide) (fun t g => afterDetect_leavesLater f g t) (by decide)
    (by decide) (by decide)

theorem chainFromSync_repeats (f : StatusFlags) {s : State} (wf : s.memWf = true) : Repeats (chainFromSync f) s :=
  Repeats.thenStage (i := .sync) (R := []) (W := []) (by decide) (by decide) wf (by decide)
    (fun t _ => done_leavesLater [] [] t _) fun t g _ => done_repeats (f.union g) t

theorem chainFromSlice_repeats (f : StatusFlags) {s : State} (wf : s.memWf = true) : Repeats (chainFromSlice f) s :=
  Repeats.thenStage (i := .slice) (by decide) (by decide) wf (by decide)
    (fun t g => chainFromSync_leavesLater (f.union g) t) fun _ g wfMid => chainFromSync_repeats (f.union g) wfMid

theorem chainFromDetect_repeats (f : StatusFlags) {s : State} (wf : s.memWf = true) : Repeats (chainFromDetect f) s := by
  refine Repeats.thenStage (i := .detect) (by decide) (by decide) wf (by decide)
    (fun t g => afterDetect_leavesLater f g t) fun t g wfMid => ?_
  split_ifs
  · exact done_repeats (f.union g) t
  · exact chainFromSlice_repeats (f.union g) wfMid

theorem stageRxChain_repeats {s : State} (wf : s.memWf = true) : Repeats stageRxChain s :=
  Repeats.thenStage (i := .preprocess) (by decide) (by decide) wf (by decide)
    (fun t f => chainFromDetect_leavesLater f t) fun _ f wfMid => chainFromDetect_repeats f wfMid

theorem stageOf_repeats (i : Instr) {s : State} (wf : s.memWf = true) : Repeats (stageOf i) s := by
  by_cases tx : i = .txChain
  · subst tx
    exact stageTxChain_repeats wf
  by_cases rx : i = .rxChain
  · subst rx
    exact stageRxChain_repeats wf
  exact stage_repeats tx rx wf

/-! ## Commands, issued again -/

/-- What the issue of a command puts back: the state is that of a running command, with the error registers and flags
clear. -/
structure JustIssued (w : Word) (s : State) : Prop where
  seq : s.seq = .busy
  cmd : s.regs.cmd = w
  status : s.regs.status = noFlags
  errCode : s.regs.errCode = 0
  errInfo : s.regs.errInfo = 0

theorem issue_completeOk {w : Word} {u : State} (h : JustIssued w u) (f : StatusFlags) : (u.completeOk f).issue w = u := by
  obtain ⟨seq, cmd, status, errCode, errInfo⟩ := h
  obtain ⟨_, _, ⟨⟩⟩ := u
  dsimp only at seq cmd status errCode errInfo
  subst seq cmd status errCode errInfo
  rfl

theorem issue_completeErr {w : Word} {u : State} (h : JustIssued w u) (c : ErrCode) (info : Word) :
    (u.completeErr c info).issue w = u := issue_completeOk h StatusFlags.none

/-- A stage leaves the state of a running command as its issue left it. -/
theorem stageOf_justIssued (i : Instr) {w : Word} {s : State} (h : JustIssued w s) :
    Leaves (JustIssued w) (JustIssued w) (stageOf i s) := by
  have notWritten : Reg.errCode ∉ registersWritten i ∧ Reg.errInfo ∉ registersWritten i := by cases i <;> decide
  have kept (u : State) : ((u.regs.status = s.regs.status ∧ Frame (registersWritten i) (windowsWritten i) s u) ∧
      BeforeCompletion s u) → JustIssued w u := fun ⟨⟨status, frame⟩, before⟩ =>
    { seq := before.stored.samePort.seq.trans h.seq
      cmd := before.cmd.trans h.cmd
      status := status.trans h.status
      errCode := (eq_of_setWidth_eq (by decide) (frame.regs .errCode notWritten.1)).trans h.errCode
      errInfo := Eq.trans (frame.regs .errInfo notWritten.2) h.errInfo }
  exact (Faults.Leaves.and (Faults.Leaves.and (stageOf_keeps_flags i s) (stageOf_framed i s))
    (stageOf_beforeCompletion i s)).imp kept kept

/-- Settles O55: the issue undoes what the completion did to the flags, and the command run on its own outputs stores what is
stored already. -/
theorem reissueGivesSameResult : Obligations.ReissueGivesSameResult := by
  intro i s t wf busy status errCode errInfo run
  have repeats := stageOf_repeats i wf
  have issued := stageOf_justIssued i ⟨busy, rfl, status, errCode, errInfo⟩
  rw [exec_eq_finish_stageOf, finish_eq_next_iff] at run ⊢
  rcases run with ⟨u, f, stage, rfl⟩ | ⟨u, c, info, stage, rfl⟩ <;> rw [stage] at issued
  · rw [issue_completeOk issued f]
    exact .inl ⟨u, f, repeats.done u f stage, rfl⟩
  · rw [issue_completeErr issued c info]
    exact .inr ⟨u, c, info, repeats.fail u c info stage, rfl⟩

end Sys2Proof.Proofs.Reissue
end

/-! PROOF. The commands as words, the step that runs them, and the registers on the bus: the address map, the bits of STATUS and
IRQ_EN, the values after reset, and what a write leaves (20_memory.md, 10_state.md sections 2 to 5). -/
section

namespace Sys2Proof.Proofs.Registers

open Sys2Proof.Machine Sys2Proof.Safety Sys2Proof.Proofs.CommandFrame Sys2Proof.Proofs.CommandOutputs
  Sys2Proof.Proofs.AddressMap Sys2Proof.Proofs.BusAccess Sys2Proof.Proofs.ReservedBits Sys2Proof.Proofs.CommandWords
  Sys2Proof.Proofs.Control

/-! ## Command words and the step -/

/-- Settles O2: the decoder is the inverse of the encoder. -/
theorem decodeEncodeAgree : Obligations.DecodeEncodeAgree := fun i _ => (decodeWord_eq_ok_iff _ i).mpr rfl

/-- Settles O4, by running the decoder on each word. -/
theorem decodeWrittenWords : Obligations.DecodeWrittenWords := by
  unfold Obligations.DecodeWrittenWords
  decide

theorem runCommand_of_decoded {s : State} {i : Instr} (decoded : decodeWord s.regs.cmd = .ok i) :
    runCommand s = exec i s := by
  rw [runCommand, decoded]

theorem nextEvent_of_wait {s : State} (busy : s.seq = .busy) (waits : s.inbox = [] ∨ s.inbox.head? = some .wait) :
    nextEvent s = .completion := by
  cases inbox : s.inbox with
  | nil => simp only [nextEvent, busy, inbox]
  | cons x rest =>
    obtain rfl : x = .wait := by simpa [inbox] using waits
    simp only [nextEvent, busy, inbox]

theorem nextEvent_of_action {s : State} {x : HostAction} {rest : List HostAction} (busy : s.seq = .busy)
    (inbox : s.inbox = x :: rest) (notWait : x ≠ .wait) :
    nextEvent s = if Config.completesFirst s.served then .completion else .action x rest := by
  cases x with
  | wait => exact absurd rfl notWait
  | read | write | hardReset => simp only [nextEvent, busy, inbox]

/-- Settles O5, from what happens next in each case of SEQ and the waiting host actions. -/
theorem stepRunsDecodedCommand : Obligations.StepRunsDecodedCommand := by
  refine ⟨fun s i busy decoded waits => ?_, fun s i x rest busy decoded inbox notWait => ?_,
    fun s x rest idle inbox => ?_, fun s idle inbox => ?_⟩
  · rw [step, nextEvent_of_wait busy waits]
    exact runCommand_of_decoded decoded
  · rw [step, nextEvent_of_action busy inbox notWait]
    split_ifs
    · exact runCommand_of_decoded decoded
    · rfl
  · simp only [step, nextEvent, idle, inbox]
  · simp only [step, nextEvent, idle, inbox]

/-! ## The issue of a command -/

/-- Settles O7, from the write of CMD in IDLE. -/
theorem commandIssueWrite : Obligations.CommandIssueWrite := fun s w idle =>
  ⟨s.issue w, busWrite_cmd_idle idle w, rfl, rfl, rfl, rfl, rfl, rfl, rfl, rfl, rfl, irq_issue s w, rfl⟩

/-! ## The address map -/

theorem decodeAddr_eq_misaligned_iff (P : Params) (a : Word) : decodeAddr P a = .misaligned ↔ a.toNat % 4 ≠ 0 := by
  refine ⟨fun place aligned => ?_, decodeAddr_of_misaligned P⟩
  by_cases mapped : Mapped P a.toNat
  · rcases mapped_cases aligned mapped with ⟨r, rfl⟩ | ⟨w, k, inside, rfl⟩
    · rw [decodeAddr_register] at place
      cases place
    · rw [decodeAddr_word inside] at place
      cases place
  · rw [decodeAddr_of_not_mapped aligned mapped] at place
    cases place

theorem decodeAddr_eq_unmapped_iff (P : Params) (a : Word) :
    decodeAddr P a = .unmapped ↔ a.toNat % 4 = 0 ∧ ¬ Mapped P a.toNat := by
  refine ⟨fun place => ?_, fun ⟨aligned, unmapped⟩ => decodeAddr_of_not_mapped aligned unmapped⟩
  have aligned : a.toNat % 4 = 0 := by
    by_contra misaligned
    rw [decodeAddr_of_misaligned P misaligned] at place
    cases place
  refine ⟨aligned, fun mapped => ?_⟩
  rcases mapped_cases aligned mapped with ⟨r, rfl⟩ | ⟨w, k, inside, rfl⟩
  · rw [decodeAddr_register] at place
    cases place
  · rw [decodeAddr_word inside] at place
    cases place

/-- Settles O10: the decoder selects each register and each word at its own address, and nothing anywhere else. -/
theorem addressMapDecodes : Obligations.AddressMapDecodes := by
  refine ⟨decodeAddr_register, fun P w k => decodeAddr_word, decodeAddr_eq_unmapped_iff, decodeAddr_eq_misaligned_iff,
    fun r => ?_, fun P w => ?_, by decide⟩
  · cases r <;> rfl
  · cases w
    case enc | msg | pkt | txb | rxb | sym | bits | tokd => rfl
    all_goals exact Prod.ext rfl (Nat.mul_comm ..)

/-! ## Bits of STATUS and IRQ_EN -/

theorem getLsbD_flagWord (b : Bool) (f : StatusFlags) (i : Nat) :
    (bitsWord (b :: flagBits f)).getLsbD i = (b :: flagBits f).getD i false := by
  by_cases lt : i < 32
  · exact getLsbD_bitsWord _ lt
  · rw [BitVec.getLsbD_of_ge _ _ (not_lt.mp lt), getD_flagBits_eq_false b f (by omega)]

/-- Settles O15: both registers are the word of their flags, with BUSY or 0 as bit 0. -/
theorem statusAndEnableBits : Obligations.StatusAndEnableBits := by
  constructor <;> intro s b
  · rw [readReg_status, getLsbD_flagWord]
    rcases lt_or_ge b 7 with defined | reserved
    · interval_cases b <;> rfl
    · obtain ⟨k, rfl⟩ := Nat.exists_eq_add_of_le' reserved
      exact getD_flagBits_eq_false _ _ reserved
  · rw [State.readReg, toWord_eq_bitsWord, getLsbD_flagWord]
    rcases lt_or_ge b 7 with defined | reserved
    · interval_cases b <;> rfl
    · obtain ⟨k, rfl⟩ := Nat.exists_eq_add_of_le' reserved
      exact getD_flagBits_eq_false _ _ reserved

/-! ## Registers after reset -/

theorem readReg_resetOf (P : Params) (r : Reg) : (State.resetOf P).readReg r =
    match r with
    | .id => 0x4F4F4B43#32
    | .version => 0x00010000#32
    | .capClut => natWord P.clutDepth
    | .capMsg => natWord P.msgDepth
    | .capPkt => natWord P.pktDepth
    | .capTxb => natWord P.txbDepth
    | .capRxb => natWord P.rxbDepth
    | .capSig => natWord P.sigDepth
    | .capBits => natWord P.bitsDepth
    | .capTokd => natWord P.tokdDepth
    | .capToke => natWord P.tokeDepth
    | .capDec => natWord P.decEntries
    | _ => 0#32 := by cases r <;> rfl

/-- Settles O16: every register of the reset state is a constant, and each parameter fits the register that reads it. -/
theorem resetRegisterValues : Obligations.ResetRegisterValues := by
  refine ⟨fun P => ⟨rfl, rfl, fun r => ?_⟩, fun s => ?_, rfl, rfl⟩
  · rw [readReg_resetOf]
    cases r <;> rfl
  · have := s.params.clut_legal
    have := s.params.msg_legal
    have := s.params.pkt_legal
    have := s.params.txb_legal
    have := s.params.rxb_legal
    have := s.params.tokd_legal
    have := s.params.toke_legal
    have := s.params.dec_legal
    have half : 2 * (natWord s.params.sigDepth).toNat = s.params.rxbDepth := by
      rw [natWord_toNat (by rw [Params.sigDepth]; omega), Params.sigDepth]
      omega
    exact ⟨natWord_toNat (by omega), natWord_toNat (by omega), natWord_toNat (by omega), natWord_toNat (by omega),
      natWord_toNat (by omega), half, half, natWord_toNat (by omega), natWord_toNat (by omega), natWord_toNat (by omega)⟩

/-! ## A write of a read-write register -/

/-- A write replaces at most the field of its own register, and every register reads its own field only. -/
theorem readReg_write (s : State) (q r : Reg) (v : Word) :
    (s.withRegs (s.regs.write r v)).readReg q =
      if q = r then (s.withRegs (s.regs.write q v)).readReg q else s.readReg q := by
  cases r <;> cases q <;> rfl

/-- The bits of a mask of the bits `lo` to `hi - 1`. -/
abbrev MaskOf (lo hi : Nat) (mask : Word) : Prop := ∀ i, i < 32 → mask.getLsbD i = decide (lo ≤ i ∧ i < hi)

theorem toWord_ofWord (v : Word) : (StatusFlags.ofWord v).toWord = v &&& 0x0000007E#32 := by
  have mask : MaskOf 1 7 0x0000007E#32 := by decide
  refine BitVec.eq_of_getLsbD_eq fun i lt => ?_
  rw [toWord_eq_bitsWord, getLsbD_flagWord, BitVec.getLsbD_and, mask i lt]
  rcases lt_or_ge i 7 with defined | reserved
  · interval_cases i <;> simp [flagBits, StatusFlags.ofWord]
  · rw [getD_flagBits_eq_false _ _ reserved]
    simp [Nat.not_lt.mpr reserved]

theorem setWidth_setWidth_amp (v : Word) : (v.setWidth 7).setWidth 32 = v &&& 0x0000007F#32 := by
  have mask : MaskOf 0 7 0x0000007F#32 := by decide
  refine BitVec.eq_of_getLsbD_eq fun i lt => ?_
  rw [BitVec.getLsbD_and, mask i lt, BitVec.getLsbD_setWidth, BitVec.getLsbD_setWidth]
  simp [lt, Bool.and_comm]

theorem readReg_write_self (s : State) {r : Reg} (v : Word) (readWrite : r ∈ readWriteRegisters) :
    (s.withRegs (s.regs.write r v)).readReg r = readBack r v := by
  cases r
  case irqEn => exact toWord_ofWord v
  case amp => exact setWidth_setWidth_amp v
  case fs | fc | clutLen | txSymLen | pauseLen | msgLen | pktLen | rxLen | sigLen | filtB0 | filtB1 | filtA1 | threshMin
    | symLen | rxSymLen | bitsLen | syncLen | syncPat0 | syncPat1 | decStart => rfl
  all_goals exact absurd readWrite (by decide)

/-- Settles O12: the write replaces one field of the registers. -/
theorem registerWriteReadBack : Obligations.RegisterWriteReadBack := by
  intro s r v idle readWrite
  have plain : writeRegister s r v = s.withRegs (s.regs.write r v) :=
    StepInvariant.writeRegister_of_plain (by rintro rfl; exact absurd readWrite (by decide))
      (by rintro rfl; exact absurd readWrite (by decide)) s v
  refine ⟨s.withRegs (s.regs.write r v), ?_, ?_, fun q other => ?_, fun _ => rfl, fun _ => rfl, fun _ => rfl, idle, rfl, rfl,
    rfl, rfl⟩
  · rw [busWrite_register_idle idle, plain]
    rfl
  · exact (busRead_register_idle (s := s.withRegs (s.regs.write r v)) idle r).trans
      (congrArg okay (readReg_write_self s v readWrite))
  · rw [readReg_write, if_neg other]

end Sys2Proof.Proofs.Registers
end

/-! PROOF. A word of a window on the bus (20_memory.md R84, R85, R89): what its write stores and what its read returns, byte by
byte and bit by bit. -/
section

namespace Sys2Proof.Proofs.WindowWords

open Sys2Proof.Machine Sys2Proof.Safety Sys2Proof.Proofs.CommandFrame Sys2Proof.Proofs.AddressMap
  Sys2Proof.Proofs.BusAccess Sys2Proof.Proofs.ReservedBits Sys2Proof.Proofs.MemoryInvariant
  Sys2Proof.Proofs.StepInvariant

/-! ## Words of bits -/

theorem getLsbD_bitsWord_range (f : Nat → Bool) {j : Nat} (lt : j < 32) :
    (bitsWord ((List.range 32).map f)).getLsbD j = f j := by
  rw [getLsbD_bitsWord _ lt, List.getD_eq_getElem?_getD, List.getElem?_map, List.getElem?_range lt]
  rfl

theorem getElem?_wordBits (n : Nat) (v : Word) {j : Nat} (lt : j < n) : (wordBits n v)[j]? = some (v.getLsbD j) := by
  rw [wordBits, List.getElem?_map, List.getElem?_range lt]
  rfl

theorem getLsbD_windowWord_sym (s : State) (k : Nat) (free : Word) {j : Nat} (lt : j < 32) :
    (windowWord s .sym k free).getLsbD j = (s.symAt (32 * k + j)).getD (free.getLsbD j) :=
  getLsbD_bitsWord_range (fun j => (s.symAt (32 * k + j)).getD (free.getLsbD j)) lt

theorem getLsbD_windowWord_bits (s : State) (k : Nat) (free : Word) {j : Nat} (lt : j < 32) :
    (windowWord s .bits k free).getLsbD j = (s.bitsAt (32 * k + j)).getD (free.getLsbD j) :=
  getLsbD_bitsWord_range (fun j => (s.bitsAt (32 * k + j)).getD (free.getLsbD j)) lt

/-! ## The write of a word -/

theorem symAt_writeWindowWord_sym (s : State) (k : Nat) (v : Word) (i : Nat) :
    (s.writeWindowWord .sym k v).symAt i =
      if 32 * k ≤ i ∧ i < 32 * k + 32 then some (v.getLsbD (i - 32 * k)) else s.symAt i := by
  refine (get_setRange ..).trans ?_
  rw [length_wordBits]
  split_ifs with inside
  · exact getElem?_wordBits 32 v (by omega)
  · rfl

theorem bitsAt_writeWindowWord_bits (s : State) (k : Nat) (v : Word) (i : Nat) :
    (s.writeWindowWord .bits k v).bitsAt i =
      if 32 * k ≤ i ∧ i < 32 * k + 32 then some (v.getLsbD (i - 32 * k)) else s.bitsAt i := by
  refine (get_setRange ..).trans ?_
  rw [length_wordBits]
  split_ifs with inside
  · exact getElem?_wordBits 32 v (by omega)
  · rfl

theorem symAt_writeWindowWord_of_ne (s : State) {w : Window} (other : w ≠ .sym) (k : Nat) (v : Word) (i : Nat) :
    (s.writeWindowWord w k v).symAt i = s.symAt i := by
  cases w
  case sym => exact absurd rfl other
  all_goals rfl

theorem bitsAt_writeWindowWord_of_ne (s : State) {w : Window} (other : w ≠ .bits) (k : Nat) (v : Word) (i : Nat) :
    (s.writeWindowWord w k v).bitsAt i = s.bitsAt i := by
  cases w
  case bits => exact absurd rfl other
  all_goals rfl

theorem byteAt_writeWindowWord_of_bits (s : State) {w : Window} (kind : w.isBits = true) (k : Nat) (v : Word) (a : Nat) :
    (s.writeWindowWord w k v).byteAt a = s.byteAt a := by
  cases w
  case sym | bits => rfl
  all_goals cases kind

theorem byteAt_writeWindowWord_of_outside (s : State) (w : Window) (k : Nat) (v : Word) {a : Nat}
    (outside : a < w.base + 4 * k ∨ w.base + 4 * k + 4 ≤ a) : (s.writeWindowWord w k v).byteAt a = s.byteAt a := by
  cases kind : w.isBits with
  | true => exact byteAt_writeWindowWord_of_bits s kind k v a
  | false =>
    rw [writeWindowWord_of_bytes s kind, byteAt_storeBytes, if_neg]
    have length : (wordBytes (v &&& w.definedBits k)).length = 4 := rfl
    omega

theorem windowByte_writeWindowWord (s : State) {w : Window} (kind : w.isBits = false) (k : Nat) (v : Word) (i : Nat) :
    (s.writeWindowWord w k v).windowByte w i =
      if 4 * k ≤ i ∧ i < 4 * k + 4 then some (byteOf (v &&& w.definedBits k) (i - 4 * k)) else s.windowByte w i := by
  have length : (wordBytes (v &&& w.definedBits k)).length = 4 := rfl
  rw [writeWindowWord_of_bytes s kind, windowByte_storeBytes_self, length]
  split_ifs with inside
  · exact getElem?_wordBytes _ (by omega)
  · rfl

theorem windowWord_writeWindowWord (s : State) (w : Window) (k : Nat) (v free : Word) :
    windowWord (s.writeWindowWord w k v) w k free = v &&& w.definedBits k := by
  have bits {x : Word} (same : ∀ j < 32, x.getLsbD j = v.getLsbD j) : x = v &&& 0xFFFFFFFF#32 :=
    (BitVec.eq_of_getLsbD_eq same).trans (BitVec.and_allOnes (x := v)).symm
  cases kind : w.isBits with
  | false =>
    refine word_ext_bytes fun j lt => ?_
    rw [byteOf_windowWord _ kind _ _ lt, windowByte_writeWindowWord s kind, if_pos (by omega), Option.getD_some,
      Nat.add_sub_cancel_left]
  | true =>
    cases w
    case sym =>
      refine bits fun j lt => ?_
      rw [getLsbD_windowWord_sym _ _ _ lt, symAt_writeWindowWord_sym, if_pos (by omega), Option.getD_some,
        Nat.add_sub_cancel_left]
    case bits =>
      refine bits fun j lt => ?_
      rw [getLsbD_windowWord_bits _ _ _ lt, bitsAt_writeWindowWord_bits, if_pos (by omega), Option.getD_some,
        Nat.add_sub_cancel_left]
    all_goals cases kind

/-- The write of a window word changes no register, and nothing of SEQ, the bus port and the parameters. -/
theorem writeWindowWord_keeps (s : State) (w : Window) (k : Nat) (v : Word) :
    let t := s.writeWindowWord w k v
    t.seq = s.seq ∧ t.regs = s.regs ∧ t.inbox = s.inbox ∧ t.responses = s.responses ∧ t.served = s.served ∧
      t.params = s.params := by
  cases w <;> exact ⟨rfl, rfl, rfl, rfl, rfl, rfl⟩

/-- Settles O13: the write stores the bytes or bits of the word at its place, and the read finds each at its place. -/
theorem windowWriteReadBack : Obligations.WindowWriteReadBack := by
  refine ⟨fun s w k v idle inside => ?_, fun s w k j idle inside => ⟨?_, ?_, ?_⟩⟩
  · obtain ⟨seq, regs, inbox, responses, served, params⟩ := writeWindowWord_keeps s w k v
    refine ⟨s.writeWindowWord w k v, busWrite_word_idle idle v inside, ?_, fun kind j lt => ?_, fun a outside => ?_,
      fun j window lt => ?_, fun i outside => ?_, fun j window lt => ?_, fun i outside => ?_,
      ResetCommands.readReg_congr params seq regs, seq.trans idle, regs, inbox, responses, served, params⟩
    · rw [busRead_word_idle (seq.trans idle) (by rwa [params]), windowWord_writeWindowWord]
      rfl
    · rw [windowByte_writeWindowWord s kind, if_pos (by omega), Nat.add_sub_cancel_left]
      rfl
    · exact outside.elim (fun kind => byteAt_writeWindowWord_of_bits s kind k v a)
        (byteAt_writeWindowWord_of_outside s w k v)
    · subst window
      rw [symAt_writeWindowWord_sym, if_pos (by omega), Nat.add_sub_cancel_left]
    · by_cases window : w = .sym
      · subst window
        rw [symAt_writeWindowWord_sym, if_neg (by have := outside.resolve_left (· rfl); omega)]
      · exact symAt_writeWindowWord_of_ne s window k v i
    · subst window
      rw [bitsAt_writeWindowWord_bits, if_pos (by omega), Nat.add_sub_cancel_left]
    · by_cases window : w = .bits
      · subst window
        rw [bitsAt_writeWindowWord_bits, if_neg (by have := outside.resolve_left (· rfl); omega)]
      · exact bitsAt_writeWindowWord_of_ne s window k v i
  · intro b kind lt value
    rw [busRead_word_idle idle inside]
    exact (byteOf_windowWord s kind k _ lt).trans (by rw [value, Option.getD_some])
  · intro b window lt value
    subst window
    rw [busRead_word_idle idle inside]
    exact (getLsbD_windowWord_sym s k _ lt).trans (by rw [value, Option.getD_some])
  · intro b window lt value
    subst window
    rw [busRead_word_idle idle inside]
    exact (getLsbD_windowWord_bits s k _ lt).trans (by rw [value, Option.getD_some])

end Sys2Proof.Proofs.WindowWords
end

/-! PROOF. The pseudo-operations of a host program (30_encoding.md R119): consecutive words written in IDLE stand in their window,
and they are the entry, the bytes or the bits that the line names. -/
section

namespace Sys2Proof.Proofs.HostPrograms

open Sys2Proof.Machine Sys2Proof.Safety Sys2Proof.Proofs.CommandFrame Sys2Proof.Proofs.AddressMap
  Sys2Proof.Proofs.BusAccess Sys2Proof.Proofs.ReservedBits Sys2Proof.Proofs.MemoryInvariant
  Sys2Proof.Proofs.WindowWords

/-! ## Words of a window that no write touches -/

theorem windowWord_respond (s : State) (r : Response) (w : Window) (i : Nat) (free : Word) :
    windowWord (s.respond r) w i free = windowWord s w i free := by
  cases w <;> rfl

theorem windowWord_writeWindowWord_of_ne (s : State) (w : Window) {k i : Nat} (other : i ≠ k) (v free : Word) :
    windowWord (s.writeWindowWord w k v) w i free = windowWord s w i free := by
  cases kind : w.isBits with
  | false =>
    refine word_ext_bytes fun j lt => ?_
    rw [byteOf_windowWord _ kind _ _ lt, byteOf_windowWord _ kind _ _ lt, windowByte_writeWindowWord s kind,
      if_neg (by omega)]
  | true =>
    cases w
    case sym =>
      refine BitVec.eq_of_getLsbD_eq fun j lt => ?_
      rw [getLsbD_windowWord_sym _ _ _ lt, getLsbD_windowWord_sym _ _ _ lt, symAt_writeWindowWord_sym, if_neg (by omega)]
    case bits =>
      refine BitVec.eq_of_getLsbD_eq fun j lt => ?_
      rw [getLsbD_windowWord_bits _ _ _ lt, getLsbD_windowWord_bits _ _ _ lt, bitsAt_writeWindowWord_bits,
        if_neg (by omega)]
    all_goals cases kind

/-! ## Consecutive words -/

/-- In `t` the words of `w` from word `k` on are `vs`, in their defined bits, whatever an unspecified element reads as; the
other words of `w` are those of `s`. -/
structure WordsWritten (s t : State) (w : Window) (k : Nat) (vs : List Word) : Prop where
  idle : t.seq = .idle
  params : t.params = s.params
  written : ∀ i v, vs[i]? = some v → ∀ free, windowWord t w (k + i) free = v &&& w.definedBits (k + i)
  others : ∀ i, i < k ∨ k + vs.length ≤ i → ∀ free, windowWord t w i free = windowWord s w i free

theorem performAction_wr {s : State} {w : Window} {k : Nat} (idle : s.seq = .idle) (inside : 4 * k < w.size s.params)
    (v : Word) : performAction s (wr (w.base + 4 * k) v) = (s.writeWindowWord w k v).respond (okay 0) := by
  rw [wr, performAction, natWord, busWrite_word_idle idle v inside]

theorem wordsWritten_wrWords {s : State} {w : Window} {k : Nat} {vs : List Word} (idle : s.seq = .idle)
    (fits : 4 * (k + vs.length) ≤ w.size s.params) :
    WordsWritten s ((wrWords (w.base + 4 * k) vs).foldl performAction s) w k vs := by
  induction vs generalizing s k with
  | nil => exact ⟨idle, rfl, nofun, fun _ _ _ => rfl⟩
  | cons v vs ih =>
    have inside : 4 * k < w.size s.params := by rw [List.length_cons] at fits; omega
    obtain ⟨seq, -, -, -, -, params⟩ := writeWindowWord_keeps s w k v
    rw [wrWords, List.foldl_cons, performAction_wr idle inside, show w.base + 4 * k + 4 = w.base + 4 * (k + 1) by omega]
    obtain ⟨restIdle, restParams, written, others⟩ := ih (s := (s.writeWindowWord w k v).respond (okay 0)) (k := k + 1)
      (seq.trans idle) (by rw [List.length_cons] at fits; exact (show _ = s.params from params) ▸ (by omega))
    refine ⟨restIdle, restParams.trans params, fun i x found free => ?_, fun i outside free => ?_⟩
    · cases i with
      | zero =>
        obtain rfl : v = x := by simpa using found
        rw [others (k + 0) (.inl (by omega)), windowWord_respond, Nat.add_zero, windowWord_writeWindowWord]
      | succ i =>
        have next := written i x (by simpa using found) free
        rwa [show k + 1 + i = k + (i + 1) by omega] at next
    · rw [List.length_cons] at outside
      rw [others i (by omega), windowWord_respond, windowWord_writeWindowWord_of_ne s w (by omega)]

/-! ## The elements of words -/

theorem eq_some_of_getD {α : Type} {x : Option α} {v a b : α} (differ : a ≠ b) (fromA : x.getD a = v) (fromB : x.getD b = v) :
    x = some v := by
  cases x with
  | none => exact absurd (fromA.trans fromB.symm) differ
  | some y => exact congrArg some fromA

/-- A byte of a word that does not depend on the free value is specified. -/
theorem windowByte_of_windowWord {t : State} {w : Window} {k : Nat} {v : Word} (kind : w.isBits = false)
    (word : ∀ free, windowWord t w k free = v) {j : Nat} (lt : j < 4) : t.windowByte w (4 * k + j) = some (byteOf v j) := by
  have differ : byteOf 0#32 j ≠ byteOf 0xFFFFFFFF#32 j := by interval_cases j <;> decide
  refine eq_some_of_getD differ ?_ ?_ <;> rw [← byteOf_windowWord t kind k _ lt, word]

theorem symAt_of_windowWord {t : State} {k : Nat} {v : Word} (word : ∀ free, windowWord t .sym k free = v) {j : Nat}
    (lt : j < 32) : t.symAt (32 * k + j) = some (v.getLsbD j) := by
  have differ : (0#32).getLsbD j ≠ (BitVec.allOnes 32).getLsbD j := by
    rw [BitVec.getLsbD_zero, BitVec.getLsbD_allOnes]
    simp [lt]
  refine eq_some_of_getD differ ?_ ?_ <;> rw [← getLsbD_windowWord_sym t k _ lt, word]

theorem bitsAt_of_windowWord {t : State} {k : Nat} {v : Word} (word : ∀ free, windowWord t .bits k free = v) {j : Nat}
    (lt : j < 32) : t.bitsAt (32 * k + j) = some (v.getLsbD j) := by
  have differ : (0#32).getLsbD j ≠ (BitVec.allOnes 32).getLsbD j := by
    rw [BitVec.getLsbD_zero, BitVec.getLsbD_allOnes]
    simp [lt]
  refine eq_some_of_getD differ ?_ ?_ <;> rw [← getLsbD_windowWord_bits t k _ lt, word]

/-! ## The words of a line -/

theorem wordBits_bitsWord {bits : List Bool} (short : bits.length ≤ 32) : wordBits bits.length (bitsWord bits) = bits := by
  refine List.ext_getElem? fun i => ?_
  rcases lt_or_ge i bits.length with inside | outside
  · rw [getElem?_wordBits _ _ inside, getLsbD_bitsWord _ (by omega), List.getD_eq_getElem?_getD,
      List.getElem?_eq_getElem inside, Option.getD_some]
  · rw [List.getElem?_eq_none outside, List.getElem?_eq_none (by simpa [wordBits] using outside)]

theorem length_paddedWords : ∀ bs : List Byte, (paddedWords bs).length = (bs.length + 3) / 4
  | [] | [_] | [_, _] | [_, _, _] => by simp [paddedWords]
  | b0 :: b1 :: b2 :: b3 :: rest => by
    simp only [paddedWords, List.length_cons, length_paddedWords rest]
    omega

theorem byteOf_paddedWords : ∀ (bs : List Byte) (i j : Nat), j < 4 → 4 * i + j < bs.length →
    ((paddedWords bs)[i]?).map (byteOf · j) = bs[4 * i + j]?
  | [], i, j, _, inside => absurd inside (Nat.not_lt_zero _)
  | [b0], i, j, lt, inside => by
    obtain ⟨rfl, rfl⟩ : i = 0 ∧ j = 0 := by simp at inside; omega
    exact congrArg some (byteOf_bytesWord (fun j => [b0, 0, 0, 0].getD j 0) lt)
  | [b0, b1], i, j, lt, inside => by
    obtain rfl : i = 0 := by simp at inside; omega
    refine (congrArg some (byteOf_bytesWord (fun j => [b0, b1, 0, 0].getD j 0) lt)).trans ?_
    simp at inside
    interval_cases j <;> rfl
  | [b0, b1, b2], i, j, lt, inside => by
    obtain rfl : i = 0 := by simp at inside; omega
    refine (congrArg some (byteOf_bytesWord (fun j => [b0, b1, b2, 0].getD j 0) lt)).trans ?_
    simp at inside
    interval_cases j <;> rfl
  | b0 :: b1 :: b2 :: b3 :: rest, i, j, lt, inside => by
    cases i with
    | zero =>
      refine (congrArg some (byteOf_bytesWord (fun j => [b0, b1, b2, b3].getD j 0) lt)).trans ?_
      interval_cases j <;> rfl
    | succ i =>
      have next := byteOf_paddedWords rest i j lt (by simp only [List.length_cons] at inside; omega)
      rw [show 4 * (i + 1) + j = 4 * i + j + 4 by omega]
      simpa [paddedWords] using next

theorem getLsbD_bitStringWord (bits : List Bool) (q : Nat) {j : Nat} (lt : j < 32) :
    (bitStringWord bits q).getLsbD j = bits.getD (32 * q + j) false := by
  rw [bitStringWord, getLsbD_bitsWord _ lt, List.getD_eq_getElem?_getD, List.getD_eq_getElem?_getD, List.getElem?_take,
    if_pos lt, List.getElem?_drop]

/-! ## The pseudo-operations -/

theorem foldl_expandProgram (op : HostOp) (s : State) :
    (expandProgram [op]).foldl performAction s = (HostOp.expand op).foldl performAction s := by
  rw [expandProgram, List.flatMap_singleton]

theorem encInfo_fields : ∀ n < 33, (natWord (0x80000000 + n) &&& 0x8000003F#32).getLsbD 31 = true ∧
    (natWord (0x80000000 + n) &&& 0x8000003F#32).toNat % 64 = n := by decide

theorem decInfo_fields : ∀ m < 5, ∀ n < 33,
    (natWord (0x80000000 + 256 * m + n) &&& 0x8000073F#32).getLsbD 31 = true ∧
      (natWord (0x80000000 + 256 * m + n) &&& 0x8000073F#32).toNat % 64 = n ∧
      (natWord (0x80000000 + 256 * m + n) &&& 0x8000073F#32).toNat / 256 % 8 = m := by decide

theorem and_ones (v : Word) : v &&& 0xFFFFFFFF#32 = v := BitVec.and_allOnes

theorem expand_enc (c : Byte) (code : List Bool) :
    HostOp.expand (HostOp.enc c code) =
      wrWords (Window.enc.base + 4 * (2 * c.toNat)) [codeWord code, natWord (0x80000000 + code.length)] := by
  have first : 0x1000 + 8 * c.toNat = Window.enc.base + 4 * (2 * c.toNat) := by rw [Window.base]; omega
  have second : 0x1004 + 8 * c.toNat = Window.enc.base + 4 * (2 * c.toNat) + 4 := by rw [Window.base]; omega
  rw [HostOp.expand, first, second]
  rfl

theorem encEntry_of_wordsWritten {s t : State} {c : Nat} {code info : Word}
    (h : WordsWritten s t .enc (2 * c) [code, info]) :
    encEntry t c = ⟨code, info &&& 0x8000003F#32⟩ := by
  have first := h.written 0 code rfl 0
  have second := h.written 1 info rfl 0
  rw [Window.definedBits, if_pos (by omega), and_ones] at first
  rw [Window.definedBits, if_neg (by omega)] at second
  exact congrArg₂ EncEntry.mk first second

theorem enc_loads {s : State} (idle : s.seq = .idle) (c : Byte) {code : List Bool} (short : code.length ≤ 32) :
    (encEntry ((expandProgram [HostOp.enc c code]).foldl performAction s) c.toNat).present = true ∧
      (encEntry ((expandProgram [HostOp.enc c code]).foldl performAction s) c.toNat).codeBits = code := by
  obtain ⟨present, length⟩ := encInfo_fields code.length (by omega)
  have fits : 4 * (2 * c.toNat + 2) ≤ Window.enc.size s.params := by
    have := c.isLt
    simp only [Window.size, Config.ENC_ENTRIES]
    omega
  rw [foldl_expandProgram, expand_enc, encEntry_of_wordsWritten (wordsWritten_wrWords idle fits)]
  refine ⟨present, ?_⟩
  rw [EncEntry.codeBits, EncEntry.clen, length]
  exact wordBits_bitsWord short

theorem expand_dec (e : Nat) (key : List Bool) (value : List Byte) :
    HostOp.expand (HostOp.dec e key value) =
      wrWords (Window.dec.base + 4 * (4 * e))
        [codeWord key, natWord (0x80000000 + 256 * value.length + key.length), ((paddedWords value).head?).getD 0] := by
  have first : 0x2000 + 16 * e = Window.dec.base + 4 * (4 * e) := by rw [Window.base]; omega
  have second : 0x2004 + 16 * e = Window.dec.base + 4 * (4 * e) + 4 := by rw [Window.base]; omega
  have third : 0x2008 + 16 * e = Window.dec.base + 4 * (4 * e) + 4 + 4 := by rw [Window.base]; omega
  rw [HostOp.expand, first, second, third]
  rfl

theorem decEntry_of_wordsWritten {s t : State} {e : Nat} {key info val : Word}
    (h : WordsWritten s t .dec (4 * e) [key, info, val]) : decEntry t e = ⟨key, info &&& 0x8000073F#32, val⟩ := by
  have first := h.written 0 key rfl 0
  have second := h.written 1 info rfl 0
  have third := h.written 2 val rfl 0
  rw [Window.definedBits, if_neg (by omega), if_neg (by omega), and_ones] at first third
  rw [Window.definedBits, if_pos (by omega)] at second
  rw [decEntry, tableWordAt, tableWordAt, tableWordAt, second, third]
  exact congrArg (DecEntry.mk · _ _) first

theorem map_byteOf_head_paddedWords {value : List Byte} (short : value.length ≤ 4) :
    (List.range value.length).map (byteOf (((paddedWords value).head?).getD 0)) = value := by
  refine List.ext_getElem? fun j => ?_
  rcases lt_or_ge j value.length with inside | outside
  · have byte := byteOf_paddedWords value 0 j (by omega) (by omega)
    have words : 0 < (paddedWords value).length := by rw [length_paddedWords]; omega
    rw [List.getElem?_eq_getElem words, Option.map_some, Nat.mul_zero, Nat.zero_add] at byte
    rw [List.getElem?_map, List.getElem?_range inside, ← byte, List.head?_eq_getElem?, List.getElem?_eq_getElem words]
    rfl
  · rw [List.getElem?_eq_none outside, List.getElem?_eq_none (by simpa using outside)]

theorem dec_loads {s : State} (idle : s.seq = .idle) {e : Nat} {key : List Bool} {value : List Byte}
    (entry : e < s.params.decEntries) (shortKey : key.length ≤ 32) (shortValue : value.length ≤ 4) :
    (decEntry ((expandProgram [HostOp.dec e key value]).foldl performAction s) e).present = true ∧
      (decEntry ((expandProgram [HostOp.dec e key value]).foldl performAction s) e).keyBits = key ∧
      (decEntry ((expandProgram [HostOp.dec e key value]).foldl performAction s) e).valBytes = value := by
  obtain ⟨present, keyLength, valueLength⟩ := decInfo_fields value.length (by omega) key.length (by omega)
  have fits : 4 * (4 * e + 3) ≤ Window.dec.size s.params := by
    rw [Window.size]
    omega
  rw [foldl_expandProgram, expand_dec, decEntry_of_wordsWritten (wordsWritten_wrWords idle fits)]
  refine ⟨present, ?_, ?_⟩
  · rw [DecEntry.keyBits, DecEntry.klen, keyLength]
    exact wordBits_bitsWord shortKey
  · rw [DecEntry.valBytes, DecEntry.vlen, valueLength]
    exact map_byteOf_head_paddedWords shortValue

theorem toNat_base (w : Window) : (BitVec.ofNat 32 w.base).toNat = w.base := by cases w <;> rfl

theorem wrbytes_loads {s : State} (idle : s.seq = .idle) {w : Window} {bytes : List Byte} (kind : w.isBits = false)
    (full : ∀ k, w.definedBits k = 0xFFFFFFFF#32) (fits : bytes.length ≤ w.size s.params) :
    HoldsBytes ((expandProgram [HostOp.wrbytes (BitVec.ofNat 32 w.base) bytes]).foldl performAction s) w bytes := by
  have aligned := size_aligned s.params kind
  have room : 4 * (0 + (paddedWords bytes).length) ≤ w.size s.params := by
    rw [length_paddedWords]
    omega
  rw [foldl_expandProgram, HostOp.expand, toNat_base]
  obtain ⟨-, -, written, -⟩ := wordsWritten_wrWords idle room
  intro j inside
  have place : 4 * (j / 4) + j % 4 = j := by omega
  have listed : j / 4 < (paddedWords bytes).length := by rw [length_paddedWords]; omega
  have byte := byteOf_paddedWords bytes (j / 4) (j % 4) (by omega) (by omega)
  have word (free : Word) := written (j / 4) _ (List.getElem?_eq_getElem listed) free
  rw [full, and_ones, Nat.zero_add] at word
  have value := windowByte_of_windowWord kind word (j := j % 4) (by omega)
  rw [List.getElem?_eq_getElem listed, Option.map_some, place] at byte
  rw [place] at value
  exact value.trans byte

theorem wrbits_words {s : State} (idle : s.seq = .idle) {w : Window} {bits : List Bool}
    (full : ∀ k, w.definedBits k = 0xFFFFFFFF#32) (size : w.size s.params = s.params.sigDepth / 8)
    (fits : bits.length ≤ s.params.sigDepth) {q : Nat} (inside : 32 * q < bits.length) (free : Word) :
    windowWord ((HostOp.expand (HostOp.wrbits (BitVec.ofNat 32 w.base) bits)).foldl performAction s) w q free =
      bitStringWord bits q := by
  have depth := s.params.rxb_legal
  have room : 4 * (0 + ((List.range ((bits.length + 31) / 32)).map (bitStringWord bits)).length) ≤ w.size s.params := by
    rw [List.length_map, List.length_range, size]
    unfold Params.sigDepth at *
    omega
  rw [HostOp.expand, toNat_base]
  obtain ⟨-, -, written, -⟩ := wordsWritten_wrWords idle room
  have word := written q (bitStringWord bits q) (by rw [List.getElem?_map, List.getElem?_range (by omega)]; rfl) free
  rwa [full, and_ones, Nat.zero_add] at word

theorem getLsbD_bitStringWord_of_lt {bits : List Bool} {i : Nat} (inside : i < bits.length) :
    some ((bitStringWord bits (i / 32)).getLsbD (i % 32)) = bits[i]? := by
  rw [getLsbD_bitStringWord _ _ (by omega), show 32 * (i / 32) + i % 32 = i by omega, List.getD_eq_getElem?_getD,
    List.getElem?_eq_getElem inside, Option.getD_some]

theorem wrbits_loads {s : State} (idle : s.seq = .idle) {bits : List Bool} (fits : bits.length ≤ s.params.sigDepth) :
    HoldsSym ((expandProgram [HostOp.wrbits 0x08000000#32 bits]).foldl performAction s) bits ∧
      HoldsBits ((expandProgram [HostOp.wrbits 0x09000000#32 bits]).foldl performAction s) bits := by
  rw [foldl_expandProgram, foldl_expandProgram]
  constructor <;> intro i inside
  · have word := wrbits_words idle (w := .sym) (fun _ => rfl) rfl fits (q := i / 32) (by omega)
    have value := symAt_of_windowWord word (j := i % 32) (by omega)
    rw [show 32 * (i / 32) + i % 32 = i by omega] at value
    exact value.trans (getLsbD_bitStringWord_of_lt inside)
  · have word := wrbits_words idle (w := .bits) (fun _ => rfl) rfl fits (q := i / 32) (by omega)
    have value := bitsAt_of_windowWord word (j := i % 32) (by omega)
    rw [show 32 * (i / 32) + i % 32 = i by omega] at value
    exact value.trans (getLsbD_bitStringWord_of_lt inside)

/-- Settles O60: each pseudo-operation is the writes of consecutive words, which stand in their window after it. -/
theorem hostProgramLoads : Obligations.HostProgramLoads := by
  refine ⟨fun s c code idle short => enc_loads idle c short,
    fun s e key value idle entry _ shortKey shortValue => dec_loads idle entry shortKey shortValue,
    fun s w bytes idle listed fits => ?_, fun s bits idle fits => wrbits_loads idle fits⟩
  have plain : w.isBits = false ∧ ∀ k, w.definedBits k = 0xFFFFFFFF#32 := by
    fin_cases listed <;> exact ⟨rfl, fun _ => rfl⟩
  exact wrbytes_loads idle plain.1 plain.2 fits

end Sys2Proof.Proofs.HostPrograms
end

/-! PROOF. The transmit commands and DECODE (41_modulator.md, 43_slicer_sync_decoder.md section 3): what each completes with, and
how it fails. -/
section

namespace Sys2Proof.Proofs.CommandResults

open Sys2Proof.Machine Sys2Proof.Safety Sys2Proof.Proofs.CommandFrame Sys2Proof.Proofs.CommandOutputs
  Sys2Proof.Proofs.Transmit Sys2Proof.Proofs.Demodulator Sys2Proof.Proofs.Slicer Sys2Proof.Proofs.Synchronizer

/-! ## The length of the carrier table -/

theorem rne_eq_zero_iff {a b : Nat} (pos : 0 < b) : rne a b = 0 ↔ 2 * a ≤ b := by
  constructor
  · intro zero
    have near := abs_two_mul_sub_rne_le (a : Int) (b := b) (by omega)
    rw [zero, abs_le] at near
    omega
  · intro small
    rw [rne, Int.ediv_eq_zero_of_lt (by omega) (by omega), Int.emod_eq_of_lt (by omega) (by omega)]
    split_ifs <;> omega

theorem rne_eq_one_or_two {a b : Nat} (above : a ≤ 2 * b) (below : b < 2 * a) : rne a b = 1 ∨ rne a b = 2 := by
  have near := abs_two_mul_sub_rne_le (a : Int) (b := b) (by omega)
  rw [abs_le] at near
  have least : 1 ≤ rne a b := by
    by_contra none
    have : (b : Int) * rne a b ≤ 0 := Int.mul_nonpos_of_nonneg_of_nonpos (by omega) (by omega)
    omega
  have most : rne a b ≤ 2 := by
    by_contra more
    have : (b : Int) * 3 ≤ b * rne a b := Int.mul_le_mul_of_nonneg_left (by omega) (by omega)
    omega
  omega

theorem rne_nonneg (a b : Nat) : 0 ≤ rne a b :=
  (Int.ediv_nonneg (Int.natCast_nonneg a) (Int.natCast_nonneg b)).trans (ediv_le_rne a b)

/-! ## GEN_CARRIER (R160) -/

/-- The bytes of the carrier table that GEN_CARRIER writes. -/
abbrev carrierBytes (s : State) : List Byte :=
  (List.range (rne s.regs.fs.toNat s.regs.fc.toNat).toNat).flatMap fun k =>
    clutBytes (carrierSample s.regs.fs.toNat s.regs.fc.toNat s.regs.amp.toNat k)

theorem toNat_fc_ne_zero {s : State} (carrier : s.regs.fc ≠ 0) : s.regs.fc.toNat ≠ 0 := fun zero =>
  carrier (BitVec.eq_of_toNat_eq zero)

/-- What GEN_CARRIER does with a carrier frequency. -/
theorem stageGenCarrier_of_carrier {s : State} (carrier : s.regs.fc ≠ 0) :
    stageGenCarrier s =
      if (rne s.regs.fs.toNat s.regs.fc.toNat).toNat = 0 then .fail s .carrier 2
      else if (rne s.regs.fs.toNat s.regs.fc.toNat).toNat > s.params.clutDepth then .fail s .carrier 3
      else
        .done ((s.writeBytes .clut (carrierBytes s)).withRegs
          { s.regs with clutLen := natWord (rne s.regs.fs.toNat s.regs.fc.toNat).toNat }) noFlags := by
  have present : ¬ zext s.regs.fc = 0 := toNat_fc_ne_zero carrier
  rw [stageGenCarrier, if_neg present]
  rfl

theorem natWord_toNat_rne (a b : Nat) : natWord (rne a b).toNat = BitVec.ofInt 32 (rne a b) := by
  rw [natWord, ← BitVec.ofInt_natCast, Int.toNat_of_nonneg (rne_nonneg a b)]

theorem genCarrier_completes {s : State} (carrier : s.regs.fc ≠ 0) (some_entry : 1 ≤ rne s.regs.fs.toNat s.regs.fc.toNat)
    (fits : rne s.regs.fs.toNat s.regs.fc.toNat ≤ s.params.clutDepth) :
    ∃ t, exec .genCarrier s = .next t ∧
      After s t (okRegs { s.regs with clutLen := BitVec.ofInt 32 (rne s.regs.fs.toNat s.regs.fc.toNat) } noFlags)
        [(.clut, carrierBytes s)] [] [] := by
  have stage := stageGenCarrier_of_carrier carrier
  rw [if_neg (by omega), if_neg (by omega), natWord_toNat_rne] at stage
  exact ⟨_, exec_of_stage (i := .genCarrier) stage, after_completeOk_writeBytes _ _ _ _ _⟩

theorem genCarrier_of_empty {s : State} (carrier : s.regs.fc ≠ 0) (empty : rne s.regs.fs.toNat s.regs.fc.toNat = 0) :
    FailsWith .genCarrier s 3 2 := by
  have stage := stageGenCarrier_of_carrier carrier
  rw [if_pos (by omega)] at stage
  exact failsWith_of_stage (i := .genCarrier) stage

theorem genCarrier_of_large {s : State} (carrier : s.regs.fc ≠ 0)
    (large : s.params.clutDepth < rne s.regs.fs.toNat s.regs.fc.toNat) : FailsWith .genCarrier s 3 3 := by
  have stage := stageGenCarrier_of_carrier carrier
  rw [if_neg (by omega), if_pos (by omega)] at stage
  exact failsWith_of_stage (i := .genCarrier) stage

/-- Settles O22, from the checks of GEN_CARRIER in their order. -/
theorem genCarrierBuildsTable : Obligations.GenCarrierBuildsTable :=
  ⟨fun _ carrier some_entry fits => genCarrier_completes carrier some_entry fits,
    fun _ none => failsWith_of_stage (i := .genCarrier) (ResetCommands.stageGenCarrier_of_no_carrier none),
    fun _ carrier empty => genCarrier_of_empty carrier empty, fun _ carrier large => genCarrier_of_large carrier large⟩

theorem genCarrier_of_near_carrier {s : State} (above : s.regs.fs.toNat ≤ 2 * s.regs.fc.toNat)
    (below : s.regs.fc.toNat < 2 * s.regs.fs.toNat)
    (fits : rne s.regs.fs.toNat s.regs.fc.toNat ≤ s.params.clutDepth) :
    ∃ t, exec .genCarrier s = .next t ∧ (t.regs.clutLen = 1 ∨ t.regs.clutLen = 2) ∧ t.regs.errCode = 0 := by
  have length := rne_eq_one_or_two above below
  have carrier : s.regs.fc ≠ 0 := fun zero => by
    rw [zero] at above below
    simp at above below
    omega
  obtain ⟨t, run, after⟩ := genCarrier_completes carrier (by omega) fits
  refine ⟨t, run, ?_⟩
  rw [after.regs, okRegs]
  rcases length with one | two
  · exact ⟨.inl (by dsimp only; rw [one]; rfl), rfl⟩
  · exact ⟨.inr (by dsimp only; rw [two]; rfl), rfl⟩

/-- Settles O23: the nearest integer to FS / FC is 0 up to a half, and 1 or 2 between a half and two. -/
theorem carrierTableLength : Obligations.CarrierTableLength :=
  ⟨fun _ _ pos => rne_eq_zero_iff pos, fun _ _ above below => rne_eq_one_or_two above below,
    fun _ above below fits => genCarrier_of_near_carrier above below fits,
    fun _ carrier small => genCarrier_of_empty carrier
      ((rne_eq_zero_iff (Nat.pos_of_ne_zero (toNat_fc_ne_zero carrier))).mpr small),
    rfl, rfl, rfl, rfl⟩

/-- Settles O25, from the induction on the doublings. -/
theorem enclosedComparisonSound : Obligations.EnclosedComparisonSound :=
  fun _ _ _ _ _ _ _ pos lt above below ne answer => CarrierSamples.cosBelowEnclosed_sound pos lt above below ne answer

/-! ## ENCODE (R166) -/

/-- Settles O26, from the stage of ENCODE with a legal table. -/
theorem encodeSubstitutes : Obligations.EncodeSubstitutes := by
  intro s msg legal count short holds room
  have stage := stageEncode_of_legal legal count short holds room
  exact ⟨_, exec_of_stage (i := .encode) stage, after_completeOk_writeBytes _ _ _ _ _⟩

theorem badEncEntry_of_first {s : State} {c : Nat} (lt : c < 256) (present : (encEntry s c).present = true)
    (long : 32 < (encEntry s c).clen)
    (before : ∀ d, d < c → (encEntry s d).present = true → (encEntry s d).clen ≤ 32) : badEncEntry s = some c := by
  rw [badEncEntry, List.find?_range_eq_some]
  refine ⟨by simp [present, Config.MAX_KEY_BITS, long], List.mem_range.mpr lt, fun d lower => ?_⟩
  cases valid : (encEntry s d).present with
  | false => rfl
  | true =>
    rw [Bool.true_and, Bool.not_eq_true', decide_eq_false_iff_not, not_lt]
    exact before d lower valid

theorem dictInfo_enc {c : Nat} (lt : c < 256) : dictInfo dictTableEnc c 1 = BitVec.ofNat 32 (0x01000000 + c) := by
  rw [dictInfo, dictTableEnc, natWord]
  congr 1
  omega

theorem stageEncode_of_bad {s : State} {c : Nat} (short : s.regs.msgLen.toNat ≤ s.params.msgDepth)
    (bad : badEncEntry s = some c) : stageEncode s = .fail s .dict (dictInfo dictTableEnc c 1) := by
  have fits : ¬ s.params.msgDepth < zext s.regs.msgLen := not_lt.mpr short
  rw [stageEncode, if_neg fits, bad]

theorem stageEncode_of_overflow {s : State} {msg : List Byte} (legal : EncTableLegal s)
    (count : msg.length = s.regs.msgLen.toNat) (short : msg.length ≤ s.params.msgDepth) (holds : HoldsBytes s .msg msg)
    (large : s.params.pktDepth < (packetOf s msg).length) : stageEncode s = .fail s .overflow (overflowInfo .pkt) := by
  have fits : ¬ s.params.msgDepth < zext s.regs.msgLen := not_lt.mpr (count.symm.trans_le short)
  have read : readBytes s .msg 0 (zext s.regs.msgLen) = .ok msg := readBytes_of_holds count holds
  rw [stageEncode, if_neg fits, badEncEntry_eq_none legal]
  dsimp only
  rw [read, withRead_ok, sum_substituteLen, if_pos large]

/-- Settles O27: the table is checked before the message is read, and the packet's length before it is written. -/
theorem encodeErrors : Obligations.EncodeErrors := by
  refine ⟨fun s c short lt present long before => ?_, fun s msg legal count short holds large => ?_⟩
  · have stage := stageEncode_of_bad short (badEncEntry_of_first lt present long before)
    rw [dictInfo_enc lt] at stage
    exact failsWith_of_stage (i := .encode) stage
  · exact failsWith_of_stage (i := .encode) (stageEncode_of_overflow legal count short holds large)

/-! ## GENERATE (R167) -/

/-- Settles O28, from the stage of GENERATE with its checks passed. -/
theorem generateWaveform : Obligations.GenerateWaveform :=
  fun _ _ _ count short holds ready => exec_generate_of_ready count short holds ready

/-- GENERATE once the packet is read (R167, checks 2 and 3). -/
theorem stageGenerate_of_read {s : State} {pkt : List Byte} (count : pkt.length = s.regs.pktLen.toNat)
    (short : pkt.length ≤ s.params.pktDepth) (holds : HoldsBytes s .pkt pkt)
    (fits : s.regs.clutLen.toNat ≤ s.params.clutDepth) :
    stageGenerate s =
      if 0x31#8 ∈ pkt ∧ s.regs.clutLen.toNat = 0 then .fail s .tile 1
      else if 0x31#8 ∈ pkt ∧ s.regs.txSymLen.toNat % s.regs.clutLen.toNat ≠ 0 then .fail s .tile 2
      else if s.params.txbDepth < 2 * packetSamples s.regs.txSymLen.toNat s.regs.pauseLen.toNat pkt then
        .fail s .overflow (overflowInfo .txb)
      else
        withRead (carrierFor s pkt s.regs.clutLen.toNat s.regs.txSymLen.toNat) fun table =>
          generateWrites s pkt table s.regs.clutLen.toNat s.regs.txSymLen.toNat s.regs.pauseLen.toNat := by
  have long : ¬ s.params.pktDepth < zext s.regs.pktLen := not_lt.mpr (count.symm.trans_le short)
  have wide : ¬ s.params.clutDepth < zext s.regs.clutLen := not_lt.mpr fits
  have read : readBytes s .pkt 0 (zext s.regs.pktLen) = .ok pkt := readBytes_of_holds count holds
  unfold stageGenerate
  dsimp only
  rw [if_neg long, if_neg wide, read, withRead_ok]
  simp only [hasMark_and_iff, sum_segLen]
  rfl

/-- Settles O29, from the checks of GENERATE in their order. -/
theorem generateErrors : Obligations.GenerateErrors := by
  intro s pkt count short holds fits
  have stage := stageGenerate_of_read count short holds fits
  refine ⟨fun mark noTable => ?_, fun mark table ragged => ?_, fun tiles large => ?_⟩
  · rw [if_pos ⟨mark, by rw [noTable]; rfl⟩] at stage
    exact failsWith_of_stage (i := .generate) stage
  · rw [if_neg fun both => table (BitVec.eq_of_toNat_eq both.2), if_pos ⟨mark, ragged⟩] at stage
    exact failsWith_of_stage (i := .generate) stage
  · rw [if_neg fun both => (tiles both.1).1 (BitVec.eq_of_toNat_eq both.2), if_neg fun both => both.2 (tiles both.1).2,
      if_pos large] at stage
    exact failsWith_of_stage (i := .generate) stage

/-! ## DECODE (R260) -/

/-- Settles O46, from the stage of DECODE with tokens that fit. -/
theorem decodeWritesTokens : Obligations.DecodeWritesTokens :=
  fun _ _ count short start legal holds fit => decode_of_fit count short start legal holds fit

end Sys2Proof.Proofs.CommandResults
end

/-! PROOF. RX_CHAIN (43_slicer_sync_decoder.md R270): the state after each stage in terms of the received bytes, what the chain has
stored by then, and where it stops. -/
section

namespace Sys2Proof.Proofs.ReceiveChain

open Sys2Proof.Machine Sys2Proof.Safety Sys2Proof.Proofs.CommandFrame Sys2Proof.Proofs.CommandOutputs
  Sys2Proof.Proofs.Transmit Sys2Proof.Proofs.Demodulator Sys2Proof.Proofs.Slicer Sys2Proof.Proofs.GreedyDecoder
  Sys2Proof.Proofs.Synchronizer Sys2Proof.Proofs.CanonicalMemory Sys2Proof.Proofs.Reissue

/-! ## What stages have stored -/

theorem storedOr_append (xs ys : List (Window × List Byte)) (a : Nat) (old : Option Byte) :
    storedOr (xs ++ ys) a old = storedOr xs a (storedOr ys a old) := by
  induction xs with
  | nil => rfl
  | cons x xs ih => rw [List.cons_append, storedOr, storedOr, ih]

/-- Outside the memories of `stores` only the old value counts. -/
theorem storedOr_of_outside {stores : List (Window × List Byte)} {a : Nat}
    (outside : ∀ x ∈ stores, ¬ (x.1.base ≤ a ∧ a < x.1.base + x.2.length)) (old : Option Byte) : storedOr stores a old = old := by
  induction stores with
  | nil => rfl
  | cons x xs ih =>
    obtain ⟨first, rest⟩ := List.forall_mem_cons.mp outside
    rw [storedOr, if_neg first, ih rest]

/-- `u` is `s` after stages that stored `bytes` in the byte memories, `sym` in SYM and `bits` in BITS, each store inside its
memory; the registers are free. -/
structure Outputs (s u : State) (bytes : List (Window × List Byte)) (sym bits : List Bool) : Prop where
  fits : ∀ x ∈ bytes, x.2.length ≤ x.1.size s.params
  byteAt : ∀ a, u.byteAt a = storedOr bytes a (s.byteAt a)
  symAt : ∀ i, u.symAt i = if i < sym.length then sym[i]? else s.symAt i
  bitsAt : ∀ i, u.bitsAt i = if i < bits.length then bits[i]? else s.bitsAt i
  inbox : u.inbox = s.inbox
  responses : u.responses = s.responses
  served : u.served = s.served
  params : u.params = s.params

theorem Outputs.refl (s : State) : Outputs s s [] [] [] :=
  ⟨nofun, fun _ => rfl, fun _ => rfl, fun _ => rfl, rfl, rfl, rfl, rfl⟩

section Stores

variable {s u : State} {bytes : List (Window × List Byte)} {sym bits : List Bool}

theorem Outputs.withRegs (h : Outputs s u bytes sym bits) (x : Regs) : Outputs s (u.withRegs x) bytes sym bits :=
  ⟨h.fits, h.byteAt, h.symAt, h.bitsAt, h.inbox, h.responses, h.served, h.params⟩

theorem Outputs.writeBytes (h : Outputs s u bytes sym bits) {w : Window} {bs : List Byte} (other : ∀ x ∈ bytes, w ≠ x.1)
    (room : bs.length ≤ w.size s.params) : Outputs s (u.writeBytes w bs) (bytes ++ [(w, bs)]) sym bits where
  fits x mem := by
    rcases List.mem_append.mp mem with old | new
    · exact h.fits x old
    · rw [List.mem_singleton.mp new]
      exact room
  byteAt a := by
    rw [byteAt_writeBytes, storedOr_append, storedOr, storedOr]
    split_ifs with inside
    · refine (storedOr_of_outside (fun x mem before => ?_) _).symm
      have apart := roomsApart (other x mem)
      have fitsRoom := (h.fits x mem).trans (size_le_room s.params x.1)
      have ownRoom := room.trans (size_le_room s.params w)
      unfold RoomsApart at apart
      omega
    · exact h.byteAt a
  symAt := h.symAt
  bitsAt := h.bitsAt
  inbox := h.inbox
  responses := h.responses
  served := h.served
  params := h.params

theorem Outputs.writeSym (h : Outputs s u bytes [] bits) (xs : List Bool) : Outputs s (u.writeSym xs) bytes xs bits where
  fits := h.fits
  byteAt := h.byteAt
  symAt i := by
    rw [symAt_writeSym, h.symAt]
    rfl
  bitsAt := h.bitsAt
  inbox := h.inbox
  responses := h.responses
  served := h.served
  params := h.params

theorem Outputs.writeBitString (h : Outputs s u bytes sym []) (xs : List Bool) :
    Outputs s (u.writeBitString xs) bytes sym xs where
  fits := h.fits
  byteAt := h.byteAt
  symAt := h.symAt
  bitsAt i := by
    rw [bitsAt_writeBitString, h.bitsAt]
    rfl
  inbox := h.inbox
  responses := h.responses
  served := h.served
  params := h.params

theorem Outputs.after_completeOk (h : Outputs s u bytes sym bits) (f : StatusFlags) :
    After s (u.completeOk f) (okRegs u.regs f) bytes sym bits :=
  ⟨rfl, rfl, h.byteAt, h.symAt, h.bitsAt, h.inbox, h.responses, h.served, h.params⟩

theorem Outputs.after_completeErr (h : Outputs s u bytes sym bits) (c : ErrCode) (info : Word) :
    After s (u.completeErr c info) (errRegs u.regs c.value info) bytes sym bits :=
  ⟨rfl, rfl, h.byteAt, h.symAt, h.bitsAt, h.inbox, h.responses, h.served, h.params⟩

/-- A window that no stage stored in reads as before. -/
theorem Outputs.windowByte (h : Outputs s u bytes sym bits) {w : Window} (other : ∀ x ∈ bytes, w ≠ x.1) {k : Nat}
    (inside : k < w.size s.params) : u.windowByte w k = s.windowByte w k := by
  refine (h.byteAt _).trans (storedOr_of_outside (fun x mem before => ?_) _)
  have apart := roomsApart (other x mem)
  have fitsRoom := (h.fits x mem).trans (size_le_room s.params x.1)
  have insideRoom := inside.trans_le (size_le_room s.params w)
  unfold RoomsApart at apart
  omega

end Stores

/-! ## The states between the stages -/

/-- RXB holds an even number of received bytes, at least one sample. -/
structure Received (s : State) (bytes : List Byte) : Prop where
  count : bytes.length = s.regs.rxLen.toNat
  even : bytes.length % 2 = 0
  long : 2 ≤ bytes.length
  short : bytes.length ≤ s.params.rxbDepth
  holds : HoldsBytes s .rxb bytes

/-- The state of PREPROCESS's outputs. -/
abbrev preprocessed (s : State) (bytes : List Byte) : State :=
  (s.writeBytes .sig (signalBytes (signalOf bytes))).withRegs
    { s.regs with
      sigLen := BitVec.ofNat 32 (bytes.length / 2)
      meanI := BitVec.ofInt 32 (meanOf (railI bytes))
      meanQ := BitVec.ofInt 32 (meanOf (railQ bytes)) }

/-- The envelope of the received signal. -/
abbrev receivedEnvelope (s : State) (bytes : List Byte) : List Int := envelope s.regs (signalOf bytes)

/-- The binarized envelope (42_demodulator.md R217). -/
abbrev receivedSymbols (s : State) (bytes : List Byte) (lo hi : Int) : List Bool :=
  (receivedEnvelope s bytes).map fun w => decide (hi - lo < 2 * |w|)

/-- The registers after PREPROCESS and DETECT, `n` being SYM_LEN. -/
abbrev receivedRegs (s : State) (bytes : List Byte) (lo hi : Int) (n : Word) : Regs :=
  { detectRegs s.regs lo hi with
    sigLen := BitVec.ofNat 32 (bytes.length / 2)
    meanI := BitVec.ofInt 32 (meanOf (railI bytes))
    meanQ := BitVec.ofInt 32 (meanOf (railQ bytes))
    symLen := n }

/-- The state of PREPROCESS's and DETECT's outputs where the signal is insufficient. -/
@[irreducible] def silent (s : State) (bytes : List Byte) (lo hi : Int) : State :=
  (envelopeStored (preprocessed s bytes) (receivedEnvelope s bytes)).withRegs (receivedRegs s bytes lo hi 0)

/-- The state of their outputs where it is sufficient. -/
@[irreducible] def detected (s : State) (bytes : List Byte) (lo hi : Int) : State :=
  ((envelopeStored (preprocessed s bytes) (receivedEnvelope s bytes)).writeSym (receivedSymbols s bytes lo hi)).withRegs
    (receivedRegs s bytes lo hi (BitVec.ofNat 32 (bytes.length / 2)))

/-- The recovered bits. -/
abbrev receivedBits (s : State) (bytes : List Byte) (lo hi : Int) : List Bool :=
  recoverBits s.regs.rxSymLen.toNat (receivedSymbols s bytes lo hi)

/-- The registers after PREPROCESS, DETECT and SLICE. -/
abbrev recoveredRegs (s : State) (bytes : List Byte) (lo hi : Int) : Regs :=
  { receivedRegs s bytes lo hi (BitVec.ofNat 32 (bytes.length / 2)) with
    bitsLen := BitVec.ofNat 32 (receivedBits s bytes lo hi).length }

/-- The state of the outputs of PREPROCESS, DETECT and SLICE. -/
@[irreducible] def recovered (s : State) (bytes : List Byte) (lo hi : Int) : State :=
  ((detected s bytes lo hi).writeBitString (receivedBits s bytes lo hi)).withRegs (recoveredRegs s bytes lo hi)

theorem regs_silent (s : State) (bytes : List Byte) (lo hi : Int) :
    (silent s bytes lo hi).regs = receivedRegs s bytes lo hi 0 := by
  rw [silent, withRegs_regs]

theorem regs_detected (s : State) (bytes : List Byte) (lo hi : Int) :
    (detected s bytes lo hi).regs = receivedRegs s bytes lo hi (BitVec.ofNat 32 (bytes.length / 2)) := by
  rw [detected, withRegs_regs]

theorem rxSymLen_detected (s : State) (bytes : List Byte) (lo hi : Int) :
    (detected s bytes lo hi).regs.rxSymLen = s.regs.rxSymLen := by
  rw [regs_detected]
  rfl

theorem regs_recovered (s : State) (bytes : List Byte) (lo hi : Int) :
    (recovered s bytes lo hi).regs = recoveredRegs s bytes lo hi := by
  rw [recovered, withRegs_regs]

theorem holdsSym_detected (s : State) (bytes : List Byte) (lo hi : Int) :
    HoldsSym (detected s bytes lo hi) (receivedSymbols s bytes lo hi) := by
  rw [detected]
  exact holdsSym_writeSym _ _

theorem holdsBits_recovered (s : State) (bytes : List Byte) (lo hi : Int) :
    HoldsBits (recovered s bytes lo hi) (receivedBits s bytes lo hi) := by
  rw [recovered]
  exact holdsBits_writeBitString _ _

/-- What PREPROCESS and DETECT store in the byte memories. -/
abbrev detectStores (s : State) (bytes : List Byte) : List (Window × List Byte) :=
  [(.sig, signalBytes (signalOf bytes)), (.env, bytesOfWords ((receivedEnvelope s bytes).map (BitVec.ofInt 32)))]

theorem length_signalOf (bytes : List Byte) : (signalOf bytes).length = bytes.length / 2 := by
  rw [signalOf_eq_map_pairUp, List.length_map, length_pairUp]

theorem length_receivedSymbols (s : State) (bytes : List Byte) (lo hi : Int) :
    (receivedSymbols s bytes lo hi).length = bytes.length / 2 := by
  rw [List.length_map, length_envelope, length_signalOf]

theorem wordValued_signalOf {bytes : List Byte} (long : 2 ≤ bytes.length) : WordValued (signalOf bytes) := by
  obtain ⟨-, range, -⟩ := preprocessRanges bytes long
  intro z mem
  have := range z mem
  omega

section Chain

variable {s : State} {bytes : List Byte} {lo hi : Int}

theorem Received.samples_fit (h : Received s bytes) : bytes.length / 2 ≤ s.params.sigDepth :=
  Nat.div_le_div_right h.short

theorem Received.toNat_samples (h : Received s bytes) : (BitVec.ofNat 32 (bytes.length / 2)).toNat = bytes.length / 2 :=
  natWord_toNat (by
    have := h.short
    have := s.params.rxb_legal
    omega)

theorem outputs_preprocessed (h : Received s bytes) :
    Outputs s (preprocessed s bytes) [(.sig, signalBytes (signalOf bytes))] [] [] :=
  ((Outputs.refl s).writeBytes nofun (by
    have := h.samples_fit
    rw [length_signalBytes, length_signalOf, Window.size]
    omega)).withRegs _

theorem outputs_envelopeStored (h : Received s bytes) :
    Outputs s (envelopeStored (preprocessed s bytes) (receivedEnvelope s bytes)) (detectStores s bytes) [] [] :=
  (outputs_preprocessed h).writeBytes (by simp) (by
    have := h.samples_fit
    rw [length_bytesOfWords, List.length_map, length_envelope, length_signalOf, Window.size]
    omega)

theorem outputs_silent (h : Received s bytes) : Outputs s (silent s bytes lo hi) (detectStores s bytes) [] [] := by
  rw [silent]
  exact (outputs_envelopeStored h).withRegs _

theorem outputs_detected (h : Received s bytes) :
    Outputs s (detected s bytes lo hi) (detectStores s bytes) (receivedSymbols s bytes lo hi) [] := by
  rw [detected]
  exact ((outputs_envelopeStored h).writeSym _).withRegs _

theorem outputs_recovered (h : Received s bytes) :
    Outputs s (recovered s bytes lo hi) (detectStores s bytes) (receivedSymbols s bytes lo hi)
      (receivedBits s bytes lo hi) := by
  rw [recovered]
  exact ((outputs_detected h).writeBitString _).withRegs _

theorem params_detected (h : Received s bytes) : (detected s bytes lo hi).params = s.params :=
  (outputs_detected (lo := lo) (hi := hi) h).params

theorem params_recovered (h : Received s bytes) : (recovered s bytes lo hi).params = s.params :=
  (outputs_recovered (lo := lo) (hi := hi) h).params

/-! ## The stages on those states -/

theorem stagePreprocess_received (h : Received s bytes) : stagePreprocess s = .done (preprocessed s bytes) noFlags := by
  have nonempty : bytes ≠ [] := by
    rintro rfl
    exact absurd h.long (by decide)
  exact stagePreprocess_of_holds h.count h.short h.even nonempty h.holds

theorem stageDetect_preprocessed (h : Received s bytes) (order : Percentiles (receivedEnvelope s bytes) lo hi) :
    stageDetect (preprocessed s bytes) =
      if hi - lo < s.regs.threshMin.toNat then .done (silent s bytes lo hi) flagInsuf
      else .done (detected s bytes lo hi) noFlags := by
  have long := h.long
  have count : (signalOf bytes).length = (preprocessed s bytes).regs.sigLen.toNat :=
    (length_signalOf bytes).trans h.toNat_samples.symm
  have holds : HoldsBytes (preprocessed s bytes) .sig (signalBytes (signalOf bytes)) := holdsBytes_writeBytes s .sig _
  have stage := stageDetect_of_holds count (by rw [length_signalOf]; omega)
    (by rw [length_signalOf]; exact h.samples_fit) (wordValued_signalOf h.long) holds order
  rw [length_signalOf] at stage
  rw [silent, detected]
  exact stage

theorem stageRxChain_of_insufficient (h : Received s bytes) (order : Percentiles (receivedEnvelope s bytes) lo hi)
    (below : hi - lo < s.regs.threshMin.toNat) : stageRxChain s = .done (silent s bytes lo hi) flagInsuf := by
  rw [stageRxChain_eq, stagePreprocess_received h, StageResult.thenStage, chainFromDetect,
    stageDetect_preprocessed h order, if_pos below]
  rfl

theorem stageRxChain_of_sufficient (h : Received s bytes) (order : Percentiles (receivedEnvelope s bytes) lo hi)
    (reached : s.regs.threshMin.toNat ≤ hi - lo) : stageRxChain s = chainFromSlice noFlags (detected s bytes lo hi) := by
  rw [stageRxChain_eq, stagePreprocess_received h, StageResult.thenStage, chainFromDetect,
    stageDetect_preprocessed h order, if_neg (not_lt.mpr reached)]
  rfl

theorem symLen_detected (h : Received s bytes) :
    (receivedSymbols s bytes lo hi).length = (detected s bytes lo hi).regs.symLen.toNat := by
  rw [regs_detected, length_receivedSymbols]
  exact h.toNat_samples.symm

theorem symbols_fit (h : Received s bytes) : (receivedSymbols s bytes lo hi).length ≤ s.params.sigDepth :=
  (length_receivedSymbols s bytes lo hi).trans_le h.samples_fit

theorem stageRxChain_of_zero (h : Received s bytes) (order : Percentiles (receivedEnvelope s bytes) lo hi)
    (reached : s.regs.threshMin.toNat ≤ hi - lo) (zero : s.regs.rxSymLen = 0) :
    stageRxChain s = .fail (detected s bytes lo hi) .param (paramInfo .rxSymLen) := by
  have fits : zext (detected s bytes lo hi).regs.symLen ≤ (detected s bytes lo hi).params.sigDepth := by
    rw [zext, ← symLen_detected h, params_detected h]
    exact symbols_fit h
  have zeroAfter : (detected s bytes lo hi).regs.rxSymLen = 0 := (rxSymLen_detected s bytes lo hi).trans zero
  rw [stageRxChain_of_sufficient h order reached, chainFromSlice, stageSlice_of_zero fits zeroAfter, StageResult.thenStage]

theorem stageRxChain_of_recovered (h : Received s bytes) (order : Percentiles (receivedEnvelope s bytes) lo hi)
    (reached : s.regs.threshMin.toNat ≤ hi - lo) (nonzero : s.regs.rxSymLen ≠ 0) :
    stageRxChain s = chainFromSync noFlags (recovered s bytes lo hi) := by
  have symbolDuration := rxSymLen_detected s bytes lo hi
  have stage := stageSlice_of_holds (symLen_detected h) (by rw [params_detected h]; exact symbols_fit h)
    (by rwa [symbolDuration]) (holdsSym_detected s bytes lo hi)
  rw [sliced, symbolDuration, regs_detected] at stage
  rw [stageRxChain_of_sufficient h order reached, chainFromSlice, stage, StageResult.thenStage, recovered]
  rfl

/-! ## SYNC on the recovered bits -/

theorem bits_fit (h : Received s bytes) (nonzero : s.regs.rxSymLen ≠ 0) :
    (receivedBits s bytes lo hi).length ≤ s.params.bitsDepth :=
  (length_recoverBits_le (Nat.pos_of_ne_zero (zext_ne_zero nonzero)) _).trans (symbols_fit h)

theorem bitsLen_recovered (h : Received s bytes) (nonzero : s.regs.rxSymLen ≠ 0) :
    (receivedBits s bytes lo hi).length = (recovered s bytes lo hi).regs.bitsLen.toNat := by
  have fits := bits_fit (lo := lo) (hi := hi) h nonzero
  have depth := s.params.rxb_legal
  rw [regs_recovered]
  exact (natWord_toNat (by unfold Params.bitsDepth Params.sigDepth at fits; omega)).symm

theorem bitsLen_fits (h : Received s bytes) (nonzero : s.regs.rxSymLen ≠ 0) :
    (recovered s bytes lo hi).regs.bitsLen.toNat ≤ (recovered s bytes lo hi).params.bitsDepth := by
  rw [← bitsLen_recovered h nonzero, params_recovered h]
  exact bits_fit h nonzero

theorem agree_recovered (h : Received s bytes) : Agree [] [.dec] s (recovered s bytes lo hi) where
  params := params_recovered h
  regs := nofun
  elems w mem k inside := by
    rw [List.mem_singleton.mp mem] at inside ⊢
    exact (outputs_recovered (lo := lo) (hi := hi) h).windowByte (w := .dec) (by simp) inside

theorem decEntry_recovered (h : Received s bytes) {e : Nat} (lt : e < s.params.decEntries) :
    decEntry (recovered s bytes lo hi) e = decEntry s e :=
  decEntry_congr (agree_recovered h) (by decide) lt

theorem decTable_recovered (h : Received s bytes) : decTable (recovered s bytes lo hi) = decTable s :=
  decTable_congr (agree_recovered h) (by decide)

theorem syncLen_recovered (s : State) (bytes : List Byte) (lo hi : Int) :
    (recovered s bytes lo hi).regs.syncLen = s.regs.syncLen := by
  rw [regs_recovered]
  rfl

theorem syncPattern_recovered (s : State) (bytes : List Byte) (lo hi : Int) :
    syncPattern (recovered s bytes lo hi).regs = syncPattern s.regs := by
  rw [regs_recovered]
  exact syncPattern_congr rfl rfl rfl

theorem stageSync_recovered (h : Received s bytes) (nonzero : s.regs.rxSymLen ≠ 0) (pattern : s.regs.syncLen.toNat ≤ 64) :
    stageSync (recovered s bytes lo hi) =
      validated (recovered s bytes lo hi) (syncBits (recovered s bytes lo hi)) :=
  stageSync_eq_validated (bitsLen_fits h nonzero) (by rwa [syncLen_recovered])

theorem stageSync_recovered_of_legal (h : Received s bytes) (nonzero : s.regs.rxSymLen ≠ 0)
    (pattern : s.regs.syncLen.toNat ≤ 64) (legal : DecTableLegal s) :
    stageSync (recovered s bytes lo hi) = syncBits (recovered s bytes lo hi) (receivedBits s bytes lo hi) := by
  have legalAfter : DecTableLegal (recovered s bytes lo hi) := fun e lt => by
    rw [params_recovered h] at lt
    rw [decEntry_recovered h lt]
    exact legal e lt
  exact (stageSync_recovered h nonzero pattern).trans
    (validated_of_holds _ legalAfter (bitsLen_recovered h nonzero) (holdsBits_recovered s bytes lo hi))

/-- The tokens decoded from bit `j` of the recovered bits on. -/
abbrev receivedTokens (s : State) (bytes : List Byte) (lo hi : Int) (j : Nat) : List (List Byte) :=
  greedyTokens (decTable s) [] 0 ((receivedBits s bytes lo hi).drop j)

theorem stageSync_recovered_of_first (h : Received s bytes) (nonzero : s.regs.rxSymLen ≠ 0)
    (pattern : s.regs.syncLen.toNat ≤ 64) (legal : DecTableLegal s) {j : Nat}
    (first : FirstOccurrence (syncPattern s.regs) (receivedBits s bytes lo hi) j) :
    stageSync (recovered s bytes lo hi) =
      tokenWrites (recovered s bytes lo hi) (receivedTokens s bytes lo hi j)
        { recoveredRegs s bytes lo hi with syncIdx := BitVec.ofNat 32 j } flagSynced := by
  rw [stageSync_recovered_of_legal h nonzero pattern legal, syncBits_of_first (by rwa [syncPattern_recovered]),
    decTable_recovered h, regs_recovered]

theorem stageSync_recovered_of_nowhere (h : Received s bytes) (nonzero : s.regs.rxSymLen ≠ 0)
    (pattern : s.regs.syncLen.toNat ≤ 64) (legal : DecTableLegal s)
    (nowhere : ∀ j, (syncPattern s.regs).isPrefixOf ((receivedBits s bytes lo hi).drop j) = false) :
    stageSync (recovered s bytes lo hi) =
      .done ((recovered s bytes lo hi).withRegs
        { recoveredRegs s bytes lo hi with syncIdx := 0xFFFFFFFF#32, tokCount := 0, tokdLen := 0 }) flagPremiss := by
  rw [stageSync_recovered_of_legal h nonzero pattern legal, syncBits_of_nowhere (by rwa [syncPattern_recovered]),
    regs_recovered]

theorem outputs_tokensStored (h : Received s bytes) {tokens : List (List Byte)} (fit : TokensFit s.params tokens) (x : Regs) :
    Outputs s (tokensStored (recovered s bytes lo hi) tokens x) (detectStores s bytes ++ tokenStores tokens)
      (receivedSymbols s bytes lo hi) (receivedBits s bytes lo hi) := by
  obtain ⟨dataFit, endsFit⟩ := fit
  have data := (outputs_recovered (lo := lo) (hi := hi) h).writeBytes (w := .tokd) (by simp) dataFit
  have ends := data.writeBytes (w := .toke) (bs := bytesOfWords (endOffsets tokens)) (by simp) (by
    rw [length_bytesOfWords, endOffsets, List.length_map, List.length_range, Window.size]
    omega)
  exact ends.withRegs _

/-- Both ends of the chain where all four stages run. -/
theorem exec_rxChain_of_sync_done (h : Received s bytes) (order : Percentiles (receivedEnvelope s bytes) lo hi)
    (reached : s.regs.threshMin.toNat ≤ hi - lo) (nonzero : s.regs.rxSymLen ≠ 0) {u : State} {f : StatusFlags}
    (done : stageSync (recovered s bytes lo hi) = .done u f) :
    exec .rxChain s = .next (u.completeOk (noFlags.union f)) := by
  refine exec_of_stage (i := .rxChain) ((stageRxChain_of_recovered h order reached nonzero).trans ?_)
  rw [chainFromSync, done, StageResult.thenStage]

theorem exec_rxChain_of_sync_fail (h : Received s bytes) (order : Percentiles (receivedEnvelope s bytes) lo hi)
    (reached : s.regs.threshMin.toNat ≤ hi - lo) (nonzero : s.regs.rxSymLen ≠ 0) {c : ErrCode} {info : Word}
    (failed : stageSync (recovered s bytes lo hi) = .fail (recovered s bytes lo hi) c info) :
    RxChainFailsInSync s bytes lo hi (receivedSymbols s bytes lo hi) (receivedBits s bytes lo hi) c.value info := by
  have after := (outputs_recovered (lo := lo) (hi := hi) h).after_completeErr c info
  rw [regs_recovered] at after
  refine ⟨_, ?_, after⟩
  rw [exec_eq_finish_stageOf, stageOf, stageRxChain_of_recovered h order reached nonzero, chainFromSync, failed]
  rfl

end Chain

/-- Settles O50: all four stages complete, and SYNC finds the pattern or misses it. -/
theorem rxChainRunsAllStages : Obligations.RxChainRunsAllStages := by
  intro s bytes lo hi w sym bits count even long short holds envelope order reached symbols nonzero bitString pattern legal
  subst envelope symbols bitString
  have received : Received s bytes := ⟨count, even, long, short, holds⟩
  refine ⟨fun j first fit => ?_, fun nowhere => ?_⟩
  · have stage := stageSync_recovered_of_first received nonzero pattern legal first
    rw [tokenWrites_of_fit (by rwa [params_recovered received])] at stage
    exact ⟨_, exec_rxChain_of_sync_done received order reached nonzero stage,
      (outputs_tokensStored received fit _).after_completeOk _⟩
  · have stage := stageSync_recovered_of_nowhere received nonzero pattern legal nowhere
    exact ⟨_, exec_rxChain_of_sync_done received order reached nonzero stage,
      ((outputs_recovered received).withRegs _).after_completeOk _⟩

/-! ## Where the chain stops early -/

theorem failsWith_rxChain_of_preprocess {s : State} {code : BitVec 4} {info : Word} (error : code ≠ 0)
    (fails : FailsWith .preprocess s code info) : FailsWith .rxChain s code info := by
  obtain ⟨t, run, after⟩ := fails
  rw [exec_eq_finish_stageOf, finish_eq_next_iff] at run
  rcases run with ⟨u, f, -, rfl⟩ | ⟨u, c, info, stage, rfl⟩
  · exact absurd (congrArg Regs.errCode after.regs).symm error
  · refine ⟨_, ?_, after⟩
    rw [exec_eq_finish_stageOf, stageOf, stageRxChain_eq, show stagePreprocess s = .fail u c info from stage]
    rfl

theorem failsInSync_of_bad {s : State} {bytes : List Byte} {lo hi : Int} {e reason : Nat} (h : Received s bytes)
    (order : Percentiles (receivedEnvelope s bytes) lo hi) (reached : s.regs.threshMin.toNat ≤ hi - lo)
    (nonzero : s.regs.rxSymLen ≠ 0) (pattern : s.regs.syncLen.toNat ≤ 64) (lt : e < s.params.decEntries)
    (before : ∀ d, d < e → (decEntry s d).present = true → FieldsLegal (decEntry s d))
    (bad : decEntryError (decEntry s e) = some reason) :
    RxChainFailsInSync s bytes lo hi (receivedSymbols s bytes lo hi) (receivedBits s bytes lo hi) 7
      (BitVec.ofNat 32 (16777216 * reason + 65536 + e)) := by
  have entries := s.params.dec_legal
  have found : badDecEntryFrom 0 (decTable (recovered s bytes lo hi)) = some (e, reason) := by
    rw [decTable_recovered h]
    exact badDecEntry_of_first lt bad before
  have stage := (stageSync_recovered h nonzero pattern).trans (validated_of_bad _ found)
  rw [dictInfo_dec (by omega)] at stage
  exact exec_rxChain_of_sync_fail h order reached nonzero stage

/-- Settles O51: each clause is the chain up to the stage that ends it. -/
theorem rxChainStopsEarly : Obligations.RxChainStopsEarly := by
  refine ⟨fun s code info error fails => failsWith_rxChain_of_preprocess error fails, fun s empty => ?_,
    fun s bytes lo hi w count even long short holds envelope order => ?_⟩
  · exact ⟨_, exec_of_stage (i := .rxChain) (ResetCommands.stageRxChain_of_empty empty), after_completeOk_withRegs s _ _⟩
  subst envelope
  have received : Received s bytes := ⟨count, even, long, short, holds⟩
  refine ⟨fun below => ?_, fun reached zero => ?_, fun sym bits reached symbols nonzero bitString => ?_⟩
  · have after := (outputs_silent (lo := lo) (hi := hi) received).after_completeOk flagInsuf
    rw [regs_silent] at after
    exact ⟨_, exec_of_stage (i := .rxChain) (stageRxChain_of_insufficient received order below), after⟩
  · have after := (outputs_detected (lo := lo) (hi := hi) received).after_completeErr .param (paramInfo .rxSymLen)
    rw [regs_detected] at after
    refine ⟨_, ?_, after⟩
    rw [exec_eq_finish_stageOf, stageOf, stageRxChain_of_zero received order reached zero, finish]
  subst symbols bitString
  have inSync {c : ErrCode} {info : Word}
      (failed : stageSync (recovered s bytes lo hi) = .fail (recovered s bytes lo hi) c info) :=
    exec_rxChain_of_sync_fail received order reached nonzero failed
  refine ⟨fun tooLong => ?_, fun e pattern lt present before => ?_, fun j pattern legal first => ?_⟩
  · exact inSync (LengthChecks.stageSync_of_long (s := recovered s bytes lo hi) (bitsLen_fits received nonzero)
      (by rwa [syncLen_recovered]))
  · have entries := s.params.dec_legal
    have dict {reason : Nat} (bad : decEntryError (decEntry s e) = some reason) :=
      failsInSync_of_bad received order reached nonzero pattern lt before bad
    exact ⟨fun empty => dict (decEntryError_of_empty present empty), fun tooLong => dict (decEntryError_of_long present tooLong),
      fun nonempty short value => dict (decEntryError_of_value present nonempty short value)⟩
  · have stage := stageSync_recovered_of_first received nonzero pattern legal first
    exact ⟨fun large => inSync (stage.trans (tokenWrites_of_data_large (by rwa [params_recovered received]) _ _)),
      fun fits large => inSync (stage.trans (tokenWrites_of_ends_large (by rwa [params_recovered received])
        (by rwa [params_recovered received]) _ _))⟩

end Sys2Proof.Proofs.ReceiveChain
end
